-- ==== Sys2Proof/Word.lean ====
section
/-! DEFINITION. The word types of the block (00_scope.md R8): registers, addresses, sizes and offsets are 64 bits,
PE ids 16, endpoint ids 8, error codes 8 (60_exceptions.md R500), memory is addressed by bytes. -/

namespace Sys2Proof

/-- A register, an address, a size or an offset: 64 bits, unsigned (R8, R11). -/
abbrev Word := BitVec 64

/-- One byte of memory, of a header or of a packet. -/
abbrev Byte := BitVec 8

/-- An endpoint id (R8). -/
abbrev EpId := BitVec 8

/-- A PE id (R8). -/
abbrev PeId := BitVec 16

/-- An error code (R500): the codes are bits, because registers and responses carry them as bits. -/
abbrev ErrorCode := BitVec 8

/-- The operation id of a tag, 62 bits (30_encoding.md R134). -/
abbrev OpId := BitVec 62

end Sys2Proof
end

