-- ==== Sys2Proof/Syntax.lean ====
section
/-! DEFINITION. The block's instructions (the rows of the opcode table: eight command opcodes, 30_encoding.md R121, and
eight NoC packet types, R131), the message header (R126), and the events by which the agents of 00_scope.md R6 act. -/

namespace Sys2Proof

/-- The header fields of a NoC request besides its `TYPE` (30_encoding.md R130). -/
structure PacketHead where
  /-- `W0[3]`: 1 = write, 0 = read, for the two cache types. -/
  write : Bool
  /-- `W0[15:8]`: the destination endpoint of a MESSAGE. -/
  dstEp : EpId
  /-- `W0[31:16]`. -/
  dstPe : PeId
  /-- `W0[47:32]`. -/
  srcPe : PeId
  /-- `W1`. -/
  addr : Word
  /-- `W2`: bytes of payload carried or requested. -/
  size : Word
  /-- `W3`: the sender-state (R134). -/
  tag : Word
  deriving DecidableEq, Repr, Inhabited

/-- The instructions: one constructor per row of the opcode table. A command carries the `EPID` of its word (R120);
its other operands are the argument registers (R123). A packet carries its header and the bytes that follow it. -/
inductive Instr where
  /-- IDLE (R210). -/
  | idle (ep : EpId)
  /-- SEND (R241). -/
  | send (ep : EpId)
  /-- REPLY (R245). -/
  | reply (ep : EpId)
  /-- READ (R290). -/
  | read (ep : EpId)
  /-- WRITE (R292). -/
  | write (ep : EpId)
  /-- INC_READ_PTR (R212). -/
  | incReadPtr (ep : EpId)
  /-- WAKEUP_CORE (R214). -/
  | wakeupCore (ep : EpId)
  /-- Opcode 7 (R216). -/
  | reserved7 (ep : EpId)
  /-- MESSAGE (R250). -/
  | message (h : PacketHead) (payload : List Byte)
  /-- READ_REQ (R322). -/
  | readReq (h : PacketHead)
  /-- WRITE_REQ (R324). -/
  | writeReq (h : PacketHead) (payload : List Byte)
  /-- CACHE_MEM_REQ (R326). -/
  | cacheMemReq (h : PacketHead) (payload : List Byte)
  /-- CACHE_MEM_REQ_FUNC (R327). -/
  | cacheMemReqFunc (h : PacketHead) (payload : List Byte)
  /-- Packet type 5 (R328). -/
  | reservedPkt5 (h : PacketHead) (body : List Byte)
  /-- Packet type 6 (R328). -/
  | reservedPkt6 (h : PacketHead) (body : List Byte)
  /-- Packet type 7 (R328). -/
  | reservedPkt7 (h : PacketHead) (body : List Byte)
  deriving DecidableEq, Repr

/-- The two instruction formats: the word of the `COMMAND` register (R120) and a NoC request (R130). -/
inductive Format where
  | cmd
  | noc
  deriving DecidableEq, Repr

/-- The format an instruction is encoded in. -/
def Instr.format : Instr → Format
  | .idle _ => .cmd
  | .send _ => .cmd
  | .reply _ => .cmd
  | .read _ => .cmd
  | .write _ => .cmd
  | .incReadPtr _ => .cmd
  | .wakeupCore _ => .cmd
  | .reserved7 _ => .cmd
  | .message _ _ => .noc
  | .readReq _ => .noc
  | .writeReq _ _ => .noc
  | .cacheMemReq _ _ => .noc
  | .cacheMemReqFunc _ _ => .noc
  | .reservedPkt5 _ _ => .noc
  | .reservedPkt6 _ _ => .noc
  | .reservedPkt7 _ _ => .noc

/-- A message header (30_encoding.md R125, R126). Byte 3 and flag bits 7:3 are reserved, sent as 0 and ignored on
receipt (R128), so the header has no field for them. -/
structure MessageHeader where
  /-- Flag bit 0, `REPLY`. -/
  reply : Bool
  /-- Flag bit 1, `GRANT_CREDITS`. -/
  grantCredits : Bool
  /-- Flag bit 2, `REPLY_ENABLED`. -/
  replyEnabled : Bool
  senderEpId : EpId
  replyEpId : EpId
  /-- Bytes of payload, header excluded. -/
  length : BitVec 16
  senderCoreId : PeId
  label : Word
  replyLabel : Word
  deriving DecidableEq, Repr

/-- The kind of a cache-path request (43_memory_unit.md R330). -/
inductive CacheKind where
  | read
  | write
  | fetch
  deriving DecidableEq, Repr, Inhabited

/-- A request of the core cache (R330), as the cache hands it over. -/
structure CacheRequest where
  kind : CacheKind
  va : Word
  size : Word
  /-- The bytes of a WRITE; empty otherwise. -/
  data : List Byte
  functional : Bool
  deriving DecidableEq, Repr, Inhabited

/-- What a page translates to, in a TLB entry and in a walk's answer (10_state.md R65, 44_translation_unit.md R351). -/
structure PageEntry where
  ppn : Word
  r : Bool
  w : Bool
  x : Bool
  deriving DecidableEq, Repr, Inhabited

/-- Why a walk fails (44_translation_unit.md R352). -/
inductive WalkFault where
  | notPresent
  | permission
  deriving DecidableEq, Repr, Inhabited

/-- The page-table walker's answer (R352). -/
inductive WalkAnswer where
  | ok (e : PageEntry)
  | fault (f : WalkFault)
  deriving DecidableEq, Repr, Inhabited

/-- The agents that access the local memory of a PE (00_scope.md R6). -/
inductive Agent where
  | commandEngine
  | transferUnit
  | messageUnit
  | memoryUnit
  | ctxSwitchEngine
  | core
  | scheduler
  | accelerator
  deriving DecidableEq, Repr

/-- A step of an agent that accesses the local memory of one PE, as one of the accesses of a race (20_memory.md R86). -/
inductive Racer where
  /-- The Command Engine's pending step: of REPLY, the read of the original header (41_message_unit.md R245). -/
  | engine
  /-- Step A of a chunk: its local read (42_transfer_unit.md R284). -/
  | transfer
  /-- The Context-Switch Engine's step (45_ctxswitch.md R384). -/
  | ctxSwitch
  /-- The serving of this request, in flight (43_memory_unit.md R338). -/
  | request (packet : List Byte)
  /-- Step B of a chunk, on this response, in flight: its local write (42_transfer_unit.md R285). -/
  | response (dest : PeId) (bytes : List Byte)
  /-- A store of the core or another local client (10_state.md R74). -/
  | coreStore (addr : Word) (bytes : List Byte)
  /-- The scheduler's write of the flag word (45_ctxswitch.md R383). -/
  | schedulerWrite (value : Word)
  /-- The accelerator's store into its extra state (R381). -/
  | accelExtra (off : Nat) (bytes : List Byte)
  deriving DecidableEq, Repr

/-- One step of one agent (00_scope.md R6, R9), with the data the environment brings to it. A number `pe` names the PE
it belongs to. An event whose agent has no such step now is passed over. -/
inductive Event where
  /-- The Command Engine's pending step: execute (R203) or finish (R207). -/
  | engine (pe : Nat)
  /-- The Transfer Unit's step A of the current chunk (42_transfer_unit.md R284, R285). -/
  | transfer (pe : Nat)
  /-- The Context-Switch Engine's step (45_ctxswitch.md R384). -/
  | ctxSwitch (pe : Nat)
  /-- The transport delivers the request at this place of the requests in flight (43_memory_unit.md R338). -/
  | deliverRequest (k : Nat)
  /-- The transport delivers the response at this place of the responses in flight (R338). -/
  | deliverResponse (k : Nat)
  /-- A client writes `value` in an access of `width` bytes at an address of the register space (10_state.md R31). -/
  | clientWrite (pe : Nat) (addr : Word) (width : Nat) (value : Word) (priv : Bool)
  /-- A client reads in an access of `width` bytes at an address of the register space (10_state.md R31). -/
  | clientRead (pe : Nat) (addr : Word) (width : Nat)
  /-- The core or another local client stores bytes into the PE's local memory (10_state.md R74). -/
  | coreStore (pe : Nat) (addr : Word) (bytes : List Byte)
  /-- The core drives its `coreWaiting` input (10_state.md R52). -/
  | setCoreWaiting (pe : Nat) (waiting : Bool)
  /-- The external scheduler writes the flag word (45_ctxswitch.md R383). -/
  | schedulerWrite (pe : Nat) (value : Word)
  /-- The accelerator changes its context buffer from byte `off` on (45_ctxswitch.md R381, R384). -/
  | accelContext (pe : Nat) (off : Nat) (bytes : List Byte)
  /-- The accelerator changes its extra state from byte `off` on (R381, R384). -/
  | accelExtra (pe : Nat) (off : Nat) (bytes : List Byte)
  /-- The accelerator changes the value of `stateSize()` (R381). -/
  | accelStateSize (pe : Nat) (size : Word)
  /-- The core cache hands a request over (43_memory_unit.md R330, step 1). -/
  | cacheRequest (pe : Nat) (id : OpId) (req : CacheRequest)
  /-- The Memory Unit translates an accepted cache request (R330, step 2). -/
  | cacheTranslate (pe : Nat) (id : OpId)
  /-- The page-table walker answers the request with this id (44_translation_unit.md R352). -/
  | walkAnswer (pe : Nat) (id : Nat) (answer : WalkAnswer)
  /-- `access` begins at this PE, or goes on: of its stores, those at the addresses of `bytes` take effect now, ahead of its
  step (20_memory.md R86). Where `bytes` is empty it only begins. DESIGN CHOICE (log 10). -/
  | accessPart (pe : Nat) (access : Racer) (bytes : List Nat)
  /-- The step of `access` at this PE, as one that overlaps others in time (R86): at each address of `order` it finds the byte
  from before the step of another agent that came, since the access began, after as many others as `order` gives. DESIGN
  CHOICE (log 10). -/
  | race (pe : Nat) (access : Racer) (order : List (Nat × Nat))
  deriving DecidableEq, Repr, Inhabited

end Sys2Proof
end

