-- ==== Sys2Proof/WellFormed.lean ====
section
/-! DEFINITION. Which instructions are well formed: a packet that carries data carries exactly `SIZE` bytes
(30_encoding.md R130, R131). Every command word is well formed (R124: every word decodes). -/

namespace Sys2Proof

/-- How many bytes follow the header of a cache request: `SIZE` if `WRITE = 1`, else none (R131). -/
def PacketHead.cacheBytes (h : PacketHead) : Nat :=
  if h.write then h.size.toNat else 0

/-- Well-formedness of an instruction (R131's column "carries payload"). Of the bytes that follow the header of a
reserved type the spec says nothing: any are allowed. -/
def Instr.wellFormed : Instr → Bool
  | .idle _ => true
  | .send _ => true
  | .reply _ => true
  | .read _ => true
  | .write _ => true
  | .incReadPtr _ => true
  | .wakeupCore _ => true
  | .reserved7 _ => true
  | .message h payload => payload.length == h.size.toNat
  | .readReq _ => true
  | .writeReq h payload => payload.length == h.size.toNat
  | .cacheMemReq h payload => payload.length == h.cacheBytes
  | .cacheMemReqFunc h payload => payload.length == h.cacheBytes
  | .reservedPkt5 _ _ => true
  | .reservedPkt6 _ _ => true
  | .reservedPkt7 _ _ => true

end Sys2Proof
end

