-- ==== Sys2Proof/Decode.lean ====
section
/-! DEFINITION. The encodings of spec file 30_encoding.md: bit fields and byte order (R11, R80), the command word
(R120, R121, R124), the message header (R125 to R128), the NoC request (R130, R131), the response (R133), the tag
(R134), and the packet formatter (R135). The decoder is total on any bytes and rejects by name; the encoder follows it. -/

namespace Sys2Proof

/-! ### Bit fields (R11) -/

/-- `w[lo+len-1:lo]` as an unsigned number (R11). -/
def fieldAt (w : Word) (lo len : Nat) : BitVec len :=
  w.extractLsb' lo len

/-- `w` with the bits of one field replaced and every other bit kept (10_state.md R41). -/
def putField (w : Word) (lo : Nat) {len : Nat} (v : BitVec len) : Word :=
  (w &&& ~~~((BitVec.allOnes len).setWidth 64 <<< lo)) ||| (v.setWidth 64 <<< lo)

/-- `w[i]` (R11). -/
def bitAt (w : Word) (i : Nat) : Bool :=
  w.getLsbD i

/-- `w` with bit `i` replaced. -/
def putBit (w : Word) (i : Nat) (b : Bool) : Word :=
  putField w i (BitVec.ofBool b)

/-! ### Byte order (R80) -/

/-- `toLE_N(v)`: the `n` low bytes of `v`, least significant first (R11). -/
def toLE : Nat → Nat → List Byte
  | 0, _ => []
  | n + 1, v => BitVec.ofNat 8 v :: toLE n (v / 256)

/-- `LE_N(bytes)`: a byte string as a little-endian unsigned number (R11). -/
def ofLE : List Byte → Nat
  | [] => 0
  | b :: bs => b.toNat + 256 * ofLE bs

/-- The eight bytes of a word, in address order. -/
def wordBytes (w : Word) : List Byte :=
  toLE 8 w.toNat

/-- The word whose eight bytes stand from place `i` on. -/
def wordAt (bytes : List Byte) (i : Nat) : Word :=
  BitVec.ofNat 64 (ofLE ((bytes.drop i).take 8))

/-! ### The command word (R120, R121, R124) -/

/-- The word of `COMMAND`: `OPCODE` in bits 2:0, `EPID` in bits 10:3, `ERROR` in bits 23:16, every other bit 0
(R120). -/
def commandWord (opcode : BitVec 3) (ep : EpId) (error : ErrorCode) : Word :=
  putField (putField (putField 0 0 opcode) 3 ep) 16 error

/-- The opcode of a command word, `w[2:0]` (R124). -/
def opcodeOf (w : Word) : BitVec 3 :=
  fieldAt w 0 3

/-- The endpoint id of a command word, `w[10:3]` (R124). -/
def epIdOf (w : Word) : EpId :=
  fieldAt w 3 8

/-- The instruction of an opcode value (R121, R122). -/
def commandOf (opcode : BitVec 3) (ep : EpId) : Instr :=
  match opcode with
  | 0#3 => .idle ep
  | 1#3 => .send ep
  | 2#3 => .reply ep
  | 3#3 => .read ep
  | 4#3 => .write ep
  | 5#3 => .incReadPtr ep
  | 6#3 => .wakeupCore ep
  | _ => .reserved7 ep

/-- The decoder of command words, total on any 64-bit word; bits outside 10:0 are not looked at (R124). -/
def decodeCommand (w : Word) : Instr :=
  commandOf (opcodeOf w) (epIdOf w)

/-! ### The message header (R125 to R128) -/

/-- `HEADER_SIZE` (00_scope.md R7). -/
def headerSize : Nat := 24

/-- The `flags` byte of a header (R125): reserved bits sent as 0. -/
def headerFlags (h : MessageHeader) : Byte :=
  (if h.reply then 1#8 else 0#8) ||| (if h.grantCredits then 2#8 else 0#8) |||
    (if h.replyEnabled then 4#8 else 0#8)

/-- `encHdr` (R127). -/
def encHdr (h : MessageHeader) : List Byte :=
  [headerFlags h, h.senderEpId, h.replyEpId, 0#8] ++ toLE 2 h.length.toNat ++ toLE 2 h.senderCoreId.toNat ++
    wordBytes h.label ++ wordBytes h.replyLabel

/-- The byte at place `i` of a byte string. -/
def byteAt (bytes : List Byte) (i : Nat) : Byte :=
  bytes.getD i 0#8

/-- The 16-bit field whose two bytes stand from place `i` on. -/
def halfAt (bytes : List Byte) (i : Nat) : BitVec 16 :=
  BitVec.ofNat 16 (ofLE ((bytes.drop i).take 2))

/-- `decHdr`, for a byte string of at least 24 bytes: byte 3 and flag bits 7:3 are discarded (R128). -/
def decHdr (bytes : List Byte) : MessageHeader where
  reply := (byteAt bytes 0).getLsbD 0
  grantCredits := (byteAt bytes 0).getLsbD 1
  replyEnabled := (byteAt bytes 0).getLsbD 2
  senderEpId := byteAt bytes 1
  replyEpId := byteAt bytes 2
  length := halfAt bytes 4
  senderCoreId := halfAt bytes 6
  label := wordAt bytes 8
  replyLabel := wordAt bytes 16

/-! ### The NoC request (R130, R131) -/

/-- Why bytes are no instruction. -/
inductive DecodeError where
  /-- A command word is eight bytes (R120). -/
  | commandLength
  /-- A NoC request has a header of 32 bytes (R130). -/
  | shortHeader
  /-- The bytes after the header are not the `SIZE` bytes that the type carries (R131). -/
  | payloadLength
  deriving DecidableEq, Repr

/-- Word `W0` of a request of a type (R130): reserved bits sent as 0. -/
def packetWord0 (type : BitVec 3) (h : PacketHead) : Word :=
  putField (putField (putField (putBit (putField 0 0 type) 3 h.write) 8 h.dstEp) 16 h.dstPe) 32 h.srcPe

/-- The 32 header bytes of a request of a type (R130). -/
def packetHeadBytes (type : BitVec 3) (h : PacketHead) : List Byte :=
  wordBytes (packetWord0 type h) ++ wordBytes h.addr ++ wordBytes h.size ++ wordBytes h.tag

/-- The type of a request, `W0[2:0]` (R130). -/
def packetType (bytes : List Byte) : BitVec 3 :=
  fieldAt (wordAt bytes 0) 0 3

/-- The header fields of a request; reserved bits are ignored (R130). -/
def packetHead (bytes : List Byte) : PacketHead where
  write := bitAt (wordAt bytes 0) 3
  dstEp := fieldAt (wordAt bytes 0) 8 8
  dstPe := fieldAt (wordAt bytes 0) 16 16
  srcPe := fieldAt (wordAt bytes 0) 32 16
  addr := wordAt bytes 8
  size := wordAt bytes 16
  tag := wordAt bytes 24

/-- The instruction of a packet type, with the bytes that follow the header (R131). -/
def packetOf (type : BitVec 3) (h : PacketHead) (body : List Byte) : Instr :=
  match type with
  | 0#3 => .message h body
  | 1#3 => .readReq h
  | 2#3 => .writeReq h body
  | 3#3 => .cacheMemReq h body
  | 4#3 => .cacheMemReqFunc h body
  | 5#3 => .reservedPkt5 h body
  | 6#3 => .reservedPkt6 h body
  | _ => .reservedPkt7 h body

/-- How many bytes follow the header of a request of a type; of a reserved type the spec does not say (R131). DEDUCED,
safe (log 18). -/
def packetBodyLength (type : BitVec 3) (h : PacketHead) : Option Nat :=
  match type with
  | 0#3 => some h.size.toNat
  | 1#3 => some 0
  | 2#3 => some h.size.toNat
  | 3#3 => some h.cacheBytes
  | 4#3 => some h.cacheBytes
  | _ => none

/-- The decoder of NoC requests. -/
def decodePacket (bytes : List Byte) : Except DecodeError Instr :=
  if bytes.length < 32 then .error .shortHeader
  else
    match packetBodyLength (packetType bytes) (packetHead bytes) with
    | some n =>
      if (bytes.drop 32).length = n then .ok (packetOf (packetType bytes) (packetHead bytes) (bytes.drop 32))
      else .error .payloadLength
    | none => .ok (packetOf (packetType bytes) (packetHead bytes) (bytes.drop 32))

/-- The decoder: the bytes of an instruction of a format, in address order, to the instruction. -/
def decode (f : Format) (bytes : List Byte) : Except DecodeError Instr :=
  match f with
  | .cmd => if bytes.length = 8 then .ok (decodeCommand (wordAt bytes 0)) else .error .commandLength
  | .noc => decodePacket bytes

/-! ### The encoder -/

/-- The word a client writes for a command, `(epId << 3) | opcode` (R120). -/
def commandBytes (opcode : BitVec 3) (ep : EpId) : List Byte :=
  wordBytes (commandWord opcode ep 0#8)

/-- The encoder: the bytes of an instruction, in address order. -/
def encode : Instr → List Byte
  | .idle ep => commandBytes 0#3 ep
  | .send ep => commandBytes 1#3 ep
  | .reply ep => commandBytes 2#3 ep
  | .read ep => commandBytes 3#3 ep
  | .write ep => commandBytes 4#3 ep
  | .incReadPtr ep => commandBytes 5#3 ep
  | .wakeupCore ep => commandBytes 6#3 ep
  | .reserved7 ep => commandBytes 7#3 ep
  | .message h payload => packetHeadBytes 0#3 h ++ payload
  | .readReq h => packetHeadBytes 1#3 h
  | .writeReq h payload => packetHeadBytes 2#3 h ++ payload
  | .cacheMemReq h payload => packetHeadBytes 3#3 h ++ payload
  | .cacheMemReqFunc h payload => packetHeadBytes 4#3 h ++ payload
  | .reservedPkt5 h body => packetHeadBytes 5#3 h ++ body
  | .reservedPkt6 h body => packetHeadBytes 6#3 h ++ body
  | .reservedPkt7 h body => packetHeadBytes 7#3 h ++ body

/-! ### Tags and responses (R133, R134) -/

/-- A tag: `UNIT` in bits 63:62, `OP_ID` in bits 61:0 (R134). -/
def tagWord (unit : BitVec 2) (op : OpId) : Word :=
  putField (putField 0 0 op) 62 unit

/-- `UNIT` of a tag (R134). -/
def tagUnit (tag : Word) : BitVec 2 :=
  fieldAt tag 62 2

/-- `OP_ID` of a tag (R134). -/
def tagOp (tag : Word) : OpId :=
  fieldAt tag 0 62

/-- The bytes of a response: `R0` the status, `R1` the request's tag, then the data (R133). -/
def encodeResponse (status : ErrorCode) (tag : Word) (data : List Byte) : List Byte :=
  wordBytes (putField 0 0 status) ++ wordBytes tag ++ data

/-- `STATUS` of a response; reserved bits are ignored (R133). -/
def responseStatus (bytes : List Byte) : ErrorCode :=
  fieldAt (wordAt bytes 0) 0 8

/-- `TAG` of a response (R133). -/
def responseTag (bytes : List Byte) : Word :=
  wordAt bytes 8

/-- The data bytes of a response (R133). -/
def responseData (bytes : List Byte) : List Byte :=
  bytes.drop 16

/-! ### The packet formatter (R135) -/

/-- `pktMsg(dstPe, dstEp, hdr, payload, k)` of the PE `me` (R135). -/
def pktMsg (me dstPe : PeId) (dstEp : EpId) (hdr : MessageHeader) (payload : List Byte) (k : OpId) : List Byte :=
  encode (.message
    { write := false, dstEp := dstEp, dstPe := dstPe, srcPe := me, addr := 0,
      size := BitVec.ofNat 64 (headerSize + payload.length), tag := tagWord 0 k }
    (encHdr hdr ++ payload))

/-- `pktRead(dstPe, addr, n, k)` of the PE `me` (R135). -/
def pktRead (me dstPe : PeId) (addr : Word) (n : Nat) (k : OpId) : List Byte :=
  encode (.readReq
    { write := false, dstEp := 0, dstPe := dstPe, srcPe := me, addr := addr, size := BitVec.ofNat 64 n,
      tag := tagWord 0 k })

/-- `pktWrite(dstPe, addr, bytes, k)` of the PE `me` (R135). -/
def pktWrite (me dstPe : PeId) (addr : Word) (bytes : List Byte) (k : OpId) : List Byte :=
  encode (.writeReq
    { write := false, dstEp := 0, dstPe := dstPe, srcPe := me, addr := addr,
      size := BitVec.ofNat 64 bytes.length, tag := tagWord 0 k }
    bytes)

/-- `pktCache(func, wr, dstPe, addr, n, bytes, id)` of the PE `me` (R135). -/
def pktCache (me : PeId) (func wr : Bool) (dstPe : PeId) (addr size : Word) (bytes : List Byte) (id : OpId) :
    List Byte :=
  let head : PacketHead :=
    { write := wr, dstEp := 0, dstPe := dstPe, srcPe := me, addr := addr, size := size, tag := tagWord 1 id }
  let body := if wr then bytes else []
  if func then encode (.cacheMemReqFunc head body) else encode (.cacheMemReq head body)

/-! ### The opcode table's words -/

/-- The bytes of the instruction of `nbits` bits `w`, as the hardware stores them: up to 64 bits it is a command word,
the bits above `nbits` zero; beyond 64 bits it is a NoC request, the rest of its header and its payload zero. The two
formats give the same bits to `OPCODE` and `TYPE`, and a word alone does not say which it is. DEDUCED, safe (log 4). -/
def tableBytes (nbits w : Nat) : Format × List Byte :=
  let bits := w % 2 ^ nbits
  if nbits ≤ 64 then (.cmd, toLE 8 bits)
  else
    let head := toLE 32 bits
    let body := (packetBodyLength (packetType head) (packetHead head)).getD 0
    (.noc, toLE (32 + body) bits)

/-- The instruction the decoder reads from an instruction whose bits are `w`, numbered as the opcode table numbers
them. -/
def decodeTableWord (nbits w : Nat) : Option Instr :=
  match decode (tableBytes nbits w).1 (tableBytes nbits w).2 with
  | .ok i => some i
  | .error _ => none

end Sys2Proof
end

