-- ==== Sys2Proof/Config.lean ====
section
/-! DEFINITION. The parameters of 00_scope.md R7 as plain data (a state carries the parameters of its system, so that a
statement about every state is a statement about every configuration), the reference configuration REF of D53, and the
free values: choices the spec leaves open, which nothing in the model evaluates. -/

namespace Sys2Proof

/-- The parameters of one PE (R7), fixed for a run (70_reset_and_hazards.md R603). `NUM_EP` is the length of the PE's
endpoint list, `NUM_PE` the length of the system's PE list, `PE_ID` a PE's place in it. DESIGN CHOICE (log 1), DEDUCED
(log 22). -/
structure PeConfig where
  /-- `MEM_SIZE`. -/
  memSize : Nat
  /-- `MAX_NOC_PACKET_SIZE`. -/
  maxNocPacketSize : Nat
  /-- `BUF_CHUNK_SIZE`. -/
  bufChunkSize : Nat
  /-- `DTU_REG_BASE`. -/
  dtuRegBase : Word
  /-- `VM_ENABLED`. -/
  vmEnabled : Bool
  /-- `PAGE_SIZE`. -/
  pageSize : Nat
  /-- `TLB_ENTRIES`. -/
  tlbEntries : Nat
  /-- `TRANS_QUEUE_DEPTH`. -/
  transQueueDepth : Nat
  /-- `MEM_PE`. -/
  memPe : PeId
  /-- `MEM_OFFSET`. -/
  memOffset : Word
  /-- `WAKEUP_ON_COMPLETION`. -/
  wakeupOnCompletion : Bool
  /-- `RCTMUX_FLAGS`. -/
  rctmuxFlags : Word
  /-- `CTX_SIZE`. -/
  ctxSize : Word
  /-- `CHUNK_SIZE`. -/
  chunkSize : Nat
  /-- `MAX_DATA_SIZE`. -/
  maxDataSize : Nat
  /-- `BUFFER_ADDR`. -/
  bufferAddr : Word
  /-- `CONTEXT_EP`. -/
  contextEp : EpId
  /-- `DONE_FLAGS`. -/
  doneFlags : Word
  deriving DecidableEq, Repr

/-- `CHUNK_LIMIT = min(BUF_CHUNK_SIZE, MAX_NOC_PACKET_SIZE)` (R7, 42_transfer_unit.md R282). -/
def PeConfig.chunkLimit (c : PeConfig) : Nat :=
  min c.bufChunkSize c.maxNocPacketSize

/-- The constraints of R7 on the parameters of one PE with `numEp` endpoints. -/
def PeConfig.wellFormed (c : PeConfig) (numEp : Nat) : Bool :=
  decide (1 ≤ numEp ∧ numEp ≤ 256) && decide (1 ≤ c.memSize ∧ c.memSize ≤ 2 ^ 64) &&
    decide (24 ≤ c.maxNocPacketSize) && decide (1 ≤ c.bufChunkSize) &&
    decide (c.dtuRegBase.toNat % 8 = 0) && decide (8 ≤ c.pageSize) &&
    decide (c.pageSize = 2 ^ c.pageSize.log2) && decide (1 ≤ c.transQueueDepth) &&
    decide (c.rctmuxFlags.toNat % 8 = 0) && decide (1 ≤ c.chunkSize) &&
    decide (1 ≤ c.maxDataSize) && decide (c.contextEp.toNat < numEp)

/-- The constraint of R7 on `NUM_PE`: PE ids have 16 bits. -/
def numPeWellFormed (numPe : Nat) : Bool :=
  decide (1 ≤ numPe ∧ numPe ≤ 65536)

/-- The reference configuration REF of 92_eei_decisions.md D53, one PE's parameters. The engine whose
parameters the last seven are runs on PE 2 only; `RCTMUX_FLAGS` is also where the scheduler writes, on any PE (log 32). -/
def PeConfig.ref : PeConfig where
  memSize := 0x10000
  maxNocPacketSize := 256
  bufChunkSize := 64
  dtuRegBase := 0xF0000000#64
  vmEnabled := false
  pageSize := 4096
  tlbEntries := 4
  transQueueDepth := 2
  memPe := 0#16
  memOffset := 0#64
  wakeupOnCompletion := false
  rctmuxFlags := 0x3000#64
  ctxSize := 4096#64
  chunkSize := 1024
  maxDataSize := 256
  bufferAddr := 0x8000#64
  contextEp := 7#8
  doneFlags := 0x8#64

/-- The variant REF_VM of D53. -/
def PeConfig.refVm : PeConfig :=
  { PeConfig.ref with vmEnabled := true }

/-- Which agent's step is taken at each turn, where the state's agenda names none: the interleaving, the order of
deliveries and all that the environment brings are free (R9; 93_implementation_defined.md U3 to U7). A free value: DESIGN
CHOICE, safe (log 2). -/
opaque Config.schedule : Nat → Event

/-- Which entry a full TLB evicts: "any entry; a model leaves the choice free" (44_translation_unit.md R351), of each PE and
of each of its evictions in turn. A free value; it is taken modulo the number of entries. DESIGN CHOICE, safe (log 8). -/
opaque Config.evictChoice : PeId → Nat → Nat

end Sys2Proof
end

