-- ==== Sys2Proof/Machine/State.lean ====
section
/-! DEFINITION. The state of a system of DTUs (10_state.md), as plain data; the reasons a step can stop; and the state
right after reset (70_reset_and_hazards.md R600, 10_state.md R76). -/

namespace Sys2Proof.Machine

/-- Bytes by address: addresses strictly rising, no byte equal to what an unlisted address reads as. -/
abbrev Memory := List Host.Cell

/-- The four registers of one endpoint (10_state.md R30, R41). -/
structure Endpoint where
  /-- `EP_CFG0(n)`. -/
  cfg0 : Word
  /-- `EP_CFG1(n)`. -/
  cfg1 : Word
  /-- `EP_CFG2(n)`. -/
  cfg2 : Word
  /-- `EP_CREDIT(n)`. -/
  credit : Word
  deriving DecidableEq, Repr

/-- `LatchedCommand` (R51). -/
structure LatchedCommand where
  opcode : BitVec 3
  epId : EpId
  dataAddr : Word
  dataSize : Word
  offset : Word
  replyEp : EpId
  replyLabel : Word
  deriving DecidableEq, Repr

/-- The phases of the Command Engine (R50). -/
inductive Phase where
  | idle
  | execPending
  | xfer
  | finishPending
  deriving DecidableEq, Repr

/-- The transfer types held in `xfer` (R60, 42_transfer_unit.md R281). -/
inductive XferType where
  | localRead
  | localWrite
  deriving DecidableEq, Repr

/-- The kinds of a transfer (R60): a message, or memory bytes. -/
inductive XferKind where
  | msg
  | mem
  deriving DecidableEq, Repr

/-- The states of a chunk (R60). -/
inductive ChunkState where
  | translate
  | issued
  deriving DecidableEq, Repr

/-- A physical range of local memory (R60, 44_translation_unit.md R354). -/
structure PhysRange where
  pa : Word
  len : Nat
  deriving DecidableEq, Repr

/-- The record of the transfer in flight (R60). -/
structure Xfer where
  type : XferType
  kind : XferKind
  localAddr : Word
  remotePe : PeId
  remoteEp : EpId
  remoteAddr : Word
  size : Word
  /-- Bytes completed. -/
  done : Word
  chunkIndex : Word
  header : Option MessageHeader
  chunkState : ChunkState
  /-- The translated local ranges of a READ chunk between its request and its response. -/
  pas : List PhysRange
  deriving DecidableEq, Repr

/-- An outstanding cache-path request (R62). -/
structure CacheEntry where
  kind : CacheKind
  va : Word
  pa : Option Word
  size : Word
  data : List Byte
  functional : Bool
  deriving DecidableEq, Repr

/-- The access flags of a translation (R65). -/
structure Access where
  r : Bool
  w : Bool
  x : Bool
  deriving DecidableEq, Repr

/-- Who asks for a translation (44_translation_unit.md R350). -/
inductive Owner where
  | cmd
  | cache (id : OpId)
  deriving DecidableEq, Repr

/-- A translation request that waits for its walk (R65, R356); its being in `tq` is the state WALK_PENDING (R350). -/
structure WalkRequest where
  id : Nat
  va : Word
  flags : Access
  owner : Owner
  deriving DecidableEq, Repr

/-- The outcome of a walk that its owner has not consumed (R65, R350). -/
inductive WalkOutcome where
  | ok (e : PageEntry)
  | faulted
  deriving DecidableEq, Repr

/-- One entry of `res` (R350): the outcomes of one owner stand in order of arrival. DESIGN CHOICE, safe (log 17). -/
structure WalkResult where
  owner : Owner
  vpn : Nat
  outcome : WalkOutcome
  deriving DecidableEq, Repr

/-- The states of the context-switch engine (R70). -/
inductive CtxState where
  | check
  | flags
  | save
  | saveWrite
  | saveSend
  | saveWait
  | saveDone
  | wait
  | restore
  | restoreWait
  | restoreRead
  | restoreDone
  deriving DecidableEq, Repr

/-- The context-switch session (R70). -/
structure Session where
  state : CtxState
  contextSize : Word
  stateSize : Word
  byteOffset : Word
  ctxSwPending : Bool
  flags : Word
  deriving DecidableEq, Repr

/-- One PE: its DTU, its local memory, and the environment inputs that belong to it. -/
structure Pe where
  /-- The parameters (00_scope.md R7), which no step changes (R603). -/
  cfg : PeConfig
  /-- STATUS (R33). -/
  status : Word
  /-- COMMAND (R35). -/
  command : Word
  /-- CMD_DATA_ADDR (R36). -/
  cmdDataAddr : Word
  /-- CMD_DATA_SIZE (R36). -/
  cmdDataSize : Word
  /-- CMD_OFFSET (R36). -/
  cmdOffset : Word
  /-- CMD_REPLY_EP (R36). -/
  cmdReplyEp : Word
  /-- CMD_REPLY_LABEL (R36). -/
  cmdReplyLabel : Word
  /-- The `NUM_EP` endpoints (R30, R40). -/
  eps : List Endpoint
  /-- R50. -/
  cmdInProgress : Bool
  /-- R50. -/
  phase : Phase
  /-- R50, R51. -/
  cur : LatchedCommand
  /-- R50. -/
  result : ErrorCode
  /-- R60. -/
  xfer : Option Xfer
  /-- R62. -/
  cacheReqs : List (OpId × CacheEntry)
  /-- R65, R351. -/
  tlb : List (Nat × PageEntry)
  /-- R65, R356. -/
  tq : List WalkRequest
  /-- R65, R350. -/
  res : List WalkResult
  /-- The next fresh walk id (R356); the model's own. -/
  walkIds : Nat
  /-- How many evictions have been drawn (R351); the model's own. -/
  draws : Nat
  /-- The context-switch session of an accelerator PE (R70, 60_exceptions.md R526). -/
  session : Option Session
  /-- The accelerator's context buffer (45_ctxswitch.md R381), outside local memory. -/
  ctx : Memory
  /-- What the accelerator's `stateSize()` returns (R381). -/
  accelStateSize : Word
  /-- The core's input (R52). -/
  coreWaiting : Bool
  /-- Local memory (R74). -/
  mem : Memory
  deriving DecidableEq, Repr

/-- A response on its way (30_encoding.md R133, 43_memory_unit.md R338), with the PE that sent the request. -/
structure Response where
  dest : PeId
  bytes : List Byte
  deriving DecidableEq, Repr

/-- An access in progress (20_memory.md R86), of the agent `agent` at the PE at place `pe`. -/
structure OpenAccess where
  pe : Nat
  agent : Agent
  access : Racer
  /-- Local memory before each access, or part of one, of another agent since this one began, in order. -/
  moments : List Memory
  /-- The addresses at which it has stored ahead of its step. -/
  stored : List Nat
  deriving DecidableEq, Repr

/-- What a step emits: an event, not a state of the block (R510, R384). -/
inductive Output where
  /-- A pulse on the owning core's wakeup line (R510). -/
  | wakeup (pe : PeId)
  /-- The report NOT_YET to the accelerator (R384, R386). -/
  | notYet (pe : PeId)
  /-- `setSwitched()`, the report SWITCHED (R384, R396). -/
  | switched (pe : PeId)
  /-- The answer to a cache-path request (R330, R332). -/
  | cacheAnswer (pe : PeId) (id : OpId) (status : ErrorCode) (data : List Byte)
  /-- The value a client read from a register (R31). -/
  | regValue (pe : PeId) (index : Nat) (value : Word)
  deriving DecidableEq, Repr

/-- A system of PEs with its transport. -/
structure State where
  /-- The PEs (R525); a PE's place is its `PE_ID` (R78), their number is `NUM_PE`. -/
  pes : List Pe
  /-- The NoC requests sent and not yet delivered (R338), each as its bytes (R130). -/
  requests : List (List Byte)
  /-- The responses not yet delivered (R338). -/
  responses : List Response
  /-- The agent steps chosen next; the model's own. -/
  agenda : List Event
  /-- How many steps the free schedule has chosen; the model's own. -/
  turn : Nat
  /-- The PE whose Command Engine runs a command instruction; the model's own. -/
  active : Nat
  /-- What the last step emitted; the model's own. -/
  outputs : List Output
  /-- The accesses in progress (20_memory.md R86); the model's own. -/
  accesses : List OpenAccess
  deriving DecidableEq, Repr

/-- The faults: stuck agents, where the spec gives an agent no meaning. -/
inductive Fault where
  /-- A client accessed the register window otherwise than by an aligned 8-byte access: "has no meaning in this spec: a
  model refuses it (the client is stuck)" (20_memory.md R83; 93_implementation_defined.md W7). Raised by `clientWrite`
  and `clientRead`. Safe: the model stops where the other agents could go on. -/
  | clientStuck
  deriving DecidableEq, Repr

/-- The refusals. -/
inductive Refusal where
  /-- An instruction without a meaning, raised by `exec` only. Safe. -/
  | notModelled (mnemonic : String)
  /-- A command instruction was to run on a PE that the system does not have, raised by the commands' meanings; no
  state of a run has such an `active`. Safe. -/
  | noSuchPe
  /-- A client's access lies outside the register space (10_state.md R31); what is there is the platform's, not the
  block's. Raised by `clientWrite` and `clientRead`. Safe. -/
  | outsideRegisterSpace
  /-- The core cache handed over a request that breaks a precondition: "Preconditions, without which a model refuses
  the request (the cache agent is stuck)" (43_memory_unit.md R330; W8). Raised by `cacheRequest`. Safe. -/
  | cacheRequestNotAccepted
  /-- The bytes of a request in flight are no packet (30_encoding.md R130, R131); no PE sends such bytes. Raised by
  `deliverRequest`. Safe. -/
  | packetFraming
  /-- The bytes of a response in flight are no response (R133); no PE sends such bytes. Raised by `deliverResponse`.
  Safe. -/
  | responseFraming
  deriving DecidableEq, Repr

/-- An endpoint after reset: all registers 0, so `INVALID` (R40, R76). -/
def Endpoint.reset : Endpoint :=
  { cfg0 := 0, cfg1 := 0, cfg2 := 0, credit := 0 }

/-- The latched command after reset (R50, R76). -/
def LatchedCommand.reset : LatchedCommand :=
  { opcode := 0, epId := 0, dataAddr := 0, dataSize := 0, offset := 0, replyEp := 0, replyLabel := 0 }

/-- The context-switch session after reset (R76, 45_ctxswitch.md R380). -/
def Session.reset (ctxSize : Word) : Session :=
  { state := .check, contextSize := ctxSize, stateSize := 0, byteOffset := 0, ctxSwPending := false, flags := 0 }

/-- What a launch fixes for one PE besides the reset values of R76: its parameters (R603), its kind (R526), and the
contents and inputs that the block does not initialise (R601, R52, R381). Their values at `State.reset` are DESIGN
CHOICES, unsafe for claims about that state (logs 1, 5, 6, 7). Of the PE kinds of R526 a launch tells apart only those with
a context-switch engine: a memory PE (R14) is given the same agents as a core, DESIGN CHOICE, safe (log 31). -/
structure Launch where
  cfg : PeConfig
  /-- `NUM_EP`. -/
  numEp : Nat
  /-- Whether the PE is an accelerator and has a context-switch engine (R526). -/
  accelerator : Bool
  mem : Memory
  ctx : Memory
  accelStateSize : Word
  coreWaiting : Bool
  deriving DecidableEq, Repr

/-- A PE right after reset (R76, R600), for a launch. -/
def Pe.reset (l : Launch) : Pe where
  cfg := l.cfg
  status := 0
  command := 0
  cmdDataAddr := 0
  cmdDataSize := 0
  cmdOffset := 0
  cmdReplyEp := 0
  cmdReplyLabel := 0
  eps := List.replicate l.numEp Endpoint.reset
  cmdInProgress := false
  phase := .idle
  cur := LatchedCommand.reset
  result := 0
  xfer := none
  cacheReqs := []
  tlb := []
  tq := []
  res := []
  walkIds := 0
  draws := 0
  session := if l.accelerator then some (Session.reset l.cfg.ctxSize) else none
  ctx := l.ctx
  accelStateSize := l.accelStateSize
  coreWaiting := l.coreWaiting
  mem := l.mem

/-- A system right after reset (R600), for the launch of each PE: the transport holds no packet. -/
def State.launch (ls : List Launch) (active : Nat) : State where
  pes := ls.map Pe.reset
  requests := []
  responses := []
  agenda := []
  turn := 0
  active := active
  outputs := []
  accesses := []

/-- The launch of a PE of REF (D53) with nothing in memory. -/
def Launch.ref : Launch :=
  { cfg := PeConfig.ref, numEp := 8, accelerator := false, mem := [], ctx := [], accelStateSize := 0,
    coreWaiting := false }

/-- The launch of REF's accelerator PE (D53): `accel.stateSize() = 512`. -/
def Launch.refAccelerator : Launch :=
  { Launch.ref with accelerator := true, accelStateSize := 512 }

/-- The machine right after reset: the system REF of D53, three PEs, PE 0 a memory PE (log 31), PE 1 a core, PE 2
an accelerator. -/
def State.reset : State :=
  State.launch [Launch.ref, Launch.ref, Launch.refAccelerator] 1

end Sys2Proof.Machine
end

