-- ==== Sys2Proof/Machine/Flags.lean ====
section
/-! DEFINITION. The error codes (60_exceptions.md R500) and the flags: the fields of STATUS (10_state.md R33, R34), of
COMMAND (R35) and of the context-switch flag word (R72). The block has no condition codes (R75). -/

namespace Sys2Proof.Machine

/-! ### Error codes (R500) -/

/-- NONE. -/
def errNone : ErrorCode := 0#8
/-- UNKNOWN_CMD. -/
def errUnknownCmd : ErrorCode := 1#8
/-- INV_EP. -/
def errInvEp : ErrorCode := 2#8
/-- NO_CREDITS. -/
def errNoCredits : ErrorCode := 3#8
/-- OUT_OF_BOUNDS. -/
def errOutOfBounds : ErrorCode := 4#8
/-- NO_PERM. -/
def errNoPerm : ErrorCode := 5#8
/-- MSG_TOO_LARGE. -/
def errMsgTooLarge : ErrorCode := 6#8
/-- INV_REPLY. -/
def errInvReply : ErrorCode := 7#8
/-- TRANSLATION_FAULT. -/
def errTranslationFault : ErrorCode := 8#8
/-- NOC_ERROR. -/
def errNocError : ErrorCode := 9#8
/-- RECV_INV_EP. -/
def errRecvInvEp : ErrorCode := 10#8
/-- RECV_FULL. -/
def errRecvFull : ErrorCode := 11#8
/-- MEM_OUT_OF_BOUNDS. -/
def errMemOutOfBounds : ErrorCode := 12#8
/-- NO_MESSAGE. -/
def errNoMessage : ErrorCode := 13#8
/-- UNEXPECTED_CREDIT. -/
def errUnexpectedCredit : ErrorCode := 14#8
/-- MALFORMED. -/
def errMalformed : ErrorCode := 15#8

/-! ### STATUS (R33, R34) -/

/-- `STATUS.BUSY` (R33). -/
def statusBusy (w : Word) : Bool := bitAt w 0
/-- `STATUS.REJECTED` (R33). -/
def statusRejected (w : Word) : Bool := bitAt w 1
/-- `STATUS.RECV_ERR_VALID` (R33). -/
def statusRecvErrValid (w : Word) : Bool := bitAt w 2
/-- `STATUS.RECV_ERR` (R33). -/
def statusRecvErr (w : Word) : ErrorCode := fieldAt w 8 8
/-- `STATUS.RECV_ERR_EP` (R33). -/
def statusRecvErrEp (w : Word) : EpId := fieldAt w 16 8

/-- `STATUS.BUSY <- b` (40_command_engine.md R202, R207). -/
def setBusy (b : Bool) (pe : Pe) : Pe :=
  { pe with status := putBit pe.status 0 b }

/-- `STATUS.REJECTED <- 1` (R200). -/
def setRejected (pe : Pe) : Pe :=
  { pe with status := putBit pe.status 1 true }

/-- STATUS with a receive error recorded; the latest overwrites an earlier one (41_message_unit.md R256). -/
def recordRecvErr (w : Word) (code : ErrorCode) (ep : EpId) : Word :=
  putField (putField (putBit w 2 true) 8 code) 16 ep

/-- STATUS with the receive error cleared (R34). -/
def clearRecvErr (w : Word) : Word :=
  putField (putField (putBit w 2 false) 8 0#8) 16 0#8

/-- STATUS after a client's write of `v`: the two sticky bits are write-1-to-clear (R34). -/
def statusAfterWrite (w v : Word) : Word :=
  let w1 := if bitAt v 1 then putBit w 1 false else w
  if bitAt v 2 then clearRecvErr w1 else w1

/-- `recvError(code, ep)`: the shared report of a receive-side error; it never changes `COMMAND` nor a running command
(R256, 60_exceptions.md R503). -/
def recvError (code : ErrorCode) (ep : EpId) (pe : Pe) : Pe :=
  { pe with status := recordRecvErr pe.status code ep }

/-! ### COMMAND (R35) -/

/-- `COMMAND.ERROR` (R35). -/
def commandError (w : Word) : ErrorCode := fieldAt w 16 8

/-- COMMAND after the finish step: `OPCODE <- IDLE`, `ERROR <- result`, `EPID` as it was (40_command_engine.md R207). -/
def finishedCommand (w : Word) (result : ErrorCode) : Word :=
  putField (putField w 0 0#3) 16 result

/-! ### The flag word (R72, 45_ctxswitch.md R382, R386) -/

/-- `RESTORE`, bit 0. -/
def flagRestore (w : Word) : Bool := bitAt w 0
/-- `STORE`, bit 1. -/
def flagStore (w : Word) : Bool := bitAt w 1
/-- `WAITING`, bit 2. -/
def flagWaiting (w : Word) : Bool := bitAt w 2

end Sys2Proof.Machine
end

