-- ==== Sys2Proof/Machine/Operands.lean ====
section
/-! DEFINITION. The operands of the commands: the fields of the three kinds of endpoint (10_state.md R40 to R44), the
predicates on endpoint ids (R46), the latched command (R51, 40_command_engine.md R202), and the chunks of a transfer
(42_transfer_unit.md R282). -/

namespace Sys2Proof.Machine

/-! ### Endpoint fields -/

/-- `TYPE`: 0 INVALID, 1 SEND, 2 RECEIVE, 3 MEMORY, 4 to 7 treated as INVALID (R40). -/
def epType (e : Endpoint) : BitVec 3 := fieldAt e.cfg0 0 3

/-- SEND: `TARGET_EP` (R42). -/
def epTargetEp (e : Endpoint) : EpId := fieldAt e.cfg0 8 8
/-- SEND and MEMORY: `TARGET_PE` (R42, R44). -/
def epTargetPe (e : Endpoint) : PeId := fieldAt e.cfg0 16 16
/-- SEND: `MAX_MSG_SIZE` (R42). -/
def epMaxMsgSize (e : Endpoint) : BitVec 16 := fieldAt e.cfg0 32 16
/-- SEND: `LABEL` (R42). -/
def epLabel (e : Endpoint) : Word := e.cfg1
/-- SEND: `CREDITS` (R42). -/
def epCredits (e : Endpoint) : BitVec 16 := fieldAt e.credit 0 16
/-- SEND: `MAX_CREDITS` (R42). -/
def epMaxCredits (e : Endpoint) : BitVec 16 := fieldAt e.credit 16 16

/-- RECEIVE: `SLOT_SIZE` (R43). -/
def epSlotSize (e : Endpoint) : BitVec 16 := fieldAt e.cfg0 16 16
/-- RECEIVE: `NUM_SLOTS` (R43). -/
def epNumSlots (e : Endpoint) : BitVec 16 := fieldAt e.cfg0 32 16
/-- RECEIVE: `BUF_ADDR` (R43). -/
def epBufAddr (e : Endpoint) : Word := e.cfg1
/-- RECEIVE: `RD_PTR` (R43). -/
def epRdPtr (e : Endpoint) : BitVec 16 := fieldAt e.credit 0 16
/-- RECEIVE: `WR_PTR` (R43). -/
def epWrPtr (e : Endpoint) : BitVec 16 := fieldAt e.credit 16 16
/-- RECEIVE: `MSG_COUNT` (R43). -/
def epMsgCount (e : Endpoint) : BitVec 16 := fieldAt e.credit 32 16

/-- MEMORY: `PERM_R` (R44). -/
def epPermR (e : Endpoint) : Bool := bitAt e.cfg0 3
/-- MEMORY: `PERM_W` (R44). -/
def epPermW (e : Endpoint) : Bool := bitAt e.cfg0 4
/-- MEMORY: `REGION_ADDR` (R44). -/
def epRegionAddr (e : Endpoint) : Word := e.cfg1
/-- MEMORY: `REGION_SIZE` (R44). -/
def epRegionSize (e : Endpoint) : Word := e.cfg2

/-- `ep[n].CREDITS <- v` (R41, R42). -/
def putCredits (e : Endpoint) (v : BitVec 16) : Endpoint := { e with credit := putField e.credit 0 v }
/-- `ep[n].RD_PTR <- v` (R41, R43). -/
def putRdPtr (e : Endpoint) (v : BitVec 16) : Endpoint := { e with credit := putField e.credit 0 v }
/-- `ep[n].WR_PTR <- v` (R41, R43). -/
def putWrPtr (e : Endpoint) (v : BitVec 16) : Endpoint := { e with credit := putField e.credit 16 v }
/-- `ep[n].MSG_COUNT <- v` (R41, R43). -/
def putMsgCount (e : Endpoint) (v : BitVec 16) : Endpoint := { e with credit := putField e.credit 32 v }

/-- `wrapInc(p, n)`: the next place of a ring of `n` slots, `p + 1` computed without wrap (40_command_engine.md R212). -/
def wrapInc (p n : BitVec 16) : BitVec 16 :=
  if n = 0#16 then 0#16 else BitVec.ofNat 16 ((p.toNat + 1) % n.toNat)

/-! ### Endpoints of a PE -/

/-- `NUM_EP`, the number of endpoint slots (00_scope.md R7). -/
def numEp (pe : Pe) : Nat := pe.eps.length

/-- `ep[n]` (R12). -/
def epAt (pe : Pe) (e : EpId) : Endpoint := pe.eps.getD e.toNat Endpoint.reset

/-- The PE with the registers of one endpoint replaced. -/
def setEp (pe : Pe) (e : EpId) (v : Endpoint) : Pe := { pe with eps := pe.eps.set e.toNat v }

/-- `validEp(e)` (R46). -/
def validEp (pe : Pe) (e : EpId) : Bool := decide (e.toNat < numEp pe)

/-- `isSend(e)` (R46). -/
def isSend (pe : Pe) (e : EpId) : Bool := validEp pe e && epType (epAt pe e) == 1#3
/-- `isRecv(e)` (R46). -/
def isRecv (pe : Pe) (e : EpId) : Bool := validEp pe e && epType (epAt pe e) == 2#3
/-- `isMem(e)` (R46). -/
def isMem (pe : Pe) (e : EpId) : Bool := validEp pe e && epType (epAt pe e) == 3#3

/-- `isSlot(e, m)`: `m` is the address of a slot of the RECEIVE endpoint (41_message_unit.md R245), on unbounded
naturals. -/
def isSlot (e : Endpoint) (m : Word) : Bool :=
  decide (0 < (epSlotSize e).toNat) && decide ((epBufAddr e).toNat ≤ m.toNat) &&
    decide (m.toNat - (epBufAddr e).toNat < (epNumSlots e).toNat * (epSlotSize e).toNat) &&
    decide ((m.toNat - (epBufAddr e).toNat) % (epSlotSize e).toNat = 0)

/-- `inRegion(e, off, n)`, on unbounded naturals (42_transfer_unit.md R294). -/
def inRegion (e : Endpoint) (off n : Word) : Bool :=
  decide (off.toNat ≤ (epRegionSize e).toNat) && decide (n.toNat ≤ (epRegionSize e).toNat - off.toNat)

/-- The local address of slot `WR_PTR`, in unbounded arithmetic (41_message_unit.md R254). -/
def writeSlotAddr (e : Endpoint) : Nat :=
  (epBufAddr e).toNat + (epWrPtr e).toNat * (epSlotSize e).toNat

/-! ### The latched command (R51) -/

/-- What `start()` copies from `COMMAND` and the argument registers (40_command_engine.md R202); of `CMD_REPLY_EP` only
bits 7:0 (R36). -/
def latchCommand (pe : Pe) : LatchedCommand where
  opcode := opcodeOf pe.command
  epId := epIdOf pe.command
  dataAddr := pe.cmdDataAddr
  dataSize := pe.cmdDataSize
  offset := pe.cmdOffset
  replyEp := fieldAt pe.cmdReplyEp 0 8
  replyLabel := pe.cmdReplyLabel

/-- The command word that the latched command was decoded from, as far as the decoder looks at it (R124). -/
def latchedWord (c : LatchedCommand) : Word := commandWord c.opcode c.epId 0#8

/-! ### Chunks (42_transfer_unit.md R282) -/

/-- `len(k) = min(C, S - k*C)` of the current chunk (R282). -/
def chunkLen (cfg : PeConfig) (x : Xfer) : Nat :=
  min cfg.chunkLimit (x.size.toNat - x.chunkIndex.toNat * cfg.chunkLimit)

/-- The chunk index as a tag carries it: the low 62 bits of the 64 (30_encoding.md R134). DEDUCED, safe (log 14). -/
def chunkOp (x : Xfer) : OpId := x.chunkIndex.setWidth 62

end Sys2Proof.Machine
end

