-- ==== Sys2Proof/Machine/Ops.lean ====
section
/-! DEFINITION. The named operations that the agents' steps share: local memory (20_memory.md R84), the register file
(10_state.md R31 to R36), the life cycle of a command with its error report (40_command_engine.md R200 to R208: the
block has no trap, 60_exceptions.md R508; ending a command with an error and reporting it take that place), and what a
step of one PE does to the system. -/

namespace Sys2Proof.Machine

/-! ### Memory -/

/-- What an address that a memory does not list reads as. The spec gives no initial contents (R74, R601: a launch
parameter). DESIGN CHOICE, unsafe for claims about `State.reset` (log 5). -/
def blankByte : Byte := 0#8

/-- The byte at an address. -/
def readByte : Memory → Nat → Byte
  | [], _ => blankByte
  | (k, b) :: m, a => if a = k then b else readByte m a

/-- The memory with one byte replaced, in canonical form. -/
def writeByte : Memory → Nat → Byte → Memory
  | [], a, b => if b = blankByte then [] else [(a, b)]
  | (k, c) :: m, a, b =>
    if a < k then (if b = blankByte then (k, c) :: m else (a, b) :: (k, c) :: m)
    else if a = k then (if b = blankByte then m else (a, b) :: m)
    else (k, c) :: writeByte m a b

/-- The `n` bytes from an address on, in address order. -/
def readBytes (m : Memory) (a : Nat) : Nat → List Byte
  | 0 => []
  | n + 1 => readByte m a :: readBytes m (a + 1) n

/-- The memory with the bytes from an address on replaced. -/
def writeBytes (m : Memory) (a : Nat) : List Byte → Memory
  | [] => m
  | b :: bs => writeBytes (writeByte m a b) (a + 1) bs

/-- The canonical form: addresses strictly rising, no byte equal to what an unlisted address reads as. -/
abbrev Memory.wf (m : Memory) : Prop :=
  m.Pairwise (fun c d => c.1 < d.1) ∧ ∀ c ∈ m, c.2 ≠ blankByte

/-- Whether `MemRead(a, n)` and `MemWrite(a, n, _)` succeed, on unbounded naturals (R84). -/
def inLocalMemory (pe : Pe) (a n : Nat) : Bool :=
  decide (n = 0) || decide (a + n ≤ pe.cfg.memSize)

/-- `MemRead(a, n)`; none when it fails with MEM_OUT_OF_BOUNDS (R84). -/
def memRead (pe : Pe) (a n : Nat) : Option (List Byte) :=
  if inLocalMemory pe a n then some (readBytes pe.mem a n) else none

/-- `MemWrite(a, |bytes|, bytes)`; none when it fails with MEM_OUT_OF_BOUNDS, no byte being written (R84). -/
def memWrite (pe : Pe) (a : Nat) (bytes : List Byte) : Option Pe :=
  if inLocalMemory pe a bytes.length then some { pe with mem := writeBytes pe.mem a bytes } else none

/-- `MemRead` over ranges in order (42_transfer_unit.md R284). -/
def readRanges (pe : Pe) : List PhysRange → Option (List Byte)
  | [] => some []
  | r :: rs =>
    match memRead pe r.pa.toNat r.len, readRanges pe rs with
    | some bs, some rest => some (bs ++ rest)
    | _, _ => none

/-- `MemWrite` of the data bytes over ranges in order (42_transfer_unit.md R285). -/
def writeRanges (pe : Pe) : List PhysRange → List Byte → Option Pe
  | [], _ => some pe
  | r :: rs, data =>
    match memWrite pe r.pa.toNat (data.take r.len) with
    | some pe' => writeRanges pe' rs (data.drop r.len)
    | none => none

/-! ### What one step of a PE does -/

/-- The outcome of one step of one PE: the PE after it, the requests and responses it hands to the transport, and what
it emits. -/
structure Effect where
  pe : Pe
  requests : List (List Byte) := []
  responses : List Response := []
  outputs : List Output := []

/-- The system after a step of the PE at place `p`. -/
def commit (s : State) (p : Nat) (e : Effect) : State :=
  { s with
    pes := s.pes.set p e.pe
    requests := s.requests ++ e.requests
    responses := s.responses ++ e.responses
    outputs := s.outputs ++ e.outputs }

/-- The id of the PE at a place: `PE_ID` (R78). -/
def peId (p : Nat) : PeId := BitVec.ofNat 16 p

/-- The response to a request (30_encoding.md R133, R134: the tag is returned unchanged). -/
def responseTo (h : PacketHead) (status : ErrorCode) (data : List Byte) : Response :=
  { dest := h.srcPe, bytes := encodeResponse status h.tag data }

/-! ### The life cycle of a command (40_command_engine.md R200 to R208) -/

/-- `start()` (R202): the command in `COMMAND` and the argument registers are latched. -/
def startCommand (pe : Pe) : Pe :=
  setBusy true { pe with cur := latchCommand pe, result := errNone, cmdInProgress := true, phase := .execPending }

/-- A client's write of `COMMAND` (R200): dropped while a command runs, else stored, and a command other than IDLE
started. -/
def writeCommand (v : Word) (pe : Pe) : Pe :=
  if pe.cmdInProgress then setRejected pe
  else
    let pe' := { pe with command := commandWord (opcodeOf v) (epIdOf v) errNone }
    if opcodeOf v = 0#3 then pe' else startCommand pe'

/-- `complete()` (R203). -/
def completeCommand (pe : Pe) : Pe :=
  { pe with result := errNone, phase := .finishPending }

/-- `fail(code)`: the shared way a command ends with an error; it undoes nothing already done (R206). -/
def failCommand (code : ErrorCode) (pe : Pe) : Pe :=
  { pe with result := code, phase := .finishPending }

/-- `startXfer(...)` (42_transfer_unit.md R280). -/
def startXfer (x : Xfer) (pe : Pe) : Pe :=
  { pe with xfer := some x, phase := .xfer }

/-- `end(s)`: the end of the command's transfer (42_transfer_unit.md R286, R205). -/
def endXfer (status : ErrorCode) (pe : Pe) : Pe :=
  { pe with xfer := none, result := status, phase := .finishPending }

/-- Whether the finish step emits a Wakeup pulse (R208). -/
def wakesOnFinish (pe : Pe) : Bool :=
  pe.cur.opcode == 6#3 || (pe.cfg.wakeupOnCompletion && pe.coreWaiting)

/-- The finish step: the shared report of a command's result (R207, R208, 60_exceptions.md R502). -/
def finishCommand (me : PeId) (pe : Pe) : Effect where
  pe := setBusy false
    { pe with command := finishedCommand pe.command pe.result, cmdInProgress := false, phase := .idle }
  outputs := if wakesOnFinish pe then [.wakeup me] else []

/-! ### The register file (10_state.md R30 to R36) -/

/-- `reg[8 + 4n + j]` of an endpoint (R30). -/
def endpointReg (e : Endpoint) (j : Nat) : Word :=
  match j with
  | 0 => e.cfg0
  | 1 => e.cfg1
  | 2 => e.cfg2
  | _ => e.credit

/-- An endpoint with one register replaced, all 64 bits (R41). -/
def putEndpointReg (e : Endpoint) (j : Nat) (v : Word) : Endpoint :=
  match j with
  | 0 => { e with cfg0 := v }
  | 1 => { e with cfg1 := v }
  | 2 => { e with cfg2 := v }
  | _ => { e with credit := v }

/-- `RegRead(index)`; a reserved index reads as 0 (R31, R32). It has no side effect. -/
def regRead (pe : Pe) (index : Nat) : Word :=
  match index with
  | 0 => pe.status
  | 1 => pe.command
  | 2 => pe.cmdDataAddr
  | 3 => pe.cmdDataSize
  | 4 => pe.cmdOffset
  | 5 => pe.cmdReplyEp
  | 6 => pe.cmdReplyLabel
  | 7 => 0
  | k + 8 =>
    match pe.eps[k / 4]? with
    | some e => endpointReg e (k % 4)
    | none => 0

/-- A client's write of an argument register: dropped while a command runs (R200). -/
def writeArgument (pe stored : Pe) : Pe :=
  if pe.cmdInProgress then setRejected pe else stored

/-- `RegWrite(index, v, priv)` (R31): STATUS by R34, the command group by R200, an endpoint register only with `priv`
(R45, 60_exceptions.md R521), a reserved index without effect (R32). -/
def regWrite (index : Nat) (v : Word) (priv : Bool) (pe : Pe) : Pe :=
  match index with
  | 0 => { pe with status := statusAfterWrite pe.status v }
  | 1 => writeCommand v pe
  | 2 => writeArgument pe { pe with cmdDataAddr := v }
  | 3 => writeArgument pe { pe with cmdDataSize := v }
  | 4 => writeArgument pe { pe with cmdOffset := v }
  | 5 => writeArgument pe { pe with cmdReplyEp := v }
  | 6 => writeArgument pe { pe with cmdReplyLabel := v }
  | 7 => pe
  | k + 8 =>
    if priv then
      match pe.eps[k / 4]? with
      | some e => { pe with eps := pe.eps.set (k / 4) (putEndpointReg e (k % 4) v) }
      | none => pe
    else pe

/-- Where a client's access in the register space goes (R31, 20_memory.md R83). -/
inductive RegAccess where
  /-- An aligned 8-byte access: this register index. -/
  | index (i : Nat)
  /-- Any other access to the register window. -/
  | misplaced
  /-- No access to the register space. -/
  | outside
  deriving DecidableEq, Repr

/-- The register index of an access of `width` bytes at a client address, which is `DTU_REG_BASE + 8*i` modulo 2^64
(R31, R83; 00_scope.md R11). The window is the 8*(8 + 4*NUM_EP) bytes from `DTU_REG_BASE` on. DESIGN CHOICE, safe
(log 12). -/
def regAccess (pe : Pe) (addr : Word) (width : Nat) : RegAccess :=
  let off := (addr - pe.cfg.dtuRegBase).toNat
  if width = 8 ∧ off % 8 = 0 then .index (off / 8)
  else if 0 < width ∧ (off < 8 * (8 + 4 * numEp pe) ∨ 2 ^ 64 < off + width) then .misplaced
  else .outside

/-- The client address of a register, `getRegAddr(i)` (20_memory.md R83, 45_ctxswitch.md R381). -/
def regAddr (pe : Pe) (index : Nat) : Word :=
  pe.cfg.dtuRegBase + BitVec.ofNat 64 (8 * index)

/-! ### Running a command's execute step -/

/-- A command instruction runs on the active PE. DESIGN CHOICE, safe (log 23). -/
def onActive (s : State) (f : PeId → Pe → Pe) : Host.Outcome State Fault Refusal :=
  match s.pes[s.active]? with
  | some pe => .next (commit s s.active { pe := f (peId s.active) pe })
  | none => .refused .noSuchPe

/-- A request is served at its destination PE; the transport itself answers NOC_ERROR for a PE that does not exist
(43_memory_unit.md R338, R339). -/
def serveAt (s : State) (h : PacketHead) (f : PeId → Pe → Effect) : Host.Outcome State Fault Refusal :=
  match s.pes[h.dstPe.toNat]? with
  | some pe => .next (commit s h.dstPe.toNat (f h.dstPe pe))
  | none => .next { s with responses := s.responses ++ [responseTo h errNocError []] }

end Sys2Proof.Machine
end

