-- ==== Sys2Proof/Machine/CtxSwitch.lean ====
section
/-! DEFINITION. The Accelerator Context-Switch Engine (45_ctxswitch.md), one step rule per state. A step that is not
enabled is `none` (R384, D59). -/

namespace Sys2Proof.Machine

/-- The PE with the session replaced. -/
def setSession (c : Session) (pe : Pe) : Pe := { pe with session := some c }

/-- `total = CTX_SIZE + stateSize` (R380); `CTX_SIZE` is the session's `contextSize` (R70). An
unbounded sum: DEDUCED, unsafe from 2^64 on (log 21). -/
def sessionTotal (c : Session) : Nat := c.contextSize.toNat + c.stateSize.toNat

/-- How many bytes the next local chunk of the context has (R388, R395). -/
def localChunk (cfg : PeConfig) (c : Session) : Nat :=
  min cfg.chunkSize (c.contextSize.toNat - c.byteOffset.toNat)

/-- How many bytes the next command moves (R389, R393). -/
def remoteChunk (cfg : PeConfig) (c : Session) : Nat :=
  min cfg.maxDataSize (sessionTotal c - c.byteOffset.toNat)

/-- The states of the context-switch engine in which `byteOffset` runs over the context (R398). -/
def CtxState.isLocal (st : CtxState) : Bool := st == .saveWrite || st == .restoreRead

/-- `accelMayRun` (R384). -/
def accelMayRun (c : Session) : Bool :=
  (c.state == .check || c.state == .flags) && !c.ctxSwPending

/-- CHECK (R385): the flag word is read. -/
def ctxCheck (c : Session) (pe : Pe) : Option Effect :=
  (memRead pe pe.cfg.rctmuxFlags.toNat 8).map fun w =>
    { pe := setSession { c with flags := BitVec.ofNat 64 (ofLE w), state := .flags } pe }

/-- FLAGS (R386): the first of its branches that applies. -/
def ctxFlags (me : PeId) (c : Session) (pe : Pe) : Effect :=
  if flagRestore c.flags then
    { pe := setSession { c with stateSize := pe.accelStateSize, byteOffset := 0, state := .restore } pe }
  else if flagStore c.flags then { pe := setSession { c with state := .save } pe }
  else if flagWaiting c.flags then { pe := setSession { c with state := .restoreDone } pe }
  else if c.ctxSwPending then { pe := setSession { c with state := .wait } pe }
  else { pe := setSession { c with state := .check } pe, outputs := [.notYet me] }

/-- SAVE (R387). -/
def ctxSave (c : Session) (pe : Pe) : Effect :=
  { pe := setSession { c with stateSize := pe.accelStateSize, byteOffset := 0, state := .saveWrite } pe }

/-- The session after a local chunk of `n` bytes, `after` being the state once the context is through (R388, R395);
`restart` says whether `byteOffset` is then set to 0. -/
def afterLocalChunk (c : Session) (n : Nat) (after : CtxState) (restart : Bool) : Session :=
  let off := c.byteOffset + BitVec.ofNat 64 n
  if off = c.contextSize then { c with byteOffset := if restart then 0 else off, state := after }
  else { c with byteOffset := off }

/-- SAVE_WRITE (R388): one chunk of the context into the buffer; stuck when the write fails (D59). -/
def ctxSaveWrite (c : Session) (pe : Pe) : Option Effect :=
  if c.byteOffset.toNat ≥ c.contextSize.toNat then
    some { pe := setSession { c with byteOffset := 0, state := .saveSend } pe }
  else
    (memWrite pe (pe.cfg.bufferAddr + c.byteOffset).toNat
        (readBytes pe.ctx c.byteOffset.toNat (localChunk pe.cfg c))).map fun pe' =>
      { pe := setSession (afterLocalChunk c (localChunk pe.cfg c) .saveSend true) pe' }

/-- `issue(op, off, n)` (R397): four register writes of an unprivileged client, in one step. -/
def issueCommand (op : BitVec 3) (off : Word) (n : Nat) (pe : Pe) : Pe :=
  regWrite 1 (commandWord op pe.cfg.contextEp errNone) false
    (regWrite 4 off false
      (regWrite 3 (BitVec.ofNat 64 n) false
        (regWrite 2 (pe.cfg.bufferAddr + off) false pe)))

/-- SAVE_SEND (R389): one WRITE command, only when no command runs. -/
def ctxSaveSend (c : Session) (pe : Pe) : Option Effect :=
  if c.byteOffset.toNat ≥ sessionTotal c then some { pe := setSession { c with state := .saveDone } pe }
  else if statusBusy pe.status then none
  else
    some { pe := setSession { c with state := .saveWait } (issueCommand 4#3 c.byteOffset (remoteChunk pe.cfg c) pe) }

/-- `byteOffset + min(MAX_DATA_SIZE, total - byteOffset)`, after a command (R390, R394). -/
def offsetAfterCommand (cfg : PeConfig) (c : Session) : Nat :=
  c.byteOffset.toNat + remoteChunk cfg c

/-- The session after a WRITE of the save that succeeded (R390). -/
def afterSaveCommand (cfg : PeConfig) (c : Session) : Session :=
  { c with
    byteOffset := BitVec.ofNat 64 (offsetAfterCommand cfg c)
    state := if offsetAfterCommand cfg c < sessionTotal c then .saveSend else .saveDone }

/-- SAVE_WAIT (R390): an error is not retried. -/
def ctxSaveWait (c : Session) (pe : Pe) : Option Effect :=
  if opcodeOf pe.command ≠ 0#3 then none
  else if commandError pe.command ≠ errNone then some { pe := setSession { c with state := .saveDone } pe }
  else
    some { pe := setSession (afterSaveCommand pe.cfg c) pe }

/-- The write of `DONE_FLAGS` into the flag word (R382, R391, R396); none when it fails (D59). -/
def writeDoneFlags (pe : Pe) : Option Pe :=
  memWrite pe pe.cfg.rctmuxFlags.toNat (wordBytes pe.cfg.doneFlags)

/-- SAVE_DONE (R391). -/
def ctxSaveDone (c : Session) (pe : Pe) : Option Effect :=
  (writeDoneFlags pe).map fun pe' => { pe := setSession { c with ctxSwPending := true, state := .wait } pe' }

/-- WAIT (R392). -/
def ctxWait (c : Session) (pe : Pe) : Effect :=
  { pe := setSession { c with state := .check } pe }

/-- RESTORE (R393): one READ command, only when no command runs. -/
def ctxRestore (c : Session) (pe : Pe) : Option Effect :=
  if c.byteOffset.toNat ≥ sessionTotal c then
    some { pe := setSession { c with byteOffset := 0, state := .restoreRead } pe }
  else if statusBusy pe.status then none
  else
    some { pe :=
      setSession { c with state := .restoreWait } (issueCommand 3#3 c.byteOffset (remoteChunk pe.cfg c) pe) }

/-- The session after a READ of the restore that succeeded (R394). -/
def afterRestoreCommand (cfg : PeConfig) (c : Session) : Session :=
  if offsetAfterCommand cfg c < sessionTotal c then
    { c with byteOffset := BitVec.ofNat 64 (offsetAfterCommand cfg c), state := .restore }
  else { c with byteOffset := 0, state := .restoreRead }

/-- RESTORE_WAIT (R394): an error is not retried. -/
def ctxRestoreWait (c : Session) (pe : Pe) : Option Effect :=
  if opcodeOf pe.command ≠ 0#3 then none
  else if commandError pe.command ≠ errNone then
    some { pe := setSession { c with byteOffset := 0, state := .restoreRead } pe }
  else
    some { pe := setSession (afterRestoreCommand pe.cfg c) pe }

/-- RESTORE_READ (R395): one chunk of the buffer into the context; stuck when the read fails (D59). -/
def ctxRestoreRead (c : Session) (pe : Pe) : Option Effect :=
  if c.byteOffset.toNat ≥ c.contextSize.toNat then some { pe := setSession { c with state := .restoreDone } pe }
  else
    (memRead pe (pe.cfg.bufferAddr + c.byteOffset).toNat (localChunk pe.cfg c)).map fun bytes =>
      { pe :=
        setSession (afterLocalChunk c (localChunk pe.cfg c) .restoreDone false)
          { pe with ctx := writeBytes pe.ctx c.byteOffset.toNat bytes } }

/-- RESTORE_DONE (R396). -/
def ctxRestoreDone (me : PeId) (c : Session) (pe : Pe) : Option Effect :=
  (writeDoneFlags pe).map fun pe' =>
    { pe := setSession { c with ctxSwPending := false, state := .check } pe', outputs := [.switched me] }

/-- One step of the engine in a session's state (R384); none when it is not enabled. -/
def sessionStep (me : PeId) (c : Session) (pe : Pe) : Option Effect :=
  match c.state with
  | .check => ctxCheck c pe
  | .flags => some (ctxFlags me c pe)
  | .save => some (ctxSave c pe)
  | .saveWrite => ctxSaveWrite c pe
  | .saveSend => ctxSaveSend c pe
  | .saveWait => ctxSaveWait c pe
  | .saveDone => ctxSaveDone c pe
  | .wait => some (ctxWait c pe)
  | .restore => ctxRestore c pe
  | .restoreWait => ctxRestoreWait c pe
  | .restoreRead => ctxRestoreRead c pe
  | .restoreDone => ctxRestoreDone me c pe

/-- The engine's step; a PE without an accelerator has none (60_exceptions.md R526). -/
def ctxSwitchStep (me : PeId) (pe : Pe) : Option Effect :=
  match pe.session with
  | some c => sessionStep me c pe
  | none => none

end Sys2Proof.Machine
end

