-- ==== Sys2Proof/Machine/CommandEngine.lean ====
section
/-! DEFINITION. The commands the Command Engine performs itself (40_command_engine.md R210 to R216). -/

namespace Sys2Proof.Machine

/-- IDLE (R210): the write of its word. While no command runs it stores `EPID` and clears `ERROR`, and starts nothing;
while one runs it is rejected like any other write of the command group (R200). -/
def execIdle (ep : EpId) (s : State) : Host.Outcome State Fault Refusal :=
  onActive s fun _ pe => writeCommand (commandWord 0#3 ep errNone) pe

/-- The endpoint after INC_READ_PTR: the read pointer advanced, one message less (R212). -/
def advanceReadPtr (e : Endpoint) : Endpoint :=
  putMsgCount (putRdPtr e (wrapInc (epRdPtr e) (epNumSlots e))) (epMsgCount e - 1#16)

/-- The execute step of INC_READ_PTR (R212). -/
def incReadPtrExecute (ep : EpId) (pe : Pe) : Pe :=
  if !isRecv pe ep then failCommand errInvEp pe
  else if epMsgCount (epAt pe ep) = 0#16 then failCommand errNoMessage pe
  else completeCommand (setEp pe ep (advanceReadPtr (epAt pe ep)))

/-- INC_READ_PTR (R212). -/
def execIncReadPtr (ep : EpId) (s : State) : Host.Outcome State Fault Refusal :=
  onActive s fun _ pe => incReadPtrExecute ep pe

/-- WAKEUP_CORE (R214): `complete()`; the finish step emits the pulse (R208). `EPID` is ignored. -/
def execWakeupCore (_ep : EpId) (s : State) : Host.Outcome State Fault Refusal :=
  onActive s fun _ pe => completeCommand pe

/-- Opcode 7 (R216): `fail(UNKNOWN_CMD)`. -/
def execReserved7 (_ep : EpId) (s : State) : Host.Outcome State Fault Refusal :=
  onActive s fun _ pe => failCommand errUnknownCmd pe

/-- The Command Engine's finish step (R207) as a step of the system. -/
def engineFinish (p : Nat) (pe : Pe) (s : State) : State :=
  commit s p (finishCommand (peId p) pe)

end Sys2Proof.Machine
end

