-- ==== Sys2Proof/Machine/TranslationUnit.lean ====
section
/-! DEFINITION. The Translation Unit (44_translation_unit.md): translation of an access, walks and their answers. -/

namespace Sys2Proof.Machine

/-- The bytes of an access that lie in one page: the virtual page, where the first byte lies in it, and how many. -/
structure PagePiece where
  vpn : Nat
  offset : Nat
  len : Nat
  deriving DecidableEq, Repr

/-- The pages touched by the bytes `va, va+1, ..., va+n-1` (addresses modulo 2^64), in order (R354); `fuel` bounds the
number of pages. DEDUCED, safe (log 28). -/
def pagePiecesFuel (pageSize : Nat) : Nat → Nat → Nat → List PagePiece
  | 0, _, _ => []
  | fuel + 1, va, n =>
    if n = 0 then []
    else
      let len := min n (min (pageSize - va % pageSize) (2 ^ 64 - va))
      { vpn := va / pageSize, offset := va % pageSize, len := len } ::
        pagePiecesFuel pageSize fuel ((va + len) % 2 ^ 64) (n - len)

/-- The pages touched by `n` bytes from `va` on (R354). -/
def pagePieces (pageSize : Nat) (va : Word) (n : Nat) : List PagePiece :=
  pagePiecesFuel pageSize (n / pageSize + n / 2 ^ 64 + 3) va.toNat n

/-- `permits(e, F)` (R354). -/
def permits (e : PageEntry) (f : Access) : Bool :=
  (!f.r || e.r) && (!f.w || e.w) && (!f.x || e.x)

/-- Whether `res[owner]` holds `(v, FAULTED)` (R354). -/
def resFaulted (pe : Pe) (owner : Owner) (v : Nat) : Bool :=
  pe.res.any fun r => r.owner == owner && r.vpn == v && r.outcome == .faulted

/-- The translation that an entry of `res` brings to an owner for a page, if any. -/
def resEntryOk (owner : Owner) (v : Nat) (r : WalkResult) : Option PageEntry :=
  if r.owner = owner ∧ r.vpn = v then
    match r.outcome with
    | .ok e => some e
    | .faulted => none
  else none

/-- The translation of page `v` that `res[owner]` holds (R354). -/
def resOk (pe : Pe) (owner : Owner) (v : Nat) : Option PageEntry :=
  pe.res.findSome? (resEntryOk owner v)

/-- `tlb[v]` (R351). -/
def tlbLookup (pe : Pe) (v : Nat) : Option PageEntry :=
  pe.tlb.lookup v

/-- Whether `tq` holds an entry of the owner for page `v` (R354). -/
def walkPending (pe : Pe) (owner : Owner) (v : Nat) : Bool :=
  pe.tq.any fun q => q.owner == owner && q.va.toNat / pe.cfg.pageSize == v

/-- `res[owner] <- []` (R354). -/
def clearResults (owner : Owner) (pe : Pe) : Pe :=
  { pe with res := pe.res.filter fun r => r.owner != owner }

/-- `enqueue(owner, v, flags)`: a walk request with a fresh id (R356). -/
def enqueueWalk (owner : Owner) (v : Nat) (flags : Access) (pe : Pe) : Pe :=
  { pe with
    tq := pe.tq ++
      [{ id := pe.walkIds, va := BitVec.ofNat 64 (v * pe.cfg.pageSize), flags := flags, owner := owner }]
    walkIds := pe.walkIds + 1 }

/-- The outcomes of `translate` (R354), with the PE after it. -/
inductive Translation where
  | ok (pe : Pe) (ranges : List PhysRange)
  | fault (pe : Pe)
  | miss (pe : Pe)
  | wait
  deriving DecidableEq, Repr

/-- The physical range of a piece under a page entry (R354); addresses are 64 bits (00_scope.md R8). DEDUCED,
unsafe for a `ppn` that does not fit (log 16). -/
def pieceRange (pageSize : Nat) (e : PageEntry) (p : PagePiece) : PhysRange :=
  { pa := BitVec.ofNat 64 (e.ppn.toNat * pageSize + p.offset), len := p.len }

/-- The loop of `translate` over the pages of an access (R354). -/
def translatePages (owner : Owner) (flags : Access) (pe : Pe) : List PagePiece → List PhysRange → Translation
  | [], ranges => .ok (clearResults owner pe) ranges
  | p :: ps, ranges =>
    if resFaulted pe owner p.vpn then .fault (clearResults owner pe)
    else
      match (resOk pe owner p.vpn).or (tlbLookup pe p.vpn) with
      | some e =>
        if permits e flags then
          translatePages owner flags pe ps (ranges ++ [pieceRange pe.cfg.pageSize e p])
        else .fault (clearResults owner pe)
      | none =>
        if walkPending pe owner p.vpn then .wait
        else if pe.tq.length ≥ pe.cfg.transQueueDepth then .wait
        else .miss (enqueueWalk owner p.vpn flags pe)

/-- `translate(owner, va, n, flags)` (R354): the identity when `VM_ENABLED` is false. -/
def translate (owner : Owner) (va : Word) (n : Nat) (flags : Access) (pe : Pe) : Translation :=
  if !pe.cfg.vmEnabled then .ok pe [{ pa := va, len := n }]
  else if n = 0 then .ok pe []
  else translatePages owner flags pe (pagePieces pe.cfg.pageSize va n) []

/-! ### Walk answers (R358, R359) -/

/-- A map's list without one entry of a full TLB, the one drawn (R351). -/
def evictDrawn (draw : Nat) (tlb : List (Nat × PageEntry)) : List (Nat × PageEntry) :=
  tlb.eraseIdx (draw % tlb.length)

/-- The fill of the TLB by a successful walk (R351, R358): a page it holds is overwritten, a full TLB evicts a drawn
entry, a TLB of no entries stays empty. The draw is the PE's own: no other PE's evictions say anything about it (log 8). -/
def fillTlb (me : PeId) (v : Nat) (e : PageEntry) (pe : Pe) : Pe :=
  if pe.cfg.tlbEntries = 0 then pe
  else if (tlbLookup pe v).isSome then
    { pe with tlb := pe.tlb.filter (fun x => x.1 != v) ++ [(v, e)] }
  else if pe.tlb.length < pe.cfg.tlbEntries then { pe with tlb := pe.tlb ++ [(v, e)] }
  else
    { pe with tlb := evictDrawn (Config.evictChoice me pe.draws) pe.tlb ++ [(v, e)], draws := pe.draws + 1 }

/-- `res[owner] <- res[owner] ++ [(v, outcome)]` (R358, R359). -/
def addResult (owner : Owner) (v : Nat) (outcome : WalkOutcome) (pe : Pe) : Pe :=
  { pe with res := pe.res ++ [{ owner := owner, vpn := v, outcome := outcome }] }

/-- `remove q from tq` (R358, R359), `q` being the entry with this id. -/
def removeWalk (id : Nat) (pe : Pe) : Pe :=
  { pe with tq := pe.tq.filter fun q => q.id != id }

/-- The step enabled by the walker's answer for the entry `q`: RESUME (R358), or FAULT, also when the answer's
permissions do not permit the access (R359). -/
def takeAnswer (me : PeId) (q : WalkRequest) (answer : WalkAnswer) (pe : Pe) : Pe :=
  let v := q.va.toNat / pe.cfg.pageSize
  match answer with
  | .ok e =>
    if permits e q.flags then addResult q.owner v (.ok e) (fillTlb me v e (removeWalk q.id pe))
    else addResult q.owner v .faulted (removeWalk q.id pe)
  | .fault _ => addResult q.owner v .faulted (removeWalk q.id pe)

/-- The walker's answer to the request with an id; none when no such request waits (R352: answered exactly once). -/
def walkAnswered (me : PeId) (id : Nat) (answer : WalkAnswer) (pe : Pe) : Option Pe :=
  (pe.tq.find? fun q => q.id == id).map fun q => takeAnswer me q answer pe

end Sys2Proof.Machine
end

