-- ==== Sys2Proof/Machine/MemoryUnit.lean ====
section
/-! DEFINITION. The Memory Unit (43_memory_unit.md): the requests it serves, and the cache path. -/

namespace Sys2Proof.Machine

/-! ### Served requests (R322 to R328) -/

/-- A REMOTE_READ: the bytes, physical, untranslated, in the response (R322). -/
def serveRead (h : PacketHead) (pe : Pe) : Effect :=
  match memRead pe h.addr.toNat h.size.toNat with
  | none => { pe := pe, responses := [responseTo h errMemOutOfBounds []] }
  | some data => { pe := pe, responses := [responseTo h errNone data] }

/-- A REMOTE_WRITE of the payload (R324). -/
def serveWrite (h : PacketHead) (payload : List Byte) (pe : Pe) : Effect :=
  match memWrite pe h.addr.toNat payload with
  | none => { pe := pe, responses := [responseTo h errMemOutOfBounds []] }
  | some pe' => { pe := pe', responses := [responseTo h errNone []] }

/-- A cache-path access from another PE: a write or a read as its `WRITE` bit says (R326). -/
def serveCache (h : PacketHead) (payload : List Byte) (pe : Pe) : Effect :=
  if h.write then serveWrite h payload pe else serveRead h pe

/-- A request of a reserved type: answered MALFORMED, no other effect (R328). -/
def serveReserved (h : PacketHead) (pe : Pe) : Effect :=
  { pe := pe, responses := [responseTo h errMalformed []] }

/-- READ_REQ (R322). -/
def execReadReq (h : PacketHead) (s : State) : Host.Outcome State Fault Refusal :=
  serveAt s h fun _ pe => serveRead h pe

/-- WRITE_REQ (R324). -/
def execWriteReq (h : PacketHead) (payload : List Byte) (s : State) : Host.Outcome State Fault Refusal :=
  serveAt s h fun _ pe => serveWrite h payload pe

/-- CACHE_MEM_REQ (R326). -/
def execCacheMemReq (h : PacketHead) (payload : List Byte) (s : State) : Host.Outcome State Fault Refusal :=
  serveAt s h fun _ pe => serveCache h payload pe

/-- CACHE_MEM_REQ_FUNC: exactly as CACHE_MEM_REQ (R327). -/
def execCacheMemReqFunc (h : PacketHead) (payload : List Byte) (s : State) : Host.Outcome State Fault Refusal :=
  serveAt s h fun _ pe => serveCache h payload pe

/-- Packet type 5 (R328). -/
def execReservedPkt5 (h : PacketHead) (_body : List Byte) (s : State) : Host.Outcome State Fault Refusal :=
  serveAt s h fun _ pe => serveReserved h pe

/-- Packet type 6 (R328). -/
def execReservedPkt6 (h : PacketHead) (_body : List Byte) (s : State) : Host.Outcome State Fault Refusal :=
  serveAt s h fun _ pe => serveReserved h pe

/-- Packet type 7 (R328). -/
def execReservedPkt7 (h : PacketHead) (_body : List Byte) (s : State) : Host.Outcome State Fault Refusal :=
  serveAt s h fun _ pe => serveReserved h pe

/-! ### The cache path (R330, R332) -/

/-- The outstanding cache request with an id (R62). -/
def cacheEntry (pe : Pe) (id : OpId) : Option CacheEntry :=
  pe.cacheReqs.lookup id

/-- The PE without the cache request of an id. -/
def removeCacheReq (id : OpId) (pe : Pe) : Pe :=
  { pe with cacheReqs := pe.cacheReqs.filter fun c => c.1 != id }

/-- The preconditions of a cache request (R330); a WRITE brings `size` bytes, the others none (DEDUCED,
safe, log 13). -/
def cacheAcceptable (id : OpId) (req : CacheRequest) (pe : Pe) : Bool :=
  (cacheEntry pe id).isNone && decide (1 ≤ req.size.toNat) && decide (req.size.toNat ≤ pe.cfg.maxNocPacketSize) &&
    (!pe.cfg.vmEnabled || decide (req.va.toNat % pe.cfg.pageSize + req.size.toNat ≤ pe.cfg.pageSize)) &&
    decide (req.data.length = if req.kind = .write then req.size.toNat else 0)

/-- Step 1 of the cache path: a request accepted; none when a precondition fails (R330). -/
def acceptCacheRequest (id : OpId) (req : CacheRequest) (pe : Pe) : Option Pe :=
  if cacheAcceptable id req pe then
    some { pe with
      cacheReqs := pe.cacheReqs ++
        [(id, { kind := req.kind, va := req.va, pa := none, size := req.size, data := req.data,
                functional := req.functional })] }
  else none

/-- The access flag of a cache request: R for READ, W for WRITE, X for FETCH (R330, 44_translation_unit.md R362). -/
def cacheAccess (kind : CacheKind) : Access where
  r := kind == .read
  w := kind == .write
  x := kind == .fetch

/-- The cache requests with the physical address of one of them stored. -/
def setCachePa (id : OpId) (pa : Word) (pe : Pe) : Pe :=
  { pe with
    cacheReqs := pe.cacheReqs.map fun c => if c.1 = id then (c.1, { c.2 with pa := some pa }) else c }

/-- The packet of a translated cache request (R330): to `MEM_PE`, at `pa + MEM_OFFSET`. -/
def cachePacket (me : PeId) (id : OpId) (c : CacheEntry) (pa : Word) (cfg : PeConfig) : List Byte :=
  pktCache me c.functional (c.kind == .write) cfg.memPe (pa + cfg.memOffset) c.size c.data id

/-- What a translation outcome makes of a cache request; none when it waits (R330, R363). -/
def afterCacheTranslation (me : PeId) (id : OpId) (c : CacheEntry) (t : Translation) : Option Effect :=
  match t with
  | .wait => none
  | .miss pe => some { pe := pe }
  | .fault pe =>
    some { pe := removeCacheReq id pe, outputs := [.cacheAnswer me id errTranslationFault []] }
  | .ok pe ranges =>
    let pa := (ranges.head?.map PhysRange.pa).getD c.va
    some { pe := setCachePa id pa pe, requests := [cachePacket me id c pa pe.cfg] }

/-- Step 2 of the cache path; none when it is not enabled (R330). -/
def cacheTranslateStep (me : PeId) (id : OpId) (pe : Pe) : Option Effect :=
  match cacheEntry pe id with
  | some c =>
    if c.pa.isNone then
      afterCacheTranslation me id c (translate (.cache id) c.va c.size.toNat (cacheAccess c.kind) pe)
    else none
  | none => none

/-- The response to a cache request: handed to the cache, the request removed; discarded for an id that is not
outstanding (R332). -/
def cacheResponse (me : PeId) (bytes : List Byte) (pe : Pe) : Effect :=
  let id := tagOp (responseTag bytes)
  match cacheEntry pe id with
  | some _ =>
    { pe := removeCacheReq id pe
      outputs := [.cacheAnswer me id (responseStatus bytes) (responseData bytes)] }
  | none => { pe := pe }

end Sys2Proof.Machine
end

