-- ==== Sys2Proof/Machine/MessageUnit.lean ====
section
/-! DEFINITION. The Message Unit (41_message_unit.md): SEND, REPLY, the receipt of a MESSAGE, and credits. -/

namespace Sys2Proof.Machine

/-! ### SEND (R241, R243) -/

/-- `sendHeader(e)` (R243). -/
def sendHeader (me : PeId) (ep : EpId) (pe : Pe) : MessageHeader where
  reply := false
  grantCredits := false
  replyEnabled := true
  senderEpId := ep
  replyEpId := pe.cur.replyEp
  length := pe.cur.dataSize.setWidth 16
  senderCoreId := me
  label := epLabel (epAt pe ep)
  replyLabel := pe.cur.replyLabel

/-- The transfer of one message: LOCAL_READ, kind MSG, header and payload (R241, R245). `remoteAddr`, to which no rule gives
a value here and which none reads, is 0: DESIGN CHOICE, unsafe (log 33). -/
def messageXfer (pe : Pe) (dstPe : PeId) (dstEp : EpId) (hdr : MessageHeader) : Xfer where
  type := .localRead
  kind := .msg
  localAddr := pe.cur.dataAddr
  remotePe := dstPe
  remoteEp := dstEp
  remoteAddr := 0
  size := BitVec.ofNat 64 (headerSize + pe.cur.dataSize.toNat)
  done := 0
  chunkIndex := 0
  header := some hdr
  chunkState := .translate
  pas := []

/-- The endpoint after a SEND took its credit (R240). -/
def spendCredit (e : Endpoint) : Endpoint :=
  putCredits e (epCredits e - 1#16)

/-- The execute step of SEND (R241). -/
def sendExecute (ep : EpId) (me : PeId) (pe : Pe) : Pe :=
  if !isSend pe ep then failCommand errInvEp pe
  else if epCredits (epAt pe ep) = 0#16 then failCommand errNoCredits pe
  else if headerSize + pe.cur.dataSize.toNat > min (epMaxMsgSize (epAt pe ep)).toNat pe.cfg.chunkLimit then
    failCommand errMsgTooLarge pe
  else
    startXfer
      (messageXfer pe (epTargetPe (epAt pe ep)) (epTargetEp (epAt pe ep)) (sendHeader me ep pe))
      (setEp pe ep (spendCredit (epAt pe ep)))

/-- SEND (R241). -/
def execSend (ep : EpId) (s : State) : Host.Outcome State Fault Refusal :=
  onActive s (sendExecute ep)

/-! ### REPLY (R245, R247) -/

/-- `replyHeader(e, orig)` (R247). Of the size the 16 bits of the field remain: DEDUCED, unsafe above 65535 (log 15). -/
def replyHeader (me : PeId) (ep : EpId) (pe : Pe) (orig : MessageHeader) : MessageHeader where
  reply := true
  grantCredits := true
  replyEnabled := false
  senderEpId := ep
  replyEpId := orig.senderEpId
  length := pe.cur.dataSize.setWidth 16
  senderCoreId := me
  label := orig.replyLabel
  replyLabel := orig.replyLabel

/-- The execute step of REPLY (R245). -/
def replyExecute (ep : EpId) (me : PeId) (pe : Pe) : Pe :=
  if !isRecv pe ep then failCommand errInvEp pe
  else if headerSize + pe.cur.dataSize.toNat > pe.cfg.chunkLimit then failCommand errMsgTooLarge pe
  else if !isSlot (epAt pe ep) pe.cur.offset then failCommand errInvReply pe
  else
    match memRead pe pe.cur.offset.toNat headerSize with
    | none => failCommand errMemOutOfBounds pe
    | some r =>
      if !(decHdr r).replyEnabled then failCommand errInvReply pe
      else
        startXfer
          (messageXfer pe (decHdr r).senderCoreId (decHdr r).replyEpId (replyHeader me ep pe (decHdr r))) pe

/-- REPLY (R245). -/
def execReply (ep : EpId) (s : State) : Host.Outcome State Fault Refusal :=
  onActive s (replyExecute ep)

/-! ### Receipt of a MESSAGE (R250 to R258) -/

/-- `grant(c)`: the credit return (R252). -/
def grantCredit (c : EpId) (pe : Pe) : Pe :=
  if isSend pe c && decide ((epCredits (epAt pe c)).toNat < (epMaxCredits (epAt pe c)).toNat) then
    setEp pe c (putCredits (epAt pe c) (epCredits (epAt pe c) + 1#16))
  else recvError errUnexpectedCredit c pe

/-- The endpoint after a message was stored in its slot `WR_PTR` (R254). -/
def advanceWritePtr (e : Endpoint) : Endpoint :=
  putMsgCount (putWrPtr e (wrapInc (epWrPtr e) (epNumSlots e))) (epMsgCount e + 1#16)

/-- A message rejected by the receiver: recorded, and answered with the same code (R250, 60_exceptions.md R503). -/
def rejectMessage (h : PacketHead) (code : ErrorCode) (pe : Pe) : Effect where
  pe := recvError code h.dstEp pe
  responses := [responseTo h code []]

/-- `store(d, bytes)`, the answer, and the wakeup of a waiting core (R250, R254, R258). -/
def storeMessage (h : PacketHead) (payload : List Byte) (pe : Pe) : Effect :=
  match memWrite pe (writeSlotAddr (epAt pe h.dstEp)) payload with
  | none => rejectMessage h errMemOutOfBounds pe
  | some pe' =>
    { pe := setEp pe' h.dstEp (advanceWritePtr (epAt pe h.dstEp))
      responses := [responseTo h errNone []]
      outputs := if pe.coreWaiting then [.wakeup h.dstPe] else [] }

/-- The checks on the destination endpoint, after the grant (R250). -/
def acceptMessage (h : PacketHead) (payload : List Byte) (pe : Pe) : Effect :=
  if !isRecv pe h.dstEp then rejectMessage h errRecvInvEp pe
  else if h.size.toNat > (epSlotSize (epAt pe h.dstEp)).toNat then rejectMessage h errMsgTooLarge pe
  else if (epMsgCount (epAt pe h.dstEp)).toNat ≥ (epNumSlots (epAt pe h.dstEp)).toNat then
    rejectMessage h errRecvFull pe
  else storeMessage h payload pe

/-- Whether a MESSAGE is malformed (30_encoding.md R128). -/
def malformedMessage (h : PacketHead) (payload : List Byte) : Bool :=
  decide (h.size.toNat < headerSize) || decide ((decHdr payload).length.toNat ≠ h.size.toNat - headerSize)

/-- Receipt of a MESSAGE packet (R250). -/
def receiveMessage (h : PacketHead) (payload : List Byte) (pe : Pe) : Effect :=
  if malformedMessage h payload then rejectMessage h errMalformed pe
  else
    acceptMessage h payload
      (if (decHdr payload).grantCredits then grantCredit (decHdr payload).replyEpId pe else pe)

/-- MESSAGE (R250). -/
def execMessage (h : PacketHead) (payload : List Byte) (s : State) : Host.Outcome State Fault Refusal :=
  serveAt s h fun _ pe => receiveMessage h payload pe

end Sys2Proof.Machine
end

