-- ==== Sys2Proof/Machine/TransferUnit.lean ====
section
/-! DEFINITION. The Transfer Unit and the commands READ and WRITE (42_transfer_unit.md). -/

namespace Sys2Proof.Machine

/-! ### READ and WRITE (R290, R292) -/

/-- The transfer of a READ or a WRITE on a MEMORY endpoint (R290, R292). `remoteEp`, to which no rule gives a value here and
which none reads, is 0: DESIGN CHOICE, unsafe (log 33). -/
def memoryXfer (type : XferType) (ep : EpId) (pe : Pe) : Xfer where
  type := type
  kind := .mem
  localAddr := pe.cur.dataAddr
  remotePe := epTargetPe (epAt pe ep)
  remoteEp := 0
  remoteAddr := epRegionAddr (epAt pe ep) + pe.cur.offset
  size := pe.cur.dataSize
  done := 0
  chunkIndex := 0
  header := none
  chunkState := .translate
  pas := []

/-- The execute step of READ or WRITE: the endpoint, the permission, the region, an empty transfer, in this order (R290,
R292, R288). -/
def memoryExecute (type : XferType) (permitted : Endpoint → Bool) (ep : EpId) (pe : Pe) : Pe :=
  if !isMem pe ep then failCommand errInvEp pe
  else if !permitted (epAt pe ep) then failCommand errNoPerm pe
  else if !inRegion (epAt pe ep) pe.cur.offset pe.cur.dataSize then failCommand errOutOfBounds pe
  else if pe.cur.dataSize = 0 then completeCommand pe
  else startXfer (memoryXfer type ep pe) pe

/-- READ (R290): needs `PERM_R` (R296). -/
def execRead (ep : EpId) (s : State) : Host.Outcome State Fault Refusal :=
  onActive s fun _ pe => memoryExecute .localWrite epPermR ep pe

/-- WRITE (R292): needs `PERM_W` (R296). -/
def execWrite (ep : EpId) (s : State) : Host.Outcome State Fault Refusal :=
  onActive s fun _ pe => memoryExecute .localRead epPermW ep pe

/-! ### Step A of a chunk (R284, R285) -/

/-- The local virtual address and length of a LOCAL_READ chunk: the chunk's bytes, or a message's payload (R284). -/
def localPart (cfg : PeConfig) (x : Xfer) : Word × Nat :=
  match x.kind with
  | .mem => (x.localAddr + x.done, chunkLen cfg x)
  | .msg => (x.localAddr, x.size.toNat - headerSize)

/-- The packet of a LOCAL_READ chunk whose bytes were read (R284). -/
def chunkPacket (me : PeId) (x : Xfer) (data : List Byte) : List Byte :=
  match x.kind, x.header with
  | .msg, some hdr => pktMsg me x.remotePe x.remoteEp hdr data (chunkOp x)
  | _, _ => pktWrite me x.remotePe (x.remoteAddr + x.done) data (chunkOp x)

/-- A LOCAL_READ chunk whose ranges are known (R284): no byte reaches the NoC unless the whole chunk was read. -/
def issueLocalRead (me : PeId) (x : Xfer) (ranges : List PhysRange) (pe : Pe) : Effect :=
  match readRanges pe ranges with
  | none => { pe := endXfer errMemOutOfBounds pe }
  | some data =>
    { pe := { pe with xfer := some { x with chunkState := .issued } }
      requests := [chunkPacket me x data] }

/-- A LOCAL_WRITE chunk whose ranges are known (R285). -/
def issueLocalWrite (me : PeId) (x : Xfer) (ranges : List PhysRange) (pe : Pe) : Effect :=
  if ranges.any fun r => decide (r.pa.toNat + r.len > pe.cfg.memSize) then { pe := endXfer errMemOutOfBounds pe }
  else
    { pe := { pe with xfer := some { x with chunkState := .issued, pas := ranges } }
      requests :=
        [pktRead me x.remotePe (x.remoteAddr + x.done) (chunkLen pe.cfg x) (chunkOp x)] }

/-- What a translation outcome makes of step A; none when the chunk waits (R284, R285). -/
def afterTranslation (t : Translation) (issue : List PhysRange → Pe → Effect) : Option Effect :=
  match t with
  | .wait => none
  | .miss pe => some { pe := pe }
  | .fault pe => some { pe := endXfer errTranslationFault pe }
  | .ok pe ranges => some (issue ranges pe)

/-- Step A of the current chunk (R284, R285), once it is enabled. -/
def chunkStepA (me : PeId) (x : Xfer) (pe : Pe) : Option Effect :=
  match x.type with
  | .localRead =>
    afterTranslation
      (translate .cmd (localPart pe.cfg x).1 (localPart pe.cfg x).2 { r := true, w := false, x := false } pe)
      (issueLocalRead me x)
  | .localWrite =>
    afterTranslation
      (translate .cmd (x.localAddr + x.done) (chunkLen pe.cfg x) { r := false, w := true, x := false } pe)
      (issueLocalWrite me x)

/-- The Transfer Unit's step A; none when it is not enabled (R284, R285). -/
def transferStep (me : PeId) (pe : Pe) : Option Effect :=
  match pe.phase, pe.xfer with
  | .xfer, some x => if x.chunkState = .translate then chunkStepA me x pe else none
  | _, _ => none

/-! ### Step B of a chunk: its response (R284, R285) -/

/-- The next chunk, or the end of the transfer when the running offset equals the size (R284, R286). -/
def advanceChunk (x : Xfer) (pe : Pe) : Pe :=
  let done := x.done + BitVec.ofNat 64 (chunkLen pe.cfg x)
  if done = x.size then endXfer errNone pe
  else
    { pe with
      xfer := some { x with done := done, chunkIndex := x.chunkIndex + 1, chunkState := .translate } }

/-- A chunk's response taken (R284, R285): a status other than NONE ends the transfer with it (R287); the data of a READ
chunk are written over the ranges found in step A. That the write may fail and that data may be short is DEDUCED, safe
(logs 19, 29). -/
def takeResponse (x : Xfer) (bytes : List Byte) (pe : Pe) : Pe :=
  if responseStatus bytes ≠ errNone then endXfer (responseStatus bytes) pe
  else
    match x.type with
    | .localRead => advanceChunk x pe
    | .localWrite =>
      match writeRanges pe x.pas (responseData bytes) with
      | some pe' => advanceChunk x pe'
      | none => endXfer errMemOutOfBounds pe

/-- The Transfer Unit's step B; a response that is not the current chunk's is discarded without effect (R289). -/
def chunkResponse (bytes : List Byte) (pe : Pe) : Pe :=
  match pe.phase, pe.xfer with
  | .xfer, some x =>
    if x.chunkState = .issued ∧ tagOp (responseTag bytes) = chunkOp x then takeResponse x bytes pe else pe
  | _, _ => pe

end Sys2Proof.Machine
end

