-- ==== Sys2Proof/Machine/Dispatch.lean ====
section
/-! DEFINITION. The meaning of every instruction: one arm per constructor of Instr. -/

namespace Sys2Proof.Machine

-- Commands (40_command_engine.md R203, R210), then served packets (43_memory_unit.md, 41_message_unit.md).
def exec (i : Instr) (s : State) : Host.Outcome State Fault Refusal :=
  match i with
  | .idle ep => Sys2Proof.Machine.execIdle ep s
  | .send ep => Sys2Proof.Machine.execSend ep s
  | .reply ep => Sys2Proof.Machine.execReply ep s
  | .read ep => Sys2Proof.Machine.execRead ep s
  | .write ep => Sys2Proof.Machine.execWrite ep s
  | .incReadPtr ep => Sys2Proof.Machine.execIncReadPtr ep s
  | .wakeupCore ep => Sys2Proof.Machine.execWakeupCore ep s
  | .reserved7 ep => Sys2Proof.Machine.execReserved7 ep s
  | .message h payload => Sys2Proof.Machine.execMessage h payload s
  | .readReq h => Sys2Proof.Machine.execReadReq h s
  | .writeReq h payload => Sys2Proof.Machine.execWriteReq h payload s
  | .cacheMemReq h payload => Sys2Proof.Machine.execCacheMemReq h payload s
  | .cacheMemReqFunc h payload => Sys2Proof.Machine.execCacheMemReqFunc h payload s
  | .reservedPkt5 h body => Sys2Proof.Machine.execReservedPkt5 h body s
  | .reservedPkt6 h body => Sys2Proof.Machine.execReservedPkt6 h body s
  | .reservedPkt7 h body => Sys2Proof.Machine.execReservedPkt7 h body s

end Sys2Proof.Machine
end

