-- ==== Sys2Proof/Machine/Agents.lean ====
section
/-! DEFINITION. The steps of the agents (00_scope.md R6, R9) as steps of the system: where an instruction is fetched,
decoded and run, and what the environment's agents do. An agent chosen without an enabled step is passed over (R12). -/

namespace Sys2Proof.Machine

/-- A step of the PE at place `p` that may be not enabled; then, and where there is no such PE, nothing changes. DESIGN
CHOICE, safe (logs 2, 24). -/
def stepPe (s : State) (p : Nat) (f : PeId → Pe → Option Effect) : State :=
  match s.pes[p]? with
  | some pe =>
    match f (peId p) pe with
    | some e => commit s p e
    | none => s
  | none => s

/-- The Command Engine's pending step: the execute step fetches and decodes the latched command and runs it (R201,
40_command_engine.md R203); the finish step reports it (R207); else there is none. -/
def stepEngine (s : State) (p : Nat) : Host.Outcome State Fault Refusal :=
  match s.pes[p]? with
  | none => .next s
  | some pe =>
    match pe.phase with
    | .execPending => exec (decodeCommand (latchedWord pe.cur)) { s with active := p }
    | .finishPending => .next (engineFinish p pe s)
    | .idle => .next s
    | .xfer => .next s

/-- The delivery of a request: it leaves the transport, is decoded, and is served (43_memory_unit.md R338). -/
def stepDeliverRequest (s : State) (k : Nat) : Host.Outcome State Fault Refusal :=
  match s.requests[k]? with
  | none => .next s
  | some bytes =>
    match decode .noc bytes with
    | .ok i => exec i { s with requests := s.requests.eraseIdx k }
    | .error _ => .refused .packetFraming

/-- A response taken by the PE that sent the request: by the unit its tag names, discarded for any other tag
(30_encoding.md R134, 43_memory_unit.md R321). -/
def takeDelivered (me : PeId) (bytes : List Byte) (pe : Pe) : Effect :=
  match tagUnit (responseTag bytes) with
  | 0#2 => { pe := chunkResponse bytes pe }
  | 1#2 => cacheResponse me bytes pe
  | _ => { pe := pe }

/-- The delivery of a response (R338). -/
def stepDeliverResponse (s : State) (k : Nat) : Host.Outcome State Fault Refusal :=
  match s.responses[k]? with
  | none => .next s
  | some r =>
    if r.bytes.length < 16 then .refused .responseFraming
    else
      .next (stepPe { s with responses := s.responses.eraseIdx k } r.dest.toNat
        fun me pe => some (takeDelivered me r.bytes pe))

/-- A client's write (10_state.md R31). A write of an IDLE word to `COMMAND` is the instruction IDLE
(40_command_engine.md R210); any other goes to the register of its index. -/
def stepClientWrite (s : State) (p : Nat) (addr : Word) (width : Nat) (value : Word) (priv : Bool) :
    Host.Outcome State Fault Refusal :=
  match s.pes[p]? with
  | none => .next s
  | some pe =>
    match regAccess pe addr width with
    | .index i =>
      if i = 1 ∧ opcodeOf value = 0#3 then exec (decodeCommand value) { s with active := p }
      else .next (commit s p { pe := regWrite i value priv pe })
    | .misplaced => .fault .clientStuck
    | .outside => .refused .outsideRegisterSpace

/-- A client's read (R31): the value goes to the client, and no state of the block changes. -/
def stepClientRead (s : State) (p : Nat) (addr : Word) (width : Nat) : Host.Outcome State Fault Refusal :=
  match s.pes[p]? with
  | none => .next s
  | some pe =>
    match regAccess pe addr width with
    | .index i => .next (commit s p { pe := pe, outputs := [.regValue (peId p) i (regRead pe i)] })
    | .misplaced => .fault .clientStuck
    | .outside => .refused .outsideRegisterSpace

/-- A cache request handed over (43_memory_unit.md R330, step 1). -/
def stepCacheRequest (s : State) (p : Nat) (id : OpId) (req : CacheRequest) : Host.Outcome State Fault Refusal :=
  match s.pes[p]? with
  | none => .next s
  | some pe =>
    match acceptCacheRequest id req pe with
    | some pe' => .next (commit s p { pe := pe' })
    | none => .refused .cacheRequestNotAccepted

/-- A store by the core or another local client (10_state.md R74); one outside local memory has no effect here. DESIGN
CHOICE, safe (log 25). -/
def coreStoreEffect (addr : Word) (bytes : List Byte) (pe : Pe) : Option Effect :=
  (memWrite pe addr.toNat bytes).map fun pe' => { pe := pe' }

/-- The scheduler's write of the flag word (45_ctxswitch.md R383), at any PE, also one without a context-switch engine:
DESIGN CHOICE, safe (log 32). -/
def schedulerEffect (value : Word) (pe : Pe) : Option Effect :=
  (memWrite pe pe.cfg.rctmuxFlags.toNat (wordBytes value)).map fun pe' => { pe := pe' }

/-- The accelerator changes bytes of its context, only while it may run (45_ctxswitch.md R384). -/
def accelContextEffect (off : Nat) (bytes : List Byte) (pe : Pe) : Option Effect :=
  match pe.session with
  | some c =>
    if accelMayRun c && decide (off + bytes.length ≤ c.contextSize.toNat) then
      some { pe := { pe with ctx := writeBytes pe.ctx off bytes } }
    else none
  | none => none

/-- The local address of byte `off` of the accelerator's extra state (45_ctxswitch.md R381). -/
def accelExtraAddr (pe : Pe) (c : Session) (off : Nat) : Word :=
  pe.cfg.bufferAddr + c.contextSize + BitVec.ofNat 64 off

/-- The accelerator changes bytes of its extra state, at `BUFFER_ADDR + CTX_SIZE`, only while it may run (R381, R384). -/
def accelExtraEffect (off : Nat) (bytes : List Byte) (pe : Pe) : Option Effect :=
  match pe.session with
  | some c =>
    if accelMayRun c && decide (off + bytes.length ≤ pe.accelStateSize.toNat) then
      (memWrite pe (accelExtraAddr pe c off).toNat bytes).map fun pe' => { pe := pe' }
    else none
  | none => none

/-- The walker's answer (44_translation_unit.md R352). -/
def walkAnswerEffect (me : PeId) (id : Nat) (answer : WalkAnswer) (pe : Pe) : Option Effect :=
  (walkAnswered me id answer pe).map fun pe' => { pe := pe' }

end Sys2Proof.Machine
end

