-- ==== Sys2Proof/Machine/Races.lean ====
section
/-! DEFINITION. Racing accesses to the local memory of one PE (20_memory.md R86): "a model must admit, for each byte, either
agent's value". An access of any agent may begin ahead of its step; from then on it is in progress, and overlaps every access
of another agent until its own step. Each byte that it stores takes effect at one moment of that time, in a part of the access
or at its step, and each byte that it reads is the one that memory held at one moment of that time. So every read of a byte
returns the last write to it in the one order of steps (R99), and what an access stores early its step goes on to do. -/

namespace Sys2Proof.Machine

/-- The agent of a racer at the PE at place `p`; none when it is no step of that PE, or of a unit that accesses no local
memory. A step that happens to access none, such as a finish step, is its ordinary step. -/
def racerAgent (s : State) (p : Nat) : Racer → Option Agent
  | .engine => some .commandEngine
  | .transfer => some .transferUnit
  | .ctxSwitch => some .ctxSwitchEngine
  | .request b =>
    if s.requests.contains b && (packetHead b).dstPe.toNat == p then
      some (if packetType b = 0#3 then .messageUnit else .memoryUnit)
    else none
  | .response dest b =>
    if s.responses.contains { dest := dest, bytes := b } && dest.toNat == p && tagUnit (responseTag b) == 0#2 then
      some .transferUnit
    else none
  | .coreStore _ _ => some .core
  | .schedulerWrite _ => some .scheduler
  | .accelExtra _ _ => some .accelerator

/-- A racer's own step, at the PE at place `p`. -/
def runRacer (p : Nat) (r : Racer) (s : State) : Host.Outcome State Fault Refusal :=
  match r with
  | .engine => stepEngine s p
  | .transfer => .next (stepPe s p transferStep)
  | .ctxSwitch => .next (stepPe s p ctxSwitchStep)
  | .request b => stepDeliverRequest s (s.requests.idxOf b)
  | .response dest b => stepDeliverResponse s (s.responses.idxOf { dest := dest, bytes := b })
  | .coreStore addr bytes => .next (stepPe s p fun _ pe => coreStoreEffect addr bytes pe)
  | .schedulerWrite v => .next (stepPe s p fun _ pe => schedulerEffect v pe)
  | .accelExtra off bytes => .next (stepPe s p fun _ pe => accelExtraEffect off bytes pe)

/-- The event of a racer's own step, where it overlaps no other access. -/
def racerEvent (s : State) (p : Nat) : Racer → Event
  | .engine => .engine p
  | .transfer => .transfer p
  | .ctxSwitch => .ctxSwitch p
  | .request b => .deliverRequest (s.requests.idxOf b)
  | .response dest b => .deliverResponse (s.responses.idxOf { dest := dest, bytes := b })
  | .coreStore addr bytes => .coreStore p addr bytes
  | .schedulerWrite v => .schedulerWrite p v
  | .accelExtra off bytes => .accelExtra p off bytes

/-- The access to local memory that an event is the step of, with its PE and the moments from which it takes bytes. -/
def eventRacer (s : State) : Event → Option (Nat × Racer × List (Nat × Nat))
  | .engine p => some (p, .engine, [])
  | .transfer p => some (p, .transfer, [])
  | .ctxSwitch p => some (p, .ctxSwitch, [])
  | .deliverRequest k => (s.requests[k]?).map fun b => ((packetHead b).dstPe.toNat, .request b, [])
  | .deliverResponse k => (s.responses[k]?).map fun r => (r.dest.toNat, .response r.dest r.bytes, [])
  | .coreStore p addr bytes => some (p, .coreStore addr bytes, [])
  | .schedulerWrite p v => some (p, .schedulerWrite v, [])
  | .accelExtra p off bytes => some (p, .accelExtra off bytes, [])
  | .race p r order => some (p, r, order)
  | .clientWrite _ _ _ _ _ => none
  | .clientRead _ _ _ => none
  | .setCoreWaiting _ _ => none
  | .accelContext _ _ _ => none
  | .accelStateSize _ _ => none
  | .cacheRequest _ _ _ => none
  | .cacheTranslate _ _ => none
  | .walkAnswer _ _ _ => none
  | .accessPart _ _ _ => none

/-- The access that an event is the step or a part of, with its PE. -/
def eventAccess (s : State) (e : Event) : Option (Nat × Racer) :=
  match e with
  | .accessPart p r _ => some (p, r)
  | _ => (eventRacer s e).map fun x => (x.1, x.2.1)

/-- The PE and the agent that an event is an act of, for the agents that access local memory. A privileged write of a register
need not come from the core. -/
def eventAgent (s : State) (e : Event) : Option (Nat × Agent) :=
  match eventAccess s e with
  | some (p, r) => (racerAgent s p r).map fun g => (p, g)
  | none =>
    match e with
    | .clientWrite p _ _ _ priv => if priv then none else some (p, .core)
    | .clientRead p _ _ => some (p, .core)
    | .setCoreWaiting p _ => some (p, .core)
    | .accelContext p _ _ => some (p, .accelerator)
    | .accelStateSize p _ => some (p, .accelerator)
    | _ => none

/-! ### The bytes of a local memory -/

/-- The local memory of the PE at a place. -/
def memoryAt (s : State) (p : Nat) : Memory :=
  match s.pes[p]? with
  | some pe => pe.mem
  | none => []

/-- A memory with some bytes replaced; of an address given twice, the first. -/
def putBytes (m : Memory) : List Host.Cell → Memory
  | [] => m
  | c :: cs => writeByte (putBytes m cs) c.1 c.2

/-- The bytes a memory holds at some addresses. -/
def cellsAt (m : Memory) (addrs : List Nat) : List Host.Cell := addrs.map fun a => (a, readByte m a)

/-- The system with some bytes of the local memory of the PE at a place replaced. -/
def withBytes (s : State) (p : Nat) (cells : List Host.Cell) : State :=
  match s.pes[p]? with
  | some pe => { s with pes := s.pes.set p { pe with mem := putBytes pe.mem cells } }
  | none => s

/-- Whether a racer's step stores to an address: the byte there is afterwards the same whatever it was before. -/
def storesTo (p : Nat) (r : Racer) (s : State) (a : Nat) : Bool :=
  match runRacer p r s, runRacer p r (withBytes s p [(a, readByte (memoryAt s p) a + 1#8)]) with
  | .next t, .next u => readByte (memoryAt t p) a == readByte (memoryAt u p) a
  | _, _ => false

/-- The byte that a racer's step stores at an address, if it stores there. -/
def plannedByte (p : Nat) (r : Racer) (s : State) (a : Nat) : Option Byte :=
  match runRacer p r s with
  | .next t => if storesTo p r s a then some (readByte (memoryAt t p) a) else none
  | _ => none

/-! ### Accesses that are single-copy atomic -/

/-- Whether an access is an aligned 8-byte access to the flag word (R86, 10_state.md R72). That the word at `RCTMUX_FLAGS` is
the flag word also on a PE without a context-switch engine, so that an 8-byte access to it is single-copy atomic there too, is
a DESIGN CHOICE, unsafe (log 34). -/
def isFlagWord (pe : Pe) (addr : Word) (n : Nat) : Bool :=
  addr == pe.cfg.rctmuxFlags && n == 8

/-- Whether the translated range of a chunk is the flag word. -/
def rangesFlagWord (pe : Pe) : List PhysRange → Bool
  | [r] => isFlagWord pe r.pa r.len
  | _ => false

/-- Whether step A of a chunk reads exactly the flag word (42_transfer_unit.md R284). -/
def chunkFlagAccess (pe : Pe) : Bool :=
  match pe.xfer with
  | some x =>
    match translate .cmd (localPart pe.cfg x).1 (localPart pe.cfg x).2 { r := true, w := false, x := false } pe with
    | .ok _ ranges => rangesFlagWord pe ranges
    | _ => false
  | none => false

/-- Whether the context-switch engine's step accesses exactly the flag word: CHECK, SAVE_DONE and RESTORE_DONE do
(45_ctxswitch.md R385, R391, R396), and a local chunk may. -/
def ctxFlagAccess (pe : Pe) : Bool :=
  match pe.session with
  | some c =>
    c.state == .check || c.state == .saveDone || c.state == .restoreDone ||
      (c.state.isLocal && isFlagWord pe (pe.cfg.bufferAddr + c.byteOffset) (localChunk pe.cfg c))
  | none => false

/-- Whether a racer at the PE `pe` accesses exactly the flag word, so that its access is single-copy atomic (R86). -/
def flagAccess (pe : Pe) : Racer → Bool
  | .engine => false
  | .transfer => chunkFlagAccess pe
  | .ctxSwitch => ctxFlagAccess pe
  | .request b => isFlagWord pe (packetHead b).addr (packetHead b).size.toNat
  | .response _ _ =>
    match pe.xfer with
    | some x => rangesFlagWord pe x.pas
    | none => false
  | .coreStore addr bytes => isFlagWord pe addr bytes.length
  | .schedulerWrite _ => true
  | .accelExtra off bytes =>
    match pe.session with
    | some c => isFlagWord pe (accelExtraAddr pe c off) bytes.length
    | none => false

/-! ### Accesses in progress -/

/-- Whether step A of a chunk may read local memory now: its ranges are known (42_transfer_unit.md R284). -/
def chunkMayRead (pe : Pe) : Bool :=
  match pe.phase, pe.xfer with
  | .xfer, some x =>
    x.chunkState == .translate && x.type == .localRead &&
      match translate .cmd (localPart pe.cfg x).1 (localPart pe.cfg x).2 { r := true, w := false, x := false } pe with
      | .ok _ _ => true
      | _ => false
  | _, _ => false

/-- Whether a racer at the PE `pe` may be an access in progress: what it acts on has come, and an access to exactly the flag
word has no duration (R86). The accelerator is frozen while it may not run (45_ctxswitch.md R384). -/
def mayOverlap (pe : Pe) (r : Racer) : Bool :=
  !flagAccess pe r &&
    match r with
    | .engine => pe.phase == .execPending
    | .transfer => chunkMayRead pe
    | .ctxSwitch =>
      match pe.session with
      | some c => c.state.isLocal
      | none => false
    | .request _ => true
    | .response _ _ => true
    | .coreStore _ _ => true
    | .schedulerWrite _ => true
    | .accelExtra _ _ =>
      match pe.session with
      | some c => accelMayRun c
      | none => false

/-- The access of an agent in progress at a place, if it has one. -/
def accessOf (l : List OpenAccess) (p : Nat) (g : Agent) : Option OpenAccess :=
  l.find? fun o => o.pe == p && o.agent == g

/-- A racer as an access in progress: as it is, or, where its agent has no such access, as it is when it begins. -/
def underWay (l : List OpenAccess) (p : Nat) (g : Agent) (r : Racer) : OpenAccess :=
  match accessOf l p g with
  | some o => if o.access = r then o else { pe := p, agent := g, access := r, moments := [], stored := [] }
  | none => { pe := p, agent := g, access := r, moments := [], stored := [] }

/-! ### A part of an access, ahead of its step -/

/-- The addresses of `bytes` at which a part of a racer stores: those at which its step would, and none twice. -/
def partAddrs (l : List OpenAccess) (p : Nat) (r : Racer) (bytes : List Nat) (s : State) : List Nat :=
  match s.pes[p]?, racerAgent s p r with
  | some pe, some agent =>
    if mayOverlap pe r then
      bytes.filter fun a =>
        decide (a < pe.cfg.memSize) && !(underWay l p agent r).stored.contains a && (plannedByte p r s a).isSome
    else []
  | _, _ => []

/-- The bytes that a part of a racer stores. -/
def partCells (l : List OpenAccess) (p : Nat) (r : Racer) (bytes : List Nat) (s : State) : List Host.Cell :=
  (partAddrs l p r bytes s).filterMap fun a => (plannedByte p r s a).map (a, ·)

/-- A part of an access (R86), `l` being the accesses in progress: some bytes of its step are stored now. One that may not be
in progress is passed over. -/
def stepPart (p : Nat) (r : Racer) (bytes : List Nat) (l : List OpenAccess) (s : State) : State :=
  withBytes s p (partCells l p r bytes s)

/-! ### The step of an access that overlaps others -/

/-- The part of an event's order that a racer may follow: inside local memory, at moments that there are. -/
def raceOrder (l : List OpenAccess) (p : Nat) (r : Racer) (order : List (Nat × Nat)) (s : State) : List (Nat × Nat) :=
  match s.pes[p]?, racerAgent s p r with
  | some pe, some agent =>
    if mayOverlap pe r then
      order.filter fun x => decide (x.1 < pe.cfg.memSize ∧ x.2 < (underWay l p agent r).moments.length)
    else []
  | _, _ => []

/-- The bytes that an overlapping access finds as they were at other moments than its step. -/
def raceCells (l : List OpenAccess) (p : Nat) (r : Racer) (order : List (Nat × Nat)) (s : State) : List Host.Cell :=
  match racerAgent s p r with
  | some agent =>
    (raceOrder l p r order s).filterMap fun x => ((underWay l p agent r).moments[x.2]?).map fun m => (x.1, readByte m x.1)
  | none => []

/-- The addresses that the step of an overlapping access leaves as they are: it has stored there before, or it only reads
there. -/
def raceKept (l : List OpenAccess) (p : Nat) (r : Racer) (order : List (Nat × Nat)) (s : State) : List Nat :=
  match s.pes[p]?, racerAgent s p r with
  | some pe, some agent =>
    (underWay l p agent r).stored.filter (fun a => decide (a < pe.cfg.memSize)) ++
      ((raceOrder l p r order s).map Prod.fst).filter fun a => !storesTo p r s a
  | _, _ => []

/-- The step of an access that overlaps others (R86), `l` being the accesses in progress: its own step, on the memory with the
bytes that it finds as of other moments, after which local memory is as before where it keeps it. A racer that is no access to
this PE's memory is passed over. -/
def stepRace (p : Nat) (r : Racer) (order : List (Nat × Nat)) (l : List OpenAccess) (s : State) :
    Host.Outcome State Fault Refusal :=
  if (racerAgent s p r).isSome then
    match runRacer p r (withBytes s p (raceCells l p r order s)) with
    | .next t => .next (withBytes t p (cellsAt (memoryAt s p) (raceKept l p r order s)))
    | .fault f => .fault f
    | .refused f => .refused f
  else .next s

/-! ### What a step makes of the accesses in progress -/

/-- An access in progress after an access of an agent to the local memory `m` of the PE at place `p`: overlapped, or, of the
same agent, ended. -/
def overlap (p : Nat) (m : Memory) (agent : Agent) (o : OpenAccess) : Option OpenAccess :=
  if o.pe = p then if o.agent = agent then none else some { o with moments := o.moments ++ [m] } else some o

/-- The accesses in progress after an access of an agent to the local memory of the PE at place `p`. -/
def overlapAll (p : Nat) (pe : Pe) (agent : Agent) (l : List OpenAccess) : List OpenAccess :=
  l.filterMap (overlap p pe.mem agent)

/-- The accesses in progress after the step of an event: other agents' are overlapped, the agent's own is ended, or, after a
part of it, goes on. -/
def accessesAfter (e : Event) (s : State) : List OpenAccess :=
  match eventAccess s e with
  | some (p, r) =>
    match s.pes[p]?, racerAgent s p r with
    | some pe, some agent =>
      match e with
      | .accessPart _ _ bytes =>
        if mayOverlap pe r then
          let o := underWay s.accesses p agent r
          overlapAll p pe agent s.accesses ++ [{ o with stored := o.stored ++ partAddrs s.accesses p r bytes s }]
        else s.accesses
      | _ => overlapAll p pe agent s.accesses
    | _, _ => s.accesses
  | none => s.accesses

end Sys2Proof.Machine
end

