-- ==== Sys2Proof/Machine/Events.lean ====
section
/-! DEFINITION. The step of every event, which event is next, and where an instruction is placed so that the next step
fetches it. -/

namespace Sys2Proof.Machine

/-- The step of an event, `l` being the accesses in progress before it. -/
def runEvent (e : Event) (l : List OpenAccess) (s : State) : Host.Outcome State Fault Refusal :=
  match e with
  | .engine p => stepEngine s p
  | .transfer p => .next (stepPe s p transferStep)
  | .ctxSwitch p => .next (stepPe s p ctxSwitchStep)
  | .deliverRequest k => stepDeliverRequest s k
  | .deliverResponse k => stepDeliverResponse s k
  | .clientWrite p addr width value priv => stepClientWrite s p addr width value priv
  | .clientRead p addr width => stepClientRead s p addr width
  | .coreStore p addr bytes => .next (stepPe s p fun _ pe => coreStoreEffect addr bytes pe)
  | .setCoreWaiting p b => .next (stepPe s p fun _ pe => some { pe := { pe with coreWaiting := b } })
  | .schedulerWrite p v => .next (stepPe s p fun _ pe => schedulerEffect v pe)
  | .accelContext p off bytes => .next (stepPe s p fun _ pe => accelContextEffect off bytes pe)
  | .accelExtra p off bytes => .next (stepPe s p fun _ pe => accelExtraEffect off bytes pe)
  | .accelStateSize p n => .next (stepPe s p fun _ pe => some { pe := { pe with accelStateSize := n } })
  | .cacheRequest p id req => stepCacheRequest s p id req
  | .cacheTranslate p id => .next (stepPe s p fun me pe => cacheTranslateStep me id pe)
  | .walkAnswer p id a => .next (stepPe s p fun me pe => walkAnswerEffect me id a pe)
  | .accessPart p access bytes => .next (stepPart p access bytes l s)
  | .race p access order => stepRace p access order l s

/-! ### Which event is next -/

/-- The event that is chosen: the head of the agenda, or the free schedule's choice. -/
def chosenEvent (s : State) : Event :=
  match s.agenda with
  | e :: _ => e
  | [] => Config.schedule s.turn

/-- Whether an event is a part of an access in progress, or its step as one in progress. -/
def continues (o : OpenAccess) : Event → Bool
  | .accessPart p r _ => p == o.pe && r == o.access
  | .race p r _ => p == o.pe && r == o.access
  | _ => false

/-- Whether an event reads exactly the flag word where an access in progress has stored some of its bytes and has others yet to
store: no other agent's write is seen half-done (20_memory.md R86). -/
def seesHalf (s : State) (e : Event) (o : OpenAccess) : Bool :=
  match s.pes[o.pe]?, eventRacer s e with
  | some pe, some (p, r, _) =>
    let word := (List.range 8).map (pe.cfg.rctmuxFlags.toNat + ·)
    p == o.pe && flagAccess pe r && !(word.any fun a => storesTo p r s a) && (word.any fun a => o.stored.contains a) &&
      word.any fun a => !o.stored.contains a && (plannedByte o.pe o.access s a).isSome
  | _, _ => false

/-- Whether an event would undo what an access in progress has stored: after it the step of the access would not store the same
bytes there. -/
def undoes (s : State) (e : Event) (o : OpenAccess) : Bool :=
  match runEvent e s.accesses s with
  | .next t =>
    racerAgent t o.pe o.access != some o.agent ||
      o.stored.any fun a => plannedByte o.pe o.access t a != plannedByte o.pe o.access s a
  | _ => false

/-- Whether an access in progress that has stored bytes has to be performed before an event: before every other act of its own
agent (R99), before a read that would see its write of the flag word half-done (R86), and before what would undo it. -/
def presses (s : State) (e : Event) (o : OpenAccess) : Bool :=
  !o.stored.isEmpty && racerAgent s o.pe o.access == some o.agent && !continues o e &&
    (eventAgent s e == some (o.pe, o.agent) || seesHalf s e o || undoes s e o)

/-- The access in progress that has to be performed before the chosen event, if there is one. -/
def pressed (s : State) : Option OpenAccess := s.accesses.find? (presses s (chosenEvent s))

/-- The event whose step is taken next: the chosen one, but first the step of an access that has to be performed before it. -/
def nextEvent (s : State) : Event :=
  match pressed s with
  | some o => .race o.pe o.access []
  | none => chosenEvent s

/-- The state with its chosen event consumed. -/
def consumeChoice (s : State) : State :=
  match s.agenda with
  | _ :: rest => { s with agenda := rest }
  | [] => { s with turn := s.turn + 1 }

/-- The state as the next event finds it: the choice is consumed, unless another event has to come first, the outputs of the
step before are gone, and the accesses in progress are as the event leaves them. -/
def takeEvent (s : State) : State :=
  { if (pressed s).isSome then s else consumeChoice s with outputs := [], accesses := accessesAfter (nextEvent s) s }

/-- The PE with a command latched as its client's write would latch it, so that the execute step runs it. -/
def loadCommand (w : Word) (pe : Pe) : Pe :=
  startCommand { pe with command := commandWord (opcodeOf w) (epIdOf w) errNone, xfer := none }

/-- A command word placed where the active PE's engine fetches: an IDLE word as the client's next write, any other
latched and pending. -/
def placeCommand (w : Word) (s : State) : State :=
  match s.pes[s.active]? with
  | none => s
  | some pe =>
    if opcodeOf w = 0#3 then
      { s with agenda := .clientWrite s.active (regAddr pe 1) 8 w false :: s.agenda }
    else
      { s with pes := s.pes.set s.active (loadCommand w pe), agenda := .engine s.active :: s.agenda }

/-- A NoC request placed first among those in flight, its delivery next. -/
def placePacket (bytes : List Byte) (s : State) : State :=
  { s with requests := bytes :: s.requests, agenda := .deliverRequest 0 :: s.agenda }

/-- An instruction placed where the next step fetches it. No access is in progress that would have to be performed first
(log 10). -/
def placeInstruction (f : Format) (bytes : List Byte) (s : State) : State :=
  match f with
  | .cmd => placeCommand (wordAt bytes 0) { s with accesses := [] }
  | .noc => placePacket bytes { s with accesses := [] }

end Sys2Proof.Machine
end

