-- ==== Sys2Proof/Machine/Step.lean ====
section
/-! DEFINITION. One step of the system (00_scope.md R9): one atomic step of the agent that is next. -/

namespace Sys2Proof.Machine

/-- One step: the next event is taken and its agent's step performed. -/
def step (s : State) : Host.Outcome State Fault Refusal :=
  runEvent (nextEvent s) s.accesses (takeEvent s)

/-- The state with an instruction of the opcode table's numbering placed where the next step fetches it. -/
def State.withFetchWord (s : State) (nbits w : Nat) : State :=
  placeInstruction (tableBytes nbits w).1 (tableBytes nbits w).2 s

end Sys2Proof.Machine
end

