-- ==== Sys2Proof/Safety.lean ====
section
/-! DEFINITION. What the claims about runs are stated in: the invariants of the block (40_command_engine.md R218,
20_memory.md R84, 42_transfer_unit.md R280 to R286, 44_translation_unit.md R350 to R359, 45_ctxswitch.md R398,
43_memory_unit.md R338), the boot requirements on a launch, and which PEs an event concerns. Every `…Ok` is a property
of one PE; the system has it when every PE does. -/

namespace Sys2Proof.Machine

/-! ### Invariants -/

/-- The Command Engine's invariant (R218), with the command immutable while it runs (R51, R209). -/
def engineOk (pe : Pe) : Prop :=
  (pe.cmdInProgress = true ↔ pe.phase ≠ .idle) ∧
  statusBusy pe.status = pe.cmdInProgress ∧
  (opcodeOf pe.command ≠ 0#3 ↔ pe.cmdInProgress = true) ∧
  (pe.xfer.isSome = true ↔ pe.phase = .xfer) ∧
  (pe.cmdInProgress = true → pe.command = commandWord pe.cur.opcode pe.cur.epId errNone)

/-- The reserved bits of STATUS (R33) and of COMMAND (R35) read 0. -/
def reservedBitsOk (pe : Pe) : Prop :=
  (∀ i, (3 ≤ i ∧ i < 8) ∨ 24 ≤ i → pe.status.getLsbD i = false) ∧
  (∀ i, (11 ≤ i ∧ i < 16) ∨ 24 ≤ i → pe.command.getLsbD i = false)

/-- Local memory and the context buffer are in canonical form and hold no byte outside their size (R84, R381). -/
def memoryOk (pe : Pe) : Prop :=
  Memory.wf pe.mem ∧ (∀ c ∈ pe.mem, c.1 < pe.cfg.memSize) ∧ Memory.wf pe.ctx ∧
  (∀ s, pe.session = some s → ∀ c ∈ pe.ctx, c.1 < s.contextSize.toNat)

/-- The transfer in flight (R280 to R286): the running offset is that of its chunk index, some bytes remain, a message
is one chunk with a header (R282), and the ranges of a READ chunk that waits for its response lie in local memory
(R285: its write cannot fail). A chunk has at least one byte and a packet's `SIZE` is 64 bits. -/
def transferOk (pe : Pe) : Prop :=
  1 ≤ pe.cfg.chunkLimit ∧ pe.cfg.chunkLimit < 2 ^ 64 ∧
  ∀ x, pe.xfer = some x →
    x.done.toNat = x.chunkIndex.toNat * pe.cfg.chunkLimit ∧ x.done.toNat < x.size.toNat ∧
    (x.kind = .msg →
      x.type = .localRead ∧ x.header.isSome = true ∧ x.done = 0#64 ∧ headerSize ≤ x.size.toNat ∧
      x.size.toNat ≤ pe.cfg.chunkLimit) ∧
    (x.kind = .mem → x.header = none) ∧
    (x.chunkState = .issued → x.type = .localWrite →
      ∀ r ∈ x.pas, r.pa.toNat + r.len ≤ pe.cfg.memSize)

/-- The Translation Unit's state: bounded TLB and queue (R351, R357), one entry per page in the TLB, walk ids distinct
and used before (R356), and everything empty without virtual memory. -/
def translationOk (pe : Pe) : Prop :=
  pe.tlb.length ≤ pe.cfg.tlbEntries ∧ pe.tq.length ≤ pe.cfg.transQueueDepth ∧
  (pe.tlb.map Prod.fst).Nodup ∧ (pe.tq.map WalkRequest.id).Nodup ∧ (∀ q ∈ pe.tq, q.id < pe.walkIds) ∧
  (pe.cfg.vmEnabled = false → pe.tlb = [] ∧ pe.tq = [] ∧ pe.res = [])

/-- The states in which `byteOffset` runs over the context and the extra state (R398). -/
def CtxState.isRemote (st : CtxState) : Bool :=
  st == .saveSend || st == .saveWait || st == .restore || st == .restoreWait

/-- The invariants of the context-switch session (R398). -/
def sessionOk (pe : Pe) : Prop :=
  ∀ c, pe.session = some c →
    c.contextSize = pe.cfg.ctxSize ∧
    (c.state.isLocal = true →
      c.byteOffset.toNat ≤ c.contextSize.toNat ∧
      (c.byteOffset.toNat % pe.cfg.chunkSize = 0 ∨ c.byteOffset = c.contextSize)) ∧
    (c.state.isRemote = true →
      c.byteOffset.toNat ≤ sessionTotal c ∧
      (sessionTotal c < 2 ^ 64 →
        c.byteOffset.toNat % pe.cfg.maxDataSize = 0 ∨ c.byteOffset.toNat = sessionTotal c)) ∧
    (c.state = .wait → c.ctxSwPending = true)

/-- What is in flight is what PEs send (R130, R133): requests that decode, responses with a whole header; and an
outstanding cache request carries the bytes its packet needs (R330). -/
def transportOk (s : State) : Prop :=
  (∀ b ∈ s.requests, ∃ i, decode .noc b = .ok i) ∧ (∀ r ∈ s.responses, 16 ≤ r.bytes.length) ∧
  (∀ pe ∈ s.pes, ∀ e ∈ pe.cacheReqs, e.2.data.length = if e.2.kind = .write then e.2.size.toNat else 0)

/-- The PEs are as many as R7 allows, so that 16-bit ids tell them apart (00_scope.md R7, 10_state.md R78). -/
def peIdsOk (s : State) : Prop :=
  numPeWellFormed s.pes.length = true

/-- Every PE of the system has a property. -/
def everyPe (P : Pe → Prop) (s : State) : Prop := ∀ pe ∈ s.pes, P pe

/-! ### Launches -/

/-- A launch within the constraints of 00_scope.md R7 whose memory and context lie inside their sizes, in canonical
form; a packet's `SIZE` field is 64 bits (30_encoding.md R130). DEDUCED, safe (log 30). -/
def Launch.ok (l : Launch) : Prop :=
  l.cfg.wellFormed l.numEp = true ∧ l.cfg.chunkLimit < 2 ^ 64 ∧
  Memory.wf l.mem ∧ (∀ c ∈ l.mem, c.1 < l.cfg.memSize) ∧
  Memory.wf l.ctx ∧ (∀ c ∈ l.ctx, c.1 < l.cfg.ctxSize.toNat)

/-- A launch of a whole system within the constraints of 00_scope.md R7: `NUM_PE`, and every PE's own. -/
def Launch.systemOk (ls : List Launch) : Prop :=
  numPeWellFormed ls.length = true ∧ ∀ l ∈ ls, l.ok

/-! ### Events and the PEs they concern -/

/-- The PE that an event of one PE belongs to; a delivery belongs to none. -/
def eventPe : Event → Option Nat
  | .engine p => some p
  | .transfer p => some p
  | .ctxSwitch p => some p
  | .deliverRequest _ => none
  | .deliverResponse _ => none
  | .clientWrite p _ _ _ _ => some p
  | .clientRead p _ _ => some p
  | .coreStore p _ _ => some p
  | .setCoreWaiting p _ => some p
  | .schedulerWrite p _ => some p
  | .accelContext p _ _ => some p
  | .accelExtra p _ _ => some p
  | .accelStateSize p _ => some p
  | .cacheRequest p _ _ => some p
  | .cacheTranslate p _ => some p
  | .walkAnswer p _ _ => some p
  | .accessPart p _ _ => some p
  | .race p _ _ => some p

/-- The PE that the delivery of an event goes to, if it is one: the request's `DST_PE` (43_memory_unit.md R338), or the
PE that sent the request a response answers. -/
def deliveredTo (s : State) : Event → Option Nat
  | .deliverRequest k => (s.requests[k]?).map fun b => (packetHead b).dstPe.toNat
  | .deliverResponse k => (s.responses[k]?).map fun r => r.dest.toNat
  | _ => none

/-- Whether an event concerns the PE at a place. -/
def concerns (s : State) (e : Event) (p : Nat) : Prop :=
  eventPe e = some p ∨ deliveredTo s e = some p

/-- The PE an output is of (60_exceptions.md R511). -/
def outputPe : Output → PeId
  | .wakeup pe => pe
  | .notYet pe => pe
  | .switched pe => pe
  | .cacheAnswer pe _ _ _ => pe
  | .regValue pe _ _ => pe

/-- Whether an event is a privileged register write, the only way endpoint configuration changes (10_state.md R45). -/
def eventPrivileged : Event → Bool
  | .clientWrite _ _ _ _ priv => priv
  | _ => false

/-- Whether an event takes a step of the context-switch engine of the PE at place `p`, also one that overlaps other accesses. -/
def stepsCtxSwitch (p : Nat) : Event → Bool
  | .ctxSwitch q => q == p
  | .race q access _ => q == p && access == .ctxSwitch
  | _ => false

/-- The next event is `e`, and the PE at place `p` is `pe`. -/
def nextAt (s : State) (e : Event) (p : Nat) (pe : Pe) : Prop := nextEvent s = e ∧ s.pes[p]? = some pe

/-- The response `r` is next to be delivered, from place `k`, to the PE `pe` at place `p`. -/
def responseAt (s : State) (k : Nat) (r : Response) (p : Nat) (pe : Pe) : Prop :=
  nextAt s (.deliverResponse k) p pe ∧ s.responses[k]? = some r ∧ r.dest.toNat = p ∧ 16 ≤ r.bytes.length

/-- The state from which the response at place `k` is taken: the choice consumed, the response gone from the
transport. -/
def withoutResponse (s : State) (k : Nat) : State :=
  { takeEvent s with responses := s.responses.eraseIdx k }

/-! ### Physical ranges (44_translation_unit.md R354) -/

/-- The physical addresses of the bytes of an access, in order, from the ranges it translates to. -/
def rangeAddrs (ranges : List PhysRange) : List Nat :=
  ranges.flatMap fun r => (List.range r.len).map fun i => r.pa.toNat + i

/-! ### Runs of one PE's context-switch engine (45_ctxswitch.md R384) -/

/-- The PE after `n` steps of its context-switch engine, no other agent stepping in between; a step that is not enabled
leaves it. -/
def ctxRun (me : PeId) : Nat → Pe → Pe
  | 0, pe => pe
  | n + 1, pe =>
    match ctxSwitchStep me pe with
    | some e => ctxRun me n e.pe
    | none => pe

/-! ### Chunk lengths (42_transfer_unit.md R282, R298) -/

/-- The number of chunks of a transfer of `S` bytes with chunk limit `C`: `ceil(S/C)`. -/
def chunkCount (S C : Nat) : Nat := (S + C - 1) / C

/-- The lengths of the chunks `0 .. ceil(S/C) - 1`, each `min(C, S - k*C)` (R282). -/
def chunkLengths (S C : Nat) : List Nat := (List.range (chunkCount S C)).map fun k => min C (S - k * C)

end Sys2Proof.Machine
end

