-- ==== Sys2Proof/Certificates/Slice0/Obligations.lean ====
section
/-! DEFINITION. The statements for the provers, from the numbered rules of spec/. A statement about an instruction gives
the whole next state: `commit s p { pe := … }` is `s` with the PE at place `p` replaced and with the packets and outputs
named added, and a PE is written as a record update of the PE before, so what the update does not name is unchanged. -/

section Statements

open Sys2Proof Sys2Proof.Machine

/-! ### Encodings (30_encoding.md) -/

/-- Words written out in 95_test_vectors.md (D-1 to D-9, K-3) decode to the instructions they stand for. -/
def Obligations.WordsOfTheSpecDecode : Prop :=
  decodeCommand 0x19#64 = .send 3#8 ∧ decodeCommand 0x0A#64 = .reply 1#8 ∧ decodeCommand 0x23#64 = .read 4#8 ∧
  decodeCommand 0x24#64 = .write 4#8 ∧ decodeCommand 0x3C#64 = .write 7#8 ∧ decodeCommand 0x3B#64 = .read 7#8 ∧
  decodeCommand 0x0D#64 = .incReadPtr 1#8 ∧
  decodeCommand 0x06#64 = .wakeupCore 0#8 ∧ decodeCommand 0x07FD#64 = .incReadPtr 0xFF#8 ∧
  decodeCommand 0xFFFFFFFFFFFFF806#64 = .wakeupCore 0#8 ∧ decodeCommand 0x0F#64 = .reserved7 1#8 ∧
  decodeCommand 0#64 = .idle 0#8 ∧
  decode .noc
      [0x01#8, 0x00#8, 0x00#8, 0x00#8, 0x01#8, 0x00#8, 0x00#8, 0x00#8,
       0x10#8, 0x40#8, 0x00#8, 0x00#8, 0x00#8, 0x00#8, 0x00#8, 0x00#8,
       0x40#8, 0x00#8, 0x00#8, 0x00#8, 0x00#8, 0x00#8, 0x00#8, 0x00#8,
       0x00#8, 0x00#8, 0x00#8, 0x00#8, 0x00#8, 0x00#8, 0x00#8, 0x00#8] =
    .ok (.readReq { write := false, dstEp := 0, dstPe := 0, srcPe := 1, addr := 0x4010, size := 64, tag := 0 })

/-- Every well-formed instruction, of all sixteen rows and with every operand at every value, is decoded from its own
encoding. -/
def Obligations.DecodeOfEncode : Prop :=
  ∀ i : Instr, i.wellFormed = true → decode i.format (encode i) = .ok i

/-- R130, R131: what the decoder of packets answers is a well-formed packet, and it drops the reserved bits of `W0` and
nothing else: the packet encoded again has the same bytes but for bits 7:4 and 63:48 of its first word, which are 0. -/
def Obligations.EncodeOfDecodedPacket : Prop :=
  ∀ (bytes : List Byte) (i : Instr), decode .noc bytes = .ok i →
    i.wellFormed = true ∧ i.format = .noc ∧
    (encode i).length = bytes.length ∧ (encode i).drop 8 = bytes.drop 8 ∧
    ∀ k, (wordAt (encode i) 0).getLsbD k =
      if (4 ≤ k ∧ k < 8) ∨ 48 ≤ k then false else (wordAt bytes 0).getLsbD k

/-- R127, R128: a header is 24 bytes and is decoded from its own encoding, whatever follows it; reserved bits on receipt
are ignored: encoding again what was decoded gives the 24 bytes with byte 3 and flag bits 7:3 zero. R133, R134: a response's
status, tag and data are read back from its bytes, and a tag's unit and operation id from the tag. -/
def Obligations.HeadersAndResponsesAreReadBack : Prop :=
  (∀ (h : MessageHeader) (rest : List Byte), (encHdr h).length = 24 ∧ decHdr (encHdr h ++ rest) = h) ∧
  (∀ bs : List Byte, 24 ≤ bs.length →
    encHdr (decHdr bs) = ((bs.take 24).set 0 (byteAt bs 0 &&& 7#8)).set 3 0#8) ∧
  (∀ (st : ErrorCode) (tag : Word) (data : List Byte),
    (encodeResponse st tag data).length = 16 + data.length ∧ responseStatus (encodeResponse st tag data) = st ∧
    responseTag (encodeResponse st tag data) = tag ∧ responseData (encodeResponse st tag data) = data) ∧
  ∀ (unit : BitVec 2) (op : OpId), tagUnit (tagWord unit op) = unit ∧ tagOp (tagWord unit op) = op

/-- R135: the words of the packets the formatter builds, as numbers, and the bytes that follow the header. -/
def Obligations.FormatterPackets : Prop :=
  (∀ (me pe : PeId) (ep : EpId) (hdr : MessageHeader) (payload : List Byte) (k : OpId),
    24 + payload.length < 2 ^ 64 →
    pktMsg me pe ep hdr payload k =
      toLE 8 (ep.toNat * 2 ^ 8 + pe.toNat * 2 ^ 16 + me.toNat * 2 ^ 32) ++ toLE 8 0 ++
        toLE 8 (24 + payload.length) ++ toLE 8 k.toNat ++ encHdr hdr ++ payload) ∧
  (∀ (me pe : PeId) (addr : Word) (n : Nat) (k : OpId), n < 2 ^ 64 →
    pktRead me pe addr n k =
      toLE 8 (1 + pe.toNat * 2 ^ 16 + me.toNat * 2 ^ 32) ++ toLE 8 addr.toNat ++ toLE 8 n ++ toLE 8 k.toNat) ∧
  (∀ (me pe : PeId) (addr : Word) (bytes : List Byte) (k : OpId), bytes.length < 2 ^ 64 →
    pktWrite me pe addr bytes k =
      toLE 8 (2 + pe.toNat * 2 ^ 16 + me.toNat * 2 ^ 32) ++ toLE 8 addr.toNat ++ toLE 8 bytes.length ++
        toLE 8 k.toNat ++ bytes) ∧
  (∀ (me : PeId) (func wr : Bool) (pe : PeId) (addr n : Word) (bytes : List Byte) (id : OpId),
    pktCache me func wr pe addr n bytes id =
      toLE 8 ((if func then 4 else 3) + (if wr then 8 else 0) + pe.toNat * 2 ^ 16 + me.toNat * 2 ^ 32) ++
        toLE 8 addr.toNat ++ toLE 8 n.toNat ++ toLE 8 (2 ^ 62 + id.toNat) ++ (if wr then bytes else [])) ∧
  wordAt (pktRead 1#16 2#16 0x100#64 64 0#62) 0 = 0x0000000100020001#64 ∧
  wordAt (pktRead 1#16 2#16 0x100#64 64 0#62) 8 = 0x100#64 ∧
  wordAt (pktRead 1#16 2#16 0x100#64 64 0#62) 16 = 0x40#64 ∧
  wordAt (pktRead 1#16 2#16 0x100#64 64 0#62) 24 = 0#64

/-! ### The register file (10_state.md) -/

/-- R46: the predicates on endpoint ids. R32: a reserved register index reads as 0, and a write to it has no effect. -/
def Obligations.EndpointPredicatesAndReservedIndices : Prop :=
  (∀ (pe : Pe) (e : EpId),
    (validEp pe e = true ↔ e.toNat < pe.eps.length) ∧
    (isSend pe e = true ↔ ∃ v, pe.eps[e.toNat]? = some v ∧ v.cfg0.extractLsb' 0 3 = 1#3) ∧
    (isRecv pe e = true ↔ ∃ v, pe.eps[e.toNat]? = some v ∧ v.cfg0.extractLsb' 0 3 = 2#3) ∧
    (isMem pe e = true ↔ ∃ v, pe.eps[e.toNat]? = some v ∧ v.cfg0.extractLsb' 0 3 = 3#3)) ∧
  ∀ (pe : Pe) (i : Nat) (v : Word) (priv : Bool), i = 7 ∨ 8 + 4 * pe.eps.length ≤ i →
    regRead pe i = 0#64 ∧ regWrite i v priv pe = pe

/-- R34: a write of STATUS clears REJECTED where bit 1 is written 1, and the receive error record where bit 2 is; nothing
else changes, whether or not a command executes. -/
def Obligations.StatusIsWriteOneToClear : Prop :=
  ∀ (pe : Pe) (v : Word) (priv : Bool),
    ∃ w : Word, regWrite 0 v priv pe = { pe with status := w } ∧
      ∀ k, w.getLsbD k =
        if (k = 1 ∧ v.getLsbD 1 = true) ∨ ((k = 2 ∨ (8 ≤ k ∧ k < 24)) ∧ v.getLsbD 2 = true) then false
        else pe.status.getLsbD k

/-- R41, R45, R521: a privileged write of an endpoint register stores all 64 bits and changes no other register, an
unprivileged one has no effect; every register below the endpoints is written alike by both. -/
def Obligations.EndpointRegistersArePrivileged : Prop :=
  ∀ (pe : Pe) (i : Nat) (v : Word),
    (8 ≤ i → regWrite i v false pe = pe) ∧
    (8 ≤ i → i < 8 + 4 * pe.eps.length →
      ∃ eps, regWrite i v true pe = { pe with eps := eps } ∧ eps.length = pe.eps.length ∧
        ∀ j, regRead { pe with eps := eps } j = if j = i then v else regRead pe j) ∧
    (i < 8 → regWrite i v true pe = regWrite i v false pe)

/-- R200, R202: a write of the command group. While a command runs it only sets REJECTED; else an argument register
stores all 64 bits, and COMMAND stores the opcode and the endpoint id with ERROR 0 and starts a command other than IDLE,
which latches the word and the arguments. -/
def Obligations.CommandGroupWrites : Prop :=
  ∀ (pe : Pe) (v : Word) (priv : Bool),
    (pe.cmdInProgress = true → ∀ i, 1 ≤ i → i ≤ 6 →
      regWrite i v priv pe = { pe with status := putBit pe.status 1 true }) ∧
    (pe.cmdInProgress = false →
      regWrite 2 v priv pe = { pe with cmdDataAddr := v } ∧ regWrite 3 v priv pe = { pe with cmdDataSize := v } ∧
      regWrite 4 v priv pe = { pe with cmdOffset := v } ∧ regWrite 5 v priv pe = { pe with cmdReplyEp := v } ∧
      regWrite 6 v priv pe = { pe with cmdReplyLabel := v } ∧
      ∃ w : Word, (∀ k, w.getLsbD k = (decide (k < 11) && v.getLsbD k)) ∧
        regWrite 1 v priv pe =
          if v.extractLsb' 0 3 = 0#3 then { pe with command := w }
          else
            { pe with
              command := w
              cur :=
                { opcode := v.extractLsb' 0 3, epId := v.extractLsb' 3 8, dataAddr := pe.cmdDataAddr
                  dataSize := pe.cmdDataSize, offset := pe.cmdOffset, replyEp := pe.cmdReplyEp.setWidth 8
                  replyLabel := pe.cmdReplyLabel }
              result := 0#8
              cmdInProgress := true
              status := putBit pe.status 0 true
              phase := .execPending })

/-! ### Fetching and running -/

/-- R203, R338: a step runs the decoded instruction. The Command Engine's pending step runs what the latched command word
decodes to, on its PE; the delivery of a request takes it out of the transport and runs the packet its bytes decode to. -/
def Obligations.StepRunsTheDecodedInstruction : Prop :=
  (∀ (s : State) (p : Nat) (pe : Pe) (i : Instr), nextAt s (.engine p) p pe → pe.phase = .execPending →
    decode .cmd (wordBytes (commandWord pe.cur.opcode pe.cur.epId 0#8)) = .ok i →
    step s = exec i { takeEvent s with active := p }) ∧
  ∀ (s : State) (k : Nat) (bytes : List Byte) (i : Instr),
    nextEvent s = .deliverRequest k → s.requests[k]? = some bytes → decode .noc bytes = .ok i →
    step s = exec i { takeEvent s with requests := s.requests.eraseIdx k }

/-- R31, R11, R210: a client's aligned 8-byte write at `DTU_REG_BASE + 8*i`, modulo 2^64, is `RegWrite(i, v, priv)` and its read gives
`RegRead(i)` to the client; a write of an IDLE word to COMMAND runs the instruction IDLE. -/
def Obligations.ClientReachesTheRegisters : Prop :=
  ∀ (s : State) (p : Nat) (pe : Pe) (i : Nat) (v : Word) (priv : Bool),
    i < 2 ^ 61 →
    (nextAt s (.clientRead p (regAddr pe i) 8) p pe →
      step s = .next (commit (takeEvent s) p { pe := pe, outputs := [.regValue (peId p) i (regRead pe i)] })) ∧
    (nextAt s (.clientWrite p (regAddr pe i) 8 v priv) p pe →
      (i = 1 → opcodeOf v = 0#3 → step s = exec (.idle (epIdOf v)) { takeEvent s with active := p }) ∧
      (i ≠ 1 ∨ opcodeOf v ≠ 0#3 → step s = .next (commit (takeEvent s) p { pe := regWrite i v priv pe })))

/-! ### Commands (40_command_engine.md, 41_message_unit.md, 42_transfer_unit.md) -/

/-- R210: IDLE stores its endpoint id and clears ERROR while no command runs, and starts nothing; while one runs it only
sets REJECTED. -/
def Obligations.IdleStoresItsWord : Prop :=
  ∀ (s : State) (pe : Pe) (ep : EpId), s.pes[s.active]? = some pe →
    exec (.idle ep) s =
      .next (commit s s.active
        { pe :=
            if pe.cmdInProgress then { pe with status := putBit pe.status 1 true }
            else { pe with command := ep.setWidth 64 <<< 3 } })

/-- R241, R243, R240, R280: a SEND that passes its checks takes one credit, builds its header and starts the transfer of
header and payload; it changes nothing else. That the record's `remoteAddr`, which no rule fills for a message, is 0 is the
model's choice (log 33). -/
def Obligations.SendStartsItsTransfer : Prop :=
  ∀ (s : State) (pe : Pe) (ep : EpId) (e : Endpoint),
    s.pes[s.active]? = some pe → pe.eps[ep.toNat]? = some e → epType e = 1#3 → epCredits e ≠ 0#16 →
    24 + pe.cur.dataSize.toNat ≤ min (epMaxMsgSize e).toNat pe.cfg.chunkLimit →
    exec (.send ep) s =
      .next (commit s s.active
        { pe :=
            { pe with
              eps := pe.eps.set ep.toNat { e with credit := putField e.credit 0 (epCredits e - 1#16) }
              xfer := some
                { type := .localRead, kind := .msg, localAddr := pe.cur.dataAddr, remotePe := epTargetPe e
                  remoteEp := epTargetEp e, remoteAddr := 0, size := 24#64 + pe.cur.dataSize, done := 0
                  chunkIndex := 0
                  header := some
                    { reply := false, grantCredits := false, replyEnabled := true, senderEpId := ep
                      replyEpId := pe.cur.replyEp, length := pe.cur.dataSize.setWidth 16
                      senderCoreId := peId s.active, label := e.cfg1, replyLabel := pe.cur.replyLabel }
                  chunkState := .translate, pas := [] }
              phase := .xfer } })

/-- R241, R204, R506: the checks of SEND in their order; a failing one only sets the result and ends the command, no
credit is taken and no packet sent. -/
def Obligations.SendChecks : Prop :=
  ∀ (s : State) (pe : Pe) (ep : EpId), s.pes[s.active]? = some pe →
    (isSend pe ep = false →
      exec (.send ep) s = .next (commit s s.active { pe := { pe with result := 2#8, phase := .finishPending } })) ∧
    (isSend pe ep = true → epCredits (epAt pe ep) = 0#16 →
      exec (.send ep) s = .next (commit s s.active { pe := { pe with result := 3#8, phase := .finishPending } })) ∧
    (isSend pe ep = true → epCredits (epAt pe ep) ≠ 0#16 →
      min (epMaxMsgSize (epAt pe ep)).toNat pe.cfg.chunkLimit < 24 + pe.cur.dataSize.toNat →
      exec (.send ep) s = .next (commit s s.active { pe := { pe with result := 6#8, phase := .finishPending } }))

/-- R245, R247, R280: a REPLY that passes its checks sends to the original sender's reply endpoint a header that carries
the original's reply label and names the original sender's endpoint; it changes nothing else and takes no credit. Of a
payload of 2^16 bytes or more the header's 16-bit `length` holds the low bits of the size, the model's choice (log 15), and
so is that the record's `remoteAddr`, which no rule fills for a message, is 0 (log 33). -/
def Obligations.ReplyStartsItsTransfer : Prop :=
  ∀ (s : State) (pe : Pe) (ep : EpId) (e : Endpoint) (orig : MessageHeader) (i : Nat),
    s.pes[s.active]? = some pe → pe.eps[ep.toNat]? = some e → epType e = 2#3 →
    24 + pe.cur.dataSize.toNat ≤ pe.cfg.chunkLimit → pe.cfg.chunkLimit < 2 ^ 64 →
    i < (epNumSlots e).toNat → 0 < (epSlotSize e).toNat →
    pe.cur.offset.toNat = (epBufAddr e).toNat + i * (epSlotSize e).toNat →
    pe.cur.offset.toNat + 24 ≤ pe.cfg.memSize →
    orig = decHdr (readBytes pe.mem pe.cur.offset.toNat 24) → orig.replyEnabled = true →
    exec (.reply ep) s =
      .next (commit s s.active
        { pe :=
            { pe with
              xfer := some
                { type := .localRead, kind := .msg, localAddr := pe.cur.dataAddr, remotePe := orig.senderCoreId
                  remoteEp := orig.replyEpId, remoteAddr := 0, size := 24#64 + pe.cur.dataSize, done := 0
                  chunkIndex := 0
                  header := some
                    { reply := true, grantCredits := true, replyEnabled := false, senderEpId := ep
                      replyEpId := orig.senderEpId, length := pe.cur.dataSize.setWidth 16
                      senderCoreId := peId s.active, label := orig.replyLabel, replyLabel := orig.replyLabel }
                  chunkState := .translate, pas := [] }
              phase := .xfer } })

/-- R245, R204, R506: the checks of REPLY in their order. -/
def Obligations.ReplyChecks : Prop :=
  ∀ (s : State) (pe : Pe) (ep : EpId) (e : Endpoint), s.pes[s.active]? = some pe →
    let fails (code : ErrorCode) : Prop :=
      exec (.reply ep) s = .next (commit s s.active { pe := { pe with result := code, phase := .finishPending } })
    (isRecv pe ep = false → fails 2#8) ∧
    (pe.eps[ep.toNat]? = some e → epType e = 2#3 →
      (pe.cfg.chunkLimit < 24 + pe.cur.dataSize.toNat → fails 6#8) ∧
      (24 + pe.cur.dataSize.toNat ≤ pe.cfg.chunkLimit →
        ((∀ i < (epNumSlots e).toNat, 0 < (epSlotSize e).toNat →
            pe.cur.offset.toNat ≠ (epBufAddr e).toNat + i * (epSlotSize e).toNat) → fails 7#8) ∧
        ((∃ i < (epNumSlots e).toNat, 0 < (epSlotSize e).toNat ∧
            pe.cur.offset.toNat = (epBufAddr e).toNat + i * (epSlotSize e).toNat) →
          (pe.cfg.memSize < pe.cur.offset.toNat + 24 → fails 12#8) ∧
          (pe.cur.offset.toNat + 24 ≤ pe.cfg.memSize →
            (decHdr (readBytes pe.mem pe.cur.offset.toNat 24)).replyEnabled = false → fails 7#8))))

/-- R290, R292, R280, R288: a READ or a WRITE that passes its checks starts its transfer, and one of no bytes completes
at once; neither changes anything else. That the record's `remoteEp`, which no rule fills for a READ or a WRITE, is 0 is
the model's choice (log 33). -/
def Obligations.ReadAndWriteStart : Prop :=
  ∀ (s : State) (pe : Pe) (ep : EpId) (e : Endpoint),
    s.pes[s.active]? = some pe → pe.eps[ep.toNat]? = some e → epType e = 3#3 →
    pe.cur.offset.toNat + pe.cur.dataSize.toNat ≤ e.cfg2.toNat →
    let starts (i : Instr) (type : XferType) : Prop :=
      (pe.cur.dataSize ≠ 0#64 →
        exec i s =
          .next (commit s s.active
            { pe :=
                { pe with
                  xfer := some
                    { type := type, kind := .mem, localAddr := pe.cur.dataAddr, remotePe := epTargetPe e
                      remoteEp := 0, remoteAddr := e.cfg1 + pe.cur.offset, size := pe.cur.dataSize, done := 0
                      chunkIndex := 0, header := none, chunkState := .translate, pas := [] }
                  phase := .xfer } })) ∧
      (pe.cur.dataSize = 0#64 →
        exec i s = .next (commit s s.active { pe := { pe with result := 0#8, phase := .finishPending } }))
    (e.cfg0.getLsbD 3 = true → starts (.read ep) .localWrite) ∧
    (e.cfg0.getLsbD 4 = true → starts (.write ep) .localRead)

/-- R290, R292, R294, R296, R506: the checks of READ and WRITE in their order: the endpoint, the permission, the region
without wrap. -/
def Obligations.ReadAndWriteChecks : Prop :=
  ∀ (s : State) (pe : Pe) (ep : EpId), s.pes[s.active]? = some pe →
    let checks (i : Instr) (permission : Nat) : Prop :=
      let fails (code : ErrorCode) : Prop :=
        exec i s = .next (commit s s.active { pe := { pe with result := code, phase := .finishPending } })
      (isMem pe ep = false → fails 2#8) ∧
      ∀ e, pe.eps[ep.toNat]? = some e → epType e = 3#3 →
        (e.cfg0.getLsbD permission = false → fails 5#8) ∧
        (e.cfg0.getLsbD permission = true →
          e.cfg2.toNat < pe.cur.offset.toNat + pe.cur.dataSize.toNat → fails 4#8)
    checks (.read ep) 3 ∧ checks (.write ep) 4

/-- R212: INC_READ_PTR advances the read pointer of its ring and takes one message off its count; its two checks come
first, in this order. -/
def Obligations.IncReadPtrAdvancesTheRing : Prop :=
  ∀ (s : State) (pe : Pe) (ep : EpId), s.pes[s.active]? = some pe →
    (isRecv pe ep = false →
      exec (.incReadPtr ep) s =
        .next (commit s s.active { pe := { pe with result := 2#8, phase := .finishPending } })) ∧
    ∀ e, pe.eps[ep.toNat]? = some e → epType e = 2#3 →
      (epMsgCount e = 0#16 →
        exec (.incReadPtr ep) s =
          .next (commit s s.active { pe := { pe with result := 13#8, phase := .finishPending } })) ∧
      (epMsgCount e ≠ 0#16 →
        ∃ e' : Endpoint,
          exec (.incReadPtr ep) s =
            .next (commit s s.active
              { pe := { pe with eps := pe.eps.set ep.toNat e', result := 0#8, phase := .finishPending } }) ∧
          e'.cfg0 = e.cfg0 ∧ e'.cfg1 = e.cfg1 ∧ e'.cfg2 = e.cfg2 ∧
          (epRdPtr e').toNat =
            (if (epNumSlots e).toNat = 0 then 0 else ((epRdPtr e).toNat + 1) % (epNumSlots e).toNat) ∧
          (epMsgCount e').toNat = (epMsgCount e).toNat - 1 ∧ epWrPtr e' = epWrPtr e ∧
          ∀ k, 48 ≤ k → e'.credit.getLsbD k = e.credit.getLsbD k)

/-- R214, R216: WAKEUP_CORE completes, opcode 7 ends with UNKNOWN_CMD, whatever the endpoint id; neither changes anything
else. -/
def Obligations.WakeupCoreAndOpcode7End : Prop :=
  ∀ (s : State) (pe : Pe) (ep : EpId), s.pes[s.active]? = some pe →
    exec (.wakeupCore ep) s =
      .next (commit s s.active { pe := { pe with result := 0#8, phase := .finishPending } }) ∧
    exec (.reserved7 ep) s =
      .next (commit s s.active { pe := { pe with result := 1#8, phase := .finishPending } })

/-- R207, R208: the finish step clears the opcode, writes the result into ERROR, leaves the endpoint id, ends the command,
and emits at most one Wakeup: for WAKEUP_CORE, or where it is configured and the core waits. -/
def Obligations.FinishStepReports : Prop :=
  (∀ (s : State) (p : Nat) (pe : Pe), nextAt s (.engine p) p pe → pe.phase = .finishPending →
    ∃ w : Word,
      step s =
        .next (commit (takeEvent s) p
          { pe :=
              { pe with
                command := w, cmdInProgress := false, status := putBit pe.status 0 false, phase := .idle }
            outputs :=
              if pe.cur.opcode = 6#3 ∨ (pe.cfg.wakeupOnCompletion = true ∧ pe.coreWaiting = true) then
                [.wakeup (peId p)]
              else [] }) ∧
      ∀ k, w.getLsbD k =
        if k < 3 then false else if 16 ≤ k ∧ k < 24 then pe.result.getLsbD (k - 16) else pe.command.getLsbD k) ∧
  finishedCommand 0x19#64 errNoCredits = 0x30018#64

/-! ### Served packets (41_message_unit.md, 43_memory_unit.md) -/

/-- R256: a receive error is recorded in STATUS, over an earlier one; nothing else changes, in particular neither
`COMMAND` nor a running command. -/
def Obligations.ReceiveErrorIsRecorded : Prop :=
  ∀ (code : ErrorCode) (ep : EpId) (pe : Pe),
    ∃ w : Word, recvError code ep pe = { pe with status := w } ∧
      ∀ k, w.getLsbD k =
        if k = 2 then true
        else if 8 ≤ k ∧ k < 16 then code.getLsbD (k - 8)
        else if 16 ≤ k ∧ k < 24 then ep.getLsbD (k - 16)
        else pe.status.getLsbD k

/-- R252: a grant adds exactly one credit to a SEND endpoint below its limit, and is recorded as UNEXPECTED_CREDIT
otherwise. -/
def Obligations.GrantAddsOneCredit : Prop :=
  ∀ (pe : Pe) (c : EpId),
    (∀ e, pe.eps[c.toNat]? = some e → epType e = 1#3 → (epCredits e).toNat < (epMaxCredits e).toNat →
      ∃ e' : Endpoint, grantCredit c pe = { pe with eps := pe.eps.set c.toNat e' } ∧
        e'.cfg0 = e.cfg0 ∧ e'.cfg1 = e.cfg1 ∧ e'.cfg2 = e.cfg2 ∧
        (epCredits e').toNat = (epCredits e).toNat + 1 ∧
        ∀ k, 16 ≤ k → e'.credit.getLsbD k = e.credit.getLsbD k) ∧
    (isSend pe c = false ∨ (epMaxCredits (epAt pe c)).toNat ≤ (epCredits (epAt pe c)).toNat →
      grantCredit c pe = recvError 14#8 c pe)

/-- R250, R252, R254, R258: a MESSAGE that passes the checks is stored in slot `WR_PTR` of its ring, after its grant if it
carries one; the ring advances, the answer is NONE, a waiting core is woken, and every byte outside the stored ones stays
as it was. -/
def Obligations.MessageIsStored : Prop :=
  ∀ (s : State) (pe granted : Pe) (e : Endpoint) (h : PacketHead) (payload : List Byte) (a : Nat),
    s.pes[h.dstPe.toNat]? = some pe → pe.eps[h.dstEp.toNat]? = some e → epType e = 2#3 → Memory.wf pe.mem →
    payload.length = h.size.toNat → 24 ≤ h.size.toNat → (decHdr payload).length.toNat = h.size.toNat - 24 →
    h.size.toNat ≤ (epSlotSize e).toNat → (epMsgCount e).toNat < (epNumSlots e).toNat →
    a = (epBufAddr e).toNat + (epWrPtr e).toNat * (epSlotSize e).toNat → a + h.size.toNat ≤ pe.cfg.memSize →
    granted = (if (decHdr payload).grantCredits then grantCredit (decHdr payload).replyEpId pe else pe) →
    ∃ (m : Memory) (e' : Endpoint),
      exec (.message h payload) s =
        .next (commit s h.dstPe.toNat
          { pe := { granted with mem := m, eps := granted.eps.set h.dstEp.toNat e' }
            responses := [{ dest := h.srcPe, bytes := encodeResponse 0#8 h.tag [] }]
            outputs := if pe.coreWaiting then [.wakeup h.dstPe] else [] }) ∧
      (∀ x, readByte m x =
        if a ≤ x ∧ x < a + h.size.toNat then payload.getD (x - a) 0#8 else readByte pe.mem x) ∧
      e'.cfg0 = e.cfg0 ∧ e'.cfg1 = e.cfg1 ∧ e'.cfg2 = e.cfg2 ∧ epRdPtr e' = epRdPtr e ∧
      (epWrPtr e').toNat = ((epWrPtr e).toNat + 1) % (epNumSlots e).toNat ∧
      (epMsgCount e').toNat = (epMsgCount e).toNat + 1 ∧ ∀ k, 48 ≤ k → e'.credit.getLsbD k = e.credit.getLsbD k

/-- R250, R128, R503, R506: the checks on a MESSAGE in their order: malformed before its grant, the others after it; a
rejected message is recorded and answered with the same code, and nothing is stored. -/
def Obligations.MessageChecks : Prop :=
  ∀ (s : State) (pe granted : Pe) (h : PacketHead) (payload : List Byte),
    s.pes[h.dstPe.toNat]? = some pe → payload.length = h.size.toNat →
    granted = (if (decHdr payload).grantCredits then grantCredit (decHdr payload).replyEpId pe else pe) →
    let rejects (by_ : Pe) (code : ErrorCode) : Prop :=
      exec (.message h payload) s =
        .next (commit s h.dstPe.toNat
          { pe := recvError code h.dstEp by_
            responses := [{ dest := h.srcPe, bytes := encodeResponse code h.tag [] }] })
    (h.size.toNat < 24 ∨ (decHdr payload).length.toNat ≠ h.size.toNat - 24 → rejects pe 15#8) ∧
    (24 ≤ h.size.toNat → (decHdr payload).length.toNat = h.size.toNat - 24 →
      (isRecv pe h.dstEp = false → rejects granted 10#8) ∧
      ∀ e, pe.eps[h.dstEp.toNat]? = some e → epType e = 2#3 →
        ((epSlotSize e).toNat < h.size.toNat → rejects granted 6#8) ∧
        (h.size.toNat ≤ (epSlotSize e).toNat →
          ((epNumSlots e).toNat ≤ (epMsgCount e).toNat → rejects granted 11#8) ∧
          ((epMsgCount e).toNat < (epNumSlots e).toNat →
            pe.cfg.memSize <
              (epBufAddr e).toNat + (epWrPtr e).toNat * (epSlotSize e).toNat + h.size.toNat →
            rejects granted 12#8)))

/-- R322, R326, R327: a READ_REQ, and a cache request that reads, is answered with the bytes of physical memory, or with
MEM_OUT_OF_BOUNDS and no data; it changes no PE. -/
def Obligations.ReadsAreServed : Prop :=
  ∀ (s : State) (pe : Pe) (h : PacketHead) (payload : List Byte) (i : Instr),
    s.pes[h.dstPe.toNat]? = some pe →
    i = .readReq h ∨ (h.write = false ∧ (i = .cacheMemReq h payload ∨ i = .cacheMemReqFunc h payload)) →
    (h.size.toNat = 0 ∨ h.addr.toNat + h.size.toNat ≤ pe.cfg.memSize →
      ∃ data : List Byte, data.length = h.size.toNat ∧
        (∀ k < h.size.toNat, data.getD k 0#8 = readByte pe.mem (h.addr.toNat + k)) ∧
        exec i s =
          .next (commit s h.dstPe.toNat
            { pe := pe, responses := [{ dest := h.srcPe, bytes := encodeResponse 0#8 h.tag data }] })) ∧
    (h.size.toNat ≠ 0 → pe.cfg.memSize < h.addr.toNat + h.size.toNat →
      exec i s =
        .next (commit s h.dstPe.toNat
          { pe := pe, responses := [{ dest := h.srcPe, bytes := encodeResponse 12#8 h.tag [] }] }))

/-- R324, R326, R327: a WRITE_REQ, and a cache request that writes, replaces exactly the bytes it names and is answered
NONE, or writes nothing and is answered MEM_OUT_OF_BOUNDS. -/
def Obligations.WritesAreServed : Prop :=
  ∀ (s : State) (pe : Pe) (h : PacketHead) (payload : List Byte) (i : Instr),
    s.pes[h.dstPe.toNat]? = some pe → Memory.wf pe.mem → payload.length = h.size.toNat →
    i = .writeReq h payload ∨ (h.write = true ∧ (i = .cacheMemReq h payload ∨ i = .cacheMemReqFunc h payload)) →
    (h.size.toNat = 0 ∨ h.addr.toNat + h.size.toNat ≤ pe.cfg.memSize →
      ∃ m : Memory,
        exec i s =
          .next (commit s h.dstPe.toNat
            { pe := { pe with mem := m }
              responses := [{ dest := h.srcPe, bytes := encodeResponse 0#8 h.tag [] }] }) ∧
        ∀ x, readByte m x =
          if h.addr.toNat ≤ x ∧ x < h.addr.toNat + h.size.toNat then payload.getD (x - h.addr.toNat) 0#8
          else readByte pe.mem x) ∧
    (h.size.toNat ≠ 0 → pe.cfg.memSize < h.addr.toNat + h.size.toNat →
      exec i s =
        .next (commit s h.dstPe.toNat
          { pe := pe, responses := [{ dest := h.srcPe, bytes := encodeResponse 12#8 h.tag [] }] }))

/-- R328: a request of a reserved type is answered MALFORMED with no other effect. -/
def Obligations.ReservedPacketsAreMalformed : Prop :=
  ∀ (s : State) (pe : Pe) (h : PacketHead) (body : List Byte) (i : Instr),
    s.pes[h.dstPe.toNat]? = some pe → i ∈ [.reservedPkt5 h body, .reservedPkt6 h body, .reservedPkt7 h body] →
    exec i s =
      .next (commit s h.dstPe.toNat
        { pe := pe, responses := [{ dest := h.srcPe, bytes := encodeResponse 15#8 h.tag [] }] })

/-- R339, R338: a packet to a PE that does not exist is answered NOC_ERROR by the transport and changes no PE; any other
is served at its destination alone and answered there, with a status other than NOC_ERROR and with the request's tag,
exactly once. -/
def Obligations.EveryPacketIsAnsweredOnce : Prop :=
  ∀ (s : State) (h : PacketHead) (payload : List Byte) (i : Instr),
    i ∈ [.message h payload, .readReq h, .writeReq h payload, .cacheMemReq h payload, .cacheMemReqFunc h payload,
      .reservedPkt5 h payload, .reservedPkt6 h payload, .reservedPkt7 h payload] →
    (s.pes.length ≤ h.dstPe.toNat →
      exec i s =
        .next { s with responses := s.responses ++ [{ dest := h.srcPe, bytes := encodeResponse 9#8 h.tag [] }] }) ∧
    (h.dstPe.toNat < s.pes.length →
      ∃ (t : State) (pe' : Pe) (status : ErrorCode) (data : List Byte),
        exec i s = .next t ∧ t.pes = s.pes.set h.dstPe.toNat pe' ∧ t.requests = s.requests ∧
        t.responses = s.responses ++ [{ dest := h.srcPe, bytes := encodeResponse status h.tag data }] ∧
        status ≠ 9#8)

/-- R340: serving any packet changes no Command Engine and no Transfer Unit state of any PE: not its command, its
arguments, its phase, its latched command, its result, its transfer or BUSY. -/
def Obligations.ServingLeavesTheCommandEngine : Prop :=
  ∀ (s t : State) (i : Instr), i.format = .noc → exec i s = .next t →
    ∀ (p : Nat) (pe : Pe), s.pes[p]? = some pe →
      ∃ pe', t.pes[p]? = some pe' ∧ pe'.command = pe.command ∧ pe'.cmdDataAddr = pe.cmdDataAddr ∧
        pe'.cmdDataSize = pe.cmdDataSize ∧ pe'.cmdOffset = pe.cmdOffset ∧ pe'.cmdReplyEp = pe.cmdReplyEp ∧
        pe'.cmdReplyLabel = pe.cmdReplyLabel ∧ pe'.cmdInProgress = pe.cmdInProgress ∧ pe'.phase = pe.phase ∧
        pe'.cur = pe.cur ∧ pe'.result = pe.result ∧ pe'.xfer = pe.xfer ∧ pe'.session = pe.session ∧
        pe'.status.getLsbD 0 = pe.status.getLsbD 0

/-! ### The Transfer Unit (42_transfer_unit.md) -/

/-- R284, without virtual memory: step A of a LOCAL_READ chunk reads the chunk's bytes, or a message's payload, and sends
them in one packet, or ends the transfer with MEM_OUT_OF_BOUNDS and sends nothing. That the tag carries the low 62 bits of
the chunk index is the model's reading (log 14); with virtual memory see `TranslationOutcomesAreReported`. -/
def Obligations.LocalReadChunkIsSent : Prop :=
  ∀ (s : State) (p : Nat) (pe : Pe) (x : Xfer) (la n : Nat) (packet : List Byte → List Byte),
    nextAt s (.transfer p) p pe → pe.phase = .xfer → pe.xfer = some x → x.chunkState = .translate →
    x.type = .localRead → pe.cfg.vmEnabled = false →
    (x.kind = .mem ∧ la = (x.localAddr + x.done).toNat ∧ n = chunkLen pe.cfg x ∧
        packet = (fun data => pktWrite (peId p) x.remotePe (x.remoteAddr + x.done) data (x.chunkIndex.setWidth 62))) ∨
      (x.kind = .msg ∧ la = x.localAddr.toNat ∧ n = x.size.toNat - 24 ∧
        ∃ hdr, x.header = some hdr ∧
          packet = (fun data => pktMsg (peId p) x.remotePe x.remoteEp hdr data (x.chunkIndex.setWidth 62))) →
    (n = 0 ∨ la + n ≤ pe.cfg.memSize →
      step s =
        .next (commit (takeEvent s) p
          { pe := { pe with xfer := some { x with chunkState := .issued } }
            requests := [packet (readBytes pe.mem la n)] })) ∧
    (n ≠ 0 → pe.cfg.memSize < la + n →
      step s =
        .next (commit (takeEvent s) p
          { pe := { pe with xfer := none, result := 12#8, phase := .finishPending } }))

/-- R285, without virtual memory: step A of a LOCAL_WRITE chunk checks the whole local destination and sends one READ_REQ,
or ends the transfer with MEM_OUT_OF_BOUNDS and sends nothing. That the tag carries the low 62 bits of the chunk index is
the model's reading (log 14); with virtual memory see `TranslationOutcomesAreReported`. -/
def Obligations.LocalWriteChunkIsRequested : Prop :=
  ∀ (s : State) (p : Nat) (pe : Pe) (x : Xfer) (la : Word) (n : Nat),
    nextAt s (.transfer p) p pe → pe.phase = .xfer → pe.xfer = some x → x.chunkState = .translate →
    x.type = .localWrite → pe.cfg.vmEnabled = false → la = x.localAddr + x.done → n = chunkLen pe.cfg x →
    (la.toNat + n ≤ pe.cfg.memSize →
      step s =
        .next (commit (takeEvent s) p
          { pe := { pe with xfer := some { x with chunkState := .issued, pas := [{ pa := la, len := n }] } }
            requests :=
              [pktRead (peId p) x.remotePe (x.remoteAddr + x.done) n (x.chunkIndex.setWidth 62)] })) ∧
    (pe.cfg.memSize < la.toNat + n →
      step s =
        .next (commit (takeEvent s) p
          { pe := { pe with xfer := none, result := 12#8, phase := .finishPending } }))

/-- R284, R285, R286, R287, R361: the response of the current chunk. An error ends the transfer with that status and
writes nothing; else the data of a READ chunk are written over the ranges that step A found, in order, byte for byte (where
ranges overlap, the later byte stays), and the next chunk begins, or the transfer ends with NONE once the running offset
equals the size. That a response is the chunk's when the low 62 bits of the index agree is the model's reading (log 14), and
so is that data of another length are written as far as they go (log 29). -/
def Obligations.ChunkResponseIsTaken : Prop :=
  ∀ (s : State) (k : Nat) (r : Response) (p : Nat) (pe : Pe) (x : Xfer) (n : Nat) (data : List Byte),
    responseAt s k r p pe → tagUnit (responseTag r.bytes) = 0#2 → pe.phase = .xfer → pe.xfer = some x →
    x.chunkState = .issued → tagOp (responseTag r.bytes) = x.chunkIndex.setWidth 62 → n = chunkLen pe.cfg x →
    data = responseData r.bytes →
    (responseStatus r.bytes ≠ 0#8 →
      step s =
        .next (commit (withoutResponse s k) p
          { pe := { pe with xfer := none, result := responseStatus r.bytes, phase := .finishPending } })) ∧
    (responseStatus r.bytes = 0#8 →
      x.type = .localRead ∨
        (x.type = .localWrite ∧ Memory.wf pe.mem ∧ ∀ piece ∈ x.pas, piece.pa.toNat + piece.len ≤ pe.cfg.memSize) →
      ∃ m : Memory,
        (x.type = .localRead → m = pe.mem) ∧
        (x.type = .localWrite → ∀ a,
          (∀ i < data.length, (rangeAddrs x.pas)[i]? = some a →
            (∀ j, i < j → j < data.length → (rangeAddrs x.pas)[j]? ≠ some a) → readByte m a = data.getD i 0#8) ∧
          ((∀ i < data.length, (rangeAddrs x.pas)[i]? ≠ some a) → readByte m a = readByte pe.mem a)) ∧
        step s =
          .next (commit (withoutResponse s k) p
            { pe :=
                if x.done + BitVec.ofNat 64 n = x.size then
                  { pe with mem := m, xfer := none, result := 0#8, phase := .finishPending }
                else
                  { pe with
                    mem := m
                    xfer := some
                      { x with
                        done := x.done + BitVec.ofNat 64 n, chunkIndex := x.chunkIndex + 1
                        chunkState := .translate } } }))

/-- R289, R332, R134: a response that is not the current chunk's, that names no outstanding cache request, or whose unit
is reserved, is discarded: it leaves the transport and changes nothing else. -/
def Obligations.ForeignResponsesAreDiscarded : Prop :=
  ∀ (s : State) (k : Nat) (r : Response) (p : Nat) (pe : Pe),
    responseAt s k r p pe →
    (tagUnit (responseTag r.bytes) = 0#2 ∧
        (pe.xfer = none ∨
          ∃ x, pe.xfer = some x ∧
            (x.chunkState = .translate ∨ tagOp (responseTag r.bytes) ≠ x.chunkIndex.setWidth 62))) ∨
      (tagUnit (responseTag r.bytes) = 1#2 ∧ ∀ c ∈ pe.cacheReqs, c.1 ≠ tagOp (responseTag r.bytes)) ∨
      tagUnit (responseTag r.bytes) = 2#2 ∨ tagUnit (responseTag r.bytes) = 3#2 →
    step s = .next (withoutResponse s k)

/-- R282, R298: with limit `C`, a transfer of `S` bytes has `ceil(S/C)` chunks, whose lengths sum to `S`, the last one
`S mod C` or `C` when `C` divides `S`; and the transfer in flight is at one of them, of that length. -/
def Obligations.ChunkLengthsSumToTheSize : Prop :=
  (∀ S C : Nat, 1 ≤ C → 0 < S →
    (chunkLengths S C).length = (S + C - 1) / C ∧ (chunkLengths S C).sum = S ∧ (∀ n ∈ chunkLengths S C, 1 ≤ n ∧ n ≤ C) ∧
    (chunkLengths S C).getLast? = some (if S % C = 0 then C else S % C)) ∧
  ∀ (pe : Pe) (x : Xfer), transferOk pe → pe.xfer = some x →
    (chunkLengths x.size.toNat pe.cfg.chunkLimit)[x.chunkIndex.toNat]? = some (chunkLen pe.cfg x)

/-! ### The cache path (43_memory_unit.md) -/

/-- R330, R332: with virtual memory or without, a cache request within the preconditions, with virtual memory also that it
stays in its page, is accepted and kept, and the response of an outstanding one is handed to the cache and the request
removed. Without virtual memory its translate step sends it to `MEM_PE` at its address plus `MEM_OFFSET`. -/
def Obligations.CachePath : Prop :=
  ∀ (s : State) (p : Nat) (pe : Pe) (id : OpId) (req : CacheRequest) (c : CacheEntry),
    c = { kind := req.kind, va := req.va, pa := none, size := req.size, data := req.data
          functional := req.functional } →
    (nextAt s (.cacheRequest p id req) p pe → (∀ d ∈ pe.cacheReqs, d.1 ≠ id) → 1 ≤ req.size.toNat →
      req.size.toNat ≤ pe.cfg.maxNocPacketSize →
      (pe.cfg.vmEnabled = true → req.va.toNat % pe.cfg.pageSize + req.size.toNat ≤ pe.cfg.pageSize) →
      req.data.length = (if req.kind = .write then req.size.toNat else 0) →
      step s = .next (commit (takeEvent s) p { pe := { pe with cacheReqs := pe.cacheReqs ++ [(id, c)] } })) ∧
    (nextAt s (.cacheTranslate p id) p pe → pe.cacheReqs.lookup id = some c → pe.cfg.vmEnabled = false →
      ∃ reqs : List (OpId × CacheEntry),
        step s =
          .next (commit (takeEvent s) p
            { pe := { pe with cacheReqs := reqs }
              requests :=
                [pktCache (peId p) req.functional (req.kind == .write) pe.cfg.memPe (req.va + pe.cfg.memOffset)
                  req.size req.data id] }) ∧
        reqs.lookup id = some { c with pa := some req.va } ∧ ∀ d, d ≠ id → reqs.lookup d = pe.cacheReqs.lookup d) ∧
    ∀ (k : Nat) (r : Response), responseAt s k r p pe → responseTag r.bytes = tagWord 1#2 id →
      (∃ d, (id, d) ∈ pe.cacheReqs) →
      step s =
        .next (commit (withoutResponse s k) p
          { pe := { pe with cacheReqs := pe.cacheReqs.filter fun d => d.1 != id }
            outputs := [.cacheAnswer (peId p) id (responseStatus r.bytes) (responseData r.bytes)] })

/-! ### The Translation Unit (44_translation_unit.md) -/

/-- R354, R356, R357, R362 on an access that lies in one page: a waiting fault is taken, a translation found in `res` or
in the TLB is used if it permits the access and faults at once if not, and a miss waits for the walk it has or for room
in the queue, or enqueues exactly one walk. That the fresh id of the walk is the PE's counter is the model's choice
(log 9), and that the physical address is taken modulo 2^64 its reading (log 16). -/
def Obligations.TranslateInOnePage : Prop :=
  ∀ (pe : Pe) (owner : Owner) (va : Word) (n : Nat) (flags : Access) (v : Nat),
    pe.cfg.vmEnabled = true → 1 ≤ n → v = va.toNat / pe.cfg.pageSize → 1 ≤ pe.cfg.pageSize →
    va.toNat % pe.cfg.pageSize + n ≤ pe.cfg.pageSize → va.toNat + n ≤ 2 ^ 64 →
    let cleared : Pe := { pe with res := pe.res.filter fun r => r.owner != owner }
    (resFaulted pe owner v = true → translate owner va n flags pe = .fault cleared) ∧
    (resFaulted pe owner v = false →
      (∀ e, (resOk pe owner v).or (pe.tlb.lookup v) = some e →
        translate owner va n flags pe =
          if permits e flags then
            .ok cleared
              [{ pa := BitVec.ofNat 64 (e.ppn.toNat * pe.cfg.pageSize + va.toNat % pe.cfg.pageSize), len := n }]
          else .fault cleared) ∧
      ((resOk pe owner v).or (pe.tlb.lookup v) = none →
        translate owner va n flags pe =
          if walkPending pe owner v = true ∨ pe.cfg.transQueueDepth ≤ pe.tq.length then .wait
          else
            .miss
              { pe with
                tq := pe.tq ++
                  [{ id := pe.walkIds, va := BitVec.ofNat 64 (v * pe.cfg.pageSize), flags := flags, owner := owner }]
                walkIds := pe.walkIds + 1 }))

/-- R284, R285, R330, R361, R363, R357: what a translation outcome makes of the step that asked for it, with virtual
memory or without. Success: a LOCAL_READ chunk is read over the ranges in order and sent in one packet, a LOCAL_WRITE chunk
keeps the ranges and sends one READ_REQ, each only if every range lies in local memory, and a cache request keeps its
physical address and is sent to `MEM_PE` at that address plus `MEM_OFFSET`. A fault ends the command's transfer with
TRANSLATION_FAULT, or answers the cache with it and removes the request, and sends nothing; a miss has the walk it enqueued
as its only effect; a wait is no step. That a tag carries the low 62 bits of the chunk index is the model's reading
(log 14). -/
def Obligations.TranslationOutcomesAreReported : Prop :=
  ∀ (s : State) (p : Nat) (pe : Pe),
    (∀ (x : Xfer) (t : Translation),
      nextAt s (.transfer p) p pe → pe.phase = .xfer → pe.xfer = some x → x.chunkState = .translate →
      t =
        (if x.type = .localWrite then
          translate .cmd (x.localAddr + x.done) (chunkLen pe.cfg x) { r := false, w := true, x := false } pe
        else if x.kind = .mem then
          translate .cmd (x.localAddr + x.done) (chunkLen pe.cfg x) { r := true, w := false, x := false } pe
        else translate .cmd x.localAddr (x.size.toNat - 24) { r := true, w := false, x := false } pe) →
      let fails (pe' : Pe) (code : ErrorCode) : Prop :=
        step s =
          .next (commit (takeEvent s) p { pe := { pe' with xfer := none, result := code, phase := .finishPending } })
      (∀ (pe' : Pe) (ranges : List PhysRange) (data : List Byte), t = .ok pe' ranges →
        data = (rangeAddrs ranges).map (readByte pe.mem) →
        (x.type = .localRead →
          ((∃ r ∈ ranges, r.len ≠ 0 ∧ pe.cfg.memSize < r.pa.toNat + r.len) → fails pe' 12#8) ∧
          ((∀ r ∈ ranges, r.len = 0 ∨ r.pa.toNat + r.len ≤ pe.cfg.memSize) →
            let sends (packet : List Byte) : Prop :=
              step s =
                .next (commit (takeEvent s) p
                  { pe := { pe' with xfer := some { x with chunkState := .issued } }, requests := [packet] })
            (x.kind = .mem →
              sends (pktWrite (peId p) x.remotePe (x.remoteAddr + x.done) data (x.chunkIndex.setWidth 62))) ∧
            ∀ hdr, x.kind = .msg → x.header = some hdr →
              sends (pktMsg (peId p) x.remotePe x.remoteEp hdr data (x.chunkIndex.setWidth 62)))) ∧
        (x.type = .localWrite →
          ((∃ r ∈ ranges, pe.cfg.memSize < r.pa.toNat + r.len) → fails pe' 12#8) ∧
          ((∀ r ∈ ranges, r.pa.toNat + r.len ≤ pe.cfg.memSize) →
            step s =
              .next (commit (takeEvent s) p
                { pe := { pe' with xfer := some { x with chunkState := .issued, pas := ranges } }
                  requests :=
                    [pktRead (peId p) x.remotePe (x.remoteAddr + x.done) (chunkLen pe.cfg x)
                      (x.chunkIndex.setWidth 62)] })))) ∧
      (∀ pe', t = .fault pe' → fails pe' 8#8) ∧
      (∀ pe', t = .miss pe' → step s = .next (commit (takeEvent s) p { pe := pe' })) ∧
      (t = .wait → step s = .next (takeEvent s))) ∧
    ∀ (id : OpId) (c : CacheEntry) (t : Translation),
      nextAt s (.cacheTranslate p id) p pe → pe.cacheReqs.lookup id = some c → c.pa = none →
      t = translate (.cache id) c.va c.size.toNat
          { r := c.kind == .read, w := c.kind == .write, x := c.kind == .fetch } pe →
      (∀ (pe' : Pe) (range : PhysRange), t = .ok pe' [range] →
        ∃ reqs : List (OpId × CacheEntry),
          step s =
            .next (commit (takeEvent s) p
              { pe := { pe' with cacheReqs := reqs }
                requests :=
                  [pktCache (peId p) c.functional (c.kind == .write) pe.cfg.memPe (range.pa + pe.cfg.memOffset) c.size
                    c.data id] }) ∧
          reqs.lookup id = some { c with pa := some range.pa } ∧
          ∀ d, d ≠ id → reqs.lookup d = pe.cacheReqs.lookup d) ∧
      (∀ pe', t = .fault pe' →
        step s =
          .next (commit (takeEvent s) p
            { pe := { pe' with cacheReqs := pe'.cacheReqs.filter fun d => d.1 != id }
              outputs := [.cacheAnswer (peId p) id 8#8 []] })) ∧
      (∀ pe', t = .miss pe' → step s = .next (commit (takeEvent s) p { pe := pe' })) ∧
      (t = .wait → step s = .next (takeEvent s))

/-- R354, R361, R356, R357, R362: an access over any number of pages. It goes through the pages of the bytes
`va, va+1, ..., va+n-1` (addresses modulo 2^64) in order. Where every one has a translation that permits the access, the
outcome is `ok`: the `k`-th byte stands at its page's physical page, and the owner's outcomes alone are consumed. Else the
first page without one decides: a waiting fault or a forbidden access faults, and a miss waits or enqueues exactly one walk
for that page. Without virtual memory the outcome is the access itself. That a walk's id is the PE's counter is the model's
choice (log 9), and that a physical address is taken modulo 2^64 its reading (log 16). -/
def Obligations.RangesCoverTheAccess : Prop :=
  ∀ (pe : Pe) (owner : Owner) (va : Word) (n : Nat) (flags : Access),
    (pe.cfg.vmEnabled = false → translate owner va n flags pe = .ok pe [{ pa := va, len := n }]) ∧
    (pe.cfg.vmEnabled = true → pe.cfg.pageSize = 2 ^ pe.cfg.pageSize.log2 →
      let addr (k : Nat) : Nat := (va.toNat + k) % 2 ^ 64
      let page (k : Nat) : Nat := addr k / pe.cfg.pageSize
      let entry (k : Nat) : Option PageEntry := (resOk pe owner (page k)).or (pe.tlb.lookup (page k))
      let ready (k : Nat) : Prop :=
        resFaulted pe owner (page k) = false ∧ ∃ e, entry k = some e ∧ permits e flags = true
      let cleared : Pe := { pe with res := pe.res.filter fun r => r.owner != owner }
      ((∀ k < n, ready k) →
        ∃ ranges : List PhysRange,
          translate owner va n flags pe = .ok (if n = 0 then pe else cleared) ranges ∧
          (ranges.map PhysRange.len).sum = n ∧
          ∀ k < n, ∀ e, entry k = some e →
            (rangeAddrs ranges)[k]? = some ((e.ppn.toNat * pe.cfg.pageSize + addr k % pe.cfg.pageSize) % 2 ^ 64)) ∧
      ∀ k < n, (∀ j < k, ready j) →
        (resFaulted pe owner (page k) = true ∨ (∃ e, entry k = some e ∧ permits e flags = false) →
          translate owner va n flags pe = .fault cleared) ∧
        (resFaulted pe owner (page k) = false → entry k = none →
          translate owner va n flags pe =
            if walkPending pe owner (page k) = true ∨ pe.cfg.transQueueDepth ≤ pe.tq.length then .wait
            else
              .miss
                { pe with
                  tq := pe.tq ++
                    [{ id := pe.walkIds, va := BitVec.ofNat 64 (page k * pe.cfg.pageSize), flags := flags
                       owner := owner }]
                  walkIds := pe.walkIds + 1 }))

/-- R358, R359, R351: the walker's answer takes its request out of the queue and leaves one outcome for its owner: the
translation, which also fills the TLB, when it permits the access, and a fault otherwise, with the TLB untouched. A full
TLB loses at most one entry, any one. That a full TLB which already holds the page loses none is the model's reading of
R351's map (log 8). -/
def Obligations.WalkAnswerResumesOrFaults : Prop :=
  ∀ (s : State) (p : Nat) (pe : Pe) (id : Nat) (q : WalkRequest) (answer : WalkAnswer) (v : Nat),
    nextAt s (.walkAnswer p id answer) p pe → translationOk pe → q ∈ pe.tq → q.id = id →
    v = q.va.toNat / pe.cfg.pageSize →
    let after (outcome : WalkOutcome) (tlb : List (Nat × PageEntry)) (draws : Nat) : Prop :=
      step s =
        .next (commit (takeEvent s) p
          { pe :=
              { pe with
                tq := pe.tq.filter fun w => w.id != id
                res := pe.res ++ [{ owner := q.owner, vpn := v, outcome := outcome }]
                tlb := tlb, draws := draws } })
    (∀ f, answer = .fault f → after .faulted pe.tlb pe.draws) ∧
    (∀ e, answer = .ok e → permits e q.flags = false → after .faulted pe.tlb pe.draws) ∧
    ∀ e, answer = .ok e → permits e q.flags = true →
      ∃ tlb draws, after (.ok e) tlb draws ∧
        (pe.cfg.tlbEntries = 0 → tlb = pe.tlb) ∧
        (0 < pe.cfg.tlbEntries →
          tlb.lookup v = some e ∧ (∀ u, u ≠ v → tlb.lookup u = none ∨ tlb.lookup u = pe.tlb.lookup u) ∧
          ((pe.tlb.lookup v).isSome = true ∨ pe.tlb.length < pe.cfg.tlbEntries →
            ∀ u, u ≠ v → tlb.lookup u = pe.tlb.lookup u) ∧
          ∀ u w, u ≠ v → w ≠ v → (pe.tlb.lookup u).isSome = true → (pe.tlb.lookup w).isSome = true →
            tlb.lookup u = none → tlb.lookup w = none → u = w)

/-! ### The Context-Switch Engine (45_ctxswitch.md) -/

/-- R385, R386, R387, R392: CHECK reads the whole flag word and is stuck where it lies outside local memory; FLAGS takes
the first branch that applies; SAVE latches the size of the extra state; WAIT returns to CHECK. -/
def Obligations.ContextSwitchPolls : Prop :=
  ∀ (s : State) (p : Nat) (pe : Pe) (c : Session), nextAt s (.ctxSwitch p) p pe → pe.session = some c →
    let goes (c' : Session) (outputs : List Output) : Prop :=
      step s = .next (commit (takeEvent s) p { pe := { pe with session := some c' }, outputs := outputs })
    (c.state = .check → pe.cfg.rctmuxFlags.toNat + 8 ≤ pe.cfg.memSize →
      goes
        { c with
          flags := BitVec.ofNat 64 (ofLE (readBytes pe.mem pe.cfg.rctmuxFlags.toNat 8)), state := .flags } []) ∧
    (c.state = .check → pe.cfg.memSize < pe.cfg.rctmuxFlags.toNat + 8 → step s = .next (takeEvent s)) ∧
    (c.state = .flags →
      if c.flags.getLsbD 0 = true then
        goes { c with stateSize := pe.accelStateSize, byteOffset := 0, state := .restore } []
      else if c.flags.getLsbD 1 = true then goes { c with state := .save } []
      else if c.flags.getLsbD 2 = true then goes { c with state := .restoreDone } []
      else if c.ctxSwPending = true then goes { c with state := .wait } []
      else goes { c with state := .check } [.notYet (peId p)]) ∧
    (c.state = .save → goes { c with stateSize := pe.accelStateSize, byteOffset := 0, state := .saveWrite } []) ∧
    (c.state = .wait → goes { c with state := .check } [])

/-- R389, R393, R397: SAVE_SEND and RESTORE issue one command for the next piece of the context, by four register writes
in one step, only when no command runs; when everything is through they go on without one. That the total is an unbounded
sum, also from 2^64 on, is the model's reading (log 21). -/
def Obligations.ContextSwitchIssuesCommands : Prop :=
  ∀ (s : State) (p : Nat) (pe : Pe) (c : Session) (total n : Nat),
    nextAt s (.ctxSwitch p) p pe → pe.session = some c → engineOk pe →
    total = c.contextSize.toNat + c.stateSize.toNat → n = min pe.cfg.maxDataSize (total - c.byteOffset.toNat) →
    let issues (op : BitVec 3) (next : CtxState) : Prop :=
      step s =
        .next (commit (takeEvent s) p
          { pe :=
              { pe with
                cmdDataAddr := pe.cfg.bufferAddr + c.byteOffset
                cmdDataSize := BitVec.ofNat 64 n
                cmdOffset := c.byteOffset
                command := op.setWidth 64 ||| (pe.cfg.contextEp.setWidth 64 <<< 3)
                cur :=
                  { opcode := op, epId := pe.cfg.contextEp, dataAddr := pe.cfg.bufferAddr + c.byteOffset
                    dataSize := BitVec.ofNat 64 n, offset := c.byteOffset
                    replyEp := pe.cmdReplyEp.setWidth 8, replyLabel := pe.cmdReplyLabel }
                result := 0#8
                cmdInProgress := true
                status := putBit pe.status 0 true
                phase := .execPending
                session := some { c with state := next } } })
    let goes (c' : Session) : Prop := step s = .next (commit (takeEvent s) p { pe := { pe with session := some c' } })
    (c.state = .saveSend →
      (total ≤ c.byteOffset.toNat → goes { c with state := .saveDone }) ∧
      (c.byteOffset.toNat < total → pe.status.getLsbD 0 = true → step s = .next (takeEvent s)) ∧
      (c.byteOffset.toNat < total → pe.status.getLsbD 0 = false → issues 4#3 .saveWait)) ∧
    (c.state = .restore →
      (total ≤ c.byteOffset.toNat → goes { c with byteOffset := 0, state := .restoreRead }) ∧
      (c.byteOffset.toNat < total → pe.status.getLsbD 0 = true → step s = .next (takeEvent s)) ∧
      (c.byteOffset.toNat < total → pe.status.getLsbD 0 = false → issues 3#3 .restoreWait))

/-- R390, R394: SAVE_WAIT and RESTORE_WAIT have no step while a command runs; an error of the command is not retried, and
a success moves the offset on, to the next command or to the next state. That the total is an unbounded sum, and that the
64 bits of `byteOffset` hold an offset modulo 2^64, is the model's reading (log 21). -/
def Obligations.ContextSwitchAwaitsItsCommand : Prop :=
  ∀ (s : State) (p : Nat) (pe : Pe) (c : Session) (total off : Nat),
    nextAt s (.ctxSwitch p) p pe → pe.session = some c →
    total = c.contextSize.toNat + c.stateSize.toNat →
    off = c.byteOffset.toNat + min pe.cfg.maxDataSize (total - c.byteOffset.toNat) →
    let goes (c' : Session) : Prop := step s = .next (commit (takeEvent s) p { pe := { pe with session := some c' } })
    (c.state = .saveWait ∨ c.state = .restoreWait → opcodeOf pe.command ≠ 0#3 → step s = .next (takeEvent s)) ∧
    (c.state = .saveWait → opcodeOf pe.command = 0#3 →
      (commandError pe.command ≠ 0#8 → goes { c with state := .saveDone }) ∧
      (commandError pe.command = 0#8 → off < total →
        goes { c with byteOffset := BitVec.ofNat 64 off, state := .saveSend }) ∧
      (commandError pe.command = 0#8 → total ≤ off →
        goes { c with byteOffset := BitVec.ofNat 64 off, state := .saveDone })) ∧
    (c.state = .restoreWait → opcodeOf pe.command = 0#3 →
      (commandError pe.command ≠ 0#8 → goes { c with byteOffset := 0, state := .restoreRead }) ∧
      (commandError pe.command = 0#8 → off < total →
        goes { c with byteOffset := BitVec.ofNat 64 off, state := .restore }) ∧
      (commandError pe.command = 0#8 → total ≤ off → goes { c with byteOffset := 0, state := .restoreRead }))

/-- R391, R396, R382: SAVE_DONE and RESTORE_DONE write DONE_FLAGS over the whole flag word, and no other byte; SAVE_DONE
marks the switch pending, RESTORE_DONE clears the mark and notifies the accelerator. Where the flag word does not lie in
local memory both are stuck: they have no step (D59). -/
def Obligations.ContextSwitchSignalsDone : Prop :=
  ∀ (s : State) (p : Nat) (pe : Pe) (c : Session) (a : Nat),
    nextAt s (.ctxSwitch p) p pe → pe.session = some c → Memory.wf pe.mem → a = pe.cfg.rctmuxFlags.toNat →
    c.state = .saveDone ∨ c.state = .restoreDone →
    (pe.cfg.memSize < a + 8 → step s = .next (takeEvent s)) ∧
    (a + 8 ≤ pe.cfg.memSize →
      ∃ m : Memory,
        (∀ x, readByte m x =
          if a ≤ x ∧ x < a + 8 then pe.cfg.doneFlags.extractLsb' (8 * (x - a)) 8 else readByte pe.mem x) ∧
        step s =
          .next (commit (takeEvent s) p
            (if c.state = .saveDone then
              { pe := { pe with mem := m, session := some { c with ctxSwPending := true, state := .wait } } }
            else
              { pe := { pe with mem := m, session := some { c with ctxSwPending := false, state := .check } }
                outputs := [.switched (peId p)] })))

/-- R388, R395, R398: the two local halves of the round trip of R399. Run alone from the start of SAVE_WRITE, the engine
takes `max(1, ceil(CTX_SIZE / CHUNK_SIZE))` steps to SAVE_SEND, and then the buffer holds the context byte for byte and
every other byte of local memory is as it was; run alone from the start of RESTORE_READ it takes as many to RESTORE_DONE,
and then the context holds the buffer byte for byte and `byteOffset` is the context's size. One step of either state copies
one chunk, from any `byteOffset`, and goes on where the context is through. A chunk of the buffer that does not lie in
local memory leaves either state stuck: it has no step (D59). -/
def Obligations.ContextIsCopiedOutAndBack : Prop :=
  (∀ (me : PeId) (pe : Pe) (c : Session) (size buf steps : Nat),
    pe.session = some c → c.byteOffset = 0#64 → size = c.contextSize.toNat → buf = pe.cfg.bufferAddr.toNat →
    buf + size ≤ pe.cfg.memSize → buf + size ≤ 2 ^ 64 → 1 ≤ pe.cfg.chunkSize →
    steps = max 1 (chunkCount size pe.cfg.chunkSize) → Memory.wf pe.mem → Memory.wf pe.ctx →
    (c.state = .saveWrite →
      ∃ m : Memory,
        ctxRun me steps pe =
          { pe with mem := m, session := some { c with state := .saveSend, byteOffset := 0#64 } } ∧
        ∀ x, readByte m x =
          if buf ≤ x ∧ x < buf + size then readByte pe.ctx (x - buf) else readByte pe.mem x) ∧
    (c.state = .restoreRead →
      ∃ ctx : Memory,
        ctxRun me steps pe =
          { pe with ctx := ctx, session := some { c with state := .restoreDone, byteOffset := c.contextSize } } ∧
        ∀ x, readByte ctx x = if x < size then readByte pe.mem (buf + x) else readByte pe.ctx x)) ∧
  (∀ (s : State) (p : Nat) (pe : Pe) (c : Session) (off n a : Nat),
    nextAt s (.ctxSwitch p) p pe → pe.session = some c → off = c.byteOffset.toNat →
    n = min pe.cfg.chunkSize (c.contextSize.toNat - off) → a = (pe.cfg.bufferAddr + c.byteOffset).toNat →
    Memory.wf pe.mem → Memory.wf pe.ctx →
    let goes (pe' : Pe) : Prop := step s = .next (commit (takeEvent s) p { pe := pe' })
    (c.state = .saveWrite →
      (c.contextSize.toNat ≤ off → goes { pe with session := some { c with byteOffset := 0, state := .saveSend } }) ∧
      (off < c.contextSize.toNat → a + n ≤ pe.cfg.memSize →
        ∃ m : Memory,
          (∀ x, readByte m x =
            if a ≤ x ∧ x < a + n then readByte pe.ctx (off + (x - a)) else readByte pe.mem x) ∧
          goes
            { pe with
              mem := m
              session :=
                some
                  (if off + n = c.contextSize.toNat then { c with byteOffset := 0, state := .saveSend }
                  else { c with byteOffset := BitVec.ofNat 64 (off + n) }) })) ∧
    (c.state = .restoreRead →
      (c.contextSize.toNat ≤ off → goes { pe with session := some { c with state := .restoreDone } }) ∧
      (off < c.contextSize.toNat → a + n ≤ pe.cfg.memSize →
        ∃ ctx : Memory,
          (∀ x, readByte ctx x =
            if off ≤ x ∧ x < off + n then readByte pe.mem (a + (x - off)) else readByte pe.ctx x) ∧
          goes
            { pe with
              ctx := ctx
              session :=
                some
                  (if off + n = c.contextSize.toNat then { c with byteOffset := c.contextSize, state := .restoreDone }
                  else { c with byteOffset := BitVec.ofNat 64 (off + n) }) }))) ∧
  ∀ (s : State) (p : Nat) (pe : Pe) (c : Session),
    nextAt s (.ctxSwitch p) p pe → pe.session = some c → c.state = .saveWrite ∨ c.state = .restoreRead →
    c.byteOffset.toNat < c.contextSize.toNat → 1 ≤ pe.cfg.chunkSize →
    pe.cfg.memSize <
      (pe.cfg.bufferAddr + c.byteOffset).toNat +
        min pe.cfg.chunkSize (c.contextSize.toNat - c.byteOffset.toNat) →
    step s = .next (takeEvent s)

/-! ### The message round trip (41_message_unit.md R260) -/

/-- R260: where PE A's SEND through its endpoint `sep` named the reply endpoint `r` and the reply label `label`, and PE B
replies to the stored message, the reply goes to PE A's endpoint `r`, carries `label` as both its labels, and its
receipt at PE A first grants one credit to `sep` if that endpoint is below its limit. -/
def Obligations.ReplyRoundTrip : Prop :=
  ∀ (a : PeId) (sender sent : Pe) (sep : EpId) (x : Xfer) (hdr : MessageHeader)
    (b : PeId) (replier replied : Pe) (rep : EpId) (y : Xfer),
    sent = sendExecute sep a sender → sent.phase = .xfer → sent.xfer = some x → x.header = some hdr →
    readBytes replier.mem replier.cur.offset.toNat 24 = encHdr hdr →
    replied = replyExecute rep b replier → replied.phase = .xfer → replied.xfer = some y →
    sender.phase ≠ .xfer → replier.phase ≠ .xfer →
    y.remotePe = a ∧ y.remoteEp = sender.cur.replyEp ∧
    ∃ back : MessageHeader, y.header = some back ∧ back.label = sender.cur.replyLabel ∧
      back.replyLabel = sender.cur.replyLabel ∧ back.grantCredits = true ∧ back.replyEpId = sep ∧
      ∀ (h : PacketHead) (payload : List Byte) (receiver : Pe),
        h.size.toNat = 24 + payload.length → back.length.toNat = payload.length →
        receiveMessage h (encHdr back ++ payload) receiver =
          acceptMessage h (encHdr back ++ payload) (grantCredit sep receiver)

/-! ### Invariants and whole-machine rules -/

/-- R600, R76, R218, R398, R7: right after reset, for every launch within the constraints of 00_scope.md R7, every
invariant holds, PE ids tell the PEs apart, and no packet is in flight; the model's reset state is such a launch. -/
def Obligations.ResetMeetsTheInvariants : Prop :=
  (∀ (ls : List Launch) (active : Nat), Launch.systemOk ls →
    everyPe engineOk (State.launch ls active) ∧ everyPe reservedBitsOk (State.launch ls active) ∧
    everyPe memoryOk (State.launch ls active) ∧ everyPe transferOk (State.launch ls active) ∧
    everyPe translationOk (State.launch ls active) ∧ everyPe sessionOk (State.launch ls active) ∧
    transportOk (State.launch ls active) ∧ peIdsOk (State.launch ls active) ∧
    (∀ p q, p < (State.launch ls active).pes.length → q < (State.launch ls active).pes.length →
      peId p = peId q → p = q) ∧
    (State.launch ls active).requests = [] ∧ (State.launch ls active).responses = []) ∧
  ∃ ls active, Launch.systemOk ls ∧ State.reset = State.launch ls active

/-- R218, R51, R33, R35: every step keeps the Command Engine's invariant, and the reserved bits of STATUS and of COMMAND
at 0. -/
def Obligations.EngineInvariantIsKept : Prop :=
  ∀ s t : State, step s = .next t →
    (everyPe engineOk s → everyPe engineOk t) ∧ (everyPe reservedBitsOk s → everyPe reservedBitsOk t)

/-- R84, R280 to R286: every step keeps local memory and the context buffer in canonical form and inside their sizes, and
the invariant of the transfer in flight. -/
def Obligations.MemoryAndTransferInvariantsAreKept : Prop :=
  ∀ s t : State, step s = .next t →
    (everyPe memoryOk s → everyPe memoryOk t) ∧ (everyPe transferOk s → everyPe transferOk t)

/-- R351, R356, R357, R398: every step keeps the TLB and the queue within their bounds, the TLB a map and walk ids fresh,
and every step keeps the invariants of the context-switch session. -/
def Obligations.TranslationAndSessionInvariantsAreKept : Prop :=
  ∀ s t : State, step s = .next t →
    (everyPe translationOk s → everyPe translationOk t) ∧ (everyPe sessionOk s → everyPe sessionOk t)

/-- R130, R133, R330, R603: every step keeps what is in flight well framed; and no step changes the number of PEs, a
parameter of a PE, its number of endpoints, or whether it has a context-switch engine. -/
def Obligations.TransportAndParametersAreKept : Prop :=
  ∀ s t : State, step s = .next t →
    (transportOk s → transportOk t) ∧ t.pes.length = s.pes.length ∧ (peIdsOk s → peIdsOk t) ∧
    ∀ (p : Nat) (pe pe' : Pe), s.pes[p]? = some pe → t.pes[p]? = some pe' →
      pe'.cfg = pe.cfg ∧ pe'.eps.length = pe.eps.length ∧ pe'.session.isSome = pe.session.isSome

/-- R45: a step that is not a privileged register write changes of an endpoint only the engine's fields: `CREDITS` of a
SEND endpoint, and `RD_PTR`, `WR_PTR` and `MSG_COUNT` of a RECEIVE endpoint; an unprivileged register write changes no
endpoint at all. -/
def Obligations.OnlyPrivilegedWritesConfigure : Prop :=
  ∀ s t : State, step s = .next t → eventPrivileged (nextEvent s) = false →
    ∀ (p : Nat) (pe pe' : Pe) (n : Nat) (e e' : Endpoint),
      s.pes[p]? = some pe → t.pes[p]? = some pe' → pe.eps[n]? = some e → pe'.eps[n]? = some e' →
      e'.cfg0 = e.cfg0 ∧ e'.cfg1 = e.cfg1 ∧ e'.cfg2 = e.cfg2 ∧
      (e'.credit = e.credit ∨ epType e = 1#3 ∨ epType e = 2#3) ∧
      (epType e = 1#3 → ∀ k, 16 ≤ k → e'.credit.getLsbD k = e.credit.getLsbD k) ∧
      (epType e = 2#3 → ∀ k, 48 ≤ k → e'.credit.getLsbD k = e.credit.getLsbD k) ∧
      ∀ (q : Nat) (addr : Word) (width : Nat) (v : Word),
        nextEvent s = .clientWrite q addr width v false → e' = e

/-- R261: a step that is not a privileged register write changes `CREDITS` of a SEND endpoint by one at most, and never
takes it above `MAX_CREDITS` nor below 0. -/
def Obligations.CreditsStayWithinTheirLimit : Prop :=
  ∀ s t : State, step s = .next t → eventPrivileged (nextEvent s) = false →
    ∀ (p : Nat) (pe pe' : Pe) (n : Nat) (e e' : Endpoint),
      s.pes[p]? = some pe → t.pes[p]? = some pe' → pe.eps[n]? = some e → pe'.eps[n]? = some e' →
      epType e = 1#3 →
      epMaxCredits e' = epMaxCredits e ∧
      ((epCredits e').toNat = (epCredits e).toNat ∨ (epCredits e').toNat + 1 = (epCredits e).toNat ∨
        ((epCredits e').toNat = (epCredits e).toNat + 1 ∧ (epCredits e).toNat < (epMaxCredits e).toNat)) ∧
      ((epCredits e).toNat ≤ (epMaxCredits e).toNat → (epCredits e').toNat ≤ (epMaxCredits e').toNat)

/-- R384: no step but the engine's own changes the session of an accelerator PE, and outside CHECK and FLAGS, or while a
switch is pending, no step but the engine's own changes the accelerator's context, and the accelerator's stores into its
context and into its extra state, also as an access that overlaps others, or a part of one, change nothing at all. -/
def Obligations.ContextIsFrozenDuringASwitch : Prop :=
  ∀ s t : State, step s = .next t →
    ∀ (p : Nat) (pe pe' : Pe) (c : Session),
      s.pes[p]? = some pe → t.pes[p]? = some pe' → pe.session = some c →
      let frozen : Prop := (c.state ≠ .check ∧ c.state ≠ .flags) ∨ c.ctxSwPending = true
      (stepsCtxSwitch p (nextEvent s) = false → pe'.session = some c ∧ (frozen → pe'.ctx = pe.ctx)) ∧
      (frozen → Memory.wf pe.mem → ∀ (off : Nat) (bytes : List Byte),
        nextEvent s = .accelContext p off bytes ∨ nextEvent s = .accelExtra p off bytes ∨
          (∃ order, nextEvent s = .race p (.accelExtra off bytes) order) ∨
          (∃ addrs, nextEvent s = .accessPart p (.accelExtra off bytes) addrs) →
        t = takeEvent s)

/-- R381, R384, R74, R383: the stores of the environment take effect. While it may run, the accelerator's store into its
context replaces exactly those bytes of the context, and its store into its extra state, at `BUFFER_ADDR + CTX_SIZE`, exactly
those bytes of local memory; so does the core's store at any time, and the scheduler's write replaces the flag word, on a PE
without a context-switch engine too, which is the model's choice (log 32). A store that does not lie in its space is passed
over, the model's choice (log 25). -/
def Obligations.StoresOfTheEnvironmentTakeEffect : Prop :=
  ∀ (s : State) (p : Nat) (pe : Pe) (bytes : List Byte), Memory.wf pe.mem → Memory.wf pe.ctx →
    let written (old new : Memory) (a : Nat) (bs : List Byte) : Prop :=
      ∀ x, readByte new x = if a ≤ x ∧ x < a + bs.length then bs.getD (x - a) 0#8 else readByte old x
    let goes (pe' : Pe) : Prop := step s = .next (commit (takeEvent s) p { pe := pe' })
    (∀ addr : Word, nextAt s (.coreStore p addr bytes) p pe →
      (addr.toNat + bytes.length ≤ pe.cfg.memSize →
        ∃ m, written pe.mem m addr.toNat bytes ∧ goes { pe with mem := m }) ∧
      (bytes ≠ [] → pe.cfg.memSize < addr.toNat + bytes.length → step s = .next (takeEvent s))) ∧
    (∀ v : Word, nextAt s (.schedulerWrite p v) p pe →
      (pe.cfg.rctmuxFlags.toNat + 8 ≤ pe.cfg.memSize →
        ∃ m, written pe.mem m pe.cfg.rctmuxFlags.toNat (toLE 8 v.toNat) ∧ goes { pe with mem := m }) ∧
      (pe.cfg.memSize < pe.cfg.rctmuxFlags.toNat + 8 → step s = .next (takeEvent s))) ∧
    ∀ (c : Session) (off : Nat), pe.session = some c → c.state = .check ∨ c.state = .flags → c.ctxSwPending = false →
      (nextAt s (.accelContext p off bytes) p pe →
        (off + bytes.length ≤ c.contextSize.toNat →
          ∃ ctx, written pe.ctx ctx off bytes ∧ goes { pe with ctx := ctx }) ∧
        (c.contextSize.toNat < off + bytes.length → step s = .next (takeEvent s))) ∧
      (nextAt s (.accelExtra p off bytes) p pe →
        ∀ a, a = (pe.cfg.bufferAddr + c.contextSize + BitVec.ofNat 64 off).toNat →
          (off + bytes.length ≤ pe.accelStateSize.toNat → a + bytes.length ≤ pe.cfg.memSize →
            ∃ m, written pe.mem m a bytes ∧ goes { pe with mem := m }) ∧
          (pe.accelStateSize.toNat < off + bytes.length ∨ (bytes ≠ [] ∧ pe.cfg.memSize < a + bytes.length) →
            step s = .next (takeEvent s)))

/-- R525, R507, R510, R511: a step changes no PE but the one its event concerns, and reaches another PE only by what it
hands to the transport. It emits at most one pulse, report or answer, of that PE. A receive error and a command error never
come in one step: where the receive error record of STATUS changes, COMMAND and the result of the command do not. -/
def Obligations.StepsAreLocal : Prop :=
  ∀ s t : State, step s = .next t →
    (∀ p, ¬ concerns s (nextEvent s) p → t.pes[p]? = s.pes[p]?) ∧
    t.outputs.length ≤ 1 ∧ (∀ o ∈ t.outputs, ∃ p, concerns s (nextEvent s) p ∧ outputPe o = peId p) ∧
    ∀ (p : Nat) (pe pe' : Pe) (k : Nat), s.pes[p]? = some pe → t.pes[p]? = some pe' → k = 2 ∨ (8 ≤ k ∧ k < 24) →
      pe'.status.getLsbD k ≠ pe.status.getLsbD k → pe'.command = pe.command ∧ pe'.result = pe.result

/-- R86, R99, R384: accesses of different agents to one local memory may overlap, for as long as they last: a local read or
write of a chunk, a served packet, the store of a MESSAGE, the read of REPLY, a step of the context-switch engine, a store of
the core, of the scheduler or of the accelerator. A part of an access stores, of the bytes that its step would store, those
that it is given and has not stored before, and changes nothing else; from then on, or from a part that stores nothing, the
access is in progress until its own agent's next one: every other agent's part or step in between overlaps it, and the memory
before each is kept. Its step is its agent's own step on a memory in which each byte of `order` is as before one of those, but
for the bytes that it has stored before. An access that may not overlap, as one to exactly the flag word, has no part. What an
access has stored it performs: it stays in progress, and its step keeps storing those bytes, until that step, over every
event but the step of another access that has to be performed before it. That overlaps are written so is the model's choice
(log 10). -/
def Obligations.EveryAccessMayRace : Prop :=
  (∀ s t : State, step s = .next t → eventAccess s (nextEvent s) = none → t.accesses = s.accesses) ∧
  (∀ (s : State) (p : Nat) (pe : Pe) (r : Racer) (agent : Agent),
    s.pes[p]? = some pe → Memory.wf pe.mem → racerAgent s p r = some agent →
    let may : Prop :=
      flagAccess pe r = false ∧ (r = .engine → pe.phase = .execPending) ∧ (r = .transfer → chunkMayRead pe = true) ∧
      (r = .ctxSwitch → ∃ c, pe.session = some c ∧ c.state.isLocal = true) ∧
      ∀ off bytes, r = .accelExtra off bytes → ∃ c, pe.session = some c ∧ accelMayRun c = true
    let mine : OpenAccess := underWay s.accesses p agent r
    let alone (found : Memory) : Host.Outcome State Fault Refusal :=
      step { s with agenda := [racerEvent s p r], accesses := [], pes := s.pes.set p { pe with mem := found } }
    let stores (a : Nat) (b : Byte) : Prop :=
      storesTo p r s a = true ∧ ∃ t, alone pe.mem = .next t ∧ b = readByte (memoryAt t p) a
    let overlapped (l : List OpenAccess) : Prop :=
      ∀ o ∈ s.accesses,
        (o.pe ≠ p → o ∈ l) ∧ (o.pe = p → o.agent ≠ agent → { o with moments := o.moments ++ [pe.mem] } ∈ l)
    let ended (l : List OpenAccess) : Prop := overlapped l ∧ ∀ o ∈ l, o.pe = p → o.agent ≠ agent
    (∀ (order : List (Nat × Nat)) (t : State), eventRacer s (nextEvent s) = some (p, r, order) → step s = .next t →
      ended t.accesses) ∧
    (∀ bytes : List Nat, nextEvent s = .accessPart p r bytes →
      (¬ may → step s = .next (takeEvent s) ∧ (takeEvent s).accesses = s.accesses) ∧
      (may →
        ∃ (m : Memory) (now : List Nat) (l : List OpenAccess),
          (∀ a, a ∈ now ↔ a ∈ bytes ∧ a < pe.cfg.memSize ∧ a ∉ mine.stored ∧ ∃ b, stores a b) ∧
          (∀ a, (a ∉ now → readByte m a = readByte pe.mem a) ∧ (a ∈ now → stores a (readByte m a))) ∧
          overlapped l ∧ { mine with stored := mine.stored ++ now } ∈ l ∧
          step s = .next { takeEvent s with pes := s.pes.set p { pe with mem := m }, accesses := l })) ∧
    ∀ order : List (Nat × Nat), nextEvent s = .race p r order →
      let ends (followed : List (Nat × Nat)) : Prop :=
        ∃ found : Memory, Memory.wf found ∧
          (∀ a k m, followed.lookup a = some k → mine.moments[k]? = some m → readByte found a = readByte m a) ∧
          (∀ a, followed.lookup a = none → readByte found a = readByte pe.mem a) ∧
          ∀ (t : State) (pe' : Pe), alone found = .next t → t.pes[p]? = some pe' →
            ∃ (m : Memory) (l : List OpenAccess),
              (∀ a, (a ∈ mine.stored ∧ a < pe.cfg.memSize) ∨ storesTo p r s a = false →
                readByte m a = readByte pe.mem a) ∧
              (∀ a, ¬ (a ∈ mine.stored ∧ a < pe.cfg.memSize) → storesTo p r s a = true → stores a (readByte m a)) ∧
              ended l ∧
              step s =
                .next { t with
                  pes := t.pes.set p { pe' with mem := m }, agenda := (takeEvent s).agenda, turn := (takeEvent s).turn
                  accesses := l }
      (may → (∀ x ∈ order, x.1 < pe.cfg.memSize ∧ x.2 < mine.moments.length) → ends order) ∧ (¬ may → ends [])) ∧
  ∀ s t : State, step s = .next t → (∀ pe ∈ s.pes, Memory.wf pe.mem) →
    (∀ o ∈ s.accesses, ∀ o' ∈ s.accesses, o.pe = o'.pe → o.agent = o'.agent → o = o') →
    ∀ o ∈ s.accesses, o.stored ≠ [] → racerAgent s o.pe o.access = some o.agent →
      (∃ order, nextEvent s = .race o.pe o.access order) ∨
      ((∃ o' ∈ t.accesses, o'.pe = o.pe ∧ o'.agent = o.agent ∧ o'.access = o.access ∧ ∀ a ∈ o.stored, a ∈ o'.stored) ∧
        ((racerAgent t o.pe o.access = some o.agent ∧
            ∀ a ∈ o.stored, plannedByte o.pe o.access t a = plannedByte o.pe o.access s a) ∨
          ∃ o' ∈ s.accesses, o' ≠ o ∧ o'.stored ≠ [] ∧ nextEvent s = .race o'.pe o'.access []))

/-- R86, R99: each byte of a race is either agent's. A store of the core is torn against two READ_REQs or reading cache
requests served one after the other: each finds at each byte the one from before the store or the stored one, and none finds
an old byte after a new one; where the store overlaps a served WRITE_REQ or writing cache request, each byte that both store
ends as the one's or the other's; and such a read in progress while two accesses of other agents are performed, a write of the
flag word also, finds each byte as it was before the first, between them, or after both. The scheduler's write of the flag
word and the engine's read of it in CHECK are atomic: the read finds the old word or the new one; and where the core has
stored some bytes of the word, but not all that it stores there, the engine's read comes after the whole store. Two stores of
one agent never race: the one that has begun to store is performed before the other. That overlaps are written so is the
model's choice (log 10). -/
def Obligations.RacingBytesAreEitherAgents : Prop :=
  let fits (pe : Pe) (addr : Word) (n : Nat) : Prop :=
    addr.toNat + n ≤ pe.cfg.memSize ∧ isFlagWord pe addr n = false
  let within (addr : Word) (n a : Nat) : Prop := addr.toNat ≤ a ∧ a < addr.toNat + n
  let answer (h : PacketHead) (data : List Byte) : Response :=
    { dest := h.srcPe, bytes := encodeResponse 0#8 h.tag data }
  let reads (b : List Byte) (h : PacketHead) : Prop :=
    decode .noc b = .ok (.readReq h) ∨
      (h.write = false ∧ ∃ x, decode .noc b = .ok (.cacheMemReq h x) ∨ decode .noc b = .ok (.cacheMemReqFunc h x))
  let writes (b : List Byte) (h : PacketHead) (x : List Byte) : Prop :=
    decode .noc b = .ok (.writeReq h x) ∨
      (h.write = true ∧ (decode .noc b = .ok (.cacheMemReq h x) ∨ decode .noc b = .ok (.cacheMemReqFunc h x)))
  let isStored (m old : Memory) (addr : Word) (bytes : List Byte) : Prop :=
    ∀ x, (within addr bytes.length x → readByte m x = bytes.getD (x - addr.toNat) 0#8) ∧
      (¬ within addr bytes.length x → readByte m x = readByte old x)
  (∀ (s : State) (rest : List Event) (p : Nat) (pe : Pe) (addr : Word) (bytes : List Byte) (at1 at2 : List Nat)
      (b1 b2 : List Byte) (others : List (List Byte)) (h1 h2 : PacketHead),
    s.agenda =
      .accessPart p (.coreStore addr bytes) at1 :: .deliverRequest 0 :: .accessPart p (.coreStore addr bytes) at2 ::
        .deliverRequest 0 :: .race p (.coreStore addr bytes) [] :: rest →
    s.pes[p]? = some pe → s.accesses = [] → Memory.wf pe.mem → fits pe addr bytes.length →
    s.requests = b1 :: b2 :: others → reads b1 h1 → reads b2 h2 →
    h1.dstPe.toNat = p → h2.dstPe.toNat = p → fits pe h1.addr h1.size.toNat → fits pe h2.addr h2.size.toNat →
    (∀ a ∈ at1 ++ at2, within addr bytes.length a) →
    ∃ (m : Memory) (data1 data2 : List Byte),
      isStored m pe.mem addr bytes ∧ data1.length = h1.size.toNat ∧ data2.length = h2.size.toNat ∧
      (∀ j < h1.size.toNat,
        data1.getD j 0#8 = readByte (if h1.addr.toNat + j ∈ at1 then m else pe.mem) (h1.addr.toNat + j)) ∧
      (∀ j < h2.size.toNat,
        data2.getD j 0#8 = readByte (if h2.addr.toNat + j ∈ at1 ++ at2 then m else pe.mem) (h2.addr.toNat + j)) ∧
      Host.Core.run Sys2Proof.core 5 s =
        .next (commit { s with agenda := rest, requests := others, outputs := [] } p
          { pe := { pe with mem := m }, responses := [answer h1 data1, answer h2 data2] })) ∧
  (∀ (s : State) (rest : List Event) (p : Nat) (pe : Pe) (addr : Word) (bytes : List Byte) (early : List Nat)
      (b : List Byte) (others : List (List Byte)) (h : PacketHead) (payload : List Byte),
    s.agenda =
      .accessPart p (.coreStore addr bytes) early :: .deliverRequest 0 :: .race p (.coreStore addr bytes) [] :: rest →
    s.pes[p]? = some pe → s.accesses = [] → Memory.wf pe.mem → fits pe addr bytes.length →
    s.requests = b :: others → writes b h payload → h.dstPe.toNat = p →
    fits pe h.addr h.size.toNat → (∀ a ∈ early, within addr bytes.length a) →
    ∃ m : Memory,
      (∀ x, within addr bytes.length x → (x ∉ early ∨ ¬ within h.addr h.size.toNat x) →
        readByte m x = bytes.getD (x - addr.toNat) 0#8) ∧
      (∀ x, within h.addr h.size.toNat x → (x ∈ early ∨ ¬ within addr bytes.length x) →
        readByte m x = payload.getD (x - h.addr.toNat) 0#8) ∧
      (∀ x, ¬ within addr bytes.length x → ¬ within h.addr h.size.toNat x → readByte m x = readByte pe.mem x) ∧
      Host.Core.run Sys2Proof.core 3 s =
        .next (commit { s with agenda := rest, requests := others, outputs := [] } p
          { pe := { pe with mem := m }, responses := [answer h []] })) ∧
  (∀ (s s1 s2 s3 : State) (rest : List Event) (p : Nat) (pe : Pe) (e1 e2 : Event) (r1 r2 : Racer)
      (o1 o2 : List (Nat × Nat)) (g1 g2 : Agent) (b : List Byte) (h : PacketHead) (order : List (Nat × Nat)),
    s.agenda = .accessPart p (.request b) [] :: e1 :: e2 :: .race p (.request b) order :: rest →
    s.accesses = [] → s.pes[p]? = some pe → b ∈ s.requests → reads b h → h.dstPe.toNat = p →
    fits pe h.addr h.size.toNat →
    step s = .next s1 → step s1 = .next s2 → step s2 = .next s3 → b ∈ s3.requests →
    eventRacer s1 e1 = some (p, r1, o1) → racerAgent s1 p r1 = some g1 → g1 ≠ .memoryUnit →
    eventRacer s2 e2 = some (p, r2, o2) → racerAgent s2 p r2 = some g2 → g2 ≠ .memoryUnit →
    (∀ x ∈ order, x.1 < pe.cfg.memSize ∧ (x.2 = 0 ∨ x.2 = 1)) → Memory.wf (memoryAt s3 p) →
    ∃ data : List Byte, data.length = h.size.toNat ∧
      (∀ j < h.size.toNat, ∃ a, a = h.addr.toNat + j ∧
        (order.lookup a = some 0 → data.getD j 0#8 = readByte (memoryAt s1 p) a) ∧
        (order.lookup a = some 1 → data.getD j 0#8 = readByte (memoryAt s2 p) a) ∧
        (order.lookup a = none → data.getD j 0#8 = readByte (memoryAt s3 p) a)) ∧
      ∃ t : State, step s3 = .next t ∧ t.responses = s3.responses ++ [answer h data] ∧
        ∀ x, readByte (memoryAt t p) x = readByte (memoryAt s3 p) x) ∧
  (∀ (s : State) (rest : List Event) (p : Nat) (pe : Pe) (c : Session) (f : Nat),
    s.pes[p]? = some pe → s.accesses = [] → pe.session = some c → c.state = .check → Memory.wf pe.mem →
    f = pe.cfg.rctmuxFlags.toNat → f + 8 ≤ pe.cfg.memSize →
    let ends (m : Memory) (read : Word) : Prop :=
      Host.Core.run Sys2Proof.core 3 s =
        .next (commit { s with agenda := rest, outputs := [] } p
          { pe := { pe with mem := m, session := some { c with flags := read, state := .flags } } })
    (∀ (v : Word) (bytes : List Nat) (o1 o2 : List (Nat × Nat)),
      ∃ m : Memory, isStored m pe.mem pe.cfg.rctmuxFlags (toLE 8 v.toNat) ∧
        (s.agenda =
            .accessPart p (.schedulerWrite v) bytes :: .race p .ctxSwitch o1 :: .race p (.schedulerWrite v) o2 :: rest →
          ends m (BitVec.ofNat 64 (ofLE (readBytes pe.mem f 8)))) ∧
        (s.agenda =
            .accessPart p .ctxSwitch bytes :: .race p (.schedulerWrite v) o1 :: .race p .ctxSwitch o2 :: rest →
          ends m v)) ∧
    ∀ (addr : Word) (bytes : List Byte) (early : List Nat),
      s.agenda = .accessPart p (.coreStore addr bytes) early :: .ctxSwitch p :: rest →
      fits pe addr bytes.length → (∀ a ∈ early, within addr bytes.length a) →
      (∃ a ∈ early, f ≤ a ∧ a < f + 8) → (∃ a, a ∉ early ∧ within addr bytes.length a ∧ f ≤ a ∧ a < f + 8) →
      ∃ m : Memory, isStored m pe.mem addr bytes ∧ ends m (BitVec.ofNat 64 (ofLE (readBytes m f 8)))) ∧
  ∀ (s : State) (rest : List Event) (p : Nat) (a1 a2 : Word) (b1 b2 : List Byte) (bytes : List Nat)
      (order : List (Nat × Nat)),
    s.agenda = .accessPart p (.coreStore a1 b1) bytes :: .race p (.coreStore a2 b2) order :: rest → s.accesses = [] →
    (bytes = [] →
      Host.Core.run Sys2Proof.core 2 s =
        Host.Core.run Sys2Proof.core 1 { s with agenda := .coreStore p a2 b2 :: rest }) ∧
    ∀ pe : Pe, s.pes[p]? = some pe → Memory.wf pe.mem → fits pe a1 b1.length → fits pe a2 b2.length →
      (a1 ≠ a2 ∨ b1 ≠ b2) → (∃ a ∈ bytes, within a1 b1.length a) →
      ∃ m1 m2 : Memory, isStored m1 pe.mem a1 b1 ∧ isStored m2 m1 a2 b2 ∧
        Host.Core.run Sys2Proof.core 3 s =
          .next (commit { s with agenda := rest, outputs := [] } p { pe := { pe with mem := m2 } })

/-- R83, R330: with a well-framed transport the system stops only at two acts of the environment: a client's access that is
no register access (misplaced in the register window, R83, or outside it, the model's refusal, log 12), and a cache request
that breaks R330's preconditions or, the model's reading, brings another number of bytes than its kind and size ask
(log 13). Every instruction that is run answers a next state. -/
def Obligations.StopsOnlyWhereTheSpecDoes : Prop :=
  ∀ s : State, transportOk s →
    (∃ t, step s = .next t) ∨
    (∃ p addr width v priv pe, nextAt s (.clientWrite p addr width v priv) p pe ∧
      (∀ i, regAccess pe addr width ≠ .index i)) ∨
    (∃ p addr width pe, nextAt s (.clientRead p addr width) p pe ∧ (∀ i, regAccess pe addr width ≠ .index i)) ∨
    ∃ p id req pe, nextAt s (.cacheRequest p id req) p pe ∧ cacheAcceptable id req pe = false

/-- R202, R203, R207, R214, R216: with the engine's steps taken at once, and no access in progress that has stored a part of
its bytes (log 10), a client's write of WAKEUP_CORE, of opcode 7, or of INC_READ_PTR on an endpoint that is no RECEIVE
endpoint, by an idle PE, is complete after two more steps: COMMAND holds the error and the endpoint id, the PE is otherwise as
before but for what was latched, and WAKEUP_CORE has emitted its pulse. -/
def Obligations.ShortCommandsComplete : Prop :=
  ∀ (s : State) (p : Nat) (pe : Pe) (op : BitVec 3) (ep : EpId) (code : ErrorCode) (priv : Bool),
    s.agenda =
      [.clientWrite p (regAddr pe 1) 8 (op.setWidth 64 ||| (ep.setWidth 64 <<< 3)) priv, .engine p, .engine p] →
    (∀ o ∈ s.accesses, o.stored = []) → s.pes[p]? = some pe → engineOk pe → pe.phase = .idle →
    (op = 6#3 ∧ code = 0#8) ∨ (op = 7#3 ∧ code = 1#8) ∨ (op = 5#3 ∧ isRecv pe ep = false ∧ code = 2#8) →
    ∃ (t : State) (pe' : Pe) (cur : LatchedCommand),
      Host.Core.run Sys2Proof.core 3 s = .next t ∧ t.pes = s.pes.set p pe' ∧ t.agenda = [] ∧
      t.requests = s.requests ∧ t.responses = s.responses ∧
      pe' = { pe with
        command := (ep.setWidth 64 <<< 3) ||| (code.setWidth 64 <<< 16), cur := cur, result := code } ∧
      (t.outputs = [.wakeup (peId p)] ↔
        op = 6#3 ∨ (pe.cfg.wakeupOnCompletion = true ∧ pe.coreWaiting = true))

end Statements
end

