-- ==== Sys2Proof/Laws/Bits.lean ====
section
/-! SUPPORT. Laws of bit fields and of byte order: what a field reads after a field was replaced, and that little-endian
writing and reading are inverse. -/

namespace Sys2Proof

/-! ### Bit fields -/

/-- Every bit of a word after a field was replaced: the new bits inside it, the old ones outside. -/
theorem getLsbD_putField (w : Word) (lo : Nat) {len : Nat} (v : BitVec len) (i : Nat) :
    (putField w lo v).getLsbD i =
      (if lo ≤ i ∧ i < lo + len then decide (i < 64) && v.getLsbD (i - lo) else w.getLsbD i) := by
  unfold putField
  by_cases hi : i < 64
  · by_cases h1 : lo ≤ i
    · by_cases h2 : i < lo + len
      · have h3 : i - lo < len := by omega
        have h4 : i - lo < 64 := by omega
        have h5 : ¬ i < lo := by omega
        simp [hi, h1, h2, h3, h5]
      · have h3 : ¬ i - lo < len := by omega
        have h4 : v.getLsbD (i - lo) = false := BitVec.getLsbD_of_ge _ _ (by omega)
        simp [hi, h2, h3, h4]
    · have h5 : i < lo := by omega
      simp [hi, h5, Nat.not_le.mpr h5]
  · have hw : w.getLsbD i = false := BitVec.getLsbD_of_ge _ _ (by omega)
    simp [hi, hw]

/-- The bits of a field. -/
theorem getLsbD_fieldAt (w : Word) (lo len i : Nat) :
    (fieldAt w lo len).getLsbD i = (decide (i < len) && w.getLsbD (lo + i)) := by
  simp [fieldAt]

/-- A field reads what was put into it. -/
@[simp] theorem fieldAt_putField_same (w : Word) (lo : Nat) {len : Nat} (v : BitVec len) (h : lo + len ≤ 64) :
    fieldAt (putField w lo v) lo len = v := by
  apply BitVec.eq_of_getLsbD_eq
  intro i hi
  rw [getLsbD_fieldAt, getLsbD_putField]
  have h1 : lo ≤ lo + i ∧ lo + i < lo + len := by omega
  have h2 : lo + i < 64 := by omega
  simp [hi, h1, h2]

/-- A field reads as before when a field apart from it was replaced. -/
theorem fieldAt_putField_apart (w : Word) (lo lo' : Nat) {len : Nat} (len' : Nat) (v : BitVec len)
    (h : lo' + len' ≤ lo ∨ lo + len ≤ lo') :
    fieldAt (putField w lo v) lo' len' = fieldAt w lo' len' := by
  apply BitVec.eq_of_getLsbD_eq
  intro i hi
  rw [getLsbD_fieldAt, getLsbD_fieldAt, getLsbD_putField]
  have h1 : ¬ (lo ≤ lo' + i ∧ lo' + i < lo + len) := by omega
  simp [h1]

/-- A bit reads as before when a field apart from it was replaced. -/
theorem bitAt_putField_apart (w : Word) (lo i : Nat) {len : Nat} (v : BitVec len) (h : i < lo ∨ lo + len ≤ i) :
    bitAt (putField w lo v) i = bitAt w i := by
  unfold bitAt
  rw [getLsbD_putField]
  have h1 : ¬ (lo ≤ i ∧ i < lo + len) := by omega
  simp [h1]

/-- A bit reads what was put into it. -/
@[simp] theorem bitAt_putBit_same (w : Word) (i : Nat) (b : Bool) (h : i < 64) : bitAt (putBit w i b) i = b := by
  unfold bitAt putBit
  rw [getLsbD_putField]
  simp [h]

/-- A bit reads as before when another bit was replaced. -/
theorem bitAt_putBit_apart (w : Word) (i j : Nat) (b : Bool) (h : j ≠ i) : bitAt (putBit w i b) j = bitAt w j :=
  bitAt_putField_apart w i j _ (by omega)

/-- A field reads as before when a bit outside it was replaced. -/
theorem fieldAt_putBit_apart (w : Word) (i lo len : Nat) (b : Bool) (h : i < lo ∨ lo + len ≤ i) :
    fieldAt (putBit w i b) lo len = fieldAt w lo len :=
  fieldAt_putField_apart w i lo len _ (by omega)

/-- A field of the zero word is zero. -/
@[simp] theorem fieldAt_zero (lo len : Nat) : fieldAt 0#64 lo len = 0#len := by
  apply BitVec.eq_of_getLsbD_eq
  intro i hi
  simp [getLsbD_fieldAt]

/-! ### The command word -/

@[simp] theorem opcodeOf_commandWord (op : BitVec 3) (ep : EpId) (err : ErrorCode) :
    opcodeOf (commandWord op ep err) = op := by
  unfold opcodeOf commandWord
  rw [fieldAt_putField_apart _ _ _ _ _ (by omega), fieldAt_putField_apart _ _ _ _ _ (by omega),
    fieldAt_putField_same _ _ _ (by omega)]

@[simp] theorem epIdOf_commandWord (op : BitVec 3) (ep : EpId) (err : ErrorCode) :
    epIdOf (commandWord op ep err) = ep := by
  unfold epIdOf commandWord
  rw [fieldAt_putField_apart _ _ _ _ _ (by omega), fieldAt_putField_same _ _ _ (by omega)]

/-- The decoder reads a command word's opcode and endpoint id and nothing else (R124). -/
@[simp] theorem decodeCommand_commandWord (op : BitVec 3) (ep : EpId) (err : ErrorCode) :
    decodeCommand (commandWord op ep err) = commandOf op ep := by
  simp [decodeCommand]

/-! ### Tags -/

@[simp] theorem tagUnit_tagWord (u : BitVec 2) (op : OpId) : tagUnit (tagWord u op) = u := by
  unfold tagUnit tagWord
  rw [fieldAt_putField_same _ _ _ (by omega)]

@[simp] theorem tagOp_tagWord (u : BitVec 2) (op : OpId) : tagOp (tagWord u op) = op := by
  unfold tagOp tagWord
  rw [fieldAt_putField_apart _ _ _ _ _ (by omega), fieldAt_putField_same _ _ _ (by omega)]

/-! ### Little-endian bytes -/

@[simp] theorem toLE_length (n v : Nat) : (toLE n v).length = n := by
  induction n generalizing v with
  | zero => rfl
  | succ n ih => simp [toLE, ih]

/-- Reading the bytes that were written gives the number, as far as the bytes hold it. -/
theorem ofLE_toLE (n v : Nat) : ofLE (toLE n v) = v % 256 ^ n := by
  induction n generalizing v with
  | zero => simp [toLE, ofLE, Nat.mod_one]
  | succ n ih =>
    simp only [toLE, ofLE, ih, BitVec.toNat_ofNat]
    rw [show 256 ^ (n + 1) = 256 * 256 ^ n from Nat.pow_succ', Nat.mod_mul]

/-- Bytes that are read and written again are the same bytes. -/
theorem toLE_ofLE (bs : List Byte) : toLE bs.length (ofLE bs) = bs := by
  induction bs with
  | nil => rfl
  | cons b bs ih =>
    have hb : b.toNat < 256 := b.isLt
    have h1 : (b.toNat + 256 * ofLE bs) / 256 = ofLE bs := by omega
    have h2 : BitVec.ofNat 8 (b.toNat + 256 * ofLE bs) = b := by
      apply BitVec.eq_of_toNat_eq
      simp only [BitVec.toNat_ofNat]
      omega
    simp [toLE, ofLE, h1, h2, ih]

@[simp] theorem wordBytes_length (w : Word) : (wordBytes w).length = 8 := toLE_length 8 _

/-- The word that eight bytes after a prefix encode is the word. -/
theorem wordAt_wordBytes (pre rest : List Byte) (w : Word) (i : Nat) (hi : pre.length = i) :
    wordAt (pre ++ (wordBytes w ++ rest)) i = w := by
  subst hi
  have h1 : (pre ++ (wordBytes w ++ rest)).drop pre.length = wordBytes w ++ rest := List.drop_left
  have h2 : (wordBytes w ++ rest).take 8 = wordBytes w := by
    rw [List.take_append_of_le_length (by simp)]
    exact List.take_of_length_le (by simp)
  have h3 : w.toNat % 256 ^ 8 = w.toNat := Nat.mod_eq_of_lt (by have := w.isLt; omega)
  unfold wordAt
  rw [h1, h2, wordBytes, ofLE_toLE, h3]
  exact BitVec.eq_of_toNat_eq (by simp)

/-- The halfword that two bytes after a prefix encode is the halfword. -/
theorem halfAt_toLE (pre rest : List Byte) (v : BitVec 16) (i : Nat) (hi : pre.length = i) :
    halfAt (pre ++ (toLE 2 v.toNat ++ rest)) i = v := by
  subst hi
  have h1 : (pre ++ (toLE 2 v.toNat ++ rest)).drop pre.length = toLE 2 v.toNat ++ rest := List.drop_left
  have h2 : (toLE 2 v.toNat ++ rest).take 2 = toLE 2 v.toNat := by
    rw [List.take_append_of_le_length (by simp)]
    exact List.take_of_length_le (by simp)
  have h3 : v.toNat % 256 ^ 2 = v.toNat := Nat.mod_eq_of_lt (by have := v.isLt; omega)
  unfold halfAt
  rw [h1, h2, ofLE_toLE, h3]
  exact BitVec.eq_of_toNat_eq (by simp)

/-! ### Lengths of encodings -/

@[simp] theorem encHdr_length (h : MessageHeader) : (encHdr h).length = headerSize := by
  simp [encHdr, headerSize]

@[simp] theorem packetHeadBytes_length (t : BitVec 3) (h : PacketHead) : (packetHeadBytes t h).length = 32 := by
  simp [packetHeadBytes]

@[simp] theorem commandBytes_length (op : BitVec 3) (ep : EpId) : (commandBytes op ep).length = 8 := by
  simp [commandBytes]

@[simp] theorem encodeResponse_length (st : ErrorCode) (t : Word) (d : List Byte) :
    (encodeResponse st t d).length = 16 + d.length := by
  simp [encodeResponse]
  omega

end Sys2Proof
end

