-- ==== Sys2Proof/Laws/Memory.lean ====
section
/-! SUPPORT. Laws of a memory: reading after writing, the canonical form is kept by every write, a write lists only
addresses it stores to, and what the checked accesses `memRead`, `memWrite`, `readRanges` and `writeRanges` can do. -/

namespace Sys2Proof.Machine

/-! ### One byte -/

/-- An address below every listed one reads as blank. -/
theorem readByte_of_lt (m : Memory) (a : Nat) (h : ∀ c ∈ m, a < c.1) : readByte m a = blankByte := by
  induction m with
  | nil => rfl
  | cons c m ih =>
    obtain ⟨k, b⟩ := c
    have h1 : a < k := h (k, b) (by simp)
    have h2 : a ≠ k := by omega
    simp [readByte, h2, ih fun c hc => h c (by simp [hc])]

/-- In canonical form, the addresses after the first are greater. -/
theorem wf_tail_lt {k : Nat} {b : Byte} {m : Memory} (h : Memory.wf ((k, b) :: m)) : ∀ c ∈ m, k < c.1 :=
  (List.pairwise_cons.mp h.1).1

/-- In canonical form, so is the rest. -/
theorem wf_tail {c : Host.Cell} {m : Memory} (h : Memory.wf (c :: m)) : Memory.wf m :=
  ⟨(List.pairwise_cons.mp h.1).2, fun d hd => h.2 d (by simp [hd])⟩

/-- The byte at an address after one byte was written: the new one there, the old ones elsewhere. -/
theorem readByte_writeByte (m : Memory) (a : Nat) (b : Byte) (hm : Memory.wf m) (x : Nat) :
    readByte (writeByte m a b) x = if x = a then b else readByte m x := by
  induction m with
  | nil =>
    by_cases hb : b = blankByte <;> by_cases hx : x = a <;> simp [writeByte, readByte, hb, hx]
  | cons c m ih =>
    obtain ⟨k, d⟩ := c
    have hlt := wf_tail_lt hm
    have ih := ih (wf_tail hm)
    by_cases h1 : a < k
    · by_cases hb : b = blankByte
      · by_cases hx : x = a
        · have h2 : readByte ((k, d) :: m) x = blankByte := by
            apply readByte_of_lt
            intro e he
            rcases List.mem_cons.mp he with rfl | he
            · omega
            · have := hlt e he; omega
          simpa [writeByte, h1, hb, hx] using h2
        · simp [writeByte, h1, hb, hx]
      · by_cases hx : x = a <;> simp [writeByte, readByte, h1, hb, hx]
    · by_cases h2 : a = k
      · subst h2
        by_cases hb : b = blankByte
        · by_cases hx : x = a
          · subst hx
            simp [writeByte, hb, readByte_of_lt m x hlt]
          · simp [writeByte, readByte, hb, hx]
        · by_cases hx : x = a <;> simp [writeByte, readByte, hb, hx]
      · by_cases hx : x = a
        · subst hx
          simpa [writeByte, readByte, h1, h2] using ih
        · by_cases h4 : x = k <;> simp [writeByte, readByte, h1, h2, h4, ih, hx]
          intro h5
          omega

/-- Writing the byte that a memory holds leaves the memory. -/
theorem writeByte_readByte (m : Memory) (a : Nat) (hm : Memory.wf m) : writeByte m a (readByte m a) = m := by
  induction m with
  | nil => rfl
  | cons c m ih =>
    obtain ⟨k, b⟩ := c
    have hb : b ≠ blankByte := hm.2 (k, b) (by simp)
    by_cases h1 : a < k
    · have h2 : a ≠ k := by omega
      have h3 : readByte m a = blankByte := readByte_of_lt m a fun c hc => Nat.lt_trans h1 (wf_tail_lt hm c hc)
      simp [writeByte, readByte, h1, h2, h3]
    · by_cases h2 : a = k
      · simp [writeByte, readByte, h2, hb]
      · simp [writeByte, readByte, h1, h2, ih (wf_tail hm)]

/-- A write lists no address that was not listed but the one written. -/
theorem writeByte_mem (m : Memory) (a : Nat) (b : Byte) (c : Host.Cell) (h : c ∈ writeByte m a b) :
    (c.1 = a ∧ c.2 = b ∧ b ≠ blankByte) ∨ c ∈ m := by
  induction m with
  | nil =>
    by_cases hb : b = blankByte
    · simp [writeByte, hb] at h
    · simp [writeByte, hb] at h
      subst h
      exact .inl ⟨rfl, rfl, hb⟩
  | cons d m ih =>
    obtain ⟨k, d⟩ := d
    unfold writeByte at h
    split at h
    · split at h
      · exact .inr h
      · rcases List.mem_cons.mp h with rfl | h
        · exact .inl ⟨rfl, rfl, by assumption⟩
        · exact .inr h
    · split at h
      · split at h
        · exact .inr (by simp [h])
        · rcases List.mem_cons.mp h with rfl | h
          · exact .inl ⟨rfl, rfl, by assumption⟩
          · exact .inr (by simp [h])
      · rcases List.mem_cons.mp h with rfl | h
        · exact .inr (by simp)
        · rcases ih h with h | h
          · exact .inl h
          · exact .inr (by simp [h])

/-- A write of one byte keeps the canonical form. -/
theorem writeByte_wf (m : Memory) (a : Nat) (b : Byte) (hm : Memory.wf m) : Memory.wf (writeByte m a b) := by
  refine ⟨?_, fun c hc => ?_⟩
  · induction m with
    | nil => by_cases hb : b = blankByte <;> simp [writeByte, hb]
    | cons c m ih =>
      obtain ⟨k, d⟩ := c
      have hlt := wf_tail_lt hm
      have ih := ih (wf_tail hm)
      have hp := (wf_tail hm).1
      unfold writeByte
      split
      · split
        · exact hm.1
        · refine List.pairwise_cons.mpr ⟨fun e he => ?_, hm.1⟩
          rcases List.mem_cons.mp he with rfl | he
          · assumption
          · have := hlt e he
            simp only
            omega
      · split
        · subst_vars
          split
          · exact hp
          · exact List.pairwise_cons.mpr ⟨hlt, hp⟩
        · refine List.pairwise_cons.mpr ⟨fun e he => ?_, ih⟩
          rcases writeByte_mem m a b e he with h | h
          · simp only
            omega
          · exact hlt e h
  · rcases writeByte_mem m a b c hc with h | h
    · exact fun hb => h.2.2 (h.2.1 ▸ hb)
    · exact hm.2 c h

/-! ### Byte strings -/

/-- A write of bytes keeps the canonical form. -/
theorem writeBytes_wf (bs : List Byte) (m : Memory) (a : Nat) (hm : Memory.wf m) :
    Memory.wf (writeBytes m a bs) := by
  induction bs generalizing m a with
  | nil => exact hm
  | cons b bs ih => exact ih _ _ (writeByte_wf m a b hm)

/-- A write of bytes lists no address that was not listed but those it stores to. -/
theorem writeBytes_mem (bs : List Byte) (m : Memory) (a : Nat) (c : Host.Cell) (h : c ∈ writeBytes m a bs) :
    (a ≤ c.1 ∧ c.1 < a + bs.length) ∨ c ∈ m := by
  induction bs generalizing m a with
  | nil => exact .inr h
  | cons b bs ih =>
    rcases ih _ _ h with h | h
    · left
      simp only [List.length_cons]
      omega
    · rcases writeByte_mem m a b c h with h | h
      · left
        simp only [List.length_cons]
        omega
      · exact .inr h

/-- The byte at an address after bytes were written: the written ones there, the old ones elsewhere. -/
theorem readByte_writeBytes (bs : List Byte) (m : Memory) (a : Nat) (hm : Memory.wf m) (x : Nat) :
    readByte (writeBytes m a bs) x =
      if a ≤ x ∧ x < a + bs.length then bs.getD (x - a) blankByte else readByte m x := by
  induction bs generalizing m a with
  | nil =>
    have h : ¬ (a ≤ x ∧ x < a) := by omega
    simp [writeBytes, h]
  | cons b bs ih =>
    simp only [writeBytes, ih _ _ (writeByte_wf m a b hm), readByte_writeByte m a b hm, List.length_cons]
    by_cases h1 : x = a
    · subst h1
      simp
    · by_cases h2 : a ≤ x ∧ x < a + (bs.length + 1)
      · have h3 : a + 1 ≤ x ∧ x < a + 1 + bs.length := by omega
        have h4 : x - a = (x - (a + 1)) + 1 := by omega
        rw [if_pos h3, if_pos h2, h4]
        simp
      · have h3 : ¬ (a + 1 ≤ x ∧ x < a + 1 + bs.length) := by omega
        rw [if_neg h3, if_neg h2, if_neg h1]

@[simp] theorem readBytes_length (m : Memory) (a n : Nat) : (readBytes m a n).length = n := by
  induction n generalizing a with
  | zero => rfl
  | succ n ih => simp [readBytes, ih]

/-- The bytes read from an address on. -/
theorem readBytes_getD (m : Memory) (a n i : Nat) (h : i < n) :
    (readBytes m a n).getD i blankByte = readByte m (a + i) := by
  induction n generalizing a i with
  | zero => omega
  | succ n ih =>
    cases i with
    | zero => simp [readBytes]
    | succ i =>
      have := ih (a + 1) i (by omega)
      simp only [readBytes, List.getD_cons_succ, this]
      congr 1
      omega

/-- Bytes read where they were written are the bytes. -/
theorem readBytes_writeBytes (bs : List Byte) (m : Memory) (a : Nat) (hm : Memory.wf m) :
    readBytes (writeBytes m a bs) a bs.length = bs := by
  apply List.ext_getElem (by simp)
  intro i h1 h2
  have h3 := readBytes_getD (writeBytes m a bs) a bs.length i h2
  rw [readByte_writeBytes bs m a hm, if_pos (by omega)] at h3
  rw [← List.getD_eq_getElem _ blankByte h1, ← List.getD_eq_getElem _ blankByte h2, h3]
  congr 1
  omega

/-! ### The checked accesses (20_memory.md R84) -/

/-- What `MemRead` can do. -/
theorem memRead_eq_some {pe : Pe} {a n : Nat} {bs : List Byte} :
    memRead pe a n = some bs ↔ (n = 0 ∨ a + n ≤ pe.cfg.memSize) ∧ bs = readBytes pe.mem a n := by
  simp only [memRead, inLocalMemory, Bool.or_eq_true, decide_eq_true_eq]
  by_cases h : n = 0 ∨ a + n ≤ pe.cfg.memSize
  · rw [if_pos h, Option.some.injEq]
    exact ⟨fun e => ⟨h, e.symm⟩, fun e => e.2.symm⟩
  · rw [if_neg h]
    exact ⟨nofun, fun e => absurd e.1 h⟩

/-- When `MemRead` fails. -/
theorem memRead_eq_none {pe : Pe} {a n : Nat} :
    memRead pe a n = none ↔ n ≠ 0 ∧ pe.cfg.memSize < a + n := by
  simp [memRead, inLocalMemory]

/-- What `MemWrite` can do. -/
theorem memWrite_eq_some {pe pe' : Pe} {a : Nat} {bs : List Byte} :
    memWrite pe a bs = some pe' ↔
      (bs.length = 0 ∨ a + bs.length ≤ pe.cfg.memSize) ∧ pe' = { pe with mem := writeBytes pe.mem a bs } := by
  simp only [memWrite, inLocalMemory, Bool.or_eq_true, decide_eq_true_eq]
  by_cases h : bs.length = 0 ∨ a + bs.length ≤ pe.cfg.memSize
  · rw [if_pos h, Option.some.injEq]
    exact ⟨fun e => ⟨h, e.symm⟩, fun e => e.2.symm⟩
  · rw [if_neg h]
    exact ⟨nofun, fun e => absurd e.1 h⟩

/-- When `MemWrite` fails. -/
theorem memWrite_eq_none {pe : Pe} {a : Nat} {bs : List Byte} :
    memWrite pe a bs = none ↔ bs.length ≠ 0 ∧ pe.cfg.memSize < a + bs.length := by
  simp [memWrite, inLocalMemory]

/-- What a write over ranges can do: only the memory of the PE changes. -/
theorem writeRanges_eq_some {rs : List PhysRange} {pe pe' : Pe} {data : List Byte}
    (h : writeRanges pe rs data = some pe') : ∃ m, pe' = { pe with mem := m } := by
  induction rs generalizing pe data with
  | nil =>
    simp only [writeRanges, Option.some.injEq] at h
    exact ⟨pe.mem, h.symm⟩
  | cons r rs ih =>
    simp only [writeRanges] at h
    split at h
    · rename_i pe1 h1
      obtain ⟨_, rfl⟩ := memWrite_eq_some.mp h1
      obtain ⟨m, rfl⟩ := ih h
      exact ⟨m, rfl⟩
    · cases h

/-- The bytes of a read over ranges are as many as the ranges hold. -/
theorem readRanges_length {rs : List PhysRange} {pe : Pe} {data : List Byte} (h : readRanges pe rs = some data) :
    data.length = (rs.map PhysRange.len).sum := by
  induction rs generalizing data with
  | nil =>
    simp only [readRanges, Option.some.injEq] at h
    simp [← h]
  | cons r rs ih =>
    simp only [readRanges] at h
    split at h
    · rename_i bs rest h1 h2
      obtain ⟨_, rfl⟩ := memRead_eq_some.mp h1
      simp only [Option.some.injEq] at h
      simp [← h, ih h2]
    · cases h

/-- The memories of the reset state have the canonical form. -/
theorem reset_memory_wf : ∀ pe ∈ State.reset.pes, Memory.wf pe.mem ∧ Memory.wf pe.ctx := by
  simp [State.reset, State.launch, Pe.reset, Launch.ref, Launch.refAccelerator, Memory.wf]

end Sys2Proof.Machine
end

