-- ==== Sys2Proof/Laws/State.lean ====
section
/-! SUPPORT. The small lemmas of the state's updates: for every named update of a PE, what each field is afterwards, so
that no later proof unfolds a record update. -/

namespace Sys2Proof.Machine

/-! ### setBusy -/

@[simp] theorem setBusy_cfg (b : Bool) (pe : Pe) : (setBusy b pe).cfg = pe.cfg := rfl
@[simp] theorem setBusy_status (b : Bool) (pe : Pe) : (setBusy b pe).status = putBit pe.status 0 b := rfl
@[simp] theorem setBusy_command (b : Bool) (pe : Pe) : (setBusy b pe).command = pe.command := rfl
@[simp] theorem setBusy_cmdDataAddr (b : Bool) (pe : Pe) : (setBusy b pe).cmdDataAddr = pe.cmdDataAddr := rfl
@[simp] theorem setBusy_cmdDataSize (b : Bool) (pe : Pe) : (setBusy b pe).cmdDataSize = pe.cmdDataSize := rfl
@[simp] theorem setBusy_cmdOffset (b : Bool) (pe : Pe) : (setBusy b pe).cmdOffset = pe.cmdOffset := rfl
@[simp] theorem setBusy_cmdReplyEp (b : Bool) (pe : Pe) : (setBusy b pe).cmdReplyEp = pe.cmdReplyEp := rfl
@[simp] theorem setBusy_cmdReplyLabel (b : Bool) (pe : Pe) : (setBusy b pe).cmdReplyLabel = pe.cmdReplyLabel := rfl
@[simp] theorem setBusy_eps (b : Bool) (pe : Pe) : (setBusy b pe).eps = pe.eps := rfl
@[simp] theorem setBusy_cmdInProgress (b : Bool) (pe : Pe) : (setBusy b pe).cmdInProgress = pe.cmdInProgress := rfl
@[simp] theorem setBusy_phase (b : Bool) (pe : Pe) : (setBusy b pe).phase = pe.phase := rfl
@[simp] theorem setBusy_cur (b : Bool) (pe : Pe) : (setBusy b pe).cur = pe.cur := rfl
@[simp] theorem setBusy_result (b : Bool) (pe : Pe) : (setBusy b pe).result = pe.result := rfl
@[simp] theorem setBusy_xfer (b : Bool) (pe : Pe) : (setBusy b pe).xfer = pe.xfer := rfl
@[simp] theorem setBusy_cacheReqs (b : Bool) (pe : Pe) : (setBusy b pe).cacheReqs = pe.cacheReqs := rfl
@[simp] theorem setBusy_tlb (b : Bool) (pe : Pe) : (setBusy b pe).tlb = pe.tlb := rfl
@[simp] theorem setBusy_tq (b : Bool) (pe : Pe) : (setBusy b pe).tq = pe.tq := rfl
@[simp] theorem setBusy_res (b : Bool) (pe : Pe) : (setBusy b pe).res = pe.res := rfl
@[simp] theorem setBusy_walkIds (b : Bool) (pe : Pe) : (setBusy b pe).walkIds = pe.walkIds := rfl
@[simp] theorem setBusy_draws (b : Bool) (pe : Pe) : (setBusy b pe).draws = pe.draws := rfl
@[simp] theorem setBusy_session (b : Bool) (pe : Pe) : (setBusy b pe).session = pe.session := rfl
@[simp] theorem setBusy_ctx (b : Bool) (pe : Pe) : (setBusy b pe).ctx = pe.ctx := rfl
@[simp] theorem setBusy_accelStateSize (b : Bool) (pe : Pe) : (setBusy b pe).accelStateSize = pe.accelStateSize := rfl
@[simp] theorem setBusy_coreWaiting (b : Bool) (pe : Pe) : (setBusy b pe).coreWaiting = pe.coreWaiting := rfl
@[simp] theorem setBusy_mem (b : Bool) (pe : Pe) : (setBusy b pe).mem = pe.mem := rfl

/-! ### setRejected -/

@[simp] theorem setRejected_cfg (pe : Pe) : (setRejected pe).cfg = pe.cfg := rfl
@[simp] theorem setRejected_status (pe : Pe) : (setRejected pe).status = putBit pe.status 1 true := rfl
@[simp] theorem setRejected_command (pe : Pe) : (setRejected pe).command = pe.command := rfl
@[simp] theorem setRejected_cmdDataAddr (pe : Pe) : (setRejected pe).cmdDataAddr = pe.cmdDataAddr := rfl
@[simp] theorem setRejected_cmdDataSize (pe : Pe) : (setRejected pe).cmdDataSize = pe.cmdDataSize := rfl
@[simp] theorem setRejected_cmdOffset (pe : Pe) : (setRejected pe).cmdOffset = pe.cmdOffset := rfl
@[simp] theorem setRejected_cmdReplyEp (pe : Pe) : (setRejected pe).cmdReplyEp = pe.cmdReplyEp := rfl
@[simp] theorem setRejected_cmdReplyLabel (pe : Pe) : (setRejected pe).cmdReplyLabel = pe.cmdReplyLabel := rfl
@[simp] theorem setRejected_eps (pe : Pe) : (setRejected pe).eps = pe.eps := rfl
@[simp] theorem setRejected_cmdInProgress (pe : Pe) : (setRejected pe).cmdInProgress = pe.cmdInProgress := rfl
@[simp] theorem setRejected_phase (pe : Pe) : (setRejected pe).phase = pe.phase := rfl
@[simp] theorem setRejected_cur (pe : Pe) : (setRejected pe).cur = pe.cur := rfl
@[simp] theorem setRejected_result (pe : Pe) : (setRejected pe).result = pe.result := rfl
@[simp] theorem setRejected_xfer (pe : Pe) : (setRejected pe).xfer = pe.xfer := rfl
@[simp] theorem setRejected_cacheReqs (pe : Pe) : (setRejected pe).cacheReqs = pe.cacheReqs := rfl
@[simp] theorem setRejected_tlb (pe : Pe) : (setRejected pe).tlb = pe.tlb := rfl
@[simp] theorem setRejected_tq (pe : Pe) : (setRejected pe).tq = pe.tq := rfl
@[simp] theorem setRejected_res (pe : Pe) : (setRejected pe).res = pe.res := rfl
@[simp] theorem setRejected_walkIds (pe : Pe) : (setRejected pe).walkIds = pe.walkIds := rfl
@[simp] theorem setRejected_draws (pe : Pe) : (setRejected pe).draws = pe.draws := rfl
@[simp] theorem setRejected_session (pe : Pe) : (setRejected pe).session = pe.session := rfl
@[simp] theorem setRejected_ctx (pe : Pe) : (setRejected pe).ctx = pe.ctx := rfl
@[simp] theorem setRejected_accelStateSize (pe : Pe) : (setRejected pe).accelStateSize = pe.accelStateSize := rfl
@[simp] theorem setRejected_coreWaiting (pe : Pe) : (setRejected pe).coreWaiting = pe.coreWaiting := rfl
@[simp] theorem setRejected_mem (pe : Pe) : (setRejected pe).mem = pe.mem := rfl

/-! ### recvError -/

@[simp] theorem recvError_cfg (c : ErrorCode) (n : EpId) (pe : Pe) : (recvError c n pe).cfg = pe.cfg := rfl
@[simp] theorem recvError_status (c : ErrorCode) (n : EpId) (pe : Pe) :
    (recvError c n pe).status = recordRecvErr pe.status c n :=
  rfl
@[simp] theorem recvError_command (c : ErrorCode) (n : EpId) (pe : Pe) :
    (recvError c n pe).command = pe.command :=
  rfl
@[simp] theorem recvError_cmdDataAddr (c : ErrorCode) (n : EpId) (pe : Pe) :
    (recvError c n pe).cmdDataAddr = pe.cmdDataAddr :=
  rfl
@[simp] theorem recvError_cmdDataSize (c : ErrorCode) (n : EpId) (pe : Pe) :
    (recvError c n pe).cmdDataSize = pe.cmdDataSize :=
  rfl
@[simp] theorem recvError_cmdOffset (c : ErrorCode) (n : EpId) (pe : Pe) :
    (recvError c n pe).cmdOffset = pe.cmdOffset :=
  rfl
@[simp] theorem recvError_cmdReplyEp (c : ErrorCode) (n : EpId) (pe : Pe) :
    (recvError c n pe).cmdReplyEp = pe.cmdReplyEp :=
  rfl
@[simp] theorem recvError_cmdReplyLabel (c : ErrorCode) (n : EpId) (pe : Pe) :
    (recvError c n pe).cmdReplyLabel = pe.cmdReplyLabel :=
  rfl
@[simp] theorem recvError_eps (c : ErrorCode) (n : EpId) (pe : Pe) : (recvError c n pe).eps = pe.eps := rfl
@[simp] theorem recvError_cmdInProgress (c : ErrorCode) (n : EpId) (pe : Pe) :
    (recvError c n pe).cmdInProgress = pe.cmdInProgress :=
  rfl
@[simp] theorem recvError_phase (c : ErrorCode) (n : EpId) (pe : Pe) : (recvError c n pe).phase = pe.phase := rfl
@[simp] theorem recvError_cur (c : ErrorCode) (n : EpId) (pe : Pe) : (recvError c n pe).cur = pe.cur := rfl
@[simp] theorem recvError_result (c : ErrorCode) (n : EpId) (pe : Pe) : (recvError c n pe).result = pe.result := rfl
@[simp] theorem recvError_xfer (c : ErrorCode) (n : EpId) (pe : Pe) : (recvError c n pe).xfer = pe.xfer := rfl
@[simp] theorem recvError_cacheReqs (c : ErrorCode) (n : EpId) (pe : Pe) :
    (recvError c n pe).cacheReqs = pe.cacheReqs :=
  rfl
@[simp] theorem recvError_tlb (c : ErrorCode) (n : EpId) (pe : Pe) : (recvError c n pe).tlb = pe.tlb := rfl
@[simp] theorem recvError_tq (c : ErrorCode) (n : EpId) (pe : Pe) : (recvError c n pe).tq = pe.tq := rfl
@[simp] theorem recvError_res (c : ErrorCode) (n : EpId) (pe : Pe) : (recvError c n pe).res = pe.res := rfl
@[simp] theorem recvError_walkIds (c : ErrorCode) (n : EpId) (pe : Pe) :
    (recvError c n pe).walkIds = pe.walkIds :=
  rfl
@[simp] theorem recvError_draws (c : ErrorCode) (n : EpId) (pe : Pe) : (recvError c n pe).draws = pe.draws := rfl
@[simp] theorem recvError_session (c : ErrorCode) (n : EpId) (pe : Pe) :
    (recvError c n pe).session = pe.session :=
  rfl
@[simp] theorem recvError_ctx (c : ErrorCode) (n : EpId) (pe : Pe) : (recvError c n pe).ctx = pe.ctx := rfl
@[simp] theorem recvError_accelStateSize (c : ErrorCode) (n : EpId) (pe : Pe) :
    (recvError c n pe).accelStateSize = pe.accelStateSize :=
  rfl
@[simp] theorem recvError_coreWaiting (c : ErrorCode) (n : EpId) (pe : Pe) :
    (recvError c n pe).coreWaiting = pe.coreWaiting :=
  rfl
@[simp] theorem recvError_mem (c : ErrorCode) (n : EpId) (pe : Pe) : (recvError c n pe).mem = pe.mem := rfl

/-! ### startCommand -/

@[simp] theorem startCommand_cfg (pe : Pe) : (startCommand pe).cfg = pe.cfg := rfl
@[simp] theorem startCommand_status (pe : Pe) : (startCommand pe).status = putBit pe.status 0 true := rfl
@[simp] theorem startCommand_command (pe : Pe) : (startCommand pe).command = pe.command := rfl
@[simp] theorem startCommand_cmdDataAddr (pe : Pe) : (startCommand pe).cmdDataAddr = pe.cmdDataAddr := rfl
@[simp] theorem startCommand_cmdDataSize (pe : Pe) : (startCommand pe).cmdDataSize = pe.cmdDataSize := rfl
@[simp] theorem startCommand_cmdOffset (pe : Pe) : (startCommand pe).cmdOffset = pe.cmdOffset := rfl
@[simp] theorem startCommand_cmdReplyEp (pe : Pe) : (startCommand pe).cmdReplyEp = pe.cmdReplyEp := rfl
@[simp] theorem startCommand_cmdReplyLabel (pe : Pe) : (startCommand pe).cmdReplyLabel = pe.cmdReplyLabel := rfl
@[simp] theorem startCommand_eps (pe : Pe) : (startCommand pe).eps = pe.eps := rfl
@[simp] theorem startCommand_cmdInProgress (pe : Pe) : (startCommand pe).cmdInProgress = true := rfl
@[simp] theorem startCommand_phase (pe : Pe) : (startCommand pe).phase = .execPending := rfl
@[simp] theorem startCommand_cur (pe : Pe) : (startCommand pe).cur = latchCommand pe := rfl
@[simp] theorem startCommand_result (pe : Pe) : (startCommand pe).result = errNone := rfl
@[simp] theorem startCommand_xfer (pe : Pe) : (startCommand pe).xfer = pe.xfer := rfl
@[simp] theorem startCommand_cacheReqs (pe : Pe) : (startCommand pe).cacheReqs = pe.cacheReqs := rfl
@[simp] theorem startCommand_tlb (pe : Pe) : (startCommand pe).tlb = pe.tlb := rfl
@[simp] theorem startCommand_tq (pe : Pe) : (startCommand pe).tq = pe.tq := rfl
@[simp] theorem startCommand_res (pe : Pe) : (startCommand pe).res = pe.res := rfl
@[simp] theorem startCommand_walkIds (pe : Pe) : (startCommand pe).walkIds = pe.walkIds := rfl
@[simp] theorem startCommand_draws (pe : Pe) : (startCommand pe).draws = pe.draws := rfl
@[simp] theorem startCommand_session (pe : Pe) : (startCommand pe).session = pe.session := rfl
@[simp] theorem startCommand_ctx (pe : Pe) : (startCommand pe).ctx = pe.ctx := rfl
@[simp] theorem startCommand_accelStateSize (pe : Pe) : (startCommand pe).accelStateSize = pe.accelStateSize := rfl
@[simp] theorem startCommand_coreWaiting (pe : Pe) : (startCommand pe).coreWaiting = pe.coreWaiting := rfl
@[simp] theorem startCommand_mem (pe : Pe) : (startCommand pe).mem = pe.mem := rfl

/-! ### completeCommand -/

@[simp] theorem completeCommand_cfg (pe : Pe) : (completeCommand pe).cfg = pe.cfg := rfl
@[simp] theorem completeCommand_status (pe : Pe) : (completeCommand pe).status = pe.status := rfl
@[simp] theorem completeCommand_command (pe : Pe) : (completeCommand pe).command = pe.command := rfl
@[simp] theorem completeCommand_cmdDataAddr (pe : Pe) : (completeCommand pe).cmdDataAddr = pe.cmdDataAddr := rfl
@[simp] theorem completeCommand_cmdDataSize (pe : Pe) : (completeCommand pe).cmdDataSize = pe.cmdDataSize := rfl
@[simp] theorem completeCommand_cmdOffset (pe : Pe) : (completeCommand pe).cmdOffset = pe.cmdOffset := rfl
@[simp] theorem completeCommand_cmdReplyEp (pe : Pe) : (completeCommand pe).cmdReplyEp = pe.cmdReplyEp := rfl
@[simp] theorem completeCommand_cmdReplyLabel (pe : Pe) : (completeCommand pe).cmdReplyLabel = pe.cmdReplyLabel := rfl
@[simp] theorem completeCommand_eps (pe : Pe) : (completeCommand pe).eps = pe.eps := rfl
@[simp] theorem completeCommand_cmdInProgress (pe : Pe) : (completeCommand pe).cmdInProgress = pe.cmdInProgress := rfl
@[simp] theorem completeCommand_phase (pe : Pe) : (completeCommand pe).phase = .finishPending := rfl
@[simp] theorem completeCommand_cur (pe : Pe) : (completeCommand pe).cur = pe.cur := rfl
@[simp] theorem completeCommand_result (pe : Pe) : (completeCommand pe).result = errNone := rfl
@[simp] theorem completeCommand_xfer (pe : Pe) : (completeCommand pe).xfer = pe.xfer := rfl
@[simp] theorem completeCommand_cacheReqs (pe : Pe) : (completeCommand pe).cacheReqs = pe.cacheReqs := rfl
@[simp] theorem completeCommand_tlb (pe : Pe) : (completeCommand pe).tlb = pe.tlb := rfl
@[simp] theorem completeCommand_tq (pe : Pe) : (completeCommand pe).tq = pe.tq := rfl
@[simp] theorem completeCommand_res (pe : Pe) : (completeCommand pe).res = pe.res := rfl
@[simp] theorem completeCommand_walkIds (pe : Pe) : (completeCommand pe).walkIds = pe.walkIds := rfl
@[simp] theorem completeCommand_draws (pe : Pe) : (completeCommand pe).draws = pe.draws := rfl
@[simp] theorem completeCommand_session (pe : Pe) : (completeCommand pe).session = pe.session := rfl
@[simp] theorem completeCommand_ctx (pe : Pe) : (completeCommand pe).ctx = pe.ctx := rfl
@[simp] theorem completeCommand_accelStateSize (pe : Pe) :
    (completeCommand pe).accelStateSize = pe.accelStateSize :=
  rfl
@[simp] theorem completeCommand_coreWaiting (pe : Pe) : (completeCommand pe).coreWaiting = pe.coreWaiting := rfl
@[simp] theorem completeCommand_mem (pe : Pe) : (completeCommand pe).mem = pe.mem := rfl

/-! ### failCommand -/

@[simp] theorem failCommand_cfg (c : ErrorCode) (pe : Pe) : (failCommand c pe).cfg = pe.cfg := rfl
@[simp] theorem failCommand_status (c : ErrorCode) (pe : Pe) : (failCommand c pe).status = pe.status := rfl
@[simp] theorem failCommand_command (c : ErrorCode) (pe : Pe) : (failCommand c pe).command = pe.command := rfl
@[simp] theorem failCommand_cmdDataAddr (c : ErrorCode) (pe : Pe) :
    (failCommand c pe).cmdDataAddr = pe.cmdDataAddr :=
  rfl
@[simp] theorem failCommand_cmdDataSize (c : ErrorCode) (pe : Pe) :
    (failCommand c pe).cmdDataSize = pe.cmdDataSize :=
  rfl
@[simp] theorem failCommand_cmdOffset (c : ErrorCode) (pe : Pe) : (failCommand c pe).cmdOffset = pe.cmdOffset := rfl
@[simp] theorem failCommand_cmdReplyEp (c : ErrorCode) (pe : Pe) :
    (failCommand c pe).cmdReplyEp = pe.cmdReplyEp :=
  rfl
@[simp] theorem failCommand_cmdReplyLabel (c : ErrorCode) (pe : Pe) :
    (failCommand c pe).cmdReplyLabel = pe.cmdReplyLabel :=
  rfl
@[simp] theorem failCommand_eps (c : ErrorCode) (pe : Pe) : (failCommand c pe).eps = pe.eps := rfl
@[simp] theorem failCommand_cmdInProgress (c : ErrorCode) (pe : Pe) :
    (failCommand c pe).cmdInProgress = pe.cmdInProgress :=
  rfl
@[simp] theorem failCommand_phase (c : ErrorCode) (pe : Pe) : (failCommand c pe).phase = .finishPending := rfl
@[simp] theorem failCommand_cur (c : ErrorCode) (pe : Pe) : (failCommand c pe).cur = pe.cur := rfl
@[simp] theorem failCommand_result (c : ErrorCode) (pe : Pe) : (failCommand c pe).result = c := rfl
@[simp] theorem failCommand_xfer (c : ErrorCode) (pe : Pe) : (failCommand c pe).xfer = pe.xfer := rfl
@[simp] theorem failCommand_cacheReqs (c : ErrorCode) (pe : Pe) : (failCommand c pe).cacheReqs = pe.cacheReqs := rfl
@[simp] theorem failCommand_tlb (c : ErrorCode) (pe : Pe) : (failCommand c pe).tlb = pe.tlb := rfl
@[simp] theorem failCommand_tq (c : ErrorCode) (pe : Pe) : (failCommand c pe).tq = pe.tq := rfl
@[simp] theorem failCommand_res (c : ErrorCode) (pe : Pe) : (failCommand c pe).res = pe.res := rfl
@[simp] theorem failCommand_walkIds (c : ErrorCode) (pe : Pe) : (failCommand c pe).walkIds = pe.walkIds := rfl
@[simp] theorem failCommand_draws (c : ErrorCode) (pe : Pe) : (failCommand c pe).draws = pe.draws := rfl
@[simp] theorem failCommand_session (c : ErrorCode) (pe : Pe) : (failCommand c pe).session = pe.session := rfl
@[simp] theorem failCommand_ctx (c : ErrorCode) (pe : Pe) : (failCommand c pe).ctx = pe.ctx := rfl
@[simp] theorem failCommand_accelStateSize (c : ErrorCode) (pe : Pe) :
    (failCommand c pe).accelStateSize = pe.accelStateSize :=
  rfl
@[simp] theorem failCommand_coreWaiting (c : ErrorCode) (pe : Pe) :
    (failCommand c pe).coreWaiting = pe.coreWaiting :=
  rfl
@[simp] theorem failCommand_mem (c : ErrorCode) (pe : Pe) : (failCommand c pe).mem = pe.mem := rfl

/-! ### startXfer -/

@[simp] theorem startXfer_cfg (x : Xfer) (pe : Pe) : (startXfer x pe).cfg = pe.cfg := rfl
@[simp] theorem startXfer_status (x : Xfer) (pe : Pe) : (startXfer x pe).status = pe.status := rfl
@[simp] theorem startXfer_command (x : Xfer) (pe : Pe) : (startXfer x pe).command = pe.command := rfl
@[simp] theorem startXfer_cmdDataAddr (x : Xfer) (pe : Pe) : (startXfer x pe).cmdDataAddr = pe.cmdDataAddr := rfl
@[simp] theorem startXfer_cmdDataSize (x : Xfer) (pe : Pe) : (startXfer x pe).cmdDataSize = pe.cmdDataSize := rfl
@[simp] theorem startXfer_cmdOffset (x : Xfer) (pe : Pe) : (startXfer x pe).cmdOffset = pe.cmdOffset := rfl
@[simp] theorem startXfer_cmdReplyEp (x : Xfer) (pe : Pe) : (startXfer x pe).cmdReplyEp = pe.cmdReplyEp := rfl
@[simp] theorem startXfer_cmdReplyLabel (x : Xfer) (pe : Pe) :
    (startXfer x pe).cmdReplyLabel = pe.cmdReplyLabel :=
  rfl
@[simp] theorem startXfer_eps (x : Xfer) (pe : Pe) : (startXfer x pe).eps = pe.eps := rfl
@[simp] theorem startXfer_cmdInProgress (x : Xfer) (pe : Pe) :
    (startXfer x pe).cmdInProgress = pe.cmdInProgress :=
  rfl
@[simp] theorem startXfer_phase (x : Xfer) (pe : Pe) : (startXfer x pe).phase = .xfer := rfl
@[simp] theorem startXfer_cur (x : Xfer) (pe : Pe) : (startXfer x pe).cur = pe.cur := rfl
@[simp] theorem startXfer_result (x : Xfer) (pe : Pe) : (startXfer x pe).result = pe.result := rfl
@[simp] theorem startXfer_xfer (x : Xfer) (pe : Pe) : (startXfer x pe).xfer = some x := rfl
@[simp] theorem startXfer_cacheReqs (x : Xfer) (pe : Pe) : (startXfer x pe).cacheReqs = pe.cacheReqs := rfl
@[simp] theorem startXfer_tlb (x : Xfer) (pe : Pe) : (startXfer x pe).tlb = pe.tlb := rfl
@[simp] theorem startXfer_tq (x : Xfer) (pe : Pe) : (startXfer x pe).tq = pe.tq := rfl
@[simp] theorem startXfer_res (x : Xfer) (pe : Pe) : (startXfer x pe).res = pe.res := rfl
@[simp] theorem startXfer_walkIds (x : Xfer) (pe : Pe) : (startXfer x pe).walkIds = pe.walkIds := rfl
@[simp] theorem startXfer_draws (x : Xfer) (pe : Pe) : (startXfer x pe).draws = pe.draws := rfl
@[simp] theorem startXfer_session (x : Xfer) (pe : Pe) : (startXfer x pe).session = pe.session := rfl
@[simp] theorem startXfer_ctx (x : Xfer) (pe : Pe) : (startXfer x pe).ctx = pe.ctx := rfl
@[simp] theorem startXfer_accelStateSize (x : Xfer) (pe : Pe) :
    (startXfer x pe).accelStateSize = pe.accelStateSize :=
  rfl
@[simp] theorem startXfer_coreWaiting (x : Xfer) (pe : Pe) : (startXfer x pe).coreWaiting = pe.coreWaiting := rfl
@[simp] theorem startXfer_mem (x : Xfer) (pe : Pe) : (startXfer x pe).mem = pe.mem := rfl

/-! ### endXfer -/

@[simp] theorem endXfer_cfg (c : ErrorCode) (pe : Pe) : (endXfer c pe).cfg = pe.cfg := rfl
@[simp] theorem endXfer_status (c : ErrorCode) (pe : Pe) : (endXfer c pe).status = pe.status := rfl
@[simp] theorem endXfer_command (c : ErrorCode) (pe : Pe) : (endXfer c pe).command = pe.command := rfl
@[simp] theorem endXfer_cmdDataAddr (c : ErrorCode) (pe : Pe) : (endXfer c pe).cmdDataAddr = pe.cmdDataAddr := rfl
@[simp] theorem endXfer_cmdDataSize (c : ErrorCode) (pe : Pe) : (endXfer c pe).cmdDataSize = pe.cmdDataSize := rfl
@[simp] theorem endXfer_cmdOffset (c : ErrorCode) (pe : Pe) : (endXfer c pe).cmdOffset = pe.cmdOffset := rfl
@[simp] theorem endXfer_cmdReplyEp (c : ErrorCode) (pe : Pe) : (endXfer c pe).cmdReplyEp = pe.cmdReplyEp := rfl
@[simp] theorem endXfer_cmdReplyLabel (c : ErrorCode) (pe : Pe) :
    (endXfer c pe).cmdReplyLabel = pe.cmdReplyLabel :=
  rfl
@[simp] theorem endXfer_eps (c : ErrorCode) (pe : Pe) : (endXfer c pe).eps = pe.eps := rfl
@[simp] theorem endXfer_cmdInProgress (c : ErrorCode) (pe : Pe) :
    (endXfer c pe).cmdInProgress = pe.cmdInProgress :=
  rfl
@[simp] theorem endXfer_phase (c : ErrorCode) (pe : Pe) : (endXfer c pe).phase = .finishPending := rfl
@[simp] theorem endXfer_cur (c : ErrorCode) (pe : Pe) : (endXfer c pe).cur = pe.cur := rfl
@[simp] theorem endXfer_result (c : ErrorCode) (pe : Pe) : (endXfer c pe).result = c := rfl
@[simp] theorem endXfer_xfer (c : ErrorCode) (pe : Pe) : (endXfer c pe).xfer = none := rfl
@[simp] theorem endXfer_cacheReqs (c : ErrorCode) (pe : Pe) : (endXfer c pe).cacheReqs = pe.cacheReqs := rfl
@[simp] theorem endXfer_tlb (c : ErrorCode) (pe : Pe) : (endXfer c pe).tlb = pe.tlb := rfl
@[simp] theorem endXfer_tq (c : ErrorCode) (pe : Pe) : (endXfer c pe).tq = pe.tq := rfl
@[simp] theorem endXfer_res (c : ErrorCode) (pe : Pe) : (endXfer c pe).res = pe.res := rfl
@[simp] theorem endXfer_walkIds (c : ErrorCode) (pe : Pe) : (endXfer c pe).walkIds = pe.walkIds := rfl
@[simp] theorem endXfer_draws (c : ErrorCode) (pe : Pe) : (endXfer c pe).draws = pe.draws := rfl
@[simp] theorem endXfer_session (c : ErrorCode) (pe : Pe) : (endXfer c pe).session = pe.session := rfl
@[simp] theorem endXfer_ctx (c : ErrorCode) (pe : Pe) : (endXfer c pe).ctx = pe.ctx := rfl
@[simp] theorem endXfer_accelStateSize (c : ErrorCode) (pe : Pe) :
    (endXfer c pe).accelStateSize = pe.accelStateSize :=
  rfl
@[simp] theorem endXfer_coreWaiting (c : ErrorCode) (pe : Pe) : (endXfer c pe).coreWaiting = pe.coreWaiting := rfl
@[simp] theorem endXfer_mem (c : ErrorCode) (pe : Pe) : (endXfer c pe).mem = pe.mem := rfl

/-! ### clearResults -/

@[simp] theorem clearResults_cfg (o : Owner) (pe : Pe) : (clearResults o pe).cfg = pe.cfg := rfl
@[simp] theorem clearResults_status (o : Owner) (pe : Pe) : (clearResults o pe).status = pe.status := rfl
@[simp] theorem clearResults_command (o : Owner) (pe : Pe) : (clearResults o pe).command = pe.command := rfl
@[simp] theorem clearResults_cmdDataAddr (o : Owner) (pe : Pe) :
    (clearResults o pe).cmdDataAddr = pe.cmdDataAddr :=
  rfl
@[simp] theorem clearResults_cmdDataSize (o : Owner) (pe : Pe) :
    (clearResults o pe).cmdDataSize = pe.cmdDataSize :=
  rfl
@[simp] theorem clearResults_cmdOffset (o : Owner) (pe : Pe) : (clearResults o pe).cmdOffset = pe.cmdOffset := rfl
@[simp] theorem clearResults_cmdReplyEp (o : Owner) (pe : Pe) : (clearResults o pe).cmdReplyEp = pe.cmdReplyEp := rfl
@[simp] theorem clearResults_cmdReplyLabel (o : Owner) (pe : Pe) :
    (clearResults o pe).cmdReplyLabel = pe.cmdReplyLabel :=
  rfl
@[simp] theorem clearResults_eps (o : Owner) (pe : Pe) : (clearResults o pe).eps = pe.eps := rfl
@[simp] theorem clearResults_cmdInProgress (o : Owner) (pe : Pe) :
    (clearResults o pe).cmdInProgress = pe.cmdInProgress :=
  rfl
@[simp] theorem clearResults_phase (o : Owner) (pe : Pe) : (clearResults o pe).phase = pe.phase := rfl
@[simp] theorem clearResults_cur (o : Owner) (pe : Pe) : (clearResults o pe).cur = pe.cur := rfl
@[simp] theorem clearResults_result (o : Owner) (pe : Pe) : (clearResults o pe).result = pe.result := rfl
@[simp] theorem clearResults_xfer (o : Owner) (pe : Pe) : (clearResults o pe).xfer = pe.xfer := rfl
@[simp] theorem clearResults_cacheReqs (o : Owner) (pe : Pe) : (clearResults o pe).cacheReqs = pe.cacheReqs := rfl
@[simp] theorem clearResults_tlb (o : Owner) (pe : Pe) : (clearResults o pe).tlb = pe.tlb := rfl
@[simp] theorem clearResults_tq (o : Owner) (pe : Pe) : (clearResults o pe).tq = pe.tq := rfl
@[simp] theorem clearResults_res (o : Owner) (pe : Pe) :
    (clearResults o pe).res = pe.res.filter fun r => r.owner != o :=
  rfl
@[simp] theorem clearResults_walkIds (o : Owner) (pe : Pe) : (clearResults o pe).walkIds = pe.walkIds := rfl
@[simp] theorem clearResults_draws (o : Owner) (pe : Pe) : (clearResults o pe).draws = pe.draws := rfl
@[simp] theorem clearResults_session (o : Owner) (pe : Pe) : (clearResults o pe).session = pe.session := rfl
@[simp] theorem clearResults_ctx (o : Owner) (pe : Pe) : (clearResults o pe).ctx = pe.ctx := rfl
@[simp] theorem clearResults_accelStateSize (o : Owner) (pe : Pe) :
    (clearResults o pe).accelStateSize = pe.accelStateSize :=
  rfl
@[simp] theorem clearResults_coreWaiting (o : Owner) (pe : Pe) :
    (clearResults o pe).coreWaiting = pe.coreWaiting :=
  rfl
@[simp] theorem clearResults_mem (o : Owner) (pe : Pe) : (clearResults o pe).mem = pe.mem := rfl

/-! ### enqueueWalk -/

@[simp] theorem enqueueWalk_cfg (o : Owner) (v : Nat) (f : Access) (pe : Pe) :
    (enqueueWalk o v f pe).cfg = pe.cfg :=
  rfl
@[simp] theorem enqueueWalk_status (o : Owner) (v : Nat) (f : Access) (pe : Pe) :
    (enqueueWalk o v f pe).status = pe.status :=
  rfl
@[simp] theorem enqueueWalk_command (o : Owner) (v : Nat) (f : Access) (pe : Pe) :
    (enqueueWalk o v f pe).command = pe.command :=
  rfl
@[simp] theorem enqueueWalk_cmdDataAddr (o : Owner) (v : Nat) (f : Access) (pe : Pe) :
    (enqueueWalk o v f pe).cmdDataAddr = pe.cmdDataAddr :=
  rfl
@[simp] theorem enqueueWalk_cmdDataSize (o : Owner) (v : Nat) (f : Access) (pe : Pe) :
    (enqueueWalk o v f pe).cmdDataSize = pe.cmdDataSize :=
  rfl
@[simp] theorem enqueueWalk_cmdOffset (o : Owner) (v : Nat) (f : Access) (pe : Pe) :
    (enqueueWalk o v f pe).cmdOffset = pe.cmdOffset :=
  rfl
@[simp] theorem enqueueWalk_cmdReplyEp (o : Owner) (v : Nat) (f : Access) (pe : Pe) :
    (enqueueWalk o v f pe).cmdReplyEp = pe.cmdReplyEp :=
  rfl
@[simp] theorem enqueueWalk_cmdReplyLabel (o : Owner) (v : Nat) (f : Access) (pe : Pe) :
    (enqueueWalk o v f pe).cmdReplyLabel = pe.cmdReplyLabel :=
  rfl
@[simp] theorem enqueueWalk_eps (o : Owner) (v : Nat) (f : Access) (pe : Pe) :
    (enqueueWalk o v f pe).eps = pe.eps :=
  rfl
@[simp] theorem enqueueWalk_cmdInProgress (o : Owner) (v : Nat) (f : Access) (pe : Pe) :
    (enqueueWalk o v f pe).cmdInProgress = pe.cmdInProgress :=
  rfl
@[simp] theorem enqueueWalk_phase (o : Owner) (v : Nat) (f : Access) (pe : Pe) :
    (enqueueWalk o v f pe).phase = pe.phase :=
  rfl
@[simp] theorem enqueueWalk_cur (o : Owner) (v : Nat) (f : Access) (pe : Pe) :
    (enqueueWalk o v f pe).cur = pe.cur :=
  rfl
@[simp] theorem enqueueWalk_result (o : Owner) (v : Nat) (f : Access) (pe : Pe) :
    (enqueueWalk o v f pe).result = pe.result :=
  rfl
@[simp] theorem enqueueWalk_xfer (o : Owner) (v : Nat) (f : Access) (pe : Pe) :
    (enqueueWalk o v f pe).xfer = pe.xfer :=
  rfl
@[simp] theorem enqueueWalk_cacheReqs (o : Owner) (v : Nat) (f : Access) (pe : Pe) :
    (enqueueWalk o v f pe).cacheReqs = pe.cacheReqs :=
  rfl
@[simp] theorem enqueueWalk_tlb (o : Owner) (v : Nat) (f : Access) (pe : Pe) :
    (enqueueWalk o v f pe).tlb = pe.tlb :=
  rfl
@[simp] theorem enqueueWalk_tq (o : Owner) (v : Nat) (f : Access) (pe : Pe) :
    (enqueueWalk o v f pe).tq =
      pe.tq ++ [{ id := pe.walkIds, va := BitVec.ofNat 64 (v * pe.cfg.pageSize), flags := f, owner := o }] :=
  rfl
@[simp] theorem enqueueWalk_res (o : Owner) (v : Nat) (f : Access) (pe : Pe) :
    (enqueueWalk o v f pe).res = pe.res :=
  rfl
@[simp] theorem enqueueWalk_walkIds (o : Owner) (v : Nat) (f : Access) (pe : Pe) :
    (enqueueWalk o v f pe).walkIds = pe.walkIds + 1 :=
  rfl
@[simp] theorem enqueueWalk_draws (o : Owner) (v : Nat) (f : Access) (pe : Pe) :
    (enqueueWalk o v f pe).draws = pe.draws :=
  rfl
@[simp] theorem enqueueWalk_session (o : Owner) (v : Nat) (f : Access) (pe : Pe) :
    (enqueueWalk o v f pe).session = pe.session :=
  rfl
@[simp] theorem enqueueWalk_ctx (o : Owner) (v : Nat) (f : Access) (pe : Pe) :
    (enqueueWalk o v f pe).ctx = pe.ctx :=
  rfl
@[simp] theorem enqueueWalk_accelStateSize (o : Owner) (v : Nat) (f : Access) (pe : Pe) :
    (enqueueWalk o v f pe).accelStateSize = pe.accelStateSize :=
  rfl
@[simp] theorem enqueueWalk_coreWaiting (o : Owner) (v : Nat) (f : Access) (pe : Pe) :
    (enqueueWalk o v f pe).coreWaiting = pe.coreWaiting :=
  rfl
@[simp] theorem enqueueWalk_mem (o : Owner) (v : Nat) (f : Access) (pe : Pe) :
    (enqueueWalk o v f pe).mem = pe.mem :=
  rfl

/-! ### addResult -/

@[simp] theorem addResult_cfg (o : Owner) (v : Nat) (w : WalkOutcome) (pe : Pe) :
    (addResult o v w pe).cfg = pe.cfg :=
  rfl
@[simp] theorem addResult_status (o : Owner) (v : Nat) (w : WalkOutcome) (pe : Pe) :
    (addResult o v w pe).status = pe.status :=
  rfl
@[simp] theorem addResult_command (o : Owner) (v : Nat) (w : WalkOutcome) (pe : Pe) :
    (addResult o v w pe).command = pe.command :=
  rfl
@[simp] theorem addResult_cmdDataAddr (o : Owner) (v : Nat) (w : WalkOutcome) (pe : Pe) :
    (addResult o v w pe).cmdDataAddr = pe.cmdDataAddr :=
  rfl
@[simp] theorem addResult_cmdDataSize (o : Owner) (v : Nat) (w : WalkOutcome) (pe : Pe) :
    (addResult o v w pe).cmdDataSize = pe.cmdDataSize :=
  rfl
@[simp] theorem addResult_cmdOffset (o : Owner) (v : Nat) (w : WalkOutcome) (pe : Pe) :
    (addResult o v w pe).cmdOffset = pe.cmdOffset :=
  rfl
@[simp] theorem addResult_cmdReplyEp (o : Owner) (v : Nat) (w : WalkOutcome) (pe : Pe) :
    (addResult o v w pe).cmdReplyEp = pe.cmdReplyEp :=
  rfl
@[simp] theorem addResult_cmdReplyLabel (o : Owner) (v : Nat) (w : WalkOutcome) (pe : Pe) :
    (addResult o v w pe).cmdReplyLabel = pe.cmdReplyLabel :=
  rfl
@[simp] theorem addResult_eps (o : Owner) (v : Nat) (w : WalkOutcome) (pe : Pe) :
    (addResult o v w pe).eps = pe.eps :=
  rfl
@[simp] theorem addResult_cmdInProgress (o : Owner) (v : Nat) (w : WalkOutcome) (pe : Pe) :
    (addResult o v w pe).cmdInProgress = pe.cmdInProgress :=
  rfl
@[simp] theorem addResult_phase (o : Owner) (v : Nat) (w : WalkOutcome) (pe : Pe) :
    (addResult o v w pe).phase = pe.phase :=
  rfl
@[simp] theorem addResult_cur (o : Owner) (v : Nat) (w : WalkOutcome) (pe : Pe) :
    (addResult o v w pe).cur = pe.cur :=
  rfl
@[simp] theorem addResult_result (o : Owner) (v : Nat) (w : WalkOutcome) (pe : Pe) :
    (addResult o v w pe).result = pe.result :=
  rfl
@[simp] theorem addResult_xfer (o : Owner) (v : Nat) (w : WalkOutcome) (pe : Pe) :
    (addResult o v w pe).xfer = pe.xfer :=
  rfl
@[simp] theorem addResult_cacheReqs (o : Owner) (v : Nat) (w : WalkOutcome) (pe : Pe) :
    (addResult o v w pe).cacheReqs = pe.cacheReqs :=
  rfl
@[simp] theorem addResult_tlb (o : Owner) (v : Nat) (w : WalkOutcome) (pe : Pe) :
    (addResult o v w pe).tlb = pe.tlb :=
  rfl
@[simp] theorem addResult_tq (o : Owner) (v : Nat) (w : WalkOutcome) (pe : Pe) :
    (addResult o v w pe).tq = pe.tq :=
  rfl
@[simp] theorem addResult_res (o : Owner) (v : Nat) (w : WalkOutcome) (pe : Pe) :
    (addResult o v w pe).res = pe.res ++ [{ owner := o, vpn := v, outcome := w }] :=
  rfl
@[simp] theorem addResult_walkIds (o : Owner) (v : Nat) (w : WalkOutcome) (pe : Pe) :
    (addResult o v w pe).walkIds = pe.walkIds :=
  rfl
@[simp] theorem addResult_draws (o : Owner) (v : Nat) (w : WalkOutcome) (pe : Pe) :
    (addResult o v w pe).draws = pe.draws :=
  rfl
@[simp] theorem addResult_session (o : Owner) (v : Nat) (w : WalkOutcome) (pe : Pe) :
    (addResult o v w pe).session = pe.session :=
  rfl
@[simp] theorem addResult_ctx (o : Owner) (v : Nat) (w : WalkOutcome) (pe : Pe) :
    (addResult o v w pe).ctx = pe.ctx :=
  rfl
@[simp] theorem addResult_accelStateSize (o : Owner) (v : Nat) (w : WalkOutcome) (pe : Pe) :
    (addResult o v w pe).accelStateSize = pe.accelStateSize :=
  rfl
@[simp] theorem addResult_coreWaiting (o : Owner) (v : Nat) (w : WalkOutcome) (pe : Pe) :
    (addResult o v w pe).coreWaiting = pe.coreWaiting :=
  rfl
@[simp] theorem addResult_mem (o : Owner) (v : Nat) (w : WalkOutcome) (pe : Pe) :
    (addResult o v w pe).mem = pe.mem :=
  rfl

/-! ### removeWalk -/

@[simp] theorem removeWalk_cfg (id : Nat) (pe : Pe) : (removeWalk id pe).cfg = pe.cfg := rfl
@[simp] theorem removeWalk_status (id : Nat) (pe : Pe) : (removeWalk id pe).status = pe.status := rfl
@[simp] theorem removeWalk_command (id : Nat) (pe : Pe) : (removeWalk id pe).command = pe.command := rfl
@[simp] theorem removeWalk_cmdDataAddr (id : Nat) (pe : Pe) : (removeWalk id pe).cmdDataAddr = pe.cmdDataAddr := rfl
@[simp] theorem removeWalk_cmdDataSize (id : Nat) (pe : Pe) : (removeWalk id pe).cmdDataSize = pe.cmdDataSize := rfl
@[simp] theorem removeWalk_cmdOffset (id : Nat) (pe : Pe) : (removeWalk id pe).cmdOffset = pe.cmdOffset := rfl
@[simp] theorem removeWalk_cmdReplyEp (id : Nat) (pe : Pe) : (removeWalk id pe).cmdReplyEp = pe.cmdReplyEp := rfl
@[simp] theorem removeWalk_cmdReplyLabel (id : Nat) (pe : Pe) :
    (removeWalk id pe).cmdReplyLabel = pe.cmdReplyLabel :=
  rfl
@[simp] theorem removeWalk_eps (id : Nat) (pe : Pe) : (removeWalk id pe).eps = pe.eps := rfl
@[simp] theorem removeWalk_cmdInProgress (id : Nat) (pe : Pe) :
    (removeWalk id pe).cmdInProgress = pe.cmdInProgress :=
  rfl
@[simp] theorem removeWalk_phase (id : Nat) (pe : Pe) : (removeWalk id pe).phase = pe.phase := rfl
@[simp] theorem removeWalk_cur (id : Nat) (pe : Pe) : (removeWalk id pe).cur = pe.cur := rfl
@[simp] theorem removeWalk_result (id : Nat) (pe : Pe) : (removeWalk id pe).result = pe.result := rfl
@[simp] theorem removeWalk_xfer (id : Nat) (pe : Pe) : (removeWalk id pe).xfer = pe.xfer := rfl
@[simp] theorem removeWalk_cacheReqs (id : Nat) (pe : Pe) : (removeWalk id pe).cacheReqs = pe.cacheReqs := rfl
@[simp] theorem removeWalk_tlb (id : Nat) (pe : Pe) : (removeWalk id pe).tlb = pe.tlb := rfl
@[simp] theorem removeWalk_tq (id : Nat) (pe : Pe) : (removeWalk id pe).tq = pe.tq.filter fun q => q.id != id := rfl
@[simp] theorem removeWalk_res (id : Nat) (pe : Pe) : (removeWalk id pe).res = pe.res := rfl
@[simp] theorem removeWalk_walkIds (id : Nat) (pe : Pe) : (removeWalk id pe).walkIds = pe.walkIds := rfl
@[simp] theorem removeWalk_draws (id : Nat) (pe : Pe) : (removeWalk id pe).draws = pe.draws := rfl
@[simp] theorem removeWalk_session (id : Nat) (pe : Pe) : (removeWalk id pe).session = pe.session := rfl
@[simp] theorem removeWalk_ctx (id : Nat) (pe : Pe) : (removeWalk id pe).ctx = pe.ctx := rfl
@[simp] theorem removeWalk_accelStateSize (id : Nat) (pe : Pe) :
    (removeWalk id pe).accelStateSize = pe.accelStateSize :=
  rfl
@[simp] theorem removeWalk_coreWaiting (id : Nat) (pe : Pe) : (removeWalk id pe).coreWaiting = pe.coreWaiting := rfl
@[simp] theorem removeWalk_mem (id : Nat) (pe : Pe) : (removeWalk id pe).mem = pe.mem := rfl

/-! ### removeCacheReq -/

@[simp] theorem removeCacheReq_cfg (id : OpId) (pe : Pe) : (removeCacheReq id pe).cfg = pe.cfg := rfl
@[simp] theorem removeCacheReq_status (id : OpId) (pe : Pe) : (removeCacheReq id pe).status = pe.status := rfl
@[simp] theorem removeCacheReq_command (id : OpId) (pe : Pe) : (removeCacheReq id pe).command = pe.command := rfl
@[simp] theorem removeCacheReq_cmdDataAddr (id : OpId) (pe : Pe) :
    (removeCacheReq id pe).cmdDataAddr = pe.cmdDataAddr :=
  rfl
@[simp] theorem removeCacheReq_cmdDataSize (id : OpId) (pe : Pe) :
    (removeCacheReq id pe).cmdDataSize = pe.cmdDataSize :=
  rfl
@[simp] theorem removeCacheReq_cmdOffset (id : OpId) (pe : Pe) :
    (removeCacheReq id pe).cmdOffset = pe.cmdOffset :=
  rfl
@[simp] theorem removeCacheReq_cmdReplyEp (id : OpId) (pe : Pe) :
    (removeCacheReq id pe).cmdReplyEp = pe.cmdReplyEp :=
  rfl
@[simp] theorem removeCacheReq_cmdReplyLabel (id : OpId) (pe : Pe) :
    (removeCacheReq id pe).cmdReplyLabel = pe.cmdReplyLabel :=
  rfl
@[simp] theorem removeCacheReq_eps (id : OpId) (pe : Pe) : (removeCacheReq id pe).eps = pe.eps := rfl
@[simp] theorem removeCacheReq_cmdInProgress (id : OpId) (pe : Pe) :
    (removeCacheReq id pe).cmdInProgress = pe.cmdInProgress :=
  rfl
@[simp] theorem removeCacheReq_phase (id : OpId) (pe : Pe) : (removeCacheReq id pe).phase = pe.phase := rfl
@[simp] theorem removeCacheReq_cur (id : OpId) (pe : Pe) : (removeCacheReq id pe).cur = pe.cur := rfl
@[simp] theorem removeCacheReq_result (id : OpId) (pe : Pe) : (removeCacheReq id pe).result = pe.result := rfl
@[simp] theorem removeCacheReq_xfer (id : OpId) (pe : Pe) : (removeCacheReq id pe).xfer = pe.xfer := rfl
@[simp] theorem removeCacheReq_cacheReqs (id : OpId) (pe : Pe) :
    (removeCacheReq id pe).cacheReqs = pe.cacheReqs.filter fun c => c.1 != id :=
  rfl
@[simp] theorem removeCacheReq_tlb (id : OpId) (pe : Pe) : (removeCacheReq id pe).tlb = pe.tlb := rfl
@[simp] theorem removeCacheReq_tq (id : OpId) (pe : Pe) : (removeCacheReq id pe).tq = pe.tq := rfl
@[simp] theorem removeCacheReq_res (id : OpId) (pe : Pe) : (removeCacheReq id pe).res = pe.res := rfl
@[simp] theorem removeCacheReq_walkIds (id : OpId) (pe : Pe) : (removeCacheReq id pe).walkIds = pe.walkIds := rfl
@[simp] theorem removeCacheReq_draws (id : OpId) (pe : Pe) : (removeCacheReq id pe).draws = pe.draws := rfl
@[simp] theorem removeCacheReq_session (id : OpId) (pe : Pe) : (removeCacheReq id pe).session = pe.session := rfl
@[simp] theorem removeCacheReq_ctx (id : OpId) (pe : Pe) : (removeCacheReq id pe).ctx = pe.ctx := rfl
@[simp] theorem removeCacheReq_accelStateSize (id : OpId) (pe : Pe) :
    (removeCacheReq id pe).accelStateSize = pe.accelStateSize :=
  rfl
@[simp] theorem removeCacheReq_coreWaiting (id : OpId) (pe : Pe) :
    (removeCacheReq id pe).coreWaiting = pe.coreWaiting :=
  rfl
@[simp] theorem removeCacheReq_mem (id : OpId) (pe : Pe) : (removeCacheReq id pe).mem = pe.mem := rfl

/-! ### setCachePa -/

@[simp] theorem setCachePa_cfg (id : OpId) (pa : Word) (pe : Pe) : (setCachePa id pa pe).cfg = pe.cfg := rfl
@[simp] theorem setCachePa_status (id : OpId) (pa : Word) (pe : Pe) : (setCachePa id pa pe).status = pe.status := rfl
@[simp] theorem setCachePa_command (id : OpId) (pa : Word) (pe : Pe) :
    (setCachePa id pa pe).command = pe.command :=
  rfl
@[simp] theorem setCachePa_cmdDataAddr (id : OpId) (pa : Word) (pe : Pe) :
    (setCachePa id pa pe).cmdDataAddr = pe.cmdDataAddr :=
  rfl
@[simp] theorem setCachePa_cmdDataSize (id : OpId) (pa : Word) (pe : Pe) :
    (setCachePa id pa pe).cmdDataSize = pe.cmdDataSize :=
  rfl
@[simp] theorem setCachePa_cmdOffset (id : OpId) (pa : Word) (pe : Pe) :
    (setCachePa id pa pe).cmdOffset = pe.cmdOffset :=
  rfl
@[simp] theorem setCachePa_cmdReplyEp (id : OpId) (pa : Word) (pe : Pe) :
    (setCachePa id pa pe).cmdReplyEp = pe.cmdReplyEp :=
  rfl
@[simp] theorem setCachePa_cmdReplyLabel (id : OpId) (pa : Word) (pe : Pe) :
    (setCachePa id pa pe).cmdReplyLabel = pe.cmdReplyLabel :=
  rfl
@[simp] theorem setCachePa_eps (id : OpId) (pa : Word) (pe : Pe) : (setCachePa id pa pe).eps = pe.eps := rfl
@[simp] theorem setCachePa_cmdInProgress (id : OpId) (pa : Word) (pe : Pe) :
    (setCachePa id pa pe).cmdInProgress = pe.cmdInProgress :=
  rfl
@[simp] theorem setCachePa_phase (id : OpId) (pa : Word) (pe : Pe) : (setCachePa id pa pe).phase = pe.phase := rfl
@[simp] theorem setCachePa_cur (id : OpId) (pa : Word) (pe : Pe) : (setCachePa id pa pe).cur = pe.cur := rfl
@[simp] theorem setCachePa_result (id : OpId) (pa : Word) (pe : Pe) : (setCachePa id pa pe).result = pe.result := rfl
@[simp] theorem setCachePa_xfer (id : OpId) (pa : Word) (pe : Pe) : (setCachePa id pa pe).xfer = pe.xfer := rfl
@[simp] theorem setCachePa_cacheReqs (id : OpId) (pa : Word) (pe : Pe) :
    (setCachePa id pa pe).cacheReqs =
      pe.cacheReqs.map fun c => if c.1 = id then (c.1, { c.2 with pa := some pa }) else c :=
  rfl
@[simp] theorem setCachePa_tlb (id : OpId) (pa : Word) (pe : Pe) : (setCachePa id pa pe).tlb = pe.tlb := rfl
@[simp] theorem setCachePa_tq (id : OpId) (pa : Word) (pe : Pe) : (setCachePa id pa pe).tq = pe.tq := rfl
@[simp] theorem setCachePa_res (id : OpId) (pa : Word) (pe : Pe) : (setCachePa id pa pe).res = pe.res := rfl
@[simp] theorem setCachePa_walkIds (id : OpId) (pa : Word) (pe : Pe) :
    (setCachePa id pa pe).walkIds = pe.walkIds :=
  rfl
@[simp] theorem setCachePa_draws (id : OpId) (pa : Word) (pe : Pe) : (setCachePa id pa pe).draws = pe.draws := rfl
@[simp] theorem setCachePa_session (id : OpId) (pa : Word) (pe : Pe) :
    (setCachePa id pa pe).session = pe.session :=
  rfl
@[simp] theorem setCachePa_ctx (id : OpId) (pa : Word) (pe : Pe) : (setCachePa id pa pe).ctx = pe.ctx := rfl
@[simp] theorem setCachePa_accelStateSize (id : OpId) (pa : Word) (pe : Pe) :
    (setCachePa id pa pe).accelStateSize = pe.accelStateSize :=
  rfl
@[simp] theorem setCachePa_coreWaiting (id : OpId) (pa : Word) (pe : Pe) :
    (setCachePa id pa pe).coreWaiting = pe.coreWaiting :=
  rfl
@[simp] theorem setCachePa_mem (id : OpId) (pa : Word) (pe : Pe) : (setCachePa id pa pe).mem = pe.mem := rfl

/-! ### setSession -/

@[simp] theorem setSession_cfg (c : Session) (pe : Pe) : (setSession c pe).cfg = pe.cfg := rfl
@[simp] theorem setSession_status (c : Session) (pe : Pe) : (setSession c pe).status = pe.status := rfl
@[simp] theorem setSession_command (c : Session) (pe : Pe) : (setSession c pe).command = pe.command := rfl
@[simp] theorem setSession_cmdDataAddr (c : Session) (pe : Pe) : (setSession c pe).cmdDataAddr = pe.cmdDataAddr := rfl
@[simp] theorem setSession_cmdDataSize (c : Session) (pe : Pe) : (setSession c pe).cmdDataSize = pe.cmdDataSize := rfl
@[simp] theorem setSession_cmdOffset (c : Session) (pe : Pe) : (setSession c pe).cmdOffset = pe.cmdOffset := rfl
@[simp] theorem setSession_cmdReplyEp (c : Session) (pe : Pe) : (setSession c pe).cmdReplyEp = pe.cmdReplyEp := rfl
@[simp] theorem setSession_cmdReplyLabel (c : Session) (pe : Pe) :
    (setSession c pe).cmdReplyLabel = pe.cmdReplyLabel :=
  rfl
@[simp] theorem setSession_eps (c : Session) (pe : Pe) : (setSession c pe).eps = pe.eps := rfl
@[simp] theorem setSession_cmdInProgress (c : Session) (pe : Pe) :
    (setSession c pe).cmdInProgress = pe.cmdInProgress :=
  rfl
@[simp] theorem setSession_phase (c : Session) (pe : Pe) : (setSession c pe).phase = pe.phase := rfl
@[simp] theorem setSession_cur (c : Session) (pe : Pe) : (setSession c pe).cur = pe.cur := rfl
@[simp] theorem setSession_result (c : Session) (pe : Pe) : (setSession c pe).result = pe.result := rfl
@[simp] theorem setSession_xfer (c : Session) (pe : Pe) : (setSession c pe).xfer = pe.xfer := rfl
@[simp] theorem setSession_cacheReqs (c : Session) (pe : Pe) : (setSession c pe).cacheReqs = pe.cacheReqs := rfl
@[simp] theorem setSession_tlb (c : Session) (pe : Pe) : (setSession c pe).tlb = pe.tlb := rfl
@[simp] theorem setSession_tq (c : Session) (pe : Pe) : (setSession c pe).tq = pe.tq := rfl
@[simp] theorem setSession_res (c : Session) (pe : Pe) : (setSession c pe).res = pe.res := rfl
@[simp] theorem setSession_walkIds (c : Session) (pe : Pe) : (setSession c pe).walkIds = pe.walkIds := rfl
@[simp] theorem setSession_draws (c : Session) (pe : Pe) : (setSession c pe).draws = pe.draws := rfl
@[simp] theorem setSession_session (c : Session) (pe : Pe) : (setSession c pe).session = some c := rfl
@[simp] theorem setSession_ctx (c : Session) (pe : Pe) : (setSession c pe).ctx = pe.ctx := rfl
@[simp] theorem setSession_accelStateSize (c : Session) (pe : Pe) :
    (setSession c pe).accelStateSize = pe.accelStateSize :=
  rfl
@[simp] theorem setSession_coreWaiting (c : Session) (pe : Pe) : (setSession c pe).coreWaiting = pe.coreWaiting := rfl
@[simp] theorem setSession_mem (c : Session) (pe : Pe) : (setSession c pe).mem = pe.mem := rfl

/-! ### setEp -/

@[simp] theorem setEp_cfg (pe : Pe) (n : EpId) (e : Endpoint) : (setEp pe n e).cfg = pe.cfg := rfl
@[simp] theorem setEp_status (pe : Pe) (n : EpId) (e : Endpoint) : (setEp pe n e).status = pe.status := rfl
@[simp] theorem setEp_command (pe : Pe) (n : EpId) (e : Endpoint) : (setEp pe n e).command = pe.command := rfl
@[simp] theorem setEp_cmdDataAddr (pe : Pe) (n : EpId) (e : Endpoint) :
    (setEp pe n e).cmdDataAddr = pe.cmdDataAddr :=
  rfl
@[simp] theorem setEp_cmdDataSize (pe : Pe) (n : EpId) (e : Endpoint) :
    (setEp pe n e).cmdDataSize = pe.cmdDataSize :=
  rfl
@[simp] theorem setEp_cmdOffset (pe : Pe) (n : EpId) (e : Endpoint) : (setEp pe n e).cmdOffset = pe.cmdOffset := rfl
@[simp] theorem setEp_cmdReplyEp (pe : Pe) (n : EpId) (e : Endpoint) :
    (setEp pe n e).cmdReplyEp = pe.cmdReplyEp :=
  rfl
@[simp] theorem setEp_cmdReplyLabel (pe : Pe) (n : EpId) (e : Endpoint) :
    (setEp pe n e).cmdReplyLabel = pe.cmdReplyLabel :=
  rfl
@[simp] theorem setEp_eps (pe : Pe) (n : EpId) (e : Endpoint) : (setEp pe n e).eps = pe.eps.set n.toNat e := rfl
@[simp] theorem setEp_cmdInProgress (pe : Pe) (n : EpId) (e : Endpoint) :
    (setEp pe n e).cmdInProgress = pe.cmdInProgress :=
  rfl
@[simp] theorem setEp_phase (pe : Pe) (n : EpId) (e : Endpoint) : (setEp pe n e).phase = pe.phase := rfl
@[simp] theorem setEp_cur (pe : Pe) (n : EpId) (e : Endpoint) : (setEp pe n e).cur = pe.cur := rfl
@[simp] theorem setEp_result (pe : Pe) (n : EpId) (e : Endpoint) : (setEp pe n e).result = pe.result := rfl
@[simp] theorem setEp_xfer (pe : Pe) (n : EpId) (e : Endpoint) : (setEp pe n e).xfer = pe.xfer := rfl
@[simp] theorem setEp_cacheReqs (pe : Pe) (n : EpId) (e : Endpoint) : (setEp pe n e).cacheReqs = pe.cacheReqs := rfl
@[simp] theorem setEp_tlb (pe : Pe) (n : EpId) (e : Endpoint) : (setEp pe n e).tlb = pe.tlb := rfl
@[simp] theorem setEp_tq (pe : Pe) (n : EpId) (e : Endpoint) : (setEp pe n e).tq = pe.tq := rfl
@[simp] theorem setEp_res (pe : Pe) (n : EpId) (e : Endpoint) : (setEp pe n e).res = pe.res := rfl
@[simp] theorem setEp_walkIds (pe : Pe) (n : EpId) (e : Endpoint) : (setEp pe n e).walkIds = pe.walkIds := rfl
@[simp] theorem setEp_draws (pe : Pe) (n : EpId) (e : Endpoint) : (setEp pe n e).draws = pe.draws := rfl
@[simp] theorem setEp_session (pe : Pe) (n : EpId) (e : Endpoint) : (setEp pe n e).session = pe.session := rfl
@[simp] theorem setEp_ctx (pe : Pe) (n : EpId) (e : Endpoint) : (setEp pe n e).ctx = pe.ctx := rfl
@[simp] theorem setEp_accelStateSize (pe : Pe) (n : EpId) (e : Endpoint) :
    (setEp pe n e).accelStateSize = pe.accelStateSize :=
  rfl
@[simp] theorem setEp_coreWaiting (pe : Pe) (n : EpId) (e : Endpoint) :
    (setEp pe n e).coreWaiting = pe.coreWaiting :=
  rfl
@[simp] theorem setEp_mem (pe : Pe) (n : EpId) (e : Endpoint) : (setEp pe n e).mem = pe.mem := rfl

/-! ### commit -/

@[simp] theorem commit_pes (s : State) (p : Nat) (e : Effect) : (commit s p e).pes = s.pes.set p e.pe := rfl
@[simp] theorem commit_requests (s : State) (p : Nat) (e : Effect) :
    (commit s p e).requests = s.requests ++ e.requests :=
  rfl
@[simp] theorem commit_responses (s : State) (p : Nat) (e : Effect) :
    (commit s p e).responses = s.responses ++ e.responses :=
  rfl
@[simp] theorem commit_agenda (s : State) (p : Nat) (e : Effect) : (commit s p e).agenda = s.agenda := rfl
@[simp] theorem commit_turn (s : State) (p : Nat) (e : Effect) : (commit s p e).turn = s.turn := rfl
@[simp] theorem commit_active (s : State) (p : Nat) (e : Effect) : (commit s p e).active = s.active := rfl
@[simp] theorem commit_accesses (s : State) (p : Nat) (e : Effect) : (commit s p e).accesses = s.accesses := rfl
@[simp] theorem commit_outputs (s : State) (p : Nat) (e : Effect) :
    (commit s p e).outputs = s.outputs ++ e.outputs :=
  rfl

/-! ### The fields of an endpoint -/

@[simp] theorem putCredits_cfg0 (e : Endpoint) (v : BitVec 16) : (putCredits e v).cfg0 = e.cfg0 := rfl
@[simp] theorem putCredits_cfg1 (e : Endpoint) (v : BitVec 16) : (putCredits e v).cfg1 = e.cfg1 := rfl
@[simp] theorem putCredits_cfg2 (e : Endpoint) (v : BitVec 16) : (putCredits e v).cfg2 = e.cfg2 := rfl
@[simp] theorem putCredits_credit (e : Endpoint) (v : BitVec 16) :
    (putCredits e v).credit = putField e.credit 0 v :=
  rfl
@[simp] theorem putRdPtr_cfg0 (e : Endpoint) (v : BitVec 16) : (putRdPtr e v).cfg0 = e.cfg0 := rfl
@[simp] theorem putRdPtr_cfg1 (e : Endpoint) (v : BitVec 16) : (putRdPtr e v).cfg1 = e.cfg1 := rfl
@[simp] theorem putRdPtr_cfg2 (e : Endpoint) (v : BitVec 16) : (putRdPtr e v).cfg2 = e.cfg2 := rfl
@[simp] theorem putRdPtr_credit (e : Endpoint) (v : BitVec 16) : (putRdPtr e v).credit = putField e.credit 0 v := rfl
@[simp] theorem putWrPtr_cfg0 (e : Endpoint) (v : BitVec 16) : (putWrPtr e v).cfg0 = e.cfg0 := rfl
@[simp] theorem putWrPtr_cfg1 (e : Endpoint) (v : BitVec 16) : (putWrPtr e v).cfg1 = e.cfg1 := rfl
@[simp] theorem putWrPtr_cfg2 (e : Endpoint) (v : BitVec 16) : (putWrPtr e v).cfg2 = e.cfg2 := rfl
@[simp] theorem putWrPtr_credit (e : Endpoint) (v : BitVec 16) : (putWrPtr e v).credit = putField e.credit 16 v := rfl
@[simp] theorem putMsgCount_cfg0 (e : Endpoint) (v : BitVec 16) : (putMsgCount e v).cfg0 = e.cfg0 := rfl
@[simp] theorem putMsgCount_cfg1 (e : Endpoint) (v : BitVec 16) : (putMsgCount e v).cfg1 = e.cfg1 := rfl
@[simp] theorem putMsgCount_cfg2 (e : Endpoint) (v : BitVec 16) : (putMsgCount e v).cfg2 = e.cfg2 := rfl
@[simp] theorem putMsgCount_credit (e : Endpoint) (v : BitVec 16) :
    (putMsgCount e v).credit = putField e.credit 32 v :=
  rfl

end Sys2Proof.Machine
end

