-- ==== Sys2Proof/Laws/Ops.lean ====
section
/-! SUPPORT. What the shared operations can do, said once: the endpoint a predicate speaks of, the ring arithmetic, the
region and slot checks in plain arithmetic, the recorded error, what a translation can change, and the registers' addresses. -/

namespace Sys2Proof.Machine

/-! ### Endpoints (10_state.md R46) -/

theorem epAt_eq {pe : Pe} {n : EpId} {e : Endpoint} (h : pe.eps[n.toNat]? = some e) : epAt pe n = e := by
  simp [epAt, List.getD, h]

theorem validEp_iff {pe : Pe} {n : EpId} : validEp pe n = true ↔ n.toNat < pe.eps.length := by
  unfold validEp numEp
  exact decide_eq_true_iff

theorem validEp_eq {pe : Pe} {n : EpId} {e : Endpoint} (h : pe.eps[n.toNat]? = some e) : validEp pe n = true :=
  validEp_iff.2 (List.getElem?_eq_some_iff.mp h).1

theorem getElem?_of_validEp {pe : Pe} {n : EpId} (h : validEp pe n = true) :
    pe.eps[n.toNat]? = some (epAt pe n) := by
  have := validEp_iff.1 h
  simp [epAt, List.getD, this]

theorem isSend_eq {pe : Pe} {n : EpId} {e : Endpoint} (h : pe.eps[n.toNat]? = some e) :
    isSend pe n = (epType e == 1#3) := by
  simp [isSend, validEp_eq h, epAt_eq h]

theorem isRecv_eq {pe : Pe} {n : EpId} {e : Endpoint} (h : pe.eps[n.toNat]? = some e) :
    isRecv pe n = (epType e == 2#3) := by
  simp [isRecv, validEp_eq h, epAt_eq h]

theorem isMem_eq {pe : Pe} {n : EpId} {e : Endpoint} (h : pe.eps[n.toNat]? = some e) :
    isMem pe n = (epType e == 3#3) := by
  simp [isMem, validEp_eq h, epAt_eq h]

/-- A SEND endpoint is one of the PE's endpoints. -/
theorem isSend_some {pe : Pe} {n : EpId} (h : isSend pe n = true) :
    pe.eps[n.toNat]? = some (epAt pe n) ∧ epType (epAt pe n) = 1#3 := by
  simp only [isSend, Bool.and_eq_true, beq_iff_eq] at h
  exact ⟨getElem?_of_validEp h.1, h.2⟩

/-- A RECEIVE endpoint is one of the PE's endpoints. -/
theorem isRecv_some {pe : Pe} {n : EpId} (h : isRecv pe n = true) :
    pe.eps[n.toNat]? = some (epAt pe n) ∧ epType (epAt pe n) = 2#3 := by
  simp only [isRecv, Bool.and_eq_true, beq_iff_eq] at h
  exact ⟨getElem?_of_validEp h.1, h.2⟩

/-- The next place of a ring (40_command_engine.md R212), in plain arithmetic. -/
theorem wrapInc_toNat (p n : BitVec 16) :
    (wrapInc p n).toNat = if n.toNat = 0 then 0 else (p.toNat + 1) % n.toNat := by
  unfold wrapInc
  by_cases h : n = 0#16
  · simp [h]
  · have h2 : n.toNat ≠ 0 := fun h2 => h (BitVec.eq_of_toNat_eq (by simpa using h2))
    rw [if_neg h, if_neg h2, BitVec.toNat_ofNat, Nat.mod_eq_of_lt]
    have := Nat.mod_lt (p.toNat + 1) (by omega : 0 < n.toNat)
    have := n.isLt
    omega

/-- The slot check (41_message_unit.md R245): the address of one of the ring's slots. -/
theorem isSlot_iff (e : Endpoint) (m : Word) : isSlot e m = true ↔
    ∃ i < (epNumSlots e).toNat, 0 < (epSlotSize e).toNat ∧
      m.toNat = (epBufAddr e).toNat + i * (epSlotSize e).toNat := by
  simp only [isSlot, Bool.and_eq_true, decide_eq_true_eq]
  constructor
  · rintro ⟨⟨⟨h1, h2⟩, h3⟩, h4⟩
    have := Nat.div_add_mod (m.toNat - (epBufAddr e).toNat) (epSlotSize e).toNat
    refine ⟨(m.toNat - (epBufAddr e).toNat) / (epSlotSize e).toNat, ?_, h1, ?_⟩
    · exact Nat.div_lt_of_lt_mul (by rw [Nat.mul_comm]; exact h3)
    · rw [Nat.mul_comm]; omega
  · rintro ⟨i, h1, h2, h3⟩
    refine ⟨⟨⟨h2, by omega⟩, ?_⟩, ?_⟩
    · rw [h3, Nat.add_sub_cancel_left]
      exact Nat.mul_lt_mul_of_pos_right h1 h2
    · rw [h3, Nat.add_sub_cancel_left]
      simp

/-- The region check (42_transfer_unit.md R294): the access lies in the region, without wrap. -/
theorem inRegion_iff (e : Endpoint) (off n : Word) :
    inRegion e off n = true ↔ off.toNat + n.toNat ≤ (epRegionSize e).toNat := by
  simp only [inRegion, Bool.and_eq_true, decide_eq_true_eq]
  omega

/-! ### STATUS (41_message_unit.md R256) -/

/-- BUSY is not touched by a recorded receive error. -/
@[simp] theorem statusBusy_recordRecvErr (w : Word) (c : ErrorCode) (ep : EpId) :
    statusBusy (recordRecvErr w c ep) = statusBusy w := by
  unfold statusBusy recordRecvErr
  rw [bitAt_putField_apart _ _ _ _ (by omega), bitAt_putField_apart _ _ _ _ (by omega),
    bitAt_putBit_apart _ _ _ _ (by omega)]

@[simp] theorem statusBusy_putBit_busy (w : Word) (b : Bool) : statusBusy (putBit w 0 b) = b := by
  unfold statusBusy
  exact bitAt_putBit_same _ _ _ (by omega)

@[simp] theorem statusBusy_putBit_rejected (w : Word) (b : Bool) : statusBusy (putBit w 1 b) = statusBusy w := by
  unfold statusBusy
  exact bitAt_putBit_apart _ _ _ _ (by omega)

@[simp] theorem statusBusy_statusAfterWrite (w v : Word) : statusBusy (statusAfterWrite w v) = statusBusy w := by
  unfold statusAfterWrite clearRecvErr
  simp only []
  split <;> split <;>
    simp [statusBusy, bitAt_putField_apart, bitAt_putBit_apart]

/-! ### Local memory (20_memory.md R84) -/

/-- A checked write keeps the canonical form. -/
theorem memWrite_wf {pe pe' : Pe} {a : Nat} {bs : List Byte} (h : memWrite pe a bs = some pe')
    (hm : Memory.wf pe.mem) : Memory.wf pe'.mem := by
  obtain ⟨_, rfl⟩ := memWrite_eq_some.mp h
  exact writeBytes_wf _ _ _ hm

/-- A checked write lists no address outside local memory. -/
theorem memWrite_inside {pe pe' : Pe} {a : Nat} {bs : List Byte} (h : memWrite pe a bs = some pe')
    (hm : ∀ c ∈ pe.mem, c.1 < pe.cfg.memSize) : ∀ c ∈ pe'.mem, c.1 < pe.cfg.memSize := by
  obtain ⟨h1, rfl⟩ := memWrite_eq_some.mp h
  intro c hc
  rcases writeBytes_mem _ _ _ _ hc with hc | hc
  · rcases h1 with h1 | h1 <;> omega
  · exact hm c hc

/-- A write over ranges keeps the canonical form and stays inside local memory. -/
theorem writeRanges_ok {rs : List PhysRange} {pe pe' : Pe} {data : List Byte} (h : writeRanges pe rs data = some pe')
    (hm : Memory.wf pe.mem) (hi : ∀ c ∈ pe.mem, c.1 < pe.cfg.memSize) :
    Memory.wf pe'.mem ∧ ∀ c ∈ pe'.mem, c.1 < pe.cfg.memSize := by
  induction rs generalizing pe data with
  | nil =>
    simp only [writeRanges, Option.some.injEq] at h
    exact h ▸ ⟨hm, hi⟩
  | cons r rs ih =>
    simp only [writeRanges] at h
    split at h
    · rename_i pe1 h1
      have h2 := memWrite_wf h1 hm
      have h3 := memWrite_inside h1 hi
      obtain ⟨_, rfl⟩ := memWrite_eq_some.mp h1
      have := ih h h2 h3
      exact this
    · cases h

/-! ### Translation (44_translation_unit.md R354) -/

/-- What a translation leaves of a PE: only the queue with its id counter, and the outcomes, can change. -/
def SameButQueue (pe pe' : Pe) : Prop :=
  ∃ tq walkIds res, pe' = { pe with tq := tq, walkIds := walkIds, res := res }

/-- The outcomes of the loop of `translate`: the PE with the owner's outcomes consumed, or with one walk enqueued where
the queue has room and holds none of this owner for the page. -/
theorem translatePages_cases (owner : Owner) (flags : Access) (pe : Pe) (ps : List PagePiece)
    (rs : List PhysRange) :
    (∃ rs', translatePages owner flags pe ps rs = .ok (clearResults owner pe) (rs ++ rs') ∧
        rs'.map PhysRange.len = ps.map PagePiece.len ∧
        ∀ r ∈ rs', ∃ e : PageEntry, ∃ p ∈ ps, r = pieceRange pe.cfg.pageSize e p) ∨
      translatePages owner flags pe ps rs = .fault (clearResults owner pe) ∨
      (∃ v, translatePages owner flags pe ps rs = .miss (enqueueWalk owner v flags pe) ∧
        pe.tq.length < pe.cfg.transQueueDepth) ∨
      translatePages owner flags pe ps rs = .wait := by
  induction ps generalizing rs with
  | nil => exact .inl ⟨[], by simp [translatePages], rfl, by simp⟩
  | cons p ps ih =>
    unfold translatePages
    split
    · exact .inr (.inl rfl)
    · split
      · rename_i e _
        split
        · rcases ih (rs ++ [pieceRange pe.cfg.pageSize e p]) with ⟨rs', h1, h2, h3⟩ | h | h | h
          · refine .inl ⟨pieceRange pe.cfg.pageSize e p :: rs', by simpa using h1, ?_, ?_⟩
            · simp [h2, pieceRange]
            · intro r hr
              rcases List.mem_cons.mp hr with rfl | hr
              · exact ⟨e, p, by simp, rfl⟩
              · obtain ⟨e', q, hq, hr⟩ := h3 r hr
                exact ⟨e', q, by simp [hq], hr⟩
          · exact .inr (.inl h)
          · exact .inr (.inr (.inl h))
          · exact .inr (.inr (.inr h))
        · exact .inr (.inl rfl)
      · split
        · exact .inr (.inr (.inr rfl))
        · split
          · exact .inr (.inr (.inr rfl))
          · exact .inr (.inr (.inl ⟨p.vpn, rfl, by omega⟩))

/-- The pieces of an access sum to no more than its bytes. -/
theorem pagePiecesFuel_sum_le (ps fuel va n : Nat) :
    ((pagePiecesFuel ps fuel va n).map PagePiece.len).sum ≤ n := by
  induction fuel generalizing va n with
  | zero => simp [pagePiecesFuel]
  | succ fuel ih =>
    unfold pagePiecesFuel
    split
    · simp
    · simp only [List.map_cons, List.sum_cons]
      have := ih ((va + min n (min (ps - va % ps) (2 ^ 64 - va))) % 2 ^ 64)
        (n - min n (min (ps - va % ps) (2 ^ 64 - va)))
      omega

/-- What a translation can do. -/
theorem translate_cases (owner : Owner) (va : Word) (n : Nat) (flags : Access) (pe : Pe) :
    (∃ rs, translate owner va n flags pe = .ok pe rs ∧ (rs.map PhysRange.len).sum ≤ n ∧
        (pe.cfg.vmEnabled = false ∨ n = 0)) ∨
      (∃ rs, translate owner va n flags pe = .ok (clearResults owner pe) rs ∧ (rs.map PhysRange.len).sum ≤ n ∧
        pe.cfg.vmEnabled = true) ∨
      (translate owner va n flags pe = .fault (clearResults owner pe) ∧ pe.cfg.vmEnabled = true) ∨
      (∃ v, translate owner va n flags pe = .miss (enqueueWalk owner v flags pe) ∧
        pe.tq.length < pe.cfg.transQueueDepth ∧ pe.cfg.vmEnabled = true) ∨
      (translate owner va n flags pe = .wait ∧ pe.cfg.vmEnabled = true) := by
  unfold translate
  cases hvm : pe.cfg.vmEnabled with
  | false => exact .inl ⟨_, rfl, by simp, .inl rfl⟩
  | true =>
    by_cases hn : n = 0
    · exact .inl ⟨[], by simp [hn], by simp, .inr hn⟩
    · right
      simp only [Bool.not_true, Bool.false_eq_true, if_false, hn]
      rcases translatePages_cases owner flags pe (pagePieces pe.cfg.pageSize va n) [] with
        ⟨rs, h1, h2, _⟩ | h | ⟨v, h1, h2⟩ | h
      · refine .inl ⟨rs, by simpa using h1, ?_, trivial⟩
        rw [h2]
        exact pagePiecesFuel_sum_le _ _ _ _
      · exact .inr (.inl ⟨h, trivial⟩)
      · exact .inr (.inr (.inl ⟨v, h1, h2, trivial⟩))
      · exact .inr (.inr (.inr ⟨h, trivial⟩))

/-- What a register write leaves alone: everything but the registers, the latched command and its phase. -/
theorem regWrite_frame (i : Nat) (v : Word) (priv : Bool) (pe : Pe) :
    ∃ status command a1 a2 a3 a4 a5 eps inProgress phase cur result,
      regWrite i v priv pe =
        { pe with
          status := status, command := command, cmdDataAddr := a1, cmdDataSize := a2, cmdOffset := a3
          cmdReplyEp := a4, cmdReplyLabel := a5, eps := eps, cmdInProgress := inProgress, phase := phase
          cur := cur, result := result } ∧ eps.length = pe.eps.length := by
  have self : ∀ pe' : Pe, pe' = pe → ∃ status command a1 a2 a3 a4 a5 eps inProgress phase cur result,
      pe' =
        { pe with
          status := status, command := command, cmdDataAddr := a1, cmdDataSize := a2, cmdOffset := a3
          cmdReplyEp := a4, cmdReplyLabel := a5, eps := eps, cmdInProgress := inProgress, phase := phase
          cur := cur, result := result } ∧ eps.length = pe.eps.length := by
    rintro _ rfl
    exact ⟨_, _, _, _, _, _, _, _, _, _, _, _, rfl, rfl⟩
  unfold regWrite
  split
  · exact ⟨_, _, _, _, _, _, _, _, _, _, _, _, rfl, rfl⟩
  · unfold writeCommand
    split
    · exact ⟨_, _, _, _, _, _, _, _, _, _, _, _, rfl, rfl⟩
    · simp only []
      split <;> exact ⟨_, _, _, _, _, _, _, _, _, _, _, _, rfl, rfl⟩
  iterate 5
    · unfold writeArgument
      split <;> exact ⟨_, _, _, _, _, _, _, _, _, _, _, _, rfl, rfl⟩
  · exact self _ rfl
  · split
    · split
      · exact ⟨_, _, _, _, _, _, _, _, _, _, _, _, rfl, by simp⟩
      · exact self _ rfl
    · exact self _ rfl

@[simp] theorem regWrite_cfg (i : Nat) (v : Word) (priv : Bool) (pe : Pe) :
    (regWrite i v priv pe).cfg = pe.cfg := by
  obtain ⟨_, _, _, _, _, _, _, _, _, _, _, _, h, _⟩ := regWrite_frame i v priv pe
  rw [h]
@[simp] theorem regWrite_mem (i : Nat) (v : Word) (priv : Bool) (pe : Pe) :
    (regWrite i v priv pe).mem = pe.mem := by
  obtain ⟨_, _, _, _, _, _, _, _, _, _, _, _, h, _⟩ := regWrite_frame i v priv pe
  rw [h]
@[simp] theorem regWrite_ctx (i : Nat) (v : Word) (priv : Bool) (pe : Pe) :
    (regWrite i v priv pe).ctx = pe.ctx := by
  obtain ⟨_, _, _, _, _, _, _, _, _, _, _, _, h, _⟩ := regWrite_frame i v priv pe
  rw [h]
@[simp] theorem regWrite_session (i : Nat) (v : Word) (priv : Bool) (pe : Pe) :
    (regWrite i v priv pe).session = pe.session := by
  obtain ⟨_, _, _, _, _, _, _, _, _, _, _, _, h, _⟩ := regWrite_frame i v priv pe
  rw [h]
@[simp] theorem regWrite_xfer (i : Nat) (v : Word) (priv : Bool) (pe : Pe) :
    (regWrite i v priv pe).xfer = pe.xfer := by
  obtain ⟨_, _, _, _, _, _, _, _, _, _, _, _, h, _⟩ := regWrite_frame i v priv pe
  rw [h]

/-! ### Register addresses and effects -/

/-- The access at a register's own address is that register's, also where the address wraps (R31, R11). -/
theorem regAccess_regAddr (pe : Pe) (i : Nat) (h : i < 2 ^ 61) : regAccess pe (regAddr pe i) 8 = .index i := by
  have hoff : (regAddr pe i - pe.cfg.dtuRegBase).toNat = 8 * i := by
    rw [regAddr, BitVec.add_comm, BitVec.add_sub_cancel, BitVec.toNat_ofNat, Nat.mod_eq_of_lt (by omega)]
  have h8 : (8 * i) % 8 = 0 ∧ 8 * i / 8 = i := by omega
  simp [regAccess, hoff, h8]

/-- An effect on one PE alone only replaces that PE. -/
theorem commit_pe_only (s : State) (p : Nat) (pe : Pe) : commit s p { pe := pe } = { s with pes := s.pes.set p pe } := by
  simp [commit]

/-- Setting a PE to itself changes nothing. -/
theorem pes_set_self {pes : List Pe} {p : Nat} {pe : Pe} (h : pes[p]? = some pe) : pes.set p pe = pes := by
  obtain ⟨_, rfl⟩ := List.getElem?_eq_some_iff.1 h
  simp

/-- The PE at the place just set. -/
theorem pes_set_get {pes : List Pe} {p : Nat} {pe : Pe} (h : pes[p]? = some pe) (pe' : Pe) :
    (pes.set p pe')[p]? = some pe' := by
  simp [(List.getElem?_eq_some_iff.1 h).1]

end Sys2Proof.Machine
end

