-- ==== Sys2Proof/Laws/Step.lean ====
section
/-! SUPPORT. What one agent's step can do, said once: a step that answers a next state changes at most one PE, the one its
event concerns, and does to it one of the steps listed here. -/

namespace Sys2Proof.Machine

/-- What one step of the system can do to a PE, `ev` being the event taken. -/
inductive PeStep (ev : Event) (me : PeId) (pe : Pe) : Effect → Prop where
  /-- Nothing but what leaves the PE: a client's read, a served read, a discarded response. -/
  | same (e : Effect) (hpe : e.pe = pe) (hreq : e.requests = []) (hresp : ∀ r ∈ e.responses, 16 ≤ r.bytes.length) :
    PeStep ev me pe e
  | write (i : Nat) (v : Word) : PeStep ev me pe { pe := regWrite i v (eventPrivileged ev) pe }
  | send (p : Nat) (hev : ev = .engine p) (ep : EpId) (h : pe.phase = .execPending) : PeStep ev me pe { pe := sendExecute ep me pe }
  | reply (ep : EpId) (h : pe.phase = .execPending) : PeStep ev me pe { pe := replyExecute ep me pe }
  | memory (type : XferType) (permitted : Endpoint → Bool) (ep : EpId) (h : pe.phase = .execPending) :
    PeStep ev me pe { pe := memoryExecute type permitted ep pe }
  | incReadPtr (ep : EpId) (h : pe.phase = .execPending) : PeStep ev me pe { pe := incReadPtrExecute ep pe }
  | wakeupCore (h : pe.phase = .execPending) : PeStep ev me pe { pe := completeCommand pe }
  | reserved7 (h : pe.phase = .execPending) : PeStep ev me pe { pe := failCommand errUnknownCmd pe }
  | finish (h : pe.phase = .finishPending) : PeStep ev me pe (finishCommand me pe)
  | transfer (e : Effect) (h : transferStep me pe = some e) : PeStep ev me pe e
  | ctxSwitch (p : Nat) (hev : ev = .ctxSwitch p) (e : Effect) (h : ctxSwitchStep me pe = some e) : PeStep ev me pe e
  | receive (k : Nat) (hev : ev = .deliverRequest k) (h : PacketHead) (payload : List Byte) : PeStep ev me pe (receiveMessage h payload pe)
  | serveWrite (h : PacketHead) (payload : List Byte) : PeStep ev me pe (serveWrite h payload pe)
  | chunkResponse (bytes : List Byte) : PeStep ev me pe { pe := chunkResponse bytes pe }
  | cacheResponse (bytes : List Byte) : PeStep ev me pe (cacheResponse me bytes pe)
  | store (addr : Nat) (bytes : List Byte) (pe' : Pe) (h : memWrite pe addr bytes = some pe') :
    PeStep ev me pe { pe := pe' }
  | coreWaiting (b : Bool) : PeStep ev me pe { pe := { pe with coreWaiting := b } }
  | accelContext (off : Nat) (bytes : List Byte) (e : Effect) (h : accelContextEffect off bytes pe = some e) :
    PeStep ev me pe e
  | accelStateSize (n : Word) : PeStep ev me pe { pe := { pe with accelStateSize := n } }
  | cacheRequest (id : OpId) (req : CacheRequest) (pe' : Pe) (h : acceptCacheRequest id req pe = some pe') :
    PeStep ev me pe { pe := pe' }
  | cacheTranslate (id : OpId) (e : Effect) (h : cacheTranslateStep me id pe = some e) : PeStep ev me pe e
  | walkAnswer (id : Nat) (answer : WalkAnswer) (pe' : Pe) (h : walkAnswered me id answer pe = some pe') :
    PeStep ev me pe { pe := pe' }

/-- A step that leaves every PE as it was: nothing new in flight but the transport's own answers. -/
def Passed (s t : State) : Prop :=
  t.pes = s.pes ∧ (∀ b ∈ t.requests, b ∈ s.requests) ∧
    ∀ r ∈ t.responses, r ∈ s.responses ∨ 16 ≤ r.bytes.length

/-- A step of the PE at place `p`. -/
def Stepped (ev : Event) (s t : State) (p : Nat) (pe : Pe) (e : Effect) : Prop :=
  s.pes[p]? = some pe ∧ PeStep ev (peId p) pe e ∧ t.pes = s.pes.set p e.pe ∧
    (∀ b ∈ t.requests, b ∈ s.requests ∨ b ∈ e.requests) ∧
    ∀ r ∈ t.responses, r ∈ s.responses ∨ r ∈ e.responses

theorem Stepped.of_commit {ev : Event} {s s0 : State} {p : Nat} {pe : Pe} {e : Effect}
    (hp : s.pes[p]? = some pe) (h0 : s0.pes = s.pes) (hr : ∀ b ∈ s0.requests, b ∈ s.requests)
    (hs : ∀ r ∈ s0.responses, r ∈ s.responses) (h : PeStep ev (peId p) pe e) :
    Stepped ev s (commit s0 p e) p pe e := by
  refine ⟨hp, h, by simp [h0], fun b hb => ?_, fun r hr' => ?_⟩
  · simp only [commit_requests, List.mem_append] at hb
    exact hb.imp (hr b) id
  · simp only [commit_responses, List.mem_append] at hr'
    exact hr'.imp (hs r) id

@[simp] theorem consumeChoice_pes (s : State) : (consumeChoice s).pes = s.pes := by
  unfold consumeChoice; split <;> rfl
@[simp] theorem consumeChoice_requests (s : State) : (consumeChoice s).requests = s.requests := by
  unfold consumeChoice; split <;> rfl
@[simp] theorem consumeChoice_responses (s : State) : (consumeChoice s).responses = s.responses := by
  unfold consumeChoice; split <;> rfl
@[simp] theorem consumeChoice_active (s : State) : (consumeChoice s).active = s.active := by
  unfold consumeChoice; split <;> rfl

theorem takeEvent_pes (s : State) : (takeEvent s).pes = s.pes := by
  simp only [takeEvent]; split <;> simp

theorem takeEvent_requests (s : State) : (takeEvent s).requests = s.requests := by
  simp only [takeEvent]; split <;> simp

theorem takeEvent_responses (s : State) : (takeEvent s).responses = s.responses := by
  simp only [takeEvent]; split <;> simp

theorem takeEvent_active (s : State) : (takeEvent s).active = s.active := by
  simp only [takeEvent]; split <;> simp

theorem takeEvent_outputs (s : State) : (takeEvent s).outputs = [] := rfl

theorem takeEvent_accesses (s : State) : (takeEvent s).accesses = accessesAfter (nextEvent s) s := rfl

/-- Where no access in progress has to be performed first, the chosen event is next. -/
theorem nextEvent_of_pressed {s : State} (h : pressed s = none) : nextEvent s = chosenEvent s := by
  simp [nextEvent, h]

/-- With no access in progress, none has to be performed first. -/
@[simp] theorem pressed_nil {s : State} (h : s.accesses = []) : pressed s = none := by
  simp [pressed, h]

/-- An access in progress that has stored nothing has to be performed before no event. -/
theorem presses_nil {s : State} {e : Event} {o : OpenAccess} (h : o.stored = []) : presses s e o = false := by
  simp [presses, h]

/-- Where no access in progress has stored bytes, none has to be performed first. -/
theorem pressed_of_stored {s : State} (h : ∀ o ∈ s.accesses, o.stored = []) : pressed s = none :=
  List.find?_eq_none.2 fun o ho => by simp [presses_nil (h o ho)]

/-- What a command instruction can do. -/
theorem onActive_next {s t : State} {f : PeId → Pe → Pe} (h : onActive s f = .next t) :
    ∃ pe, s.pes[s.active]? = some pe ∧ t = commit s s.active { pe := f (peId s.active) pe } := by
  unfold onActive at h
  split at h
  · cases h
    exact ⟨_, by assumption, rfl⟩
  · cases h

/-- A command instruction runs where there is a PE. -/
theorem onActive_some {s : State} {pe : Pe} (f : PeId → Pe → Pe) (h : s.pes[s.active]? = some pe) :
    onActive s f = .next (commit s s.active { pe := f (peId s.active) pe }) := by
  simp [onActive, h]

/-- What a served request can do: it always answers a next state. -/
theorem serveAt_next {s t : State} {h : PacketHead} {f : PeId → Pe → Effect} (ht : serveAt s h f = .next t) :
    (∃ pe, s.pes[h.dstPe.toNat]? = some pe ∧ t = commit s h.dstPe.toNat (f h.dstPe pe)) ∨
      (s.pes[h.dstPe.toNat]? = none ∧ t = { s with responses := s.responses ++ [responseTo h errNocError []] }) := by
  unfold serveAt at ht
  split at ht
  · cases ht
    exact .inl ⟨_, by assumption, rfl⟩
  · cases ht
    exact .inr ⟨by assumption, rfl⟩

theorem serveAt_some {s : State} {h : PacketHead} {pe : Pe} (f : PeId → Pe → Effect)
    (hp : s.pes[h.dstPe.toNat]? = some pe) :
    serveAt s h f = .next (commit s h.dstPe.toNat (f h.dstPe pe)) := by
  simp [serveAt, hp]

/-- What a step of one PE that may be not enabled can do. -/
theorem stepPe_cases (s : State) (p : Nat) (f : PeId → Pe → Option Effect) :
    stepPe s p f = s ∨ ∃ pe e, s.pes[p]? = some pe ∧ f (peId p) pe = some e ∧ stepPe s p f = commit s p e := by
  unfold stepPe
  split
  · split
    · exact .inr ⟨_, _, by assumption, by assumption, rfl⟩
    · exact .inl rfl
  · exact .inl rfl

theorem peId_toNat (q : PeId) : peId q.toNat = q := by
  simp [peId]

theorem responseTo_length (h : PacketHead) (c : ErrorCode) (d : List Byte) : 16 ≤ (responseTo h c d).bytes.length := by
  simp [responseTo, encodeResponse, wordBytes]
  omega

/-- The head of an instruction that is a packet. -/
def instrHead : Instr → Option PacketHead
  | .message h _ => some h
  | .readReq h => some h
  | .writeReq h _ => some h
  | .cacheMemReq h _ => some h
  | .cacheMemReqFunc h _ => some h
  | .reservedPkt5 h _ => some h
  | .reservedPkt6 h _ => some h
  | .reservedPkt7 h _ => some h
  | _ => none

/-- A decoded packet carries the head of its bytes. -/
theorem decodePacket_head {bytes : List Byte} {i : Instr} (h : decode .noc bytes = .ok i) :
    instrHead i = some (packetHead bytes) := by
  have key : ∀ (ty : BitVec 3) (hd : PacketHead) (body : List Byte), instrHead (packetOf ty hd body) = some hd := by
    intro ty hd body
    unfold packetOf
    split <;> rfl
  simp only [decode, decodePacket] at h
  split at h
  · cases h
  · split at h
    · split at h
      · cases h; exact key _ _ _
      · cases h
    · cases h; exact key _ _ _

/-- What serving a packet can do. -/
theorem exec_packet {i : Instr} {hd : PacketHead} (hi : instrHead i = some hd) {ev : Event} {k : Nat}
    (hev : ev = .deliverRequest k) (s0 : State) :
    (∃ pe e, s0.pes[hd.dstPe.toNat]? = some pe ∧ PeStep ev hd.dstPe pe e ∧
        exec i s0 = .next (commit s0 hd.dstPe.toNat e)) ∨
      (s0.pes[hd.dstPe.toNat]? = none ∧
        exec i s0 = .next { s0 with responses := s0.responses ++ [responseTo hd errNocError []] }) := by
  have key : ∀ f : PeId → Pe → Effect, exec i s0 = serveAt s0 hd f →
      (∀ pe, PeStep ev hd.dstPe pe (f hd.dstPe pe)) →
      (∃ pe e, s0.pes[hd.dstPe.toNat]? = some pe ∧ PeStep ev hd.dstPe pe e ∧
          exec i s0 = .next (commit s0 hd.dstPe.toNat e)) ∨
        (s0.pes[hd.dstPe.toNat]? = none ∧
          exec i s0 = .next { s0 with responses := s0.responses ++ [responseTo hd errNocError []] }) := by
    intro f hf hs
    rw [hf]
    unfold serveAt
    split
    · exact .inl ⟨_, _, by assumption, hs _, rfl⟩
    · exact .inr ⟨by assumption, rfl⟩
  have read : ∀ pe, PeStep ev hd.dstPe pe (serveRead hd pe) := by
    intro pe
    unfold serveRead
    split
    · exact .same _ rfl rfl (by simp [responseTo_length])
    · exact .same _ rfl rfl (by simp [responseTo_length])
  have cache : ∀ b pe, PeStep ev hd.dstPe pe (serveCache hd b pe) := by
    intro b pe
    unfold serveCache
    split
    · exact .serveWrite _ _
    · exact read pe
  have res : ∀ pe, PeStep ev hd.dstPe pe (serveReserved hd pe) :=
    fun pe => .same _ rfl rfl (by simp [serveReserved, responseTo_length])
  cases i with
  | message h b => cases hi; exact key (fun _ pe => receiveMessage hd b pe) rfl fun pe => .receive k hev _ _
  | readReq h => cases hi; exact key (fun _ pe => serveRead hd pe) rfl read
  | writeReq h b => cases hi; exact key (fun _ pe => serveWrite hd b pe) rfl fun pe => .serveWrite _ _
  | cacheMemReq h b => cases hi; exact key (fun _ pe => serveCache hd b pe) rfl (cache b)
  | cacheMemReqFunc h b => cases hi; exact key (fun _ pe => serveCache hd b pe) rfl (cache b)
  | reservedPkt5 h b => cases hi; exact key (fun _ pe => serveReserved hd pe) rfl res
  | reservedPkt6 h b => cases hi; exact key (fun _ pe => serveReserved hd pe) rfl res
  | reservedPkt7 h b => cases hi; exact key (fun _ pe => serveReserved hd pe) rfl res
  | _ => cases hi

/-- What the execute step of a latched command can do. -/
theorem exec_command {op : BitVec 3} {ep : EpId} {s0 t : State} (ev : Event)
    (hev : op ≠ 0#3 → ∃ p, ev = .engine p)
    (hph : ∀ pe, s0.pes[s0.active]? = some pe → op ≠ 0#3 → pe.phase = .execPending)
    (h : exec (commandOf op ep) s0 = .next t) :
    ∃ pe e, s0.pes[s0.active]? = some pe ∧ PeStep ev (peId s0.active) pe e ∧ t = commit s0 s0.active e := by
  have key : ∀ f : PeId → Pe → Pe, exec (commandOf op ep) s0 = onActive s0 f →
      (∀ pe, s0.pes[s0.active]? = some pe → PeStep ev (peId s0.active) pe { pe := f (peId s0.active) pe }) →
      ∃ pe e, s0.pes[s0.active]? = some pe ∧ PeStep ev (peId s0.active) pe e ∧ t = commit s0 s0.active e := by
    intro f hf hs
    rw [hf] at h
    obtain ⟨pe, hp, rfl⟩ := onActive_next h
    exact ⟨pe, _, hp, hs pe hp, rfl⟩
  have hop : op = 0#3 ∨ op = 1#3 ∨ op = 2#3 ∨ op = 3#3 ∨ op = 4#3 ∨ op = 5#3 ∨ op = 6#3 ∨ op = 7#3 := by
    clear key h hph hev
    revert op
    decide
  rcases hop with rfl | rfl | rfl | rfl | rfl | rfl | rfl | rfl
  · exact key (fun _ pe => writeCommand (commandWord 0#3 ep errNone) pe) rfl fun pe _ => .write 1 _
  · exact key (sendExecute ep) rfl fun pe hp =>
      (hev (by decide)).elim fun q hq => .send q hq _ (hph pe hp (by decide))
  · exact key (replyExecute ep) rfl fun pe hp => .reply _ (hph pe hp (by decide))
  · exact key (fun _ pe => memoryExecute .localWrite epPermR ep pe) rfl fun pe hp => .memory _ _ _ (hph pe hp (by decide))
  · exact key (fun _ pe => memoryExecute .localRead epPermW ep pe) rfl fun pe hp => .memory _ _ _ (hph pe hp (by decide))
  · exact key (fun _ pe => incReadPtrExecute ep pe) rfl fun pe hp => .incReadPtr _ (hph pe hp (by decide))
  · exact key (fun _ pe => completeCommand pe) rfl fun pe hp => .wakeupCore (hph pe hp (by decide))
  · exact key (fun _ pe => failCommand errUnknownCmd pe) rfl fun pe hp => .reserved7 (hph pe hp (by decide))

/-- What one agent's step can do: pass over, or one step of one PE that its event concerns. -/
def Ran (ev : Event) (s t : State) : Prop :=
  Passed s t ∨ ∃ p pe e, concerns s ev p ∧ Stepped ev s t p pe e

/-- Whether an event is the step, or a part, of an access that overlaps others. -/
def isRace : Event → Bool
  | .race _ _ _ => true
  | .accessPart _ _ _ => true
  | _ => false

/-- What the step of an event that is no race can do. -/
theorem runEvent_cases {ev : Event} {l : List OpenAccess} {s t : State} (hev : isRace ev = false)
    (h : runEvent ev l s = .next t) :
    Ran ev s t := by
  have stay : Passed s s := ⟨rfl, fun _ h => h, fun _ h => .inl h⟩
  have one : ∀ (ev : Event) (p : Nat) (f : PeId → Pe → Option Effect), eventPe ev = some p →
      (∀ pe e, s.pes[p]? = some pe → f (peId p) pe = some e → PeStep ev (peId p) pe e) →
      .next (stepPe s p f) = (Host.Outcome.next t : Host.Outcome State Fault Refusal) → Ran ev s t := by
    intro ev p f hpe hs ht
    cases ht
    rcases stepPe_cases s p f with h1 | ⟨pe, e, h1, h2, h3⟩
    · rw [h1]; exact .inl stay
    · rw [h3]
      exact .inr ⟨p, pe, e, .inl hpe, .of_commit h1 rfl (fun _ h => h) (fun _ h => h) (hs pe e h1 h2)⟩
  cases ev with
  | race p a order => cases hev
  | accessPart p r bytes => cases hev
  | engine p =>
    simp only [runEvent, stepEngine] at h
    split at h
    · cases h; exact .inl stay
    · rename_i pe hpe
      split at h
      · rename_i hph
        obtain ⟨pe', e, h1, h2, rfl⟩ := exec_command (Event.engine p) (fun _ => ⟨p, rfl⟩) (fun pe' hp' _ => by
          simp only [hpe, Option.some.injEq] at hp'; exact hp' ▸ hph) h
        exact .inr ⟨p, pe', e, .inl rfl, .of_commit h1 rfl (fun _ h => h) (fun _ h => h) h2⟩
      · rename_i hph
        cases h
        exact .inr ⟨p, pe, _, .inl rfl, .of_commit hpe rfl (fun _ h => h) (fun _ h => h) (.finish hph)⟩
      · cases h; exact .inl stay
      · cases h; exact .inl stay
  | transfer p => exact one _ p _ rfl (fun pe e _ he => .transfer e he) h
  | ctxSwitch p => exact one _ p _ rfl (fun pe e _ he => .ctxSwitch p rfl e he) h
  | deliverRequest k =>
    simp only [runEvent, stepDeliverRequest] at h
    split at h
    · cases h; exact .inl stay
    · rename_i bytes hb
      split at h
      · rename_i i hi
        rcases exec_packet (decodePacket_head hi) (Eq.refl (Event.deliverRequest k))
            { s with requests := s.requests.eraseIdx k } with ⟨pe, e, h1, h2, h3⟩ | ⟨_, h3⟩
        · rw [h3] at h
          cases h
          refine .inr ⟨_, pe, e, .inr ?_, .of_commit (by exact h1) rfl ?_ (fun _ h => h) (by rwa [peId_toNat])⟩
          · simp [deliveredTo, hb]
          · intro b hb
            exact List.mem_of_mem_eraseIdx hb
        · rw [h3] at h
          cases h
          refine .inl ⟨rfl, fun b hb => ?_, fun r hr' => ?_⟩
          · exact List.mem_of_mem_eraseIdx hb
          · simp only [List.mem_append, List.mem_singleton] at hr'
            rcases hr' with hr' | rfl
            · exact .inl hr'
            · exact .inr (responseTo_length _ _ _)
      · cases h
  | deliverResponse k =>
    simp only [runEvent, stepDeliverResponse] at h
    split at h
    · cases h; exact .inl stay
    · rename_i r hk
      split at h
      · cases h
      · cases h
        have herase : ∀ x ∈ s.responses.eraseIdx k, x ∈ s.responses := by
          intro x hx
          exact List.mem_of_mem_eraseIdx hx
        rcases stepPe_cases { s with responses := s.responses.eraseIdx k } r.dest.toNat
            (fun me pe => some (takeDelivered me r.bytes pe)) with h1 | ⟨pe, e, h1, h2, h3⟩
        · rw [h1]
          exact .inl ⟨rfl, fun _ h => h, fun x hx => .inl (herase x hx)⟩
        · rw [h3]
          cases h2
          refine .inr ⟨_, pe, _, .inr (by simp [deliveredTo, hk]), .of_commit h1 rfl (fun _ h => h) herase ?_⟩
          unfold takeDelivered
          split
          · exact .chunkResponse _
          · exact .cacheResponse _
          · exact .same _ rfl rfl (by simp)
  | clientWrite p addr width value priv =>
    simp only [runEvent, stepClientWrite] at h
    split at h
    · cases h; exact .inl stay
    · rename_i pe hpe
      split at h
      · rename_i i hi
        split at h
        · rename_i hv
          unfold decodeCommand at h
          obtain ⟨pe', e, h1, h2, rfl⟩ := exec_command (Event.clientWrite p addr width value priv)
            (fun hne => absurd hv.2 hne)
            (fun pe' hp' hne => absurd hv.2 hne) h
          exact .inr ⟨p, pe', e, .inl rfl, .of_commit h1 rfl (fun _ h => h) (fun _ h => h) h2⟩
        · cases h
          exact .inr ⟨p, pe, _, .inl rfl, .of_commit hpe rfl (fun _ h => h) (fun _ h => h) (.write i value)⟩
      · cases h
      · cases h
  | clientRead p addr width =>
    simp only [runEvent, stepClientRead] at h
    split at h
    · cases h; exact .inl stay
    · rename_i pe hpe
      split at h
      · cases h
        exact .inr ⟨p, pe, _, .inl rfl,
          .of_commit hpe rfl (fun _ h => h) (fun _ h => h) (.same _ rfl rfl (by simp))⟩
      · cases h
      · cases h
  | coreStore p addr bytes =>
    refine one _ p _ rfl (fun pe e _ he => ?_) h
    simp only [coreStoreEffect, Option.map_eq_some_iff] at he
    obtain ⟨pe', h1, rfl⟩ := he
    exact .store _ _ _ h1
  | setCoreWaiting p b =>
    refine one _ p _ rfl (fun pe e _ he => ?_) h
    cases he
    exact .coreWaiting b
  | schedulerWrite p v =>
    refine one _ p _ rfl (fun pe e _ he => ?_) h
    simp only [schedulerEffect, Option.map_eq_some_iff] at he
    obtain ⟨pe', h1, rfl⟩ := he
    exact .store _ _ _ h1
  | accelContext p off bytes => exact one _ p _ rfl (fun pe e _ he => .accelContext _ _ e he) h
  | accelExtra p off bytes =>
    refine one _ p _ rfl (fun pe e _ he => ?_) h
    simp only [accelExtraEffect] at he
    split at he
    · split at he
      · simp only [Option.map_eq_some_iff] at he
        obtain ⟨pe', h1, rfl⟩ := he
        exact .store _ _ _ h1
      · cases he
    · cases he
  | accelStateSize p n =>
    refine one _ p _ rfl (fun pe e _ he => ?_) h
    cases he
    exact .accelStateSize n
  | cacheRequest p id req =>
    simp only [runEvent, stepCacheRequest] at h
    split at h
    · cases h; exact .inl stay
    · rename_i pe hpe
      split at h
      · rename_i pe' he
        cases h
        exact .inr ⟨p, pe, _, .inl rfl,
          .of_commit hpe rfl (fun _ h => h) (fun _ h => h) (.cacheRequest id req pe' he)⟩
      · cases h
  | cacheTranslate p id => exact one _ p _ rfl (fun pe e _ he => .cacheTranslate id e he) h
  | walkAnswer p id a =>
    refine one _ p _ rfl (fun pe e _ he => ?_) h
    simp only [walkAnswerEffect, Option.map_eq_some_iff] at he
    obtain ⟨pe', h1, rfl⟩ := he
    exact .walkAnswer id a pe' h1

end Sys2Proof.Machine
end

