-- ==== Sys2Proof/Laws/Cases.lean ====
section
/-! SUPPORT. What the meanings and the agents' steps can do, said once for each: the commands' execute steps, the receipt
of a message, the chunks of a transfer, the cache path, the fill of the TLB, and the context-switch engine. -/

namespace Sys2Proof.Machine

/-! ### Commands -/

/-- What the execute step of SEND can do (41_message_unit.md R241). -/
theorem sendExecute_cases (ep : EpId) (me : PeId) (pe : Pe) :
    (∃ code, sendExecute ep me pe = failCommand code pe) ∨
      (isSend pe ep = true ∧ epCredits (epAt pe ep) ≠ 0#16 ∧
        headerSize + pe.cur.dataSize.toNat ≤ min (epMaxMsgSize (epAt pe ep)).toNat pe.cfg.chunkLimit ∧
        sendExecute ep me pe =
          startXfer (messageXfer pe (epTargetPe (epAt pe ep)) (epTargetEp (epAt pe ep)) (sendHeader me ep pe))
            (setEp pe ep (spendCredit (epAt pe ep)))) := by
  unfold sendExecute
  split
  · exact .inl ⟨_, rfl⟩
  · split
    · exact .inl ⟨_, rfl⟩
    · split
      · exact .inl ⟨_, rfl⟩
      · rename_i h1 h2 h3
        exact .inr ⟨by simpa using h1, h2, by omega, rfl⟩

/-- What the execute step of REPLY can do (R245). -/
theorem replyExecute_cases (ep : EpId) (me : PeId) (pe : Pe) :
    (∃ code, replyExecute ep me pe = failCommand code pe) ∨
      ∃ r, memRead pe pe.cur.offset.toNat headerSize = some r ∧ isRecv pe ep = true ∧
        isSlot (epAt pe ep) pe.cur.offset = true ∧ (decHdr r).replyEnabled = true ∧
        headerSize + pe.cur.dataSize.toNat ≤ pe.cfg.chunkLimit ∧
        replyExecute ep me pe =
          startXfer
            (messageXfer pe (decHdr r).senderCoreId (decHdr r).replyEpId (replyHeader me ep pe (decHdr r))) pe := by
  unfold replyExecute
  split
  · exact .inl ⟨_, rfl⟩
  · split
    · exact .inl ⟨_, rfl⟩
    · split
      · exact .inl ⟨_, rfl⟩
      · split
        · exact .inl ⟨_, rfl⟩
        · split
          · exact .inl ⟨_, rfl⟩
          · rename_i h1 h2 h3 _ r hr h5
            exact .inr ⟨r, hr, by simpa using h1, by simpa using h3, by simpa using h5, by omega, rfl⟩

/-- What the execute step of READ or WRITE can do (42_transfer_unit.md R290, R292). -/
theorem memoryExecute_cases (type : XferType) (permitted : Endpoint → Bool) (ep : EpId) (pe : Pe) :
    (∃ code, memoryExecute type permitted ep pe = failCommand code pe) ∨
      (isMem pe ep = true ∧ permitted (epAt pe ep) = true ∧
        inRegion (epAt pe ep) pe.cur.offset pe.cur.dataSize = true ∧
        (memoryExecute type permitted ep pe = completeCommand pe ∨
          (pe.cur.dataSize ≠ 0 ∧
            memoryExecute type permitted ep pe = startXfer (memoryXfer type ep pe) pe))) := by
  unfold memoryExecute
  split
  · exact .inl ⟨_, rfl⟩
  · split
    · exact .inl ⟨_, rfl⟩
    · split
      · exact .inl ⟨_, rfl⟩
      · rename_i h1 h2 h3
        refine .inr ⟨by simpa using h1, by simpa using h2, by simpa using h3, ?_⟩
        split
        · exact .inl rfl
        · rename_i h4
          exact .inr ⟨h4, rfl⟩

/-- What the execute step of INC_READ_PTR can do (40_command_engine.md R212). -/
theorem incReadPtrExecute_cases (ep : EpId) (pe : Pe) :
    (∃ code, incReadPtrExecute ep pe = failCommand code pe) ∨
      (isRecv pe ep = true ∧ epMsgCount (epAt pe ep) ≠ 0#16 ∧
        incReadPtrExecute ep pe = completeCommand (setEp pe ep (advanceReadPtr (epAt pe ep)))) := by
  unfold incReadPtrExecute
  split
  · exact .inl ⟨_, rfl⟩
  · split
    · exact .inl ⟨_, rfl⟩
    · rename_i h1 h2
      exact .inr ⟨by simpa using h1, h2, rfl⟩

/-! ### The receipt of a message (41_message_unit.md R250 to R258) -/

/-- What a credit return can do (R252). -/
theorem grantCredit_cases (c : EpId) (pe : Pe) :
    (isSend pe c = true ∧ (epCredits (epAt pe c)).toNat < (epMaxCredits (epAt pe c)).toNat ∧
      grantCredit c pe = setEp pe c (putCredits (epAt pe c) (epCredits (epAt pe c) + 1#16))) ∨
    grantCredit c pe = recvError errUnexpectedCredit c pe := by
  unfold grantCredit
  split
  · rename_i h
    rw [Bool.and_eq_true] at h
    exact .inl ⟨h.1, of_decide_eq_true h.2, rfl⟩
  · exact .inr rfl

/-- What the receipt can do after the grant: reject with nothing stored, or store. -/
theorem acceptMessage_cases (h : PacketHead) (payload : List Byte) (pe : Pe) :
    (∃ code, code ≠ errNocError ∧ acceptMessage h payload pe = rejectMessage h code pe) ∨
      ∃ m, isRecv pe h.dstEp = true ∧
        (epMsgCount (epAt pe h.dstEp)).toNat < (epNumSlots (epAt pe h.dstEp)).toNat ∧
        memWrite pe (writeSlotAddr (epAt pe h.dstEp)) payload = some { pe with mem := m } ∧
        acceptMessage h payload pe =
          { pe := setEp { pe with mem := m } h.dstEp (advanceWritePtr (epAt pe h.dstEp))
            responses := [responseTo h errNone []]
            outputs := if pe.coreWaiting then [.wakeup h.dstPe] else [] } := by
  unfold acceptMessage
  split
  · exact .inl ⟨_, by decide, rfl⟩
  · split
    · exact .inl ⟨_, by decide, rfl⟩
    · split
      · exact .inl ⟨_, by decide, rfl⟩
      · rename_i h1 _ h2
        unfold storeMessage
        split
        · exact .inl ⟨_, by decide, rfl⟩
        · rename_i pe' hw
          obtain ⟨_, rfl⟩ := memWrite_eq_some.1 hw
          exact .inr ⟨_, by simpa using h1, by omega, hw, rfl⟩

/-- What the receipt of a message can do: its grant, if any, and then a rejection or a stored message. -/
theorem receiveMessage_cases (h : PacketHead) (payload : List Byte) (pe : Pe) :
    receiveMessage h payload pe = rejectMessage h errMalformed pe ∨
      ∃ granted, (granted = pe ∨ granted = grantCredit (decHdr payload).replyEpId pe) ∧
        receiveMessage h payload pe = acceptMessage h payload granted := by
  unfold receiveMessage
  split
  · exact .inl rfl
  · refine .inr ⟨_, ?_, rfl⟩
    split
    · exact .inr rfl
    · exact .inl rfl

/-! ### Chunks (42_transfer_unit.md R284 to R289) -/

/-- Where a transfer's step A is enabled. -/
theorem transferStep_enabled {me : PeId} {pe : Pe} {e : Effect} (h : transferStep me pe = some e) :
    ∃ x, pe.phase = .xfer ∧ pe.xfer = some x ∧ x.chunkState = .translate ∧ chunkStepA me x pe = some e := by
  unfold transferStep at h
  split at h
  · rename_i x hp hx
    split at h
    · exact ⟨x, hp, hx, by assumption, h⟩
    · cases h
  · cases h

theorem issueLocalRead_cases (me : PeId) (x : Xfer) (ranges : List PhysRange) (pe : Pe) :
    issueLocalRead me x ranges pe = { pe := endXfer errMemOutOfBounds pe } ∨
      ∃ data, readRanges pe ranges = some data ∧
        issueLocalRead me x ranges pe =
          { pe := { pe with xfer := some { x with chunkState := .issued } }
            requests := [chunkPacket me x data] } := by
  unfold issueLocalRead
  split
  · exact .inl rfl
  · rename_i data hd
    exact .inr ⟨data, hd, rfl⟩

theorem issueLocalWrite_cases (me : PeId) (x : Xfer) (ranges : List PhysRange) (pe : Pe) :
    issueLocalWrite me x ranges pe = { pe := endXfer errMemOutOfBounds pe } ∨
      ((∀ r ∈ ranges, r.pa.toNat + r.len ≤ pe.cfg.memSize) ∧
        issueLocalWrite me x ranges pe =
          { pe := { pe with xfer := some { x with chunkState := .issued, pas := ranges } }
            requests := [pktRead me x.remotePe (x.remoteAddr + x.done) (chunkLen pe.cfg x) (chunkOp x)] }) := by
  unfold issueLocalWrite
  split
  · exact .inl rfl
  · rename_i h
    refine .inr ⟨?_, rfl⟩
    intro r hr
    by_contra hc
    exact h (List.any_eq_true.2 ⟨r, hr, by simpa using hc⟩)

/-- The outcomes of step A of a chunk, `pe'` being the PE after its translation. The transfer is as it was when a walk is
enqueued; it ends when the translation faults or local memory ends; else the chunk is issued. -/
def ChunkStepped (me : PeId) (x : Xfer) (pe pe' : Pe) (e : Effect) : Prop :=
  e = { pe := pe' } ∨ (∃ code, e = { pe := endXfer code pe' }) ∨
    (x.type = .localRead ∧ ∃ data, data.length ≤ (localPart pe.cfg x).2 ∧
      e = { pe := { pe' with xfer := some { x with chunkState := .issued } }
            requests := [chunkPacket me x data] }) ∨
    (x.type = .localWrite ∧ ∃ ranges, (∀ r ∈ ranges, r.pa.toNat + r.len ≤ pe.cfg.memSize) ∧
      e = { pe := { pe' with xfer := some { x with chunkState := .issued, pas := ranges } }
            requests := [pktRead me x.remotePe (x.remoteAddr + x.done) (chunkLen pe.cfg x) (chunkOp x)] })

/-- What step A of a chunk can do. -/
theorem chunkStepA_cases {me : PeId} {x : Xfer} {pe : Pe} {e : Effect} (h : chunkStepA me x pe = some e) :
    ∃ pe', SameButQueue pe pe' ∧ ChunkStepped me x pe pe' e := by
  have same : ∀ o, SameButQueue pe (clearResults o pe) := fun o => ⟨_, _, _, rfl⟩
  have self : SameButQueue pe pe := ⟨_, _, _, rfl⟩
  have enq : ∀ o v f, SameButQueue pe (enqueueWalk o v f pe) := fun o v f => ⟨_, _, _, rfl⟩
  have key : ∀ (va : Word) (n : Nat) (f : Access) (issue : List PhysRange → Pe → Effect),
      (∀ rs pe', SameButQueue pe pe' → (rs.map PhysRange.len).sum ≤ n → ChunkStepped me x pe pe' (issue rs pe')) →
      afterTranslation (translate .cmd va n f pe) issue = some e →
      ∃ pe', SameButQueue pe pe' ∧ ChunkStepped me x pe pe' e := by
    intro va n f issue hi ha
    rcases translate_cases .cmd va n f pe with ⟨rs, h1, h2, _⟩ | ⟨rs, h1, h2, _⟩ | ⟨h1, _⟩ | ⟨v, h1, _⟩ | ⟨h1, _⟩ <;>
      rw [h1] at ha <;> simp only [afterTranslation, Option.some.injEq, reduceCtorEq] at ha <;> subst ha
    · exact ⟨_, self, hi _ _ self h2⟩
    · exact ⟨_, same _, hi _ _ (same _) h2⟩
    · exact ⟨_, same _, .inr (.inl ⟨_, rfl⟩)⟩
    · exact ⟨_, enq _ _ _, .inl rfl⟩
  unfold chunkStepA at h
  split at h
  · rename_i hx
    refine key _ _ _ _ ?_ h
    intro rs pe' _ hn
    rcases issueLocalRead_cases me x rs pe' with h1 | ⟨data, h1, h2⟩
    · exact .inr (.inl ⟨_, h1⟩)
    · refine .inr (.inr (.inl ⟨hx, data, ?_, h2⟩))
      rw [readRanges_length h1]
      exact hn
  · rename_i hx
    refine key _ _ _ _ ?_ h
    rintro rs _ ⟨_, _, _, rfl⟩ _
    rcases issueLocalWrite_cases me x rs _ with h1 | ⟨h1, h2⟩
    · exact .inr (.inl ⟨_, h1⟩)
    · exact .inr (.inr (.inr ⟨hx, rs, h1, h2⟩))

/-- What a chunk's response can do (R284, R285, R289): nothing; the end of the transfer with local memory as it was; or
the next chunk, or the end, after the chunk's bytes were written, where it is a READ chunk. -/
theorem chunkResponse_cases (bytes : List Byte) (pe : Pe) :
    chunkResponse bytes pe = pe ∨
      ∃ x, pe.phase = .xfer ∧ pe.xfer = some x ∧ x.chunkState = .issued ∧
        tagOp (responseTag bytes) = chunkOp x ∧
        ((∃ code, chunkResponse bytes pe = endXfer code pe) ∨
          ∃ m, chunkResponse bytes pe = advanceChunk x { pe with mem := m } ∧
            (m = pe.mem ∨ writeRanges pe x.pas (responseData bytes) = some { pe with mem := m })) := by
  unfold chunkResponse
  split
  · rename_i x hp hx
    split
    · rename_i hc
      refine .inr ⟨x, hp, hx, hc.1, hc.2, ?_⟩
      unfold takeResponse
      split
      · exact .inl ⟨_, rfl⟩
      · split
        · exact .inr ⟨pe.mem, rfl, .inl rfl⟩
        · split
          · rename_i pe' hw
            obtain ⟨m, rfl⟩ := writeRanges_eq_some hw
            exact .inr ⟨m, rfl, .inr hw⟩
          · exact .inl ⟨_, rfl⟩
    · exact .inl rfl
  · exact .inl rfl

/-! ### The cache path and the TLB -/

/-- What a cache request's translation can do (43_memory_unit.md R330). -/
theorem cacheTranslateStep_cases {me : PeId} {id : OpId} {pe : Pe} {e : Effect}
    (h : cacheTranslateStep me id pe = some e) :
    ∃ c pe', cacheEntry pe id = some c ∧ c.pa = none ∧ SameButQueue pe pe' ∧
      (e = { pe := pe' } ∨
        e = { pe := removeCacheReq id pe', outputs := [.cacheAnswer me id errTranslationFault []] } ∨
        ∃ pa, e = { pe := setCachePa id pa pe', requests := [cachePacket me id c pa pe.cfg] }) := by
  unfold cacheTranslateStep at h
  split at h
  · rename_i c hc
    split at h
    · rename_i hn
      have hn : c.pa = none := by simpa using hn
      rcases translate_cases (.cache id) c.va c.size.toNat (cacheAccess c.kind) pe with
        ⟨rs, h1, _⟩ | ⟨rs, h1, _⟩ | ⟨h1, _⟩ | ⟨v, h1, _⟩ | ⟨h1, _⟩ <;>
        rw [h1] at h <;> simp only [afterCacheTranslation, Option.some.injEq, reduceCtorEq] at h <;> subst h
      · exact ⟨c, pe, hc, hn, ⟨_, _, _, rfl⟩, .inr (.inr ⟨_, rfl⟩)⟩
      · exact ⟨c, _, hc, hn, ⟨_, _, _, rfl⟩, .inr (.inr ⟨_, rfl⟩)⟩
      · exact ⟨c, _, hc, hn, ⟨_, _, _, rfl⟩, .inr (.inl rfl)⟩
      · exact ⟨c, _, hc, hn, ⟨_, _, _, rfl⟩, .inl rfl⟩
    · cases h
  · cases h

/-- What the fill of the TLB can do (44_translation_unit.md R351). -/
theorem fillTlb_cases (me : PeId) (v : Nat) (e : PageEntry) (pe : Pe) :
    (pe.cfg.tlbEntries = 0 ∧ fillTlb me v e pe = pe) ∨
      (0 < pe.cfg.tlbEntries ∧
        (((tlbLookup pe v).isSome = true ∧
            fillTlb me v e pe = { pe with tlb := pe.tlb.filter (fun x => x.1 != v) ++ [(v, e)] }) ∨
          (tlbLookup pe v = none ∧ pe.tlb.length < pe.cfg.tlbEntries ∧
            fillTlb me v e pe = { pe with tlb := pe.tlb ++ [(v, e)] }) ∨
          (tlbLookup pe v = none ∧ pe.cfg.tlbEntries ≤ pe.tlb.length ∧
            ∃ draw, fillTlb me v e pe =
              { pe with tlb := evictDrawn draw pe.tlb ++ [(v, e)], draws := pe.draws + 1 }))) := by
  unfold fillTlb
  split
  · exact .inl ⟨by assumption, rfl⟩
  · refine .inr ⟨by omega, ?_⟩
    split
    · exact .inl ⟨by assumption, rfl⟩
    · rename_i h
      have h : tlbLookup pe v = none := by simpa using h
      split
      · exact .inr (.inl ⟨h, by assumption, rfl⟩)
      · exact .inr (.inr ⟨h, by omega, _, rfl⟩)

/-- What a walker's answer can do (R358, R359). -/
theorem takeAnswer_cases (me : PeId) (q : WalkRequest) (answer : WalkAnswer) (pe : Pe) :
    ∃ (v : Nat) (outcome : WalkOutcome), v = q.va.toNat / pe.cfg.pageSize ∧
      (takeAnswer me q answer pe = addResult q.owner v outcome (removeWalk q.id pe) ∨
        ∃ e, answer = .ok e ∧ permits e q.flags = true ∧ outcome = .ok e ∧
          takeAnswer me q answer pe = addResult q.owner v outcome (fillTlb me v e (removeWalk q.id pe))) := by
  unfold takeAnswer
  simp only []
  split
  · rename_i e
    split
    · rename_i hp
      exact ⟨_, _, rfl, .inr ⟨e, rfl, hp, rfl, rfl⟩⟩
    · exact ⟨_, _, rfl, .inl rfl⟩
  · exact ⟨_, _, rfl, .inl rfl⟩

/-! ### The context-switch engine (45_ctxswitch.md R384 to R397) -/

/-- The PE after a step of the engine, whose session becomes `c'`: nothing else changes, or with it local memory, or the
context buffer, or a command is issued. -/
def CtxStepped (c c' : Session) (pe pe' : Pe) : Prop :=
  pe' = setSession c' pe ∨
    (∃ a bytes m, memWrite pe a bytes = some { pe with mem := m } ∧ pe' = setSession c' { pe with mem := m }) ∨
    (∃ bytes, memRead pe (pe.cfg.bufferAddr + c.byteOffset).toNat (localChunk pe.cfg c) = some bytes ∧
      pe' = setSession c' { pe with ctx := writeBytes pe.ctx c.byteOffset.toNat bytes }) ∨
    ∃ op off n, pe' = setSession c' (issueCommand op off n pe)

/-- What a step of the engine can do. -/
theorem ctxSwitchStep_cases {me : PeId} {pe : Pe} {e : Effect} (h : ctxSwitchStep me pe = some e) :
    ∃ c c', pe.session = some c ∧ sessionStep me c pe = some e ∧ e.requests = [] ∧ e.responses = [] ∧
      CtxStepped c c' pe e.pe := by
  unfold ctxSwitchStep at h
  split at h
  · rename_i c hc
    have mw : ∀ a bytes pe' c', memWrite pe a bytes = some pe' → CtxStepped c c' pe (setSession c' pe') := by
      intro a bytes pe' c' hw
      have hw' := hw
      obtain ⟨_, rfl⟩ := memWrite_eq_some.1 hw'
      exact .inr (.inl ⟨_, _, _, hw, rfl⟩)
    have key : ∀ c', e.requests = [] → e.responses = [] → CtxStepped c c' pe e.pe →
        ∃ c c', pe.session = some c ∧ sessionStep me c pe = some e ∧ e.requests = [] ∧ e.responses = [] ∧
          CtxStepped c c' pe e.pe :=
      fun c' h1 h2 h3 => ⟨c, c', hc, h, h1, h2, h3⟩
    have h0 := h
    unfold sessionStep at h0
    split at h0
    · simp only [ctxCheck, Option.map_eq_some_iff] at h0
      obtain ⟨_, _, rfl⟩ := h0
      exact key _ rfl rfl (.inl rfl)
    · cases h0
      have : (ctxFlags me c pe).requests = [] ∧ (ctxFlags me c pe).responses = [] ∧
          ∃ c', (ctxFlags me c pe).pe = setSession c' pe := by
        unfold ctxFlags
        repeat' split
        all_goals exact ⟨rfl, rfl, _, rfl⟩
      obtain ⟨h1, h2, c', h3⟩ := this
      exact key c' h1 h2 (.inl h3)
    · cases h0; exact key _ rfl rfl (.inl rfl)
    · unfold ctxSaveWrite at h0
      split at h0
      · cases h0; exact key _ rfl rfl (.inl rfl)
      · simp only [Option.map_eq_some_iff] at h0
        obtain ⟨pe', h2, rfl⟩ := h0
        exact key _ rfl rfl (mw _ _ pe' _ h2)
    · unfold ctxSaveSend at h0
      split at h0
      · cases h0; exact key _ rfl rfl (.inl rfl)
      · split at h0
        · cases h0
        · cases h0; exact key _ rfl rfl (.inr (.inr (.inr ⟨_, _, _, rfl⟩)))
    · unfold ctxSaveWait at h0
      split at h0
      · cases h0
      · split at h0
        · cases h0; exact key _ rfl rfl (.inl rfl)
        · cases h0; exact key _ rfl rfl (.inl rfl)
    · simp only [ctxSaveDone, writeDoneFlags, Option.map_eq_some_iff] at h0
      obtain ⟨pe', h2, rfl⟩ := h0
      exact key _ rfl rfl (mw _ _ pe' _ h2)
    · cases h0; exact key _ rfl rfl (.inl rfl)
    · unfold ctxRestore at h0
      split at h0
      · cases h0; exact key _ rfl rfl (.inl rfl)
      · split at h0
        · cases h0
        · cases h0; exact key _ rfl rfl (.inr (.inr (.inr ⟨_, _, _, rfl⟩)))
    · unfold ctxRestoreWait at h0
      split at h0
      · cases h0
      · split at h0
        · cases h0; exact key _ rfl rfl (.inl rfl)
        · cases h0; exact key _ rfl rfl (.inl rfl)
    · unfold ctxRestoreRead at h0
      split at h0
      · cases h0; exact key _ rfl rfl (.inl rfl)
      · simp only [Option.map_eq_some_iff] at h0
        obtain ⟨bytes, h2, rfl⟩ := h0
        exact key _ rfl rfl (.inr (.inr (.inl ⟨bytes, h2, rfl⟩)))
    · simp only [ctxRestoreDone, writeDoneFlags, Option.map_eq_some_iff] at h0
      obtain ⟨pe', h2, rfl⟩ := h0
      exact key _ rfl rfl (mw _ _ pe' _ h2)
  · cases h

end Sys2Proof.Machine
end

