-- ==== Sys2Proof/Laws/Encoding.lean ====
section
/-! SUPPORT. Laws of the encodings: what the decoder's field readers give on the bytes the encoder writes. -/

namespace Sys2Proof

/-! ### The NoC request (30_encoding.md R130) -/

theorem wordAt_packetHeadBytes (t : BitVec 3) (h : PacketHead) (rest : List Byte) :
    wordAt (packetHeadBytes t h ++ rest) 0 = packetWord0 t h ∧ wordAt (packetHeadBytes t h ++ rest) 8 = h.addr ∧
      wordAt (packetHeadBytes t h ++ rest) 16 = h.size ∧ wordAt (packetHeadBytes t h ++ rest) 24 = h.tag := by
  refine ⟨?_, ?_, ?_, ?_⟩
  · have := wordAt_wordBytes [] (wordBytes h.addr ++ wordBytes h.size ++ wordBytes h.tag ++ rest) (packetWord0 t h) 0 rfl
    simpa [packetHeadBytes] using this
  · have := wordAt_wordBytes (wordBytes (packetWord0 t h)) (wordBytes h.size ++ wordBytes h.tag ++ rest) h.addr 8 (by simp)
    simpa [packetHeadBytes] using this
  · have := wordAt_wordBytes (wordBytes (packetWord0 t h) ++ wordBytes h.addr) (wordBytes h.tag ++ rest) h.size 16
      (by simp)
    simpa [packetHeadBytes] using this
  · have := wordAt_wordBytes (wordBytes (packetWord0 t h) ++ wordBytes h.addr ++ wordBytes h.size) rest h.tag 24
      (by simp)
    simpa [packetHeadBytes] using this

/-- The type of an encoded request. -/
@[simp] theorem packetType_packetHeadBytes (t : BitVec 3) (h : PacketHead) (rest : List Byte) :
    packetType (packetHeadBytes t h ++ rest) = t := by
  rw [packetType, (wordAt_packetHeadBytes t h rest).1, packetWord0]
  rw [fieldAt_putField_apart _ _ _ _ _ (by omega), fieldAt_putField_apart _ _ _ _ _ (by omega),
    fieldAt_putField_apart _ _ _ _ _ (by omega), fieldAt_putBit_apart _ _ _ _ _ (by omega),
    fieldAt_putField_same _ _ _ (by omega)]

/-- The header fields of an encoded request. -/
@[simp] theorem packetHead_packetHeadBytes (t : BitVec 3) (h : PacketHead) (rest : List Byte) :
    packetHead (packetHeadBytes t h ++ rest) = h := by
  obtain ⟨h0, h1, h2, h3⟩ := wordAt_packetHeadBytes t h rest
  unfold packetHead
  rw [h0, h1, h2, h3]
  have e1 : bitAt (packetWord0 t h) 3 = h.write := by
    unfold packetWord0
    rw [bitAt_putField_apart _ _ _ _ (by omega), bitAt_putField_apart _ _ _ _ (by omega),
      bitAt_putField_apart _ _ _ _ (by omega), bitAt_putBit_same _ _ _ (by omega)]
  have e2 : fieldAt (packetWord0 t h) 8 8 = h.dstEp := by
    unfold packetWord0
    rw [fieldAt_putField_apart _ _ _ _ _ (by omega), fieldAt_putField_apart _ _ _ _ _ (by omega),
      fieldAt_putField_same _ _ _ (by omega)]
  have e3 : fieldAt (packetWord0 t h) 16 16 = h.dstPe := by
    unfold packetWord0
    rw [fieldAt_putField_apart _ _ _ _ _ (by omega), fieldAt_putField_same _ _ _ (by omega)]
  have e4 : fieldAt (packetWord0 t h) 32 16 = h.srcPe := by
    unfold packetWord0
    rw [fieldAt_putField_same _ _ _ (by omega)]
  rw [e1, e2, e3, e4]

/-- The decoder on the bytes of a request of a type: the instruction of that type, when its body has the length the type
asks for. -/
theorem decodePacket_packetHeadBytes (t : BitVec 3) (h : PacketHead) (body : List Byte)
    (hlen : ∀ n, packetBodyLength t h = some n → body.length = n) :
    decodePacket (packetHeadBytes t h ++ body) = .ok (packetOf t h body) := by
  have hl : ¬ (packetHeadBytes t h ++ body).length < 32 := by simp
  have hd : (packetHeadBytes t h ++ body).drop 32 = body := by
    rw [← packetHeadBytes_length t h]
    exact List.drop_left
  unfold decodePacket
  rw [if_neg hl, packetType_packetHeadBytes, packetHead_packetHeadBytes, hd]
  cases hb : packetBodyLength t h with
  | none => rfl
  | some n => simp [hlen n hb]

/-! ### The response (R133) -/

@[simp] theorem responseStatus_encodeResponse (st : ErrorCode) (tag : Word) (data : List Byte) :
    responseStatus (encodeResponse st tag data) = st := by
  have := wordAt_wordBytes [] (wordBytes tag ++ data) (putField 0 0 st) 0 rfl
  simp only [List.nil_append] at this
  rw [responseStatus, encodeResponse, List.append_assoc, this, fieldAt_putField_same _ _ _ (by omega)]

@[simp] theorem responseTag_encodeResponse (st : ErrorCode) (tag : Word) (data : List Byte) :
    responseTag (encodeResponse st tag data) = tag := by
  have := wordAt_wordBytes (wordBytes (putField 0 0 st)) data tag 8 (by simp)
  simpa [responseTag, encodeResponse] using this

@[simp] theorem responseData_encodeResponse (st : ErrorCode) (tag : Word) (data : List Byte) :
    responseData (encodeResponse st tag data) = data := by
  have h : (wordBytes (putField 0 0 st) ++ wordBytes tag).length = 16 := by simp
  rw [responseData, encodeResponse, ← h]
  exact List.drop_left

end Sys2Proof
end

