-- ==== Sys2Proof/Laws/Races.lean ====
section
/-! SUPPORT. Laws of racing accesses (20_memory.md R86) and of every step of the system: what replacing bytes of a memory
does, that every step of the system is one agent's step, a part of an access, which replaces bytes of local memory, or an
overlapping access's step, with bytes replaced before and after it, and that an invariant of a PE which each agent's step and
each replacing of bytes keeps is kept by every step. -/

namespace Sys2Proof.Machine

/-! ### Replacing bytes -/

@[simp] theorem putBytes_nil (m : Memory) : putBytes m [] = m := rfl

/-- A memory with bytes replaced has the canonical form. -/
theorem putBytes_wf (m : Memory) (cells : List Host.Cell) (hm : Memory.wf m) : Memory.wf (putBytes m cells) := by
  induction cells with
  | nil => exact hm
  | cons c cs ih => exact writeByte_wf _ _ _ ih

/-- A memory with bytes replaced holds at each address the byte given for it, and else its own. -/
theorem readByte_putBytes (m : Memory) (cells : List Host.Cell) (hm : Memory.wf m) (x : Nat) :
    readByte (putBytes m cells) x = (cells.lookup x).getD (readByte m x) := by
  induction cells with
  | nil => rfl
  | cons c cs ih =>
    rw [putBytes, readByte_writeByte _ _ _ (putBytes_wf _ _ hm), ih, List.lookup_cons]
    by_cases hx : x = c.1
    · simp [hx]
    · have hb : (x == c.1) = false := by simpa using hx
      simp [hx, hb]

/-- An unlisted address reads as blank. -/
theorem readByte_of_forall_ne (m : Memory) (a : Nat) (h : ∀ c ∈ m, c.1 ≠ a) : readByte m a = blankByte := by
  induction m with
  | nil => rfl
  | cons c m ih =>
    obtain ⟨k, b⟩ := c
    have hk : a ≠ k := fun e => h (k, b) (by simp) e.symm
    simp only [readByte, hk, if_false]
    exact ih fun c hc => h c (by simp [hc])

/-- A byte written to a memory is listed at its own address or was listed, and a blank byte is not listed. -/
theorem mem_writeByte (m : Memory) (a : Nat) (b : Byte) (c : Host.Cell) (hc : c ∈ writeByte m a b) :
    c ∈ m ∨ (c = (a, b) ∧ b ≠ blankByte) := by
  induction m with
  | nil =>
    simp only [writeByte] at hc
    split at hc
    · cases hc
    · rename_i hb
      exact .inr ⟨by simpa using hc, hb⟩
  | cons d m ih =>
    obtain ⟨k, e⟩ := d
    simp only [writeByte] at hc
    split at hc
    · split at hc
      · exact .inl hc
      · rename_i hb
        rcases List.mem_cons.mp hc with rfl | h
        · exact .inr ⟨rfl, hb⟩
        · exact .inl h
    · split at hc
      · split at hc
        · exact .inl (List.mem_cons_of_mem _ hc)
        · rename_i hb
          rcases List.mem_cons.mp hc with rfl | h
          · exact .inr ⟨rfl, hb⟩
          · exact .inl (List.mem_cons_of_mem _ h)
      · rcases List.mem_cons.mp hc with rfl | h
        · exact .inl (by simp)
        · rcases ih h with h | h
          · exact .inl (List.mem_cons_of_mem _ h)
          · exact .inr h

/-- A memory with bytes replaced lists only addresses that it listed or that are given. -/
theorem putBytes_inside (m : Memory) (cells : List Host.Cell) (n : Nat) (hm : ∀ c ∈ m, c.1 < n)
    (hc : ∀ c ∈ cells, c.1 < n) : ∀ c ∈ putBytes m cells, c.1 < n := by
  induction cells with
  | nil => exact hm
  | cons d ds ih =>
    intro c h
    rcases mem_writeByte _ _ _ _ h with h | ⟨rfl, _⟩
    · exact ih (fun x hx => hc x (by simp [hx])) c h
    · exact hc d (by simp)

theorem lookup_cellsAt (m : Memory) (addrs : List Nat) (x : Nat) :
    (cellsAt m addrs).lookup x = if x ∈ addrs then some (readByte m x) else none := by
  induction addrs with
  | nil => rfl
  | cons a as ih =>
    rw [cellsAt, List.map_cons, List.lookup_cons]
    by_cases hx : x = a
    · simp [hx]
    · have hb : (x == a) = false := by simpa using hx
      simp only [hb, List.mem_cons, hx, false_or]
      exact ih

/-- Putting back the bytes that a memory holds leaves the memory. -/
theorem putBytes_cellsAt (m : Memory) (addrs : List Nat) (hm : Memory.wf m) : putBytes m (cellsAt m addrs) = m := by
  induction addrs with
  | nil => rfl
  | cons a as ih =>
    rw [cellsAt, List.map_cons, putBytes, show as.map (fun a => (a, readByte m a)) = cellsAt m as from rfl, ih]
    exact writeByte_readByte m a hm

/-! ### The memory of one PE of a system -/

theorem memoryAt_some {s : State} {p : Nat} {pe : Pe} (h : s.pes[p]? = some pe) : memoryAt s p = pe.mem := by
  simp [memoryAt, h]

theorem withBytes_some {s : State} {p : Nat} {pe : Pe} (h : s.pes[p]? = some pe) (cells : List Host.Cell) :
    withBytes s p cells = { s with pes := s.pes.set p { pe with mem := putBytes pe.mem cells } } := by
  simp [withBytes, h]

/-- What replacing bytes of a local memory can do. -/
theorem withBytes_cases (s : State) (p : Nat) (cells : List Host.Cell) :
    (s.pes[p]? = none ∧ withBytes s p cells = s) ∨
      ∃ pe, s.pes[p]? = some pe ∧
        withBytes s p cells = { s with pes := s.pes.set p { pe with mem := putBytes pe.mem cells } } := by
  unfold withBytes
  split
  · exact .inr ⟨_, by assumption, rfl⟩
  · exact .inl ⟨by assumption, rfl⟩

@[simp] theorem withBytes_nil (s : State) (p : Nat) : withBytes s p [] = s := by
  rcases withBytes_cases s p [] with ⟨_, h⟩ | ⟨pe, hp, h⟩ <;> rw [h]
  rw [putBytes_nil, show ({ pe with mem := pe.mem } : Pe) = pe from rfl, pes_set_self hp]

@[simp] theorem withBytes_requests (s : State) (p : Nat) (cells : List Host.Cell) :
    (withBytes s p cells).requests = s.requests := by unfold withBytes; split <;> rfl
@[simp] theorem withBytes_responses (s : State) (p : Nat) (cells : List Host.Cell) :
    (withBytes s p cells).responses = s.responses := by unfold withBytes; split <;> rfl
@[simp] theorem withBytes_outputs (s : State) (p : Nat) (cells : List Host.Cell) :
    (withBytes s p cells).outputs = s.outputs := by unfold withBytes; split <;> rfl
@[simp] theorem withBytes_agenda (s : State) (p : Nat) (cells : List Host.Cell) :
    (withBytes s p cells).agenda = s.agenda := by unfold withBytes; split <;> rfl
@[simp] theorem withBytes_turn (s : State) (p : Nat) (cells : List Host.Cell) :
    (withBytes s p cells).turn = s.turn := by unfold withBytes; split <;> rfl
@[simp] theorem withBytes_active (s : State) (p : Nat) (cells : List Host.Cell) :
    (withBytes s p cells).active = s.active := by unfold withBytes; split <;> rfl
@[simp] theorem withBytes_accesses (s : State) (p : Nat) (cells : List Host.Cell) :
    (withBytes s p cells).accesses = s.accesses := by unfold withBytes; split <;> rfl
@[simp] theorem withBytes_length (s : State) (p : Nat) (cells : List Host.Cell) :
    (withBytes s p cells).pes.length = s.pes.length := by unfold withBytes; split <;> simp

/-- Replacing bytes of one PE's memory leaves the other PEs. -/
theorem withBytes_other (s : State) {p q : Nat} (h : p ≠ q) (cells : List Host.Cell) :
    (withBytes s p cells).pes[q]? = s.pes[q]? := by
  rcases withBytes_cases s p cells with ⟨_, h1⟩ | ⟨pe, _, h1⟩ <;> rw [h1]
  simp [h]

/-! ### What an overlapping access can do -/

theorem racerEvent_not_race (s : State) (p : Nat) (r : Racer) : isRace (racerEvent s p r) = false := by
  cases r <;> rfl

theorem runRacer_eq (p : Nat) (r : Racer) (l : List OpenAccess) (s : State) :
    runRacer p r s = runEvent (racerEvent s p r) l s := by
  cases r <;> rfl

/-- Which access an access is does not depend on local memory. -/
theorem racerAgent_withBytes (s : State) (p q : Nat) (r : Racer) (cells : List Host.Cell) :
    racerAgent (withBytes s q cells) p r = racerAgent s p r := by
  cases r <;> simp [racerAgent]

/-- A request that a unit of the PE at place `p` accesses memory for is in flight, addressed to that PE. -/
theorem racer_request {s : State} {p : Nat} {b : List Byte} (h : (racerAgent s p (.request b)).isSome = true) :
    s.requests[s.requests.idxOf b]? = some b ∧ (packetHead b).dstPe.toNat = p := by
  simp only [racerAgent] at h
  split at h
  · rename_i h1
    simp only [Bool.and_eq_true, List.contains_iff_mem, beq_iff_eq] at h1
    exact ⟨List.getElem?_idxOf h1.1, h1.2⟩
  · cases h

/-- A response that the Transfer Unit of the PE at place `p` accesses memory for is in flight, to that PE, and that unit's. -/
theorem racer_response {s : State} {p : Nat} {d : PeId} {b : List Byte}
    (h : (racerAgent s p (.response d b)).isSome = true) :
    s.responses[s.responses.idxOf { dest := d, bytes := b }]? = some { dest := d, bytes := b } ∧ d.toNat = p ∧
      tagUnit (responseTag b) = 0#2 := by
  simp only [racerAgent] at h
  split at h
  · rename_i h1
    simp only [Bool.and_eq_true, List.contains_iff_mem, beq_iff_eq] at h1
    exact ⟨List.getElem?_idxOf h1.1.1, h1.1.2, h1.2⟩
  · cases h

/-- An access to the memory of the PE at place `p` concerns that PE alone. -/
theorem racer_concerns {s : State} {p q : Nat} {r : Racer} (h : (racerAgent s p r).isSome = true)
    (hc : concerns s (racerEvent s p r) q) : q = p := by
  cases r <;> simp only [concerns, racerEvent, eventPe, deliveredTo, Option.some.injEq, reduceCtorEq, or_false,
    false_or] at hc
  case request b =>
    obtain ⟨h1, h2⟩ := racer_request h
    simp only [h1, Option.map_some, Option.some.injEq] at hc
    exact hc.symm.trans h2
  case response d b =>
    obtain ⟨h1, h2, _⟩ := racer_response h
    simp only [h1, Option.map_some, Option.some.injEq] at hc
    exact hc.symm.trans h2
  all_goals exact hc.symm

/-- What the part of an order that a racer follows holds: entries of the order, inside local memory, at moments that there
are. -/
theorem mem_raceOrder {l : List OpenAccess} {p : Nat} {r : Racer} {order : List (Nat × Nat)} {s : State} {x : Nat × Nat}
    (h : x ∈ raceOrder l p r order s) :
    ∃ pe agent, s.pes[p]? = some pe ∧ racerAgent s p r = some agent ∧ mayOverlap pe r = true ∧ x ∈ order ∧
      x.1 < pe.cfg.memSize ∧ x.2 < (underWay l p agent r).moments.length := by
  unfold raceOrder at h
  split at h
  · rename_i pe agent hp ha
    split at h
    · rename_i hm
      simp only [List.mem_filter, decide_eq_true_eq] at h
      exact ⟨pe, agent, hp, ha, hm, h.1, h.2.1, h.2.2⟩
    · cases h
  · cases h

/-- When an access may be in progress, condition by condition. -/
theorem mayOverlap_iff (pe : Pe) (r : Racer) :
    mayOverlap pe r = true ↔
      flagAccess pe r = false ∧ (r = .engine → pe.phase = .execPending) ∧ (r = .transfer → chunkMayRead pe = true) ∧
      (r = .ctxSwitch → ∃ c, pe.session = some c ∧ c.state.isLocal = true) ∧
      ∀ off bytes, r = .accelExtra off bytes → ∃ c, pe.session = some c ∧ accelMayRun c = true := by
  unfold mayOverlap
  cases r <;> simp
  all_goals
    intro _
    cases pe.session <;> simp

/-- An access that may not be in progress follows no order. -/
theorem raceOrder_of_not_overlap {l : List OpenAccess} {p : Nat} {r : Racer} {order : List (Nat × Nat)} {s : State}
    {pe : Pe} (hp : s.pes[p]? = some pe) (h : mayOverlap pe r = false) : raceOrder l p r order s = [] := by
  unfold raceOrder
  rw [hp]
  split
  · rename_i hp' _
    cases hp'
    simp [h]
  · rfl

/-- The bytes that an overlapping access finds as of other moments lie in local memory. -/
theorem raceCells_inside {l : List OpenAccess} {p : Nat} {r : Racer} {order : List (Nat × Nat)} {s : State} {pe : Pe}
    (hp : s.pes[p]? = some pe) : ∀ c ∈ raceCells l p r order s, c.1 < pe.cfg.memSize := by
  intro c hc
  unfold raceCells at hc
  split at hc
  · simp only [List.mem_filterMap, Option.map_eq_some_iff] at hc
    obtain ⟨x, hx, m, _, rfl⟩ := hc
    obtain ⟨pe', _, hp', _, _, _, hlt, _⟩ := mem_raceOrder hx
    rw [hp] at hp'
    cases hp'
    exact hlt
  · cases hc

/-- The addresses that an overlapping access leaves as they are lie in local memory; at each it has stored before, or its step
stores nothing and its order names it. -/
theorem mem_raceKept {l : List OpenAccess} {p : Nat} {r : Racer} {order : List (Nat × Nat)} {s : State} {pe : Pe} {a : Nat}
    (hp : s.pes[p]? = some pe) (h : a ∈ raceKept l p r order s) :
    a < pe.cfg.memSize ∧ ∃ agent, racerAgent s p r = some agent ∧ (a ∈ (underWay l p agent r).stored ∨
      (a ∈ (raceOrder l p r order s).map Prod.fst ∧ storesTo p r s a = false)) := by
  unfold raceKept at h
  split at h
  · rename_i pe' agent hp' ha
    rw [hp] at hp'
    cases hp'
    simp only [List.mem_append, List.mem_filter, decide_eq_true_eq, Bool.not_eq_true'] at h
    rcases h with h | h
    · exact ⟨h.2, agent, ha, .inl h.1⟩
    · refine ⟨?_, agent, ha, .inr h⟩
      obtain ⟨x, hx, rfl⟩ := List.mem_map.1 h.1
      obtain ⟨pe', _, hp', _, _, _, hlt, _⟩ := mem_raceOrder hx
      rw [hp] at hp'
      cases hp'
      exact hlt
  · cases h

/-- The addresses that an overlapping access leaves as they are lie in local memory. -/
theorem raceKept_inside {l : List OpenAccess} {p : Nat} {r : Racer} {order : List (Nat × Nat)} {s : State} {pe : Pe}
    (hp : s.pes[p]? = some pe) : ∀ a ∈ raceKept l p r order s, a < pe.cfg.memSize :=
  fun _ ha => (mem_raceKept hp ha).1

/-- At what addresses a part of an access stores: some that it is asked for, inside local memory, at which it has not stored
and its step would. -/
theorem mem_partAddrs {l : List OpenAccess} {p : Nat} {r : Racer} {bytes : List Nat} {s : State} {a : Nat} :
    a ∈ partAddrs l p r bytes s ↔
      ∃ pe agent, s.pes[p]? = some pe ∧ racerAgent s p r = some agent ∧ mayOverlap pe r = true ∧ a ∈ bytes ∧
        a < pe.cfg.memSize ∧ a ∉ (underWay l p agent r).stored ∧ (plannedByte p r s a).isSome = true := by
  unfold partAddrs
  split
  · rename_i pe agent hp ha
    split
    · rename_i hm
      simp [hp, ha, hm, List.mem_filter, and_assoc]
    · rename_i hm
      simp [hp, ha, hm]
  · rename_i h
    constructor
    · intro h; cases h
    · rintro ⟨pe, agent, hp, ha, _⟩
      exact absurd ha (h pe agent hp)

/-- The bytes that a part of an access stores are those of its step. -/
theorem lookup_partCells (l : List OpenAccess) (p : Nat) (r : Racer) (bytes : List Nat) (s : State) (x : Nat) :
    (partCells l p r bytes s).lookup x = if x ∈ partAddrs l p r bytes s then plannedByte p r s x else none := by
  have key : ∀ as : List Nat, (∀ a ∈ as, (plannedByte p r s a).isSome = true) →
      (as.filterMap fun a => (plannedByte p r s a).map (a, ·)).lookup x = if x ∈ as then plannedByte p r s x else none := by
    intro as
    induction as with
    | nil => intro _; rfl
    | cons a as ih =>
      intro h
      obtain ⟨b, hb⟩ := Option.isSome_iff_exists.1 (h a (by simp))
      rw [List.filterMap_cons_some (b := (a, b)) (by simp [hb]), List.lookup_cons]
      by_cases hx : x = a
      · simp [hx, hb]
      · have hc : (x == a) = false := by simpa using hx
        simp only [hc, List.mem_cons, hx, false_or]
        exact ih fun c hc => h c (by simp [hc])
  refine key _ fun a ha => ?_
  obtain ⟨_, _, _, _, _, _, _, _, h⟩ := mem_partAddrs.1 ha
  exact h

/-- The bytes that a part of an access stores lie in local memory. -/
theorem partCells_inside {l : List OpenAccess} {p : Nat} {r : Racer} {bytes : List Nat} {s : State} {pe : Pe}
    (hp : s.pes[p]? = some pe) : ∀ c ∈ partCells l p r bytes s, c.1 < pe.cfg.memSize := by
  intro c hc
  simp only [partCells, List.mem_filterMap, Option.map_eq_some_iff] at hc
  obtain ⟨a, ha, b, _, rfl⟩ := hc
  obtain ⟨pe', _, hp', _, _, _, hlt, _⟩ := mem_partAddrs.1 ha
  rw [hp] at hp'
  cases hp'
  exact hlt

/-- What the step of an overlapping access that answers a next state did: nothing, or the access's own step, with the bytes
it takes at other moments put in before it, and those it keeps put back after it. -/
theorem stepRace_cases {p : Nat} {r : Racer} {order : List (Nat × Nat)} {l : List OpenAccess} {s t : State}
    (h : stepRace p r order l s = .next t) :
    t = s ∨ ∃ u, (racerAgent s p r).isSome = true ∧
      runRacer p r (withBytes s p (raceCells l p r order s)) = .next u ∧
      t = withBytes u p (cellsAt (memoryAt s p) (raceKept l p r order s)) := by
  unfold stepRace at h
  split at h
  · rename_i h1
    split at h
    · rename_i u h2
      cases h
      exact .inr ⟨u, h1, h2, rfl⟩
    · cases h
    · cases h
  · cases h
    exact .inl rfl

/-- The step of an access that follows no order and has stored nothing before is its own step. -/
theorem stepRace_alone {p : Nat} {r : Racer} {order : List (Nat × Nat)} {l : List OpenAccess} {s : State} {agent : Agent}
    (ha : racerAgent s p r = some agent) (h : raceOrder l p r order s = []) (hs : (underWay l p agent r).stored = []) :
    stepRace p r order l s = runRacer p r s := by
  have hc : raceCells l p r order s = [] := by simp [raceCells, ha, h]
  have hk : raceKept l p r order s = [] := by
    unfold raceKept
    split
    · rename_i agent' _ ha'
      rw [ha] at ha'
      cases ha'
      simp [h, hs]
    · rfl
  simp only [stepRace, ha, Option.isSome_some, if_true, hc, withBytes_nil, hk, cellsAt, List.map_nil]
  cases runRacer p r s <;> rfl

/-! ### Every step of the system -/

theorem Ran.of_takeEvent {ev : Event} {s t : State} (h : Ran ev (takeEvent s) t) : Ran ev s t := by
  have hp := takeEvent_pes s
  have hq := takeEvent_requests s
  have hr := takeEvent_responses s
  rcases h with ⟨h1, h2, h3⟩ | ⟨p, pe, e, h1, h2, h3, h4, h5, h6⟩
  · exact .inl ⟨by rw [h1, hp], by simpa [hq] using h2, by simpa [hr] using h3⟩
  · refine .inr ⟨p, pe, e, ?_, by rwa [hp] at h2, h3, by rwa [hp] at h4, by simpa [hq] using h5, by simpa [hr] using h6⟩
    rcases h1 with h1 | h1
    · exact .inl h1
    · right
      cases ev <;> simp_all [deliveredTo]

/-- What one step of the system can do: one agent's step; a part of an access, which replaces some bytes of the local memory
of its PE, all inside it; or one agent's step with such bytes replaced before and after it. -/
theorem step_cases {s t : State} (h : step s = .next t) :
    Ran (nextEvent s) s t ∨
      (∃ p r bytes, nextEvent s = .accessPart p r bytes ∧
        t = withBytes (takeEvent s) p (partCells s.accesses p r bytes (takeEvent s))) ∨
      ∃ p r order cells kept u, nextEvent s = .race p r order ∧
        cells = raceCells s.accesses p r order (takeEvent s) ∧ kept = raceKept s.accesses p r order (takeEvent s) ∧
        (racerAgent (takeEvent s) p r).isSome = true ∧
        runRacer p r (withBytes (takeEvent s) p cells) = .next u ∧
        Ran (racerEvent (withBytes (takeEvent s) p cells) p r) (withBytes (takeEvent s) p cells) u ∧
        t = withBytes u p (cellsAt (memoryAt s p) kept) := by
  have hmem : ∀ p, memoryAt (takeEvent s) p = memoryAt s p := by
    intro p
    simp only [memoryAt, takeEvent_pes]
  unfold step at h
  by_cases hr : isRace (nextEvent s) = false
  · exact .inl (runEvent_cases hr h).of_takeEvent
  · cases hev : nextEvent s with
    | accessPart p r bytes =>
      rw [hev] at h
      cases h
      exact .inr (.inl ⟨p, r, bytes, rfl, rfl⟩)
    | race p r order =>
      rw [hev] at h
      simp only [runEvent] at h
      rcases stepRace_cases h with rfl | ⟨u, h1, h2, h3⟩
      · left
        exact .inl ⟨takeEvent_pes s, fun b hb => takeEvent_requests s ▸ hb,
          fun x hx => .inl (takeEvent_responses s ▸ hx)⟩
      · rw [hmem] at h3
        exact .inr (.inr ⟨p, r, order, _, _, u, rfl, rfl, rfl, h1, h2,
          runEvent_cases (racerEvent_not_race _ p r) (runRacer_eq p r [] _ ▸ h2), h3⟩)
    | _ => simp [hev, isRace] at hr

/-! ### Invariants -/

/-- No step of a PE changes its parameters. -/
theorem PeStep.cfg_eq {ev : Event} {me : PeId} {pe : Pe} {e : Effect} (h : PeStep ev me pe e) : e.pe.cfg = pe.cfg := by
  cases h with
  | same e hpe => rw [hpe]
  | write i v => simp
  | send p _ ep =>
    rcases sendExecute_cases ep me pe with ⟨c, h1⟩ | ⟨_, _, _, h1⟩ <;> rw [h1] <;> rfl
  | reply ep =>
    rcases replyExecute_cases ep me pe with ⟨c, h1⟩ | ⟨_, _, _, _, _, _, h1⟩ <;> rw [h1] <;> rfl
  | memory ty pm ep =>
    rcases memoryExecute_cases ty pm ep pe with ⟨c, h1⟩ | ⟨_, _, _, h1 | ⟨_, h1⟩⟩ <;> rw [h1] <;> rfl
  | incReadPtr ep =>
    rcases incReadPtrExecute_cases ep pe with ⟨c, h1⟩ | ⟨_, _, h1⟩ <;> rw [h1] <;> rfl
  | wakeupCore => rfl
  | reserved7 => rfl
  | finish => rfl
  | transfer e ht =>
    obtain ⟨x, _, _, _, ht⟩ := transferStep_enabled ht
    obtain ⟨pe', ⟨_, _, _, rfl⟩, h2⟩ := chunkStepA_cases ht
    rcases h2 with rfl | ⟨_, rfl⟩ | ⟨_, _, _, rfl⟩ | ⟨_, _, _, rfl⟩ <;> rfl
  | ctxSwitch p _ e hc =>
    obtain ⟨c, c', _, _, _, _, h⟩ := ctxSwitchStep_cases hc
    rcases h with h | ⟨_, _, _, _, h⟩ | ⟨_, _, h⟩ | ⟨op, off, n, h⟩ <;> rw [h]
    · rfl
    · rfl
    · rfl
    · simp [setSession, issueCommand]
  | receive k _ hd payload =>
    have gr : ∀ c, (grantCredit c pe).cfg = pe.cfg := by
      intro c
      rcases grantCredit_cases c pe with ⟨_, _, h1⟩ | h1 <;> rw [h1] <;> rfl
    rcases receiveMessage_cases hd payload pe with h1 | ⟨g, hg, h1⟩ <;> rw [h1]
    · rfl
    · have hg' : g.cfg = pe.cfg := by rcases hg with rfl | rfl <;> simp [gr]
      rcases acceptMessage_cases hd payload g with ⟨_, _, h2⟩ | ⟨_, _, _, _, h2⟩ <;> rw [h2] <;> exact hg'
  | serveWrite hd payload =>
    unfold Machine.serveWrite
    split
    · rfl
    · rename_i hw
      obtain ⟨_, rfl⟩ := memWrite_eq_some.1 hw
      rfl
  | chunkResponse bytes =>
    rcases chunkResponse_cases bytes pe with h1 | ⟨x, _, _, _, _, ⟨c, h1⟩ | ⟨m, h1, _⟩⟩ <;> rw [h1]
    · rfl
    · simp only [advanceChunk]
      split <;> rfl
  | cacheResponse bytes =>
    unfold Machine.cacheResponse
    simp only []
    split <;> rfl
  | store a bs pe' hw =>
    obtain ⟨_, rfl⟩ := memWrite_eq_some.1 hw
    rfl
  | coreWaiting b => rfl
  | accelContext off bs e he =>
    unfold accelContextEffect at he
    split at he
    · split at he
      · cases he; rfl
      · cases he
    · cases he
  | accelStateSize n => rfl
  | cacheRequest id req pe' he =>
    unfold acceptCacheRequest at he
    split at he
    · cases he; rfl
    · cases he
  | cacheTranslate id e he =>
    obtain ⟨c, pe', _, _, ⟨_, _, _, rfl⟩, rfl | rfl | ⟨_, rfl⟩⟩ := cacheTranslateStep_cases he <;> rfl
  | walkAnswer id a pe' he =>
    simp only [walkAnswered, Option.map_eq_some_iff] at he
    obtain ⟨q, _, rfl⟩ := he
    obtain ⟨v, o, _, h1 | ⟨e, _, _, _, h1⟩⟩ := takeAnswer_cases me q a pe <;> rw [h1]
    · rfl
    · rcases fillTlb_cases me v e (removeWalk q.id pe) with ⟨_, h2⟩ | ⟨_, ⟨_, h2⟩ | ⟨_, _, h2⟩ | ⟨_, _, d, h2⟩⟩ <;>
        rw [h2] <;> rfl

/-- An agent's step keeps an invariant of every PE that each step of a PE keeps. -/
theorem everyPe_ran {P : Pe → Prop} {ev : Event} {s t : State} (keeps : ∀ ev me pe e, P pe → PeStep ev me pe e → P e.pe)
    (hs : everyPe P s) (h : Ran ev s t) : everyPe P t := by
  rcases h with ⟨h1, _⟩ | ⟨p, pe, e, _, h1, h2, h3, _⟩
  · simpa [everyPe, h1] using hs
  · intro q hq
    rw [h3] at hq
    rcases List.mem_or_eq_of_mem_set hq with hq | rfl
    · exact hs q hq
    · exact keeps _ _ _ _ (hs pe (List.mem_of_getElem? h1)) h2

/-- An agent's step keeps the parameters of the PE at a place, if there is one. -/
theorem ran_cfg {ev : Event} {s t : State} {p : Nat} (h : Ran ev s t) :
    (t.pes[p]?).map Pe.cfg = (s.pes[p]?).map Pe.cfg := by
  rcases h with ⟨h1, _⟩ | ⟨q, pe, e, _, h1, h2, h3, _⟩
  · rw [h1]
  · rw [h3, List.getElem?_set]
    split
    · rename_i hq
      subst hq
      split
      · simp [h1, h2.cfg_eq]
      · rename_i hl
        rw [List.getElem?_eq_none (Nat.le_of_not_lt hl)]
    · rfl

/-- Replacing bytes of a local memory keeps the parameters. -/
theorem withBytes_cfg (s : State) (p q : Nat) (cells : List Host.Cell) :
    ((withBytes s p cells).pes[q]?).map Pe.cfg = (s.pes[q]?).map Pe.cfg := by
  rcases withBytes_cases s p cells with ⟨_, h⟩ | ⟨pe, hp, h⟩ <;> rw [h]
  simp only [List.getElem?_set]
  split
  · rename_i hq
    subst hq
    split
    · simp [hp]
    · rename_i hl
      rw [List.getElem?_eq_none (Nat.le_of_not_lt hl)]
  · rfl

/-- Replacing bytes inside the local memory of a PE keeps an invariant that it keeps. -/
theorem everyPe_withBytes {P : Pe → Prop} {s : State} {p : Nat} {cells : List Host.Cell}
    (puts : ∀ pe cells, P pe → (∀ c ∈ cells, c.1 < pe.cfg.memSize) → P { pe with mem := putBytes pe.mem cells })
    (hc : ∀ pe, s.pes[p]? = some pe → ∀ c ∈ cells, c.1 < pe.cfg.memSize) (hs : everyPe P s) :
    everyPe P (withBytes s p cells) := by
  rcases withBytes_cases s p cells with ⟨_, h⟩ | ⟨pe, hp, h⟩ <;> rw [h]
  · exact hs
  · intro q hq
    rcases List.mem_or_eq_of_mem_set hq with hq | rfl
    · exact hs q hq
    · exact puts pe cells (hs _ (List.mem_of_getElem? hp)) (hc pe hp)

/-- An invariant of every PE that each step of a PE and each replacing of bytes inside local memory keeps is kept by every
step of the system. -/
theorem everyPe_step {P : Pe → Prop} {s t : State}
    (keeps : ∀ ev me pe e, P pe → PeStep ev me pe e → P e.pe)
    (puts : ∀ pe cells, P pe → (∀ c ∈ cells, c.1 < pe.cfg.memSize) → P { pe with mem := putBytes pe.mem cells })
    (hs : everyPe P s) (h : step s = .next t) : everyPe P t := by
  have h0 : everyPe P (takeEvent s) := by simpa [everyPe, takeEvent_pes] using hs
  rcases step_cases h with h | ⟨p, r, bytes, _, rfl⟩ | ⟨p, r, order, cells, kept, u, _, hcells, hkept, _, _, h1, rfl⟩
  · exact everyPe_ran keeps hs h
  · exact everyPe_withBytes puts (fun pe hp => partCells_inside hp) h0
  · have i0 : everyPe P (withBytes (takeEvent s) p cells) :=
      everyPe_withBytes puts (fun pe hp => hcells ▸ raceCells_inside hp) h0
    refine everyPe_withBytes (s := u) puts (fun pe hp c hc => ?_) (everyPe_ran keeps i0 h1)
    have hcfg := ran_cfg (p := p) h1
    rw [withBytes_cfg, hp] at hcfg
    cases ho : (takeEvent s).pes[p]? with
    | none => simp [ho] at hcfg
    | some q =>
      simp only [ho, Option.map_some, Option.some.injEq] at hcfg
      simp only [cellsAt, List.mem_map] at hc
      obtain ⟨a, ha, rfl⟩ := hc
      rw [hcfg]
      exact raceKept_inside ho a (hkept ▸ ha)

end Sys2Proof.Machine
end

