-- ==== Sys2Proof/Laws/Schedule.lean ====
section
/-! SUPPORT. The step of an event neither reads nor writes the model's own fields of the schedule, the agenda, the turn and the
accesses in progress, and adds outputs to those that there are, so it is the same step whatever these hold; and what every
step makes of the accesses in progress (20_memory.md R86): they last until their agents' own steps, and what they have stored
early they go on to perform (R99). -/

namespace Sys2Proof.Machine

/-- The system with the model's own fields of the schedule replaced, and with more outputs before its own. -/
def withSchedule (s : State) (a : List Event) (t : Nat) (o : List OpenAccess) (x : List Output) : State :=
  { s with agenda := a, turn := t, accesses := o, outputs := x ++ s.outputs }

@[simp] theorem withSchedule_pes (s a t o x) : (withSchedule s a t o x).pes = s.pes := rfl
@[simp] theorem withSchedule_active (s a t o x) : (withSchedule s a t o x).active = s.active := rfl
@[simp] theorem withSchedule_requests (s a t o x) : (withSchedule s a t o x).requests = s.requests := rfl
@[simp] theorem withSchedule_responses (s a t o x) : (withSchedule s a t o x).responses = s.responses := rfl
@[simp] theorem withSchedule_accesses (s a t o x) : (withSchedule s a t o x).accesses = o := rfl

theorem withSchedule_self (s : State) : withSchedule s s.agenda s.turn s.accesses [] = s := rfl

/-- The state before its event was taken, from the one after. -/
theorem withSchedule_takeEvent (s : State) : withSchedule (takeEvent s) s.agenda s.turn s.accesses s.outputs = s := by
  unfold takeEvent withSchedule consumeChoice
  split
  · simp
  · cases h : s.agenda <;> simp [← h]

/-- An outcome with its next state replaced. -/
def mapNext (f : State → State) : Host.Outcome State Fault Refusal → Host.Outcome State Fault Refusal
  | .next t => .next (f t)
  | .fault x => .fault x
  | .refused x => .refused x

theorem commit_schedule (s : State) (a t o x) (p : Nat) (e : Effect) :
    commit (withSchedule s a t o x) p e = withSchedule (commit s p e) a t o x := by
  simp [commit, withSchedule]

theorem onActive_schedule (s : State) (a t o x) (f : PeId → Pe → Pe) :
    onActive (withSchedule s a t o x) f = mapNext (withSchedule · a t o x) (onActive s f) := by
  simp only [onActive, withSchedule_pes, withSchedule_active]
  cases s.pes[s.active]? with
  | none => rfl
  | some pe => simp only [commit_schedule]; rfl

theorem serveAt_schedule (s : State) (a t o x) (h : PacketHead) (f : PeId → Pe → Effect) :
    serveAt (withSchedule s a t o x) h f = mapNext (withSchedule · a t o x) (serveAt s h f) := by
  simp only [serveAt, withSchedule_pes]
  cases s.pes[h.dstPe.toNat]? with
  | none => rfl
  | some pe => simp only [commit_schedule]; rfl

theorem exec_schedule (i : Instr) (s : State) (a t o x) :
    exec i (withSchedule s a t o x) = mapNext (withSchedule · a t o x) (exec i s) := by
  cases i <;>
    simp only [exec, execIdle, execSend, execReply, execRead, execWrite, execIncReadPtr, execWakeupCore, execReserved7,
      execMessage, execReadReq, execWriteReq, execCacheMemReq, execCacheMemReqFunc, execReservedPkt5, execReservedPkt6,
      execReservedPkt7, onActive_schedule, serveAt_schedule]

theorem stepPe_schedule (s : State) (a t o x) (p : Nat) (f : PeId → Pe → Option Effect) :
    stepPe (withSchedule s a t o x) p f = withSchedule (stepPe s p f) a t o x := by
  simp only [stepPe, withSchedule_pes]
  cases s.pes[p]? with
  | none => rfl
  | some pe =>
    simp only []
    cases f (peId p) pe with
    | none => rfl
    | some e => exact commit_schedule s a t o x p e

theorem stepEngine_schedule (s : State) (a t o x) (p : Nat) :
    stepEngine (withSchedule s a t o x) p = mapNext (withSchedule · a t o x) (stepEngine s p) := by
  simp only [stepEngine, withSchedule_pes]
  cases s.pes[p]? with
  | none => rfl
  | some pe =>
    simp only []
    cases pe.phase with
    | execPending => exact exec_schedule _ { s with active := p } a t o x
    | finishPending => exact congrArg Host.Outcome.next (commit_schedule s a t o x p _)
    | _ => rfl

theorem stepDeliverRequest_schedule (s : State) (a t o x) (k : Nat) :
    stepDeliverRequest (withSchedule s a t o x) k = mapNext (withSchedule · a t o x) (stepDeliverRequest s k) := by
  simp only [stepDeliverRequest, withSchedule_requests]
  cases s.requests[k]? with
  | none => rfl
  | some b =>
    simp only []
    cases decode .noc b with
    | ok i => exact exec_schedule i { s with requests := s.requests.eraseIdx k } a t o x
    | error e => rfl

theorem stepDeliverResponse_schedule (s : State) (a t o x) (k : Nat) :
    stepDeliverResponse (withSchedule s a t o x) k = mapNext (withSchedule · a t o x) (stepDeliverResponse s k) := by
  simp only [stepDeliverResponse, withSchedule_responses]
  cases s.responses[k]? with
  | none => rfl
  | some r =>
    simp only []
    split
    · rfl
    · exact congrArg Host.Outcome.next (stepPe_schedule { s with responses := s.responses.eraseIdx k } a t o x _ _)

/-- A racer's step is the same step whatever the schedule and the outputs hold. -/
theorem runRacer_schedule (p : Nat) (r : Racer) (s : State) (a t o x) :
    runRacer p r (withSchedule s a t o x) = mapNext (withSchedule · a t o x) (runRacer p r s) := by
  cases r with
  | engine => exact stepEngine_schedule s a t o x p
  | request b => exact stepDeliverRequest_schedule s a t o x _
  | response d b => exact stepDeliverResponse_schedule s a t o x _
  | _ => exact congrArg Host.Outcome.next (stepPe_schedule s a t o x p _)

theorem withBytes_schedule (s : State) (a t o x) (p : Nat) (cells : List Host.Cell) :
    withBytes (withSchedule s a t o x) p cells = withSchedule (withBytes s p cells) a t o x := by
  simp only [withBytes, withSchedule_pes]
  cases s.pes[p]? <;> rfl

theorem racerAgent_schedule (s : State) (a t o x) (p : Nat) (r : Racer) :
    racerAgent (withSchedule s a t o x) p r = racerAgent s p r := by cases r <;> rfl

theorem memoryAt_schedule (s : State) (a t o x) (p : Nat) : memoryAt (withSchedule s a t o x) p = memoryAt s p := rfl

/-- To which addresses a racer stores does not depend on the schedule. -/
theorem storesTo_schedule (p : Nat) (r : Racer) (s : State) (a t o x) (n : Nat) :
    storesTo p r (withSchedule s a t o x) n = storesTo p r s n := by
  simp only [storesTo, withBytes_schedule, runRacer_schedule, memoryAt_schedule]
  generalize runRacer p r s = u
  generalize runRacer p r (withBytes s p [(n, readByte (memoryAt s p) n + 1#8)]) = v
  cases u <;> cases v <;> rfl

/-- Which byte a racer stores at an address does not depend on the schedule. -/
theorem plannedByte_schedule (p : Nat) (r : Racer) (s : State) (a t o x) (n : Nat) :
    plannedByte p r (withSchedule s a t o x) n = plannedByte p r s n := by
  simp only [plannedByte, storesTo_schedule, runRacer_schedule]
  cases runRacer p r s <;> rfl

theorem partAddrs_schedule (l : List OpenAccess) (p : Nat) (r : Racer) (bytes : List Nat) (s : State) (a t o x) :
    partAddrs l p r bytes (withSchedule s a t o x) = partAddrs l p r bytes s := by
  simp only [partAddrs, withSchedule_pes, racerAgent_schedule, plannedByte_schedule]

theorem partCells_schedule (l : List OpenAccess) (p : Nat) (r : Racer) (bytes : List Nat) (s : State) (a t o x) :
    partCells l p r bytes (withSchedule s a t o x) = partCells l p r bytes s := by
  simp only [partCells, partAddrs_schedule, plannedByte_schedule]

theorem raceOrder_schedule (l : List OpenAccess) (p : Nat) (r : Racer) (order : List (Nat × Nat)) (s : State) (a t o x) :
    raceOrder l p r order (withSchedule s a t o x) = raceOrder l p r order s := by
  simp only [raceOrder, withSchedule_pes, racerAgent_schedule]

theorem raceCells_schedule (l : List OpenAccess) (p : Nat) (r : Racer) (order : List (Nat × Nat)) (s : State) (a t o x) :
    raceCells l p r order (withSchedule s a t o x) = raceCells l p r order s := by
  simp only [raceCells, racerAgent_schedule, raceOrder_schedule]

theorem raceKept_schedule (l : List OpenAccess) (p : Nat) (r : Racer) (order : List (Nat × Nat)) (s : State) (a t o x) :
    raceKept l p r order (withSchedule s a t o x) = raceKept l p r order s := by
  simp only [raceKept, withSchedule_pes, racerAgent_schedule, raceOrder_schedule, storesTo_schedule]

theorem stepRace_schedule (p : Nat) (r : Racer) (order : List (Nat × Nat)) (l : List OpenAccess) (s : State) (a t o x) :
    stepRace p r order l (withSchedule s a t o x) = mapNext (withSchedule · a t o x) (stepRace p r order l s) := by
  simp only [stepRace, racerAgent_schedule, raceCells_schedule, raceKept_schedule, withBytes_schedule,
    runRacer_schedule, memoryAt_schedule]
  split
  · generalize runRacer p r _ = u
    cases u <;> simp only [mapNext, withBytes_schedule]
  · rfl

theorem stepClientWrite_schedule (s : State) (a t o x) (p : Nat) (addr : Word) (w : Nat) (v : Word) (priv : Bool) :
    stepClientWrite (withSchedule s a t o x) p addr w v priv =
      mapNext (withSchedule · a t o x) (stepClientWrite s p addr w v priv) := by
  simp only [stepClientWrite, withSchedule_pes]
  cases s.pes[p]? with
  | none => rfl
  | some pe =>
    simp only []
    split
    · split
      · exact exec_schedule _ { s with active := p } a t o x
      · exact congrArg Host.Outcome.next (commit_schedule s a t o x p _)
    · rfl
    · rfl

theorem stepClientRead_schedule (s : State) (a t o x) (p : Nat) (addr : Word) (w : Nat) :
    stepClientRead (withSchedule s a t o x) p addr w = mapNext (withSchedule · a t o x) (stepClientRead s p addr w) := by
  simp only [stepClientRead, withSchedule_pes]
  cases s.pes[p]? with
  | none => rfl
  | some pe =>
    simp only []
    split
    · exact congrArg Host.Outcome.next (commit_schedule s a t o x p _)
    · rfl
    · rfl

theorem stepCacheRequest_schedule (s : State) (a t o x) (p : Nat) (id : OpId) (req : CacheRequest) :
    stepCacheRequest (withSchedule s a t o x) p id req = mapNext (withSchedule · a t o x) (stepCacheRequest s p id req) := by
  simp only [stepCacheRequest, withSchedule_pes]
  cases s.pes[p]? with
  | none => rfl
  | some pe =>
    simp only []
    split
    · exact congrArg Host.Outcome.next (commit_schedule s a t o x p _)
    · rfl

/-- The step of an event is the same step whatever the schedule and the outputs hold. -/
theorem runEvent_schedule (e : Event) (l : List OpenAccess) (s : State) (a t o x) :
    runEvent e l (withSchedule s a t o x) = mapNext (withSchedule · a t o x) (runEvent e l s) := by
  cases e with
  | engine p => exact stepEngine_schedule s a t o x p
  | deliverRequest k => exact stepDeliverRequest_schedule s a t o x k
  | deliverResponse k => exact stepDeliverResponse_schedule s a t o x k
  | clientWrite p addr w v priv => exact stepClientWrite_schedule s a t o x p addr w v priv
  | clientRead p addr w => exact stepClientRead_schedule s a t o x p addr w
  | cacheRequest p id req => exact stepCacheRequest_schedule s a t o x p id req
  | accessPart p r bytes =>
    simp only [runEvent, stepPart, partCells_schedule, withBytes_schedule, mapNext]
  | race p r order => exact stepRace_schedule p r order l s a t o x
  | _ => exact congrArg Host.Outcome.next (stepPe_schedule s a t o x _ _)

/-- What does not depend on the schedule is the same once the event is taken. -/
theorem of_takeEvent {α : Type} (f : State → α) (hf : ∀ s a t o x, f (withSchedule s a t o x) = f s) (s : State) :
    f (takeEvent s) = f s := by
  conv => rhs; rw [← withSchedule_takeEvent s]
  rw [hf]

theorem storesTo_takeEvent (p : Nat) (r : Racer) (s : State) (n : Nat) :
    storesTo p r (takeEvent s) n = storesTo p r s n :=
  of_takeEvent (storesTo p r · n) (fun _ _ _ _ _ => storesTo_schedule ..) s

theorem plannedByte_takeEvent (p : Nat) (r : Racer) (s : State) (n : Nat) :
    plannedByte p r (takeEvent s) n = plannedByte p r s n :=
  of_takeEvent (plannedByte p r · n) (fun _ _ _ _ _ => plannedByte_schedule ..) s

theorem racerAgent_takeEvent (p : Nat) (r : Racer) (s : State) :
    racerAgent (takeEvent s) p r = racerAgent s p r :=
  of_takeEvent (racerAgent · p r) (fun _ _ _ _ _ => racerAgent_schedule ..) s

theorem raceOrder_takeEvent (l : List OpenAccess) (p : Nat) (r : Racer) (order : List (Nat × Nat)) (s : State) :
    raceOrder l p r order (takeEvent s) = raceOrder l p r order s :=
  of_takeEvent (raceOrder l p r order ·) (fun _ _ _ _ _ => raceOrder_schedule ..) s

theorem raceCells_takeEvent (l : List OpenAccess) (p : Nat) (r : Racer) (order : List (Nat × Nat)) (s : State) :
    raceCells l p r order (takeEvent s) = raceCells l p r order s :=
  of_takeEvent (raceCells l p r order ·) (fun _ _ _ _ _ => raceCells_schedule ..) s

theorem raceKept_takeEvent (l : List OpenAccess) (p : Nat) (r : Racer) (order : List (Nat × Nat)) (s : State) :
    raceKept l p r order (takeEvent s) = raceKept l p r order s :=
  of_takeEvent (raceKept l p r order ·) (fun _ _ _ _ _ => raceKept_schedule ..) s

theorem partAddrs_takeEvent (l : List OpenAccess) (p : Nat) (r : Racer) (bytes : List Nat) (s : State) :
    partAddrs l p r bytes (takeEvent s) = partAddrs l p r bytes s :=
  of_takeEvent (partAddrs l p r bytes ·) (fun _ _ _ _ _ => partAddrs_schedule ..) s

theorem partCells_takeEvent (l : List OpenAccess) (p : Nat) (r : Racer) (bytes : List Nat) (s : State) :
    partCells l p r bytes (takeEvent s) = partCells l p r bytes s :=
  of_takeEvent (partCells l p r bytes ·) (fun _ _ _ _ _ => partCells_schedule ..) s

/-- The step of an event changes nothing of the schedule. -/
theorem runEvent_keeps {e : Event} {l : List OpenAccess} {s t : State} (h : runEvent e l s = .next t) :
    t.agenda = s.agenda ∧ t.turn = s.turn ∧ t.accesses = s.accesses := by
  have h1 := runEvent_schedule e l s s.agenda s.turn s.accesses []
  rw [withSchedule_self, h] at h1
  have h2 : t = withSchedule t s.agenda s.turn s.accesses [] := by injection h1
  rw [h2]
  exact ⟨rfl, rfl, rfl⟩

/-- A racer's step changes nothing of the schedule. -/
theorem runRacer_keeps {p : Nat} {r : Racer} {s t : State} (h : runRacer p r s = .next t) :
    t.agenda = s.agenda ∧ t.turn = s.turn ∧ t.accesses = s.accesses :=
  runEvent_keeps (l := []) (runRacer_eq p r [] s ▸ h)

/-! ### The accesses in progress -/

/-- A step consumes its event of the schedule, and leaves in progress what its event leaves. -/
theorem step_schedule {s t : State} (h : step s = .next t) :
    t.agenda = (takeEvent s).agenda ∧ t.turn = (takeEvent s).turn ∧ t.accesses = accessesAfter (nextEvent s) s :=
  runEvent_keeps h

/-- The event of an agenda before which no access in progress has to be performed, taken. -/
theorem takeEvent_cons {s : State} {e : Event} {rest : List Event} (h : s.agenda = e :: rest)
    (hp : pressed s = none) : nextEvent s = e ∧
      takeEvent s = { s with agenda := rest, outputs := [], accesses := accessesAfter e s } := by
  have hn : nextEvent s = e := by simp [nextEvent_of_pressed hp, chosenEvent, h]
  refine ⟨hn, ?_⟩
  unfold takeEvent consumeChoice
  simp [hp, hn, h]

/-- The PE and the agent of an access in progress. -/
def OpenAccess.key (o : OpenAccess) : Nat × Agent := (o.pe, o.agent)

/-- What an access makes of one in progress: it is ended, overlapped, or at another PE. -/
theorem overlap_cases {p : Nat} {m : Memory} {agent : Agent} {o o' : OpenAccess} (h : overlap p m agent o = some o') :
    o'.key = o.key ∧ o'.access = o.access ∧ o'.stored = o.stored ∧ o.key ≠ (p, agent) ∧
      ((o.pe = p ∧ o'.moments = o.moments ++ [m]) ∨ (o.pe ≠ p ∧ o' = o)) := by
  unfold overlap at h
  split at h
  · rename_i hp
    split at h
    · cases h
    · rename_i h1
      cases h
      exact ⟨rfl, rfl, rfl, fun h2 => h1 (congrArg Prod.snd h2), .inl ⟨hp, rfl⟩⟩
  · rename_i h1
    cases h
    exact ⟨rfl, rfl, rfl, fun h2 => h1 (congrArg Prod.fst h2), .inr ⟨h1, rfl⟩⟩

/-- What stays in progress after an access of an agent. -/
theorem mem_overlapAll {p : Nat} {pe : Pe} {agent : Agent} {l : List OpenAccess} {o' : OpenAccess}
    (h : o' ∈ overlapAll p pe agent l) : ∃ o ∈ l, overlap p pe.mem agent o = some o' := List.mem_filterMap.1 h

/-- An access leaves in progress those of other agents. -/
theorem overlapAll_other {p : Nat} {pe : Pe} {agent : Agent} {l : List OpenAccess} {o : OpenAccess} (ho : o ∈ l)
    (hk : o.key ≠ (p, agent)) :
    (o.pe ≠ p → o ∈ overlapAll p pe agent l) ∧
      (o.pe = p → { o with moments := o.moments ++ [pe.mem] } ∈ overlapAll p pe agent l) := by
  constructor
  · intro hp
    exact List.mem_filterMap.2 ⟨o, ho, by simp [overlap, hp]⟩
  · intro hp
    have ha : o.agent ≠ agent := fun ha => hk (by simp [OpenAccess.key, hp, ha])
    exact List.mem_filterMap.2 ⟨o, ho, by simp [overlap, hp, ha]⟩

/-- An access ends those of its own agent at its PE. -/
theorem overlapAll_own (p : Nat) (pe : Pe) (agent : Agent) (l : List OpenAccess) :
    ∀ o ∈ overlapAll p pe agent l, o.key ≠ (p, agent) := by
  intro o' h
  obtain ⟨o, _, h⟩ := mem_overlapAll h
  obtain ⟨h1, _, _, h2, _⟩ := overlap_cases h
  exact h1 ▸ h2

theorem overlapAll_keys (p : Nat) (pe : Pe) (agent : Agent) (l : List OpenAccess) :
    List.Sublist ((overlapAll p pe agent l).map OpenAccess.key) (l.map OpenAccess.key) := by
  unfold overlapAll
  induction l with
  | nil => exact List.Sublist.slnil
  | cons o l ih =>
    rw [List.filterMap_cons]
    split
    · exact ih.cons _
    · rename_i o' ho
      rw [List.map_cons, List.map_cons, (overlap_cases ho).1]
      exact ih.cons_cons _

/-- A racer as an access in progress is its agent's. -/
@[simp] theorem underWay_key (l : List OpenAccess) (p : Nat) (g : Agent) (r : Racer) :
    (underWay l p g r).key = (p, g) ∧ (underWay l p g r).access = r := by
  unfold underWay
  split
  · rename_i o ho
    split
    · rename_i ha
      simp only [accessOf] at ho
      have := List.find?_some ho
      simp only [Bool.and_eq_true, beq_iff_eq] at this
      exact ⟨by simp [OpenAccess.key, this], ha⟩
    · exact ⟨rfl, rfl⟩
  · exact ⟨rfl, rfl⟩

/-- With no access in progress, a racer begins only now. -/
theorem underWay_none {l : List OpenAccess} {p : Nat} {g : Agent} (h : accessOf l p g = none) (r : Racer) :
    underWay l p g r = { pe := p, agent := g, access := r, moments := [], stored := [] } := by
  simp [underWay, h]

/-- What an event leaves in progress: all, those of other agents, or those and one of the agent. -/
theorem accessesAfter_cases (e : Event) (s : State) :
    accessesAfter e s = s.accesses ∨
      ∃ p r pe agent, eventAccess s e = some (p, r) ∧ s.pes[p]? = some pe ∧ racerAgent s p r = some agent ∧
        (accessesAfter e s = overlapAll p pe agent s.accesses ∨
          ∃ bytes, e = .accessPart p r bytes ∧ mayOverlap pe r = true ∧
            accessesAfter e s = overlapAll p pe agent s.accesses ++
              [{ underWay s.accesses p agent r with
                stored := (underWay s.accesses p agent r).stored ++ partAddrs s.accesses p r bytes s }]) := by
  unfold accessesAfter
  split
  · rename_i p r he
    split
    · rename_i pe agent hp ha
      split
      · rename_i bytes
        split
        · rename_i hm
          cases he
          exact .inr ⟨p, r, pe, agent, rfl, hp, ha, .inr ⟨bytes, rfl, hm, rfl⟩⟩
        · exact .inl rfl
      · exact .inr ⟨p, r, pe, agent, he, hp, ha, .inl rfl⟩
    · exact .inl rfl
  · exact .inl rfl

/-- The step of an access leaves in progress those of other agents. -/
theorem accessesAfter_eventRacer {e : Event} {s : State} {p : Nat} {r : Racer} {order : List (Nat × Nat)} {pe : Pe}
    {agent : Agent} (he : eventRacer s e = some (p, r, order)) (hp : s.pes[p]? = some pe)
    (ha : racerAgent s p r = some agent) : accessesAfter e s = overlapAll p pe agent s.accesses := by
  cases e <;> simp only [accessesAfter, eventAccess, he, Option.map_some, hp, ha]
  case accessPart => cases he

/-- An event that is no part of an access leaves nothing in progress where nothing is. -/
theorem accessesAfter_nil {e : Event} {s : State} (h : s.accesses = []) (he : ∀ p r bytes, e ≠ .accessPart p r bytes) :
    accessesAfter e s = [] := by
  rcases accessesAfter_cases e s with h1 | ⟨p, r, pe, agent, _, _, _, h1 | ⟨bytes, h2, _⟩⟩
  · rw [h1, h]
  · rw [h1, h]; rfl
  · exact absurd h2 (he p r bytes)

/-- No step gives an agent two accesses in progress. -/
theorem step_nodup {s t : State} (hs : (s.accesses.map OpenAccess.key).Nodup) (h : step s = .next t) :
    (t.accesses.map OpenAccess.key).Nodup := by
  rw [(step_schedule h).2.2]
  rcases accessesAfter_cases (nextEvent s) s with h1 | ⟨p, r, pe, agent, _, _, _, h1 | ⟨bytes, _, _, h1⟩⟩ <;> rw [h1]
  · exact hs
  · exact hs.sublist (overlapAll_keys _ _ _ _)
  · rw [List.map_append, List.nodup_append]
    refine ⟨hs.sublist (overlapAll_keys _ _ _ _), by simp, fun x hx y hy => ?_⟩
    obtain ⟨o, ho, rfl⟩ := List.mem_map.1 hx
    simp only [List.map_cons, List.map_nil, List.mem_singleton] at hy
    rw [hy]
    have hk : ({ underWay s.accesses p agent r with
        stored := (underWay s.accesses p agent r).stored ++ partAddrs s.accesses p r bytes s } : OpenAccess).key =
          (p, agent) := (underWay_key s.accesses p agent r).1
    rw [hk]
    exact overlapAll_own p pe agent s.accesses o ho

end Sys2Proof.Machine
end

