-- ==== Sys2Proof/Laws/Stores.lean ====
section
/-! SUPPORT. What the steps of racers store (20_memory.md R86) does not depend on local memory: each stores blocks of
bytes that the rest of the state names. So an address is one to which a racer stores whenever its step changes the byte
there. -/

namespace Sys2Proof.Machine

/-- The PE with another local memory. -/
def Pe.withMem (pe : Pe) (m : Memory) : Pe := { pe with mem := m }

@[simp] theorem withMem_mem (pe : Pe) (m : Memory) : (pe.withMem m).mem = m := rfl
@[simp] theorem withMem_cfg (pe : Pe) (m : Memory) : (pe.withMem m).cfg = pe.cfg := rfl
@[simp] theorem withMem_session (pe : Pe) (m : Memory) : (pe.withMem m).session = pe.session := rfl
@[simp] theorem withMem_phase (pe : Pe) (m : Memory) : (pe.withMem m).phase = pe.phase := rfl
@[simp] theorem withMem_xfer (pe : Pe) (m : Memory) : (pe.withMem m).xfer = pe.xfer := rfl
@[simp] theorem withMem_withMem (pe : Pe) (m n : Memory) : (pe.withMem m).withMem n = pe.withMem n := rfl
@[simp] theorem withMem_self (pe : Pe) : pe.withMem pe.mem = pe := rfl
@[simp] theorem isSend_withMem (pe : Pe) (m : Memory) (e : EpId) : isSend (pe.withMem m) e = isSend pe e := rfl
@[simp] theorem isRecv_withMem (pe : Pe) (m : Memory) (e : EpId) : isRecv (pe.withMem m) e = isRecv pe e := rfl
@[simp] theorem epAt_withMem (pe : Pe) (m : Memory) (e : EpId) : epAt (pe.withMem m) e = epAt pe e := rfl
@[simp] theorem setEp_withMem (pe : Pe) (m : Memory) (e : EpId) (v : Endpoint) :
    setEp (pe.withMem m) e v = (setEp pe e v).withMem m := rfl
@[simp] theorem recvError_withMem (pe : Pe) (m : Memory) (c : ErrorCode) (e : EpId) :
    recvError c e (pe.withMem m) = (recvError c e pe).withMem m := rfl
@[simp] theorem setSession_withMem (pe : Pe) (m : Memory) (c : Session) :
    setSession c (pe.withMem m) = (setSession c pe).withMem m := rfl

theorem grantCredit_withMem (c : EpId) (pe : Pe) (m : Memory) :
    grantCredit c (pe.withMem m) = (grantCredit c pe).withMem m := by
  simp only [grantCredit, isSend_withMem, epAt_withMem, setEp_withMem, recvError_withMem]
  exact (apply_ite (fun q => Pe.withMem q m) _ _ _).symm

/-! ### Blocks of bytes -/

/-- Blocks of bytes written to a memory, in order. -/
def writeBlocks (m : Memory) (ws : List (Nat × List Byte)) : Memory := ws.foldl (fun m w => writeBytes m w.1 w.2) m

/-- A step of a PE stores blocks of bytes that do not depend on its local memory. -/
def StoresBlocks (pe : Pe) (f : Pe → Pe) : Prop :=
  ∃ ws, ∀ m, (f (pe.withMem m)).mem = writeBlocks m ws

theorem StoresBlocks.keeps {pe : Pe} {f : Pe → Pe} (h : ∀ m, (f (pe.withMem m)).mem = m) : StoresBlocks pe f :=
  ⟨[], h⟩

theorem memWrite_withMem (pe : Pe) (m : Memory) (a : Nat) (bs : List Byte) :
    memWrite (pe.withMem m) a bs =
      if inLocalMemory pe a bs.length then some (pe.withMem (writeBytes m a bs)) else none := rfl

theorem writeRanges_blocks (pe : Pe) (rs : List PhysRange) : ∀ data : List Byte,
    (∃ ws, ∀ m, writeRanges (pe.withMem m) rs data = some (pe.withMem (writeBlocks m ws))) ∨
      ∀ m, writeRanges (pe.withMem m) rs data = none := by
  induction rs with
  | nil => exact fun _ => .inl ⟨[], fun _ => rfl⟩
  | cons r rs ih =>
    intro data
    by_cases hr : inLocalMemory pe r.pa.toNat (data.take r.len).length = true
    · rcases ih (data.drop r.len) with ⟨ws, h⟩ | h
      · refine .inl ⟨(r.pa.toNat, data.take r.len) :: ws, fun m => ?_⟩
        simp only [writeRanges, memWrite_withMem, hr, if_true]
        exact h _
      · refine .inr fun m => ?_
        simp only [writeRanges, memWrite_withMem, hr, if_true]
        exact h _
    · exact .inr fun m => by simp only [writeRanges, memWrite_withMem, hr]; rfl

/-! ### What each racer stores -/

theorem chunkResponse_blocks (pe : Pe) (bytes : List Byte) : StoresBlocks pe (chunkResponse bytes) := by
  have adv : ∀ x p, (advanceChunk x p).mem = p.mem := by
    intro x p; simp only [advanceChunk]; split <;> rfl
  unfold StoresBlocks chunkResponse
  simp only [withMem_phase, withMem_xfer]
  split
  · rename_i x _ _
    split
    · unfold takeResponse
      split
      · exact ⟨[], fun m => rfl⟩
      · split
        · exact ⟨[], fun m => adv _ _⟩
        · rcases writeRanges_blocks pe x.pas (responseData bytes) with ⟨ws, h⟩ | h
          · exact ⟨ws, fun m => by rw [h]; exact adv _ _⟩
          · exact ⟨[], fun m => by rw [h]; rfl⟩
    · exact ⟨[], fun m => rfl⟩
  · exact ⟨[], fun m => rfl⟩

theorem receiveMessage_blocks (hd : PacketHead) (payload : List Byte) (pe : Pe) :
    StoresBlocks pe fun q => (receiveMessage hd payload q).pe := by
  have acc : ∀ pe : Pe, StoresBlocks pe fun q => (acceptMessage hd payload q).pe := by
    intro pe
    simp only [StoresBlocks, acceptMessage, isRecv_withMem, epAt_withMem]
    by_cases h1 : (!isRecv pe hd.dstEp) = true
    · exact ⟨[], fun m => by simp only [h1, if_true]; rfl⟩
    · by_cases h2 : hd.size.toNat > (epSlotSize (epAt pe hd.dstEp)).toNat
      · exact ⟨[], fun m => by simp only [h1, h2, if_true]; rfl⟩
      · by_cases h3 : (epMsgCount (epAt pe hd.dstEp)).toNat ≥ (epNumSlots (epAt pe hd.dstEp)).toNat
        · exact ⟨[], fun m => by simp only [h1, h2, h3, if_true]; rfl⟩
        · simp only [h1, h2, h3, if_false, storeMessage, epAt_withMem, memWrite_withMem]
          by_cases h : inLocalMemory pe (writeSlotAddr (epAt pe hd.dstEp)) payload.length = true
          · exact ⟨[(writeSlotAddr (epAt pe hd.dstEp), payload)], fun m => by simp only [h, if_true]; rfl⟩
          · exact ⟨[], fun m => by simp only [h]; rfl⟩
  by_cases hm : malformedMessage hd payload = true
  · exact ⟨[], fun m => by simp only [receiveMessage, hm, if_true]; rfl⟩
  · by_cases hg : (decHdr payload).grantCredits = true
    · obtain ⟨ws, hw⟩ := acc (grantCredit (decHdr payload).replyEpId pe)
      exact ⟨ws, fun m => by simp only [receiveMessage, hm, hg, if_true, grantCredit_withMem]; exact hw m⟩
    · obtain ⟨ws, hw⟩ := acc pe
      exact ⟨ws, fun m => by simp only [receiveMessage, hm, hg]; exact hw m⟩

theorem serveWrite_blocks (hd : PacketHead) (payload : List Byte) (pe : Pe) :
    StoresBlocks pe fun q => (serveWrite hd payload q).pe := by
  unfold StoresBlocks serveWrite
  simp only [memWrite_withMem]
  by_cases h : inLocalMemory pe hd.addr.toNat payload.length = true
  · exact ⟨[(hd.addr.toNat, payload)], fun m => by simp only [h, if_true]; rfl⟩
  · exact ⟨[], fun m => by simp only [h]; rfl⟩


/-- The memory after a step of a PE that may be not enabled. -/
def memAfter (m : Memory) : Option Effect → Memory
  | some e => e.pe.mem
  | none => m

theorem memAfter_map_memWrite (pe : Pe) (m : Memory) (a : Nat) (bs : List Byte) (g : Pe → Effect)
    (hg : ∀ q, (g q).pe.mem = q.mem) :
    memAfter m ((memWrite (pe.withMem m) a bs).map g) =
      writeBlocks m (if inLocalMemory pe a bs.length then [(a, bs)] else []) := by
  rw [memWrite_withMem]
  split
  · exact hg _
  · rfl

theorem transferStep_mem (me : PeId) (pe : Pe) (m : Memory) : memAfter m (transferStep me (pe.withMem m)) = m := by
  cases h : transferStep me (pe.withMem m) with
  | none => rfl
  | some e =>
    obtain ⟨x, _, _, _, ht⟩ := transferStep_enabled h
    obtain ⟨pe', ⟨_, _, _, rfl⟩, h2⟩ := chunkStepA_cases ht
    rcases h2 with rfl | ⟨_, rfl⟩ | ⟨_, _, _, rfl⟩ | ⟨_, _, _, rfl⟩ <;> rfl

theorem ctxSwitchStep_mem (me : PeId) (pe : Pe) :
    ∃ ws, ∀ m, memAfter m (ctxSwitchStep me (pe.withMem m)) = writeBlocks m ws := by
  cases hc : pe.session with
  | none => exact ⟨[], fun m => by simp only [ctxSwitchStep, withMem_session, hc]; rfl⟩
  | some c =>
    have iss : ∀ op off n q, (issueCommand op off n q).mem = q.mem := by intro op off n q; simp [issueCommand]
    have done : ∀ g : Pe → Effect, (∀ q, (g q).pe.mem = q.mem) →
        ∃ ws, ∀ m, memAfter m ((writeDoneFlags (pe.withMem m)).map g) = writeBlocks m ws := fun g hg =>
      ⟨_, fun m => memAfter_map_memWrite pe m pe.cfg.rctmuxFlags.toNat (wordBytes pe.cfg.doneFlags) g hg⟩
    simp only [ctxSwitchStep, withMem_session, hc, sessionStep]
    split
    · refine ⟨[], fun m => ?_⟩
      unfold ctxCheck
      cases memRead (pe.withMem m) (pe.withMem m).cfg.rctmuxFlags.toNat 8 <;> rfl
    · refine ⟨[], fun m => ?_⟩
      show (ctxFlags me c (pe.withMem m)).pe.mem = m
      unfold ctxFlags
      repeat' split
      all_goals rfl
    · exact ⟨[], fun m => rfl⟩
    · simp only [ctxSaveWrite, withMem_cfg]
      split
      · exact ⟨[], fun m => rfl⟩
      · exact ⟨_, fun m => memAfter_map_memWrite pe m (pe.cfg.bufferAddr + c.byteOffset).toNat
          (readBytes pe.ctx c.byteOffset.toNat (localChunk pe.cfg c))
          (fun q => { pe := setSession (afterLocalChunk c (localChunk pe.cfg c) .saveSend true) q }) fun _ => rfl⟩
    · refine ⟨[], fun m => ?_⟩
      unfold ctxSaveSend
      repeat' split
      · rfl
      · rfl
      · exact iss _ _ _ _
    · refine ⟨[], fun m => ?_⟩
      unfold ctxSaveWait
      repeat' split
      all_goals rfl
    · exact done (fun q => { pe := setSession { c with ctxSwPending := true, state := .wait } q }) fun _ => rfl
    · exact ⟨[], fun m => rfl⟩
    · refine ⟨[], fun m => ?_⟩
      unfold ctxRestore
      repeat' split
      · rfl
      · rfl
      · exact iss _ _ _ _
    · refine ⟨[], fun m => ?_⟩
      unfold ctxRestoreWait
      repeat' split
      all_goals rfl
    · refine ⟨[], fun m => ?_⟩
      unfold ctxRestoreRead
      split
      · rfl
      · cases memRead (pe.withMem m) ((pe.withMem m).cfg.bufferAddr + c.byteOffset).toNat
            (localChunk (pe.withMem m).cfg c) <;> rfl
    · exact done (fun q =>
        { pe := setSession { c with ctxSwPending := false, state := .check } q, outputs := [.switched me] }) fun _ => rfl

/-! ### The racer's step as a step of the system -/

/-- The system with another local memory at a place. -/
def withMemAt (s : State) (p : Nat) (pe : Pe) (m : Memory) : State := { s with pes := s.pes.set p (pe.withMem m) }

theorem withMemAt_get {s : State} {p : Nat} {pe : Pe} (h : s.pes[p]? = some pe) (m : Memory) :
    (withMemAt s p pe m).pes[p]? = some (pe.withMem m) := pes_set_get h _

theorem memoryAt_commit {s : State} {p : Nat} {pe : Pe} (h : s.pes[p]? = some pe) (e : Effect) :
    memoryAt (commit s p e) p = e.pe.mem := by
  simp only [memoryAt, commit_pes]
  rw [pes_set_get h]

theorem memoryAt_stepPe {s : State} {p : Nat} {pe : Pe} (h : s.pes[p]? = some pe) (f : PeId → Pe → Option Effect)
    (m : Memory) :
    memoryAt (stepPe (withMemAt s p pe m) p f) p = memAfter m (f (peId p) (pe.withMem m)) := by
  unfold stepPe
  simp only [withMemAt_get h]
  cases hf : f (peId p) (pe.withMem m) with
  | none => simp only [memAfter, memoryAt, withMemAt_get h]; rfl
  | some e => exact memoryAt_commit (withMemAt_get h m) e

/-- The Command Engine's step answers a next state and stores nothing. -/
theorem stepEngine_keeps {s : State} {p : Nat} {pe : Pe} (hp : s.pes[p]? = some pe) :
    ∃ t, stepEngine s p = .next t ∧ memoryAt t p = pe.mem := by
  have fin : ∀ f : PeId → Pe → Pe, (∀ me, (f me pe).mem = pe.mem) →
      ∃ t, onActive { s with active := p } f = .next t ∧ memoryAt t p = pe.mem := by
    intro f hf
    have hq : ({ s with active := p } : State).pes[({ s with active := p } : State).active]? = some pe := hp
    exact ⟨_, onActive_some f hq, (memoryAt_commit hq _).trans (hf _)⟩
  simp only [stepEngine, hp]
  split
  · have hop : ∀ op : BitVec 3,
        op = 0#3 ∨ op = 1#3 ∨ op = 2#3 ∨ op = 3#3 ∨ op = 4#3 ∨ op = 5#3 ∨ op = 6#3 ∨ op = 7#3 := by decide
    unfold decodeCommand
    generalize epIdOf (latchedWord pe.cur) = ep
    rcases hop (opcodeOf (latchedWord pe.cur)) with h | h | h | h | h | h | h | h <;> rw [h]
    · exact fin (fun _ pe => writeCommand (commandWord 0#3 ep errNone) pe)
        fun me => regWrite_mem 1 (commandWord 0#3 ep errNone) false _
    · refine fin (sendExecute ep) fun me => ?_
      rcases sendExecute_cases ep me pe with ⟨c, h1⟩ | ⟨_, _, _, h1⟩ <;> rw [h1] <;> rfl
    · refine fin (replyExecute ep) fun me => ?_
      rcases replyExecute_cases ep me pe with ⟨c, h1⟩ | ⟨_, _, _, _, _, _, h1⟩ <;> rw [h1] <;> rfl
    · refine fin (fun _ pe => memoryExecute .localWrite epPermR ep pe) fun me => ?_
      rcases memoryExecute_cases .localWrite epPermR ep pe with ⟨c, h1⟩ | ⟨_, _, _, h1 | ⟨_, h1⟩⟩ <;> rw [h1] <;> rfl
    · refine fin (fun _ pe => memoryExecute .localRead epPermW ep pe) fun me => ?_
      rcases memoryExecute_cases .localRead epPermW ep pe with ⟨c, h1⟩ | ⟨_, _, _, h1 | ⟨_, h1⟩⟩ <;> rw [h1] <;> rfl
    · refine fin (fun _ pe => incReadPtrExecute ep pe) fun me => ?_
      rcases incReadPtrExecute_cases ep pe with ⟨c, h1⟩ | ⟨_, _, h1⟩ <;> rw [h1] <;> rfl
    · exact fin (fun _ pe => completeCommand pe) fun me => rfl
    · exact fin (fun _ pe => failCommand errUnknownCmd pe) fun me => rfl
  · exact ⟨_, rfl, (memoryAt_commit hp _).trans rfl⟩
  · exact ⟨_, rfl, memoryAt_some hp⟩
  · exact ⟨_, rfl, memoryAt_some hp⟩

/-- What a racer stores does not depend on the local memory. -/
theorem runRacer_blocks {s : State} {p : Nat} {pe : Pe} (hp : s.pes[p]? = some pe) (r : Racer)
    (ha : (racerAgent s p r).isSome = true) :
    (∃ ws, ∀ m, ∃ t, runRacer p r (withMemAt s p pe m) = .next t ∧ memoryAt t p = writeBlocks m ws) ∨
      ∀ m t, runRacer p r (withMemAt s p pe m) ≠ .next t := by
  have one : ∀ f : PeId → Pe → Option Effect,
      (∃ ws, ∀ m, memAfter m (f (peId p) (pe.withMem m)) = writeBlocks m ws) →
      (∀ m, runRacer p r (withMemAt s p pe m) = .next (stepPe (withMemAt s p pe m) p f)) →
      (∃ ws, ∀ m, ∃ t, runRacer p r (withMemAt s p pe m) = .next t ∧ memoryAt t p = writeBlocks m ws) ∨
      ∀ m t, runRacer p r (withMemAt s p pe m) ≠ .next t := by
    rintro f ⟨ws, h⟩ hr
    exact .inl ⟨ws, fun m => ⟨_, hr m, by rw [memoryAt_stepPe hp, h]⟩⟩
  cases r with
  | engine =>
    exact .inl ⟨[], fun m => stepEngine_keeps (withMemAt_get hp m)⟩
  | transfer => exact one transferStep ⟨[], fun m => transferStep_mem _ _ _⟩ fun m => rfl
  | ctxSwitch => exact one ctxSwitchStep (ctxSwitchStep_mem _ _) fun m => rfl
  | request b =>
    obtain ⟨hk, hd⟩ := racer_request ha
    cases hdec : decode .noc b with
    | error x =>
      refine .inr fun m t => ?_
      simp only [runRacer, stepDeliverRequest,
        show (withMemAt s p pe m).requests[(withMemAt s p pe m).requests.idxOf b]? = some b from hk, hdec]
      exact fun h => by cases h
    | ok i =>
      have hi := decodePacket_head hdec
      have srv : ∀ f : PeId → Pe → Effect,
          (∃ ws, ∀ m, (f (packetHead b).dstPe (pe.withMem m)).pe.mem = writeBlocks m ws) →
          (∀ s', exec i s' = serveAt s' (packetHead b) f) →
          ∃ ws, ∀ m, ∃ t,
            runRacer p (.request b) (withMemAt s p pe m) = .next t ∧ memoryAt t p = writeBlocks m ws := by
        rintro f ⟨ws, hf⟩ he
        refine ⟨ws, fun m => ?_⟩
        have hq : ({ withMemAt s p pe m with requests := s.requests.eraseIdx (s.requests.idxOf b) } : State).pes[
            (packetHead b).dstPe.toNat]? = some (pe.withMem m) := by
          rw [hd]; exact withMemAt_get hp m
        have hrun : runRacer p (.request b) (withMemAt s p pe m) =
            exec i { withMemAt s p pe m with requests := s.requests.eraseIdx (s.requests.idxOf b) } := by
          simp only [runRacer, stepDeliverRequest,
            show (withMemAt s p pe m).requests[(withMemAt s p pe m).requests.idxOf b]? = some b from hk, hdec]
          rfl
        refine ⟨_, hrun.trans ((he _).trans (serveAt_some f hq)), ?_⟩
        rw [hd]
        rw [hd] at hq
        rw [memoryAt_commit hq]
        exact hf m
      have rd : ∃ ws, ∀ m, (serveRead (packetHead b) (pe.withMem m)).pe.mem = writeBlocks m ws := by
        refine ⟨[], fun m => ?_⟩
        unfold serveRead
        split <;> rfl
      have ca : ∀ x, ∃ ws, ∀ m, (serveCache (packetHead b) x (pe.withMem m)).pe.mem = writeBlocks m ws := by
        intro x
        unfold serveCache
        split
        · exact serveWrite_blocks _ _ _
        · exact rd
      left
      cases i with
      | message h x => cases hi; exact srv (fun _ pe => receiveMessage _ x pe) (receiveMessage_blocks _ _ _) fun _ => rfl
      | readReq h => cases hi; exact srv (fun _ pe => serveRead _ pe) rd fun _ => rfl
      | writeReq h x => cases hi; exact srv (fun _ pe => serveWrite _ x pe) (serveWrite_blocks _ _ _) fun _ => rfl
      | cacheMemReq h x => cases hi; exact srv (fun _ pe => serveCache _ x pe) (ca x) fun _ => rfl
      | cacheMemReqFunc h x => cases hi; exact srv (fun _ pe => serveCache _ x pe) (ca x) fun _ => rfl
      | reservedPkt5 h x => cases hi; exact srv (fun _ pe => serveReserved _ pe) ⟨[], fun m => rfl⟩ fun _ => rfl
      | reservedPkt6 h x => cases hi; exact srv (fun _ pe => serveReserved _ pe) ⟨[], fun m => rfl⟩ fun _ => rfl
      | reservedPkt7 h x => cases hi; exact srv (fun _ pe => serveReserved _ pe) ⟨[], fun m => rfl⟩ fun _ => rfl
      | _ => cases hi
  | response d b =>
    obtain ⟨hk, hd, hu⟩ := racer_response ha
    by_cases hl : b.length < 16
    · refine .inr fun m t => ?_
      simp only [runRacer, stepDeliverResponse,
        show (withMemAt s p pe m).responses[(withMemAt s p pe m).responses.idxOf { dest := d, bytes := b }]? =
          some { dest := d, bytes := b } from hk, hl, if_true]
      exact fun h => by cases h
    · obtain ⟨ws, hw⟩ := chunkResponse_blocks pe b
      refine .inl ⟨ws, fun m => ?_⟩
      have : ({ s with responses := s.responses.eraseIdx (s.responses.idxOf { dest := d, bytes := b }) } :
          State).pes[p]? = some pe := hp
      refine ⟨_, by
        simp only [runRacer, stepDeliverResponse,
          show (withMemAt s p pe m).responses[(withMemAt s p pe m).responses.idxOf { dest := d, bytes := b }]? =
            some { dest := d, bytes := b } from hk, hl, if_false]
        rfl, ?_⟩
      rw [hd]
      refine (memoryAt_stepPe this (fun me pe => some (takeDelivered me b pe)) m).trans ?_
      simp only [memAfter, takeDelivered, hu]
      exact hw m
  | coreStore a bs =>
    exact one (fun _ pe => coreStoreEffect a bs pe) ⟨_, fun m => memAfter_map_memWrite pe m _ _ _ fun _ => rfl⟩
      fun m => rfl
  | schedulerWrite v =>
    exact one (fun _ pe => schedulerEffect v pe)
      ⟨_, fun m => memAfter_map_memWrite pe m pe.cfg.rctmuxFlags.toNat (wordBytes v) (fun q => { pe := q }) fun _ => rfl⟩
      fun m => rfl
  | accelExtra off bs =>
    refine one (fun _ pe => accelExtraEffect off bs pe) ?_ fun m => rfl
    simp only [accelExtraEffect, withMem_session]
    split
    · rename_i c _
      by_cases h : (accelMayRun c && decide (off + bs.length ≤ pe.accelStateSize.toNat)) = true
      · refine ⟨if inLocalMemory pe (accelExtraAddr pe c off).toNat bs.length then
          [((accelExtraAddr pe c off).toNat, bs)] else [], fun m => ?_⟩
        rw [if_pos (show (accelMayRun c && decide (off + bs.length ≤ (pe.withMem m).accelStateSize.toNat)) = true from h)]
        exact memAfter_map_memWrite pe m (accelExtraAddr pe c off).toNat bs (fun q => { pe := q }) fun _ => rfl
      · refine ⟨[], fun m => ?_⟩
        rw [if_neg (show ¬ (accelMayRun c && decide (off + bs.length ≤ (pe.withMem m).accelStateSize.toNat)) = true
          from h)]
        rfl
    · exact ⟨[], fun m => rfl⟩

/-- Blocks written to a memory keep its canonical form. -/
theorem writeBlocks_wf (ws : List (Nat × List Byte)) : ∀ m, Memory.wf m → Memory.wf (writeBlocks m ws) := by
  induction ws with
  | nil => exact fun _ h => h
  | cons w ws ih => exact fun m h => ih _ (writeBytes_wf _ _ _ h)

/-- A byte after blocks were written is some block's, or is as it was. -/
theorem readByte_writeBlocks (ws : List (Nat × List Byte)) (x : Nat) :
    (∃ b, ∀ m, Memory.wf m → readByte (writeBlocks m ws) x = b) ∨
      ∀ m, Memory.wf m → readByte (writeBlocks m ws) x = readByte m x := by
  suffices h : ∀ ws : List (Nat × List Byte),
      (∃ b, ∀ m, Memory.wf m → readByte (writeBlocks m ws.reverse) x = b) ∨
      ∀ m, Memory.wf m → readByte (writeBlocks m ws.reverse) x = readByte m x by
    simpa using h ws.reverse
  intro ws
  induction ws with
  | nil => exact .inr fun _ _ => rfl
  | cons w ws ih =>
    have key : ∀ m, Memory.wf m → readByte (writeBlocks m (w :: ws).reverse) x =
        if w.1 ≤ x ∧ x < w.1 + w.2.length then w.2.getD (x - w.1) 0#8 else readByte (writeBlocks m ws.reverse) x := by
      intro m hm
      simp only [List.reverse_cons, writeBlocks, List.foldl_append, List.foldl_cons, List.foldl_nil]
      exact readByte_writeBytes _ _ _ (writeBlocks_wf _ _ hm) x
    by_cases hx : w.1 ≤ x ∧ x < w.1 + w.2.length
    · exact .inl ⟨_, fun m hm => by rw [key m hm, if_pos hx]⟩
    · rcases ih with ⟨b, h⟩ | h
      · exact .inl ⟨b, fun m hm => by rw [key m hm, if_neg hx, h m hm]⟩
      · exact .inr fun m hm => by rw [key m hm, if_neg hx, h m hm]

theorem withMemAt_mem {s : State} {p : Nat} {pe : Pe} (h : s.pes[p]? = some pe) (m : Memory) :
    memoryAt (withMemAt s p pe m) p = m := memoryAt_some (withMemAt_get h m)

theorem withMemAt_self {s : State} {p : Nat} {pe : Pe} (h : s.pes[p]? = some pe) : withMemAt s p pe pe.mem = s := by
  simp only [withMemAt, withMem_self, pes_set_self h]

theorem withMemAt_withBytes {s : State} {p : Nat} {pe : Pe} (h : s.pes[p]? = some pe) (m : Memory) (cells : List Host.Cell) :
    withBytes (withMemAt s p pe m) p cells = withMemAt s p pe (putBytes m cells) := by
  rw [withBytes_some (withMemAt_get h m)]
  simp only [withMemAt, List.set_set]
  rfl

theorem withBytes_withMemAt {s : State} {p : Nat} {pe : Pe} (h : s.pes[p]? = some pe) (cells : List Host.Cell) :
    withBytes s p cells = withMemAt s p pe (putBytes pe.mem cells) := by
  rw [← withMemAt_withBytes h, withMemAt_self h]

/-- All that the step of a racer makes of local memory: it stores its planned bytes, which do not depend on what local memory
holds, and leaves every other byte. -/
theorem runRacer_planned {s : State} {p : Nat} {pe : Pe} (hp : s.pes[p]? = some pe) (hwf : Memory.wf pe.mem) (r : Racer)
    (ha : (racerAgent s p r).isSome = true) (m : Memory) (hm : Memory.wf m) :
    (∀ x, plannedByte p r (withMemAt s p pe m) x = plannedByte p r s x) ∧
      ∀ t, runRacer p r (withMemAt s p pe m) = .next t →
        Memory.wf (memoryAt t p) ∧ ∀ x, readByte (memoryAt t p) x = (plannedByte p r s x).getD (readByte m x) := by
  rcases runRacer_blocks hp r ha with ⟨ws, h⟩ | h
  · have key : ∀ m, Memory.wf m → ∀ x,
        ((∃ b, ∀ m, Memory.wf m → readByte (writeBlocks m ws) x = b) →
          plannedByte p r (withMemAt s p pe m) x = some (readByte (writeBlocks m ws) x)) ∧
        ((∀ m, Memory.wf m → readByte (writeBlocks m ws) x = readByte m x) →
          plannedByte p r (withMemAt s p pe m) x = none) := by
      intro m hm x
      obtain ⟨t, h1, h2⟩ := h m
      obtain ⟨u, h3, h4⟩ := h (putBytes m [(x, readByte m x + 1#8)])
      have hu := putBytes_wf m [(x, readByte m x + 1#8)] hm
      simp only [plannedByte, storesTo, withMemAt_withBytes hp, withMemAt_mem hp, h1, h2, h3, h4]
      constructor
      · rintro ⟨b, hb⟩
        rw [hb _ hm, hb _ hu]
        simp
      · intro hb
        rw [hb _ hm, hb _ hu, readByte_putBytes _ _ hm]
        simp
    have self := key pe.mem hwf
    rw [withMemAt_self hp] at self
    constructor
    · intro x
      rcases readByte_writeBlocks ws x with hb | hb
      · rw [(key m hm x).1 hb, (self x).1 hb]
        obtain ⟨b, hb⟩ := hb
        rw [hb _ hm, hb _ hwf]
      · rw [(key m hm x).2 hb, (self x).2 hb]
    · intro t ht
      obtain ⟨t', h1, h2⟩ := h m
      rw [ht] at h1
      cases h1
      rw [h2]
      refine ⟨writeBlocks_wf ws m hm, fun x => ?_⟩
      rcases readByte_writeBlocks ws x with hb | hb
      · rw [(self x).1 hb]
        obtain ⟨b, hb⟩ := hb
        rw [hb _ hm, hb _ hwf]
        rfl
      · rw [(self x).2 hb, hb m hm]
        rfl
  · have key : ∀ m x, plannedByte p r (withMemAt s p pe m) x = none := by
      intro m x
      unfold plannedByte
      split
      · exact absurd (by assumption) (h m _)
      · rfl
    refine ⟨fun x => ?_, fun t ht => absurd ht (h m t)⟩
    have := key pe.mem x
    rw [withMemAt_self hp] at this
    rw [key, this]

/-- What a racer's step stores does not depend on the bytes of local memory. -/
theorem plannedByte_withBytes {s : State} {p : Nat} {pe : Pe} {r : Racer} (hp : s.pes[p]? = some pe) (hwf : Memory.wf pe.mem)
    (ha : (racerAgent s p r).isSome = true) (cells : List Host.Cell) (x : Nat) :
    plannedByte p r (withBytes s p cells) x = plannedByte p r s x := by
  rw [withBytes_withMemAt hp]
  exact (runRacer_planned hp hwf r ha _ (putBytes_wf _ _ hwf)).1 x

/-- Local memory after a racer's step, also with other bytes of it found before: its planned bytes, and every other as
found. -/
theorem runRacer_readByte {s t : State} {p : Nat} {pe : Pe} {r : Racer} {cells : List Host.Cell} (hp : s.pes[p]? = some pe)
    (hwf : Memory.wf pe.mem) (ha : (racerAgent s p r).isSome = true)
    (ht : runRacer p r (withBytes s p cells) = .next t) :
    Memory.wf (memoryAt t p) ∧
      ∀ x, readByte (memoryAt t p) x = (plannedByte p r s x).getD (readByte (putBytes pe.mem cells) x) := by
  rw [withBytes_withMemAt hp] at ht
  exact (runRacer_planned hp hwf r ha _ (putBytes_wf _ _ hwf)).2 t ht

/-- A racer whose step is taken stores at an address just where it has a byte planned. -/
theorem plannedByte_isSome {s t : State} {p : Nat} {r : Racer} (h : runRacer p r s = .next t) (x : Nat) :
    (plannedByte p r s x).isSome = storesTo p r s x := by
  simp only [plannedByte, h]
  cases storesTo p r s x <;> rfl

end Sys2Proof.Machine
end

