-- ==== Sys2Proof/Laws/Overlap.lean ====
section
/-! SUPPORT. What the steps of overlapping accesses do (20_memory.md R86, R99), each said once: what a part of an access and
what the step of one make of local memory, and that what an access has stored early stays what its step will store. -/

namespace Sys2Proof.Machine

/-! ### Local memory after a part of an access, and after its step -/

/-- A part of an access stores planned bytes, at its addresses, and changes nothing else. -/
theorem stepPart_memory {s : State} {p : Nat} {pe : Pe} (hp : s.pes[p]? = some pe) (hwf : Memory.wf pe.mem) (r : Racer)
    (bytes : List Nat) (l : List OpenAccess) :
    ∃ m, Memory.wf m ∧
      (∀ x, readByte m x =
        if x ∈ partAddrs l p r bytes s then (plannedByte p r s x).getD (readByte pe.mem x) else readByte pe.mem x) ∧
      stepPart p r bytes l s = { s with pes := s.pes.set p { pe with mem := m } } := by
  refine ⟨_, putBytes_wf pe.mem (partCells l p r bytes s) hwf, fun x => ?_, withBytes_some hp _⟩
  rw [readByte_putBytes _ _ hwf, lookup_partCells]
  split <;> rfl

/-- A part of an access that may not be in progress is passed over. -/
theorem stepPart_passed {s : State} {p : Nat} {pe : Pe} {r : Racer} (hp : s.pes[p]? = some pe)
    (h : mayOverlap pe r = false) (bytes : List Nat) (l : List OpenAccess) : stepPart p r bytes l s = s := by
  have : partAddrs l p r bytes s = [] := by
    unfold partAddrs
    split
    · rename_i hp' _
      rw [hp] at hp'
      cases hp'
      simp [h]
    · rfl
  simp [stepPart, partCells, this]

/-- The bytes that an overlapping access finds: at an address of its order, those of the moment given for it first. -/
theorem lookup_raceCells {l : List OpenAccess} {p : Nat} {r : Racer} {order : List (Nat × Nat)} {s : State} {agent : Agent}
    (ha : racerAgent s p r = some agent) (x : Nat) :
    (raceCells l p r order s).lookup x =
      ((raceOrder l p r order s).lookup x).bind fun k =>
        ((underWay l p agent r).moments[k]?).map fun m => readByte m x := by
  have hk : ∀ y ∈ raceOrder l p r order s, y.2 < (underWay l p agent r).moments.length := by
    intro y hy
    obtain ⟨_, agent', _, ha', _, _, _, h⟩ := mem_raceOrder hy
    rw [ha] at ha'
    cases ha'
    exact h
  simp only [raceCells, ha]
  generalize raceOrder l p r order s = as at hk ⊢
  induction as with
  | nil => rfl
  | cons y as ih =>
    obtain ⟨m, hy⟩ : ∃ m, (underWay l p agent r).moments[y.2]? = some m := ⟨_, List.getElem?_eq_getElem (hk y (by simp))⟩
    rw [List.filterMap_cons_some (b := (y.1, readByte m y.1)) (by simp [hy]),
      List.lookup_cons, List.lookup_cons]
    by_cases hx : x = y.1
    · simp [hx, hy]
    · have hb : (x == y.1) = false := by simpa using hx
      simp only [hb]
      exact ih fun z hz => hk z (by simp [hz])

/-- An address that an overlapping access follows no order at is found as it is at its step. -/
theorem lookup_raceCells_none {l : List OpenAccess} {p : Nat} {r : Racer} {order : List (Nat × Nat)} {s : State} {x : Nat}
    (h : x ∉ (raceOrder l p r order s).map Prod.fst) : (raceCells l p r order s).lookup x = none := by
  cases ha : racerAgent s p r with
  | none => simp [raceCells, ha]
  | some agent =>
    rw [lookup_raceCells ha]
    have : (raceOrder l p r order s).lookup x = none := by
      rw [List.lookup_eq_none_iff]
      intro y hy
      simpa using fun e : x = y.1 => h (e ▸ List.mem_map_of_mem hy)
    rw [this]
    rfl

/-- The step of an overlapping access stores its planned bytes but for those stored before, which stay as they are by then,
and leaves every other byte. -/
theorem stepRace_memory {s t : State} {p : Nat} {pe : Pe} {r : Racer} {agent : Agent} {order : List (Nat × Nat)}
    {l : List OpenAccess} (hp : s.pes[p]? = some pe) (hwf : Memory.wf pe.mem) (ha : racerAgent s p r = some agent)
    (h : stepRace p r order l s = .next t) :
    ∃ q, t.pes[p]? = some q ∧ Memory.wf q.mem ∧ ∀ x, readByte q.mem x =
      if x ∈ (underWay l p agent r).stored ∧ x < pe.cfg.memSize then readByte pe.mem x
      else (plannedByte p r s x).getD (readByte pe.mem x) := by
  have ha' : (racerAgent s p r).isSome = true := by rw [ha]; rfl
  unfold stepRace at h
  rw [if_pos ha'] at h
  split at h
  · rename_i u hu
    cases h
    obtain ⟨hwu, hst⟩ := runRacer_readByte hp hwf ha' hu
    obtain ⟨q, hq⟩ : ∃ q, u.pes[p]? = some q := by
      have hc := ran_cfg (p := p) (runEvent_cases (racerEvent_not_race _ p r) (runRacer_eq p r [] _ ▸ hu))
      rw [withBytes_cfg, hp] at hc
      cases hu : u.pes[p]? with
      | none => rw [hu] at hc; cases hc
      | some q => exact ⟨q, rfl⟩
    have hwq : Memory.wf q.mem := memoryAt_some hq ▸ hwu
    rw [memoryAt_some hq] at hst
    rw [withBytes_some hq]
    refine ⟨_, pes_set_get hq _, putBytes_wf _ _ hwq, fun x => ?_⟩
    rw [readByte_putBytes _ _ hwq, lookup_cellsAt, memoryAt_some hp]
    by_cases hk : x ∈ raceKept l p r order s
    · rw [if_pos hk]
      obtain ⟨hlt, agent', ha'', hk⟩ := mem_raceKept hp hk
      rw [ha] at ha''
      cases ha''
      by_cases hs : x ∈ (underWay l p agent r).stored ∧ x < pe.cfg.memSize
      · rw [if_pos hs]; rfl
      · rw [if_neg hs]
        rcases hk with hk | ⟨_, hk⟩
        · exact absurd ⟨hk, hlt⟩ hs
        · have : plannedByte p r s x = none := by
            unfold plannedByte
            split <;> simp [hk]
          rw [this]; rfl
    · rw [if_neg hk, Option.getD_none, hst]
      have hs : ¬ (x ∈ (underWay l p agent r).stored ∧ x < pe.cfg.memSize) := fun hs =>
        hk (by simp only [raceKept, hp, ha]; simp [hs])
      rw [if_neg hs]
      cases hpl : plannedByte p r s x with
      | some b => rfl
      | none =>
        have hno : storesTo p r s x = false := by
          cases hs : storesTo p r s x with
          | false => rfl
          | true =>
            obtain ⟨u', hu', -⟩ : ∃ u', runRacer p r s = .next u' ∧ True := by
              unfold storesTo at hs
              split at hs
              · exact ⟨_, by assumption, trivial⟩
              · cases hs
            rw [← plannedByte_isSome hu', hpl] at hs
            cases hs
        have hin : x ∉ (raceOrder l p r order s).map Prod.fst := fun hin =>
          hk (by
            simp only [raceKept, hp, ha, List.mem_append, List.mem_filter, Bool.not_eq_true']
            exact .inr ⟨hin, hno⟩)
        simp only [Option.getD_none]
        rw [readByte_putBytes _ _ hwf, lookup_raceCells_none hin]
        rfl
  · cases h
  · cases h

/-! ### What is stored early is performed -/

/-- An event that does not undo what an access in progress has stored leaves it what the access's step will store. -/
theorem undoes_step {s t : State} {o : OpenAccess} (hu : undoes s (nextEvent s) o = false) (h : step s = .next t) :
    racerAgent t o.pe o.access = some o.agent ∧
      ∀ a ∈ o.stored, plannedByte o.pe o.access t a = plannedByte o.pe o.access s a := by
  have h0 := runEvent_schedule (nextEvent s) s.accesses (takeEvent s) s.agenda s.turn s.accesses s.outputs
  rw [withSchedule_takeEvent, show runEvent (nextEvent s) s.accesses (takeEvent s) = .next t from h] at h0
  unfold undoes at hu
  rw [h0] at hu
  simpa [mapNext, racerAgent_schedule, plannedByte_schedule] using hu

/-- A part of an access leaves what the step of any access will store. -/
theorem part_planned {s t : State} {p : Nat} {r : Racer} {bytes : List Nat} (hev : nextEvent s = .accessPart p r bytes)
    (h : step s = .next t) (hwf : ∀ pe ∈ s.pes, Memory.wf pe.mem) (r' : Racer) (ha : (racerAgent s p r').isSome = true)
    (x : Nat) : racerAgent t p r' = racerAgent s p r' ∧ plannedByte p r' t x = plannedByte p r' s x := by
  unfold step at h
  rw [hev] at h
  cases h
  unfold stepPart
  rw [racerAgent_withBytes, racerAgent_takeEvent]
  refine ⟨rfl, ?_⟩
  cases hp : s.pes[p]? with
  | none =>
    have : withBytes (takeEvent s) p (partCells s.accesses p r bytes (takeEvent s)) = takeEvent s := by
      simp [withBytes, takeEvent_pes, hp]
    rw [this, plannedByte_takeEvent]
  | some pe =>
    rw [plannedByte_withBytes (pe := pe) (by rw [takeEvent_pes]; exact hp) (hwf pe (List.mem_of_getElem? hp))
      (by rwa [racerAgent_takeEvent]), plannedByte_takeEvent]

/-- The next event does not press an access in progress unless it is the step of one that has to be performed first. -/
theorem not_presses {s : State} {o : OpenAccess} (ho : o ∈ s.accesses) :
    presses s (nextEvent s) o = false ∨ ∃ o', pressed s = some o' ∧ nextEvent s = .race o'.pe o'.access [] := by
  cases h : pressed s with
  | some o' => exact .inr ⟨o', rfl, by simp [nextEvent, h]⟩
  | none =>
    left
    rw [nextEvent_of_pressed h]
    simpa using List.find?_eq_none.1 h o ho

end Sys2Proof.Machine
end

