-- ==== Sys2Proof/Laws/Pages.lean ====
section
/-! SUPPORT. The pages of an access (44_translation_unit.md R354): its pieces cover the bytes in order, and a translation
goes through the pages of the bytes. -/

namespace Sys2Proof.Machine

/-- The page and the offset in it of every byte of some pieces, in order. -/
def pieceBytes (ps : List PagePiece) : List (Nat × Nat) :=
  ps.flatMap fun p => (List.range p.len).map fun i => (p.vpn, p.offset + i)

@[simp] theorem pieceBytes_nil : pieceBytes [] = [] := rfl

theorem pieceBytes_cons (p : PagePiece) (ps : List PagePiece) :
    pieceBytes (p :: ps) = (List.range p.len).map (fun i => (p.vpn, p.offset + i)) ++ pieceBytes ps := by
  simp [pieceBytes]

/-- A mapped range, cut in two. -/
theorem map_range_split {α : Type} (n l : Nat) (h : l ≤ n) (f : Nat → α) :
    (List.range n).map f = (List.range l).map f ++ (List.range (n - l)).map (fun i => f (l + i)) := by
  obtain ⟨m, rfl⟩ := Nat.exists_eq_add_of_le h
  simp [List.range_add, Function.comp_def]

/-- The page and the offset in it of every byte of an access, in order, addresses modulo 2^64. -/
abbrev accessBytes (ps va n : Nat) : List (Nat × Nat) :=
  (List.range n).map (fun k => (((va + k) % 2^64) / ps, ((va + k) % 2^64) % ps))

/-- The pages and offsets of an access: first those of a piece that stays in one page and below 2^64, then the rest. -/
theorem accessBytes_one_piece (ps va n len : Nat) (hps : 1 ≤ ps) (hva : va < 2 ^ 64) (hl : len ≤ ps - va % ps)
    (hl2 : len ≤ 2 ^ 64 - va) (hn : len ≤ n) :
    accessBytes ps va n =
      (List.range len).map (fun i => (va / ps, va % ps + i)) ++ accessBytes ps ((va + len) % 2 ^ 64) (n - len) := by
  unfold accessBytes
  rw [map_range_split n len hn]
  congr 1
  · apply List.map_congr_left
    intro i hi
    simp only [List.mem_range] at hi
    have h1 : (va + i) % 2^64 = va + i := Nat.mod_eq_of_lt (by omega)
    rw [h1]
    have hm := Nat.mod_lt va (show 0 < ps by omega)
    have h2 : va + i = (va % ps + i) + ps * (va / ps) := by
      have := Nat.mod_add_div va ps; omega
    have h3 : va % ps + i < ps := by omega
    rw [h2, Nat.add_mul_div_left _ _ (by omega), Nat.add_mul_mod_self_left, Nat.div_eq_of_lt h3, Nat.mod_eq_of_lt h3]
    simp
  · apply List.map_congr_left
    intro i hi
    have : (va + (len + i)) % 2^64 = ((va + len) % 2^64 + i) % 2^64 := by omega
    rw [this]

/-- From the start of a page on, the pieces cover the access byte for byte. -/
theorem pieceBytes_aligned (ps : Nat) (hps : ∃ j, ps = 2 ^ j) :
    ∀ (fuel va n : Nat), va < 2 ^ 64 → va % ps = 0 → n ≤ fuel * min ps (2 ^ 64) →
      pieceBytes (pagePiecesFuel ps fuel va n) = accessBytes ps va n := by
  obtain ⟨j, rfl⟩ := hps
  intro fuel
  induction fuel with
  | zero => intro va n _ _ hn; have : n = 0 := by omega
            subst this; simp [pagePiecesFuel, pieceBytes]
  | succ fuel ih =>
    intro va n hva hal hn
    unfold pagePiecesFuel
    split
    · rename_i h; subst h; simp [pieceBytes]
    · rename_i h0
      have hp : 0 < 2^j := Nat.two_pow_pos j
      simp only [hal, Nat.sub_zero]
      have key : min (2^j) (2^64 - va) = min (2^j) (2^64) ∧ ((va + min (2^j) (2^64)) % 2^64) % 2^j = 0 := by
        by_cases hj : j ≤ 64
        · have hd : 2^j ∣ 2^64 := Nat.pow_dvd_pow 2 hj
          have hle : 2^j ≤ 2^64 := Nat.pow_le_pow_right (by omega) hj
          have hd2 : 2^j ∣ va := Nat.dvd_of_mod_eq_zero hal
          have h3 : 2^j ≤ 2^64 - va := Nat.le_of_dvd (by omega) (Nat.dvd_sub hd hd2)
          refine ⟨by omega, ?_⟩
          rw [Nat.mod_mod_of_dvd _ hd, Nat.min_eq_left hle]
          simp [hal]
        · have hle : 2^64 < 2^j := Nat.pow_lt_pow_right (by omega) (by omega)
          have : va = 0 := by rw [Nat.mod_eq_of_lt (by omega)] at hal; exact hal
          subst this
          constructor
          · omega
          · rw [Nat.min_eq_right (by omega)]; simp
      generalize hL : min n (min (2^j) (2^64 - va)) = len
      have hlen : len = min n (min (2^j) (2^64)) := by omega
      rw [pieceBytes_cons, accessBytes_one_piece (2^j) va n len hp hva (by omega) (by omega) (by omega), hal]
      congr 1
      by_cases hb : n ≤ min (2^j) (2^64)
      · have : n - len = 0 := by omega
        rw [this]
        cases fuel <;> simp [pagePiecesFuel, pieceBytes]
      · have : len = min (2^j) (2^64) := by omega
        refine ih _ _ (Nat.mod_lt _ (by omega)) ?_ ?_
        · rw [this]; exact key.2
        · rw [this]; rw [Nat.add_mul] at hn; omega

/-- The pieces of an access cover its bytes, in order (R354). -/
theorem pieceBytes_pagePieces (ps : Nat) (hps : ∃ j, ps = 2^j) (va : Word) (n : Nat) :
    pieceBytes (pagePieces ps va n) = accessBytes ps va.toNat n := by
  have hps' := hps
  obtain ⟨j, hj⟩ := hps
  have hp : 0 < ps := hj ▸ Nat.two_pow_pos j
  unfold pagePieces
  rw [show n / ps + n / 2^64 + 3 = (n / ps + n / 2^64 + 2) + 1 by omega]
  unfold pagePiecesFuel
  split
  · rename_i h; subst h; simp [pieceBytes]
  · have hv := va.isLt
    have hm := Nat.mod_lt va.toNat hp
    generalize hL : min n (min (ps - va.toNat % ps) (2^64 - va.toNat)) = len
    rw [pieceBytes_cons, accessBytes_one_piece ps va.toNat n len hp hv (by omega) (by omega) (by omega)]
    congr 1
    by_cases hb : len = n
    · have : n - len = 0 := by omega
      rw [this]
      simp [pagePiecesFuel, pieceBytes]
    · refine pieceBytes_aligned ps hps' _ _ _ (Nat.mod_lt _ (by omega)) ?_ ?_
      · by_cases hc : len = 2^64 - va.toNat
        · have : (va.toNat + len) % 2^64 = 0 := by omega
          rw [this]; simp
        · have h1 : len = ps - va.toNat % ps := by omega
          have h2 : (va.toNat + len) % 2^64 = va.toNat + len := Nat.mod_eq_of_lt (by omega)
          rw [h2]
          have h3 : va.toNat + len = ps * (va.toNat / ps + 1) := by
            have := Nat.mod_add_div va.toNat ps; rw [Nat.mul_add]; omega
          rw [h3]; simp
      · have d1 : n < (n / ps + 1) * ps := by
          have := Nat.mod_add_div n ps; have := Nat.mod_lt n hp; rw [Nat.add_mul, Nat.mul_comm (n/ps)]; omega
        have d2 : n < (n / 2^64 + 1) * 2^64 := by omega
        rcases Nat.le_total ps (2^64) with h | h
        · rw [Nat.min_eq_left h]
          have : (n / ps + 1) * ps ≤ (n / ps + n / 2^64 + 2) * ps := Nat.mul_le_mul_right _ (by omega)
          omega
        · rw [Nat.min_eq_right h]
          have h5 : (n / 2^64 + 1) * 2^64 ≤ (n / ps + n / 2^64 + 2) * 2^64 := by
            apply Nat.mul_le_mul_right
            generalize n / 2^64 = a; generalize n / ps = b; omega
          exact Nat.le_trans (Nat.sub_le _ _) (Nat.le_trans (Nat.le_of_lt d2) h5)

/-- No piece is empty. -/
theorem pagePiecesFuel_pos (ps : Nat) (hp : 0 < ps) :
    ∀ (fuel va n : Nat), va < 2 ^ 64 → ∀ p ∈ pagePiecesFuel ps fuel va n, 0 < p.len := by
  intro fuel
  induction fuel with
  | zero => intro va n _ p h; simp [pagePiecesFuel] at h
  | succ fuel ih =>
    intro va n hva p h
    unfold pagePiecesFuel at h
    split at h
    · cases h
    · have := Nat.mod_lt va hp
      rcases List.mem_cons.1 h with rfl | h
      · simp only []; omega
      · exact ih _ _ (Nat.mod_lt _ (by omega)) p h

/-- The piece a byte is in: the pieces before it hold no more bytes than come before the byte. -/
theorem piece_of_byte : ∀ (ps : List PagePiece) (k v o : Nat), (pieceBytes ps)[k]? = some (v, o) →
    ∃ pre p post, ps = pre ++ p :: post ∧ (pieceBytes pre).length ≤ k ∧ p.vpn = v := by
  intro ps
  induction ps with
  | nil => intro k v o h; simp [pieceBytes] at h
  | cons q ps ih =>
    intro k v o h
    rw [pieceBytes_cons, List.getElem?_append] at h
    split at h
    · simp only [List.getElem?_map, Option.map_eq_some_iff, Prod.mk.injEq] at h
      obtain ⟨a, _, h1, _⟩ := h
      exact ⟨[], q, ps, rfl, by simp [pieceBytes], h1⟩
    · rename_i hk
      obtain ⟨pre, p, post, rfl, h1, h2⟩ := ih _ _ _ h
      refine ⟨q :: pre, p, post, rfl, ?_, h2⟩
      rw [pieceBytes_cons]
      simp only [List.length_map, List.length_range, List.length_append, not_lt] at hk h1 ⊢
      omega

/-- Every piece that is not empty holds a byte. -/
theorem byte_of_piece (ps : List PagePiece) (hpos : ∀ p ∈ ps, 0 < p.len) (q : PagePiece) (hq : q ∈ ps) :
    ∃ (k o : Nat), (pieceBytes ps)[k]? = some (q.vpn, o) := by
  induction ps with
  | nil => cases hq
  | cons p ps ih =>
    rw [pieceBytes_cons]
    rcases List.mem_cons.1 hq with rfl | hq
    · refine ⟨0, q.offset, ?_⟩
      rw [List.getElem?_append_left (by simpa using hpos q (by simp))]
      simp [hpos q (by simp)]
    · obtain ⟨k, o, h⟩ := ih (fun p hp => hpos p (by simp [hp])) hq
      exact ⟨p.len + k, o, by rw [List.getElem?_append_right (by simp)]; simpa using h⟩

/-- The owner may access the page at once: no fault waits, and a translation is at hand that permits the access. -/
def PageReady (pe : Pe) (owner : Owner) (flags : Access) (v : Nat) : Prop :=
  resFaulted pe owner v = false ∧ ∃ e, (resOk pe owner v).or (pe.tlb.lookup v) = some e ∧ permits e flags = true

/-- The loop of `translate` goes through ready pages and adds one range for each, from the entry found. -/
theorem translatePages_ready (pe : Pe) (owner : Owner) (flags : Access) :
    ∀ (pre post : List PagePiece) (acc : List PhysRange), (∀ p ∈ pre, PageReady pe owner flags p.vpn) →
      ∃ rs : List PhysRange,
        translatePages owner flags pe (pre ++ post) acc = translatePages owner flags pe post (acc ++ rs) ∧
        List.Forall₂
          (fun p r => ∃ e, (resOk pe owner p.vpn).or (pe.tlb.lookup p.vpn) = some e ∧
            r = pieceRange pe.cfg.pageSize e p) pre rs := by
  intro pre
  induction pre with
  | nil => intro post acc _; exact ⟨[], by simp, .nil⟩
  | cons p pre ih =>
    intro post acc h
    obtain ⟨h1, e, h2, h3⟩ := h p (by simp)
    obtain ⟨rs, h4, h5⟩ := ih post (acc ++ [pieceRange pe.cfg.pageSize e p]) (fun q hq => h q (by simp [hq]))
    refine ⟨pieceRange pe.cfg.pageSize e p :: rs, ?_, .cons ⟨e, h2, rfl⟩ h5⟩
    rw [List.cons_append, translatePages]
    simp [h1, tlbLookup, h2, h3, h4]

end Sys2Proof.Machine
end

