-- ==== Sys2Proof/Laws/PerInstr.lean ====
section
/-! SUPPORT. One family of facts about every instruction as syntax, a lemma for each constructor: how many bytes its
encoding has (30_encoding.md R120, R130, R131). -/

namespace Sys2Proof.Laws.EncodeLength

/-- How many bytes an instruction takes: a command word 8 (R120); a request a header of 32 and the bytes its type carries
(R130, R131); of a reserved type, as many as follow. -/
def bytesOf : Instr → Nat
  | .idle _ => 8
  | .send _ => 8
  | .reply _ => 8
  | .read _ => 8
  | .write _ => 8
  | .incReadPtr _ => 8
  | .wakeupCore _ => 8
  | .reserved7 _ => 8
  | .message h _ => 32 + h.size.toNat
  | .readReq _ => 32
  | .writeReq h _ => 32 + h.size.toNat
  | .cacheMemReq h _ => 32 + h.cacheBytes
  | .cacheMemReqFunc h _ => 32 + h.cacheBytes
  | .reservedPkt5 _ body => 32 + body.length
  | .reservedPkt6 _ body => 32 + body.length
  | .reservedPkt7 _ body => 32 + body.length

/-- A well-formed instruction is encoded in as many bytes as the spec gives it. -/
def Statement (i : Instr) : Prop := i.wellFormed = true → (encode i).length = bytesOf i

theorem idle (ep : EpId) : Statement (.idle ep) := fun _ => commandBytes_length _ _

theorem send (ep : EpId) : Statement (.send ep) := fun _ => commandBytes_length _ _

theorem reply (ep : EpId) : Statement (.reply ep) := fun _ => commandBytes_length _ _

theorem read (ep : EpId) : Statement (.read ep) := fun _ => commandBytes_length _ _

theorem write (ep : EpId) : Statement (.write ep) := fun _ => commandBytes_length _ _

theorem incReadPtr (ep : EpId) : Statement (.incReadPtr ep) := fun _ => commandBytes_length _ _

theorem wakeupCore (ep : EpId) : Statement (.wakeupCore ep) := fun _ => commandBytes_length _ _

theorem reserved7 (ep : EpId) : Statement (.reserved7 ep) := fun _ => commandBytes_length _ _

theorem message (h : PacketHead) (payload : List Byte) : Statement (.message h payload) := by
  intro hw
  have hl : payload.length = h.size.toNat := by simpa [Instr.wellFormed] using hw
  simp [encode, bytesOf, hl]

theorem readReq (h : PacketHead) : Statement (.readReq h) := fun _ => packetHeadBytes_length _ _

theorem writeReq (h : PacketHead) (payload : List Byte) : Statement (.writeReq h payload) := by
  intro hw
  have hl : payload.length = h.size.toNat := by simpa [Instr.wellFormed] using hw
  simp [encode, bytesOf, hl]

theorem cacheMemReq (h : PacketHead) (payload : List Byte) : Statement (.cacheMemReq h payload) := by
  intro hw
  have hl : payload.length = h.cacheBytes := by simpa [Instr.wellFormed] using hw
  simp [encode, bytesOf, hl]

theorem cacheMemReqFunc (h : PacketHead) (payload : List Byte) : Statement (.cacheMemReqFunc h payload) := by
  intro hw
  have hl : payload.length = h.cacheBytes := by simpa [Instr.wellFormed] using hw
  simp [encode, bytesOf, hl]

theorem reservedPkt5 (h : PacketHead) (body : List Byte) : Statement (.reservedPkt5 h body) := by
  intro _
  simp [encode, bytesOf]

theorem reservedPkt6 (h : PacketHead) (body : List Byte) : Statement (.reservedPkt6 h body) := by
  intro _
  simp [encode, bytesOf]

theorem reservedPkt7 (h : PacketHead) (body : List Byte) : Statement (.reservedPkt7 h body) := by
  intro _
  simp [encode, bytesOf]

end Sys2Proof.Laws.EncodeLength
end

