-- ==== Sys2Proof/Machine/Client.lean ====
section
/-! DEFINITION. The notation of client programs (30_encoding.md R150, R151): statements as register accesses of a client,
and the expansion of the pseudo-instructions. A pseudo-instruction is not atomic: each statement is a client step of its
own. -/

namespace Sys2Proof.Machine

/-! ### Register indices (10_state.md R30) -/

/-- `STATUS`. -/
def regStatus : Nat := 0
/-- `COMMAND`. -/
def regCommand : Nat := 1
/-- `CMD_DATA_ADDR`. -/
def regDataAddr : Nat := 2
/-- `CMD_DATA_SIZE`. -/
def regDataSize : Nat := 3
/-- `CMD_OFFSET`. -/
def regOffset : Nat := 4
/-- `CMD_REPLY_EP`. -/
def regReplyEp : Nat := 5
/-- `CMD_REPLY_LABEL`. -/
def regReplyLabel : Nat := 6
/-- `EP_CFG0(n)`. -/
def regEpCfg0 (n : Nat) : Nat := 8 + 4 * n
/-- `EP_CFG1(n)`. -/
def regEpCfg1 (n : Nat) : Nat := 9 + 4 * n
/-- `EP_CFG2(n)`. -/
def regEpCfg2 (n : Nat) : Nat := 10 + 4 * n
/-- `EP_CREDIT(n)`. -/
def regEpCredit (n : Nat) : Nat := 11 + 4 * n

/-- A statement of a client program (R150). The launch-state line `mem` is no step: see `Launch`. -/
inductive Statement where
  /-- `wr REG, v`. -/
  | wr (index : Nat) (v : Word)
  /-- `wrp REG, v`, of the configuration writer. -/
  | wrp (index : Nat) (v : Word)
  /-- `rd REG -> name`. -/
  | rd (index : Nat)
  /-- `poll REG, mask, v`: `rd` until `(value & mask) = v`. -/
  | poll (index : Nat) (mask v : Word)
  deriving DecidableEq, Repr

/-- The client step of a statement; of `poll`, one of its reads (R150). -/
def Statement.event (p : Nat) (pe : Pe) : Statement → Event
  | .wr i v => .clientWrite p (regAddr pe i) 8 v false
  | .wrp i v => .clientWrite p (regAddr pe i) 8 v true
  | .rd i => .clientRead p (regAddr pe i) 8
  | .poll i _ _ => .clientRead p (regAddr pe i) 8

/-- Whether a statement is done once its access brought this value (R150). -/
def Statement.done (value : Word) : Statement → Bool
  | .wr _ _ => true
  | .wrp _ _ => true
  | .rd _ => true
  | .poll _ mask v => value &&& mask == v

/-- The pseudo-instructions (R151). -/
inductive Pseudo where
  | send (ep : EpId) (data size rep rlbl : Word)
  | reply (ep : EpId) (msg data size : Word)
  | read (ep : EpId) (loc off size : Word)
  | write (ep : EpId) (loc off size : Word)
  | incReadPtr (ep : EpId)
  | wakeupCore
  | clear
  | waitCmd
  /-- `X.sync`: `X`, then `WAIT_CMD`. -/
  | sync (x : Pseudo)
  deriving DecidableEq, Repr

/-- `(ep << 3) | opcode`, the word a client composes (R120). -/
def composeCommand (ep : EpId) (opcode : BitVec 3) : Word :=
  (ep.setWidth 64 <<< 3) ||| opcode.setWidth 64

/-- The expansion of a pseudo-instruction (R151). -/
def Pseudo.expand : Pseudo → List Statement
  | .send ep data size rep rlbl =>
    [.wr regDataAddr data, .wr regDataSize size, .wr regReplyEp rep, .wr regReplyLabel rlbl,
      .wr regCommand (composeCommand ep 1#3)]
  | .reply ep msg data size =>
    [.wr regDataAddr data, .wr regDataSize size, .wr regOffset msg, .wr regCommand (composeCommand ep 2#3)]
  | .read ep loc off size =>
    [.wr regDataAddr loc, .wr regDataSize size, .wr regOffset off, .wr regCommand (composeCommand ep 3#3)]
  | .write ep loc off size =>
    [.wr regDataAddr loc, .wr regDataSize size, .wr regOffset off, .wr regCommand (composeCommand ep 4#3)]
  | .incReadPtr ep => [.wr regCommand (composeCommand ep 5#3)]
  | .wakeupCore => [.wr regCommand 6#64]
  | .clear => [.wr regCommand 0#64]
  | .waitCmd => [.poll regCommand 7#64 0#64]
  | .sync x => x.expand ++ [.poll regCommand 7#64 0#64]

end Sys2Proof.Machine
end

