-- ==== Sys2Proof/Tests/Slice0.lean ====
section
/-! SUPPORT. Tests: ill-formed instructions refused, the decoding of words written out from the spec's encodings, small
steps with the results that 95_test_vectors.md gives, and for each statement with hypotheses a state that meets them. -/

namespace Sys2Proof.Tests

open Sys2Proof.Machine

/-! ### The systems of 95_test_vectors.md -/

/-- The value of a function on the next state, if there is one. -/
def after {α : Type} (o : Host.Outcome State Fault Refusal) (f : State → Option α) : Option α :=
  match o with
  | .next t => f t
  | .fault _ => none
  | .refused _ => none

def ep0 : Endpoint := Endpoint.reset
def send3 : Endpoint := { cfg0 := 0x4000020101#64, cfg1 := 0xAA#64, cfg2 := 0, credit := 0x10001#64 }
def recv1 : Endpoint := { cfg0 := 0x400400002#64, cfg1 := 0x2000#64, cfg2 := 0, credit := 0 }
def recv2 : Endpoint := { cfg0 := 0x200400002#64, cfg1 := 0x1000#64, cfg2 := 0, credit := 0 }
def mem4 : Endpoint := { cfg0 := 0x1B#64, cfg1 := 0x4000#64, cfg2 := 0x1000#64, credit := 0 }
def mem5 : Endpoint := { cfg0 := 0x2000B#64, cfg1 := 0x4000#64, cfg2 := 0x1000#64, credit := 0 }

/-- A PE of REF with the vectors' endpoints and the given memory. -/
def peWith (eps : List Endpoint) (mem : Memory) : Pe :=
  { Pe.reset Launch.ref with eps := eps, mem := mem, cmdReplyEp := 2, cmdReplyLabel := 0xBB, cmdDataAddr := 0x100 }

def pe1 : Pe :=
  peWith [ep0, ep0, recv2, send3, mem4, mem5, ep0, ep0] (writeBytes [] 0x100 [0x11, 0x22, 0x33, 0x44, 0x55, 0x66, 0x77, 0x88])

/-- Header H-1, as bytes. -/
def h1 : List Byte :=
  [0x04, 0x03, 0x02, 0x00, 0x08, 0x00, 0x01, 0x00, 0xAA, 0, 0, 0, 0, 0, 0, 0, 0xBB, 0, 0, 0, 0, 0, 0, 0]

/-- Header H-2, as bytes. -/
def h2 : List Byte :=
  [0x03, 0x01, 0x03, 0x00, 0x04, 0x00, 0x02, 0x00, 0xBB, 0, 0, 0, 0, 0, 0, 0, 0xBB, 0, 0, 0, 0, 0, 0, 0]

/-- PE 2 with RECV1 and H-1 in its slot 0. -/
def pe2 : Pe := peWith [ep0, recv1, ep0, ep0, ep0, ep0, ep0, mem4] (writeBytes [] 0x2000 h1)

/-- A PE whose command waits for its execute step. -/
def running (op : BitVec 3) (ep : EpId) (data size off : Word) (pe : Pe) : Pe :=
  { pe with
    cur := { opcode := op, epId := ep, dataAddr := data, dataSize := size, offset := off, replyEp := 2,
             replyLabel := 0xBB }
    command := commandWord op ep 0, status := 1, cmdInProgress := true, phase := .execPending }

/-- The system of PE 0, the given PE 1 and PE 2, with the next events. -/
def sys (a b : Pe) (agenda : List Event) : State :=
  { State.reset with pes := [Pe.reset Launch.ref, a, b], agenda := agenda }

/-- The PE at a place after a step. -/
def peOf {α : Type} (p : Nat) (f : Pe → α) (t : State) : Option α := (t.pes[p]?).map f

def head (dstPe : PeId) (addr size : Word) : PacketHead :=
  { write := false, dstEp := 1, dstPe := dstPe, srcPe := 1, addr := addr, size := size, tag := 0 }

/-! ### Ill-formed instructions -/

theorem test_wf_message_length : (Instr.message (head 2 0 5) [1, 2, 3, 4]).wellFormed = false := by decide
theorem test_wf_write_length : (Instr.writeReq (head 2 0 1) []).wellFormed = false := by decide
theorem test_wf_cache_read_body : (Instr.cacheMemReq (head 2 0 1) [7]).wellFormed = false := by decide
theorem test_wf_cache_write_length :
    (Instr.cacheMemReq { head 2 0 1 with write := true } []).wellFormed = false := by decide
theorem test_wf_func_read_body : (Instr.cacheMemReqFunc (head 2 0 1) [7]).wellFormed = false := by decide
theorem test_wf_func_write_length :
    (Instr.cacheMemReqFunc { head 2 0 1 with write := true } [7, 7]).wellFormed = false := by decide

/-! ### Decoding -/

/-- D-9; D-1; D-2; D-3; D-4; D-6; D-7; D-8, as words. -/
theorem test_decode_idle : decodeCommand 0#64 = .idle 0 := by decide
theorem test_decode_send : decodeCommand 0x19#64 = .send 3 := by decide
theorem test_decode_reply : decodeCommand 0x0A#64 = .reply 1 := by decide
theorem test_decode_read : decodeCommand 0x23#64 = .read 4 := by decide
theorem test_decode_write : decodeCommand 0x24#64 = .write 4 := by decide
theorem test_decode_incReadPtr : decodeCommand 0x7FD#64 = .incReadPtr 0xFF := by decide
theorem test_decode_wakeupCore : decodeCommand 0xFFFFFFFFFFFFF806#64 = .wakeupCore 0 := by decide
theorem test_decode_reserved7 : decodeCommand 0x0F#64 = .reserved7 1 := by decide

/-- The 24 bytes after the first word of a request: `ADDR` 0x80, `SIZE` and `TAG`, each below 256 or as K-5, K-6 have
it. -/
def tail (size tag7 tag0 : Byte) : List Byte :=
  [0x80, 0, 0, 0, 0, 0, 0, 0, size, 0, 0, 0, 0, 0, 0, 0, tag0, 0, 0, 0, 0, 0, 0, tag7]

/-- K-1's first word, `0x0000_0001_0002_0100`, with a payload of two bytes. -/
theorem test_decode_message :
    decode .noc ([0x00, 0x01, 0x02, 0x00, 0x01, 0, 0, 0] ++ tail 2 0 0 ++ [9, 8]) =
      .ok (.message { head 2 0x80 2 with dstEp := 1 } [9, 8]) := by decide

/-- K-3's first word, `0x0000_0001_0000_0001`. -/
theorem test_decode_readReq :
    decode .noc ([0x01, 0x00, 0x00, 0x00, 0x01, 0, 0, 0] ++ tail 0x40 0 0) =
      .ok (.readReq { head 0 0x80 0x40 with dstEp := 0 }) := by decide

/-- K-4's first word, `0x0000_0001_0000_0002`, and its tag 1. -/
theorem test_decode_writeReq :
    decode .noc ([0x02, 0x00, 0x00, 0x00, 0x01, 0, 0, 0] ++ tail 1 0 1 ++ [5]) =
      .ok (.writeReq { head 0 0x80 1 with dstEp := 0, tag := 1 } [5]) := by decide

/-- K-5. -/
theorem test_decode_cacheMemReq :
    decode .noc ([0x03, 0x00, 0x00, 0x00, 0x01, 0, 0, 0] ++ tail 0x40 0x40 5) =
      .ok (.cacheMemReq { head 0 0x80 0x40 with dstEp := 0, tag := 0x4000000000000005#64 } []) := by decide

/-- K-6. -/
theorem test_decode_cacheMemReqFunc :
    decode .noc ([0x0C, 0x00, 0x00, 0x00, 0x01, 0, 0, 0] ++ tail 8 0x40 6 ++ [1, 2, 3, 4, 5, 6, 7, 8]) =
      .ok (.cacheMemReqFunc
        { head 0 0x80 8 with write := true, dstEp := 0, tag := 0x4000000000000006#64 } [1, 2, 3, 4, 5, 6, 7, 8]) := by
  decide

/-- R130: reserved bits of the first word (here all of them 1) are ignored. -/
theorem test_decode_reservedPkt5 :
    decode .noc ([0xF5, 0x00, 0x00, 0x00, 0x01, 0, 0xFF, 0xFF] ++ tail 0 0 0) =
      .ok (.reservedPkt5 { head 0 0x80 0 with dstEp := 0 } []) := by decide

theorem test_decode_reservedPkt6 :
    decode .noc ([0x06, 0x00, 0x00, 0x00, 0x01, 0, 0, 0] ++ tail 0 0 0) =
      .ok (.reservedPkt6 { head 0 0x80 0 with dstEp := 0 } []) := by decide

theorem test_decode_reservedPkt7 :
    decode .noc ([0x0F, 0x00, 0x00, 0x00, 0x01, 0, 0, 0] ++ tail 0 0 0) =
      .ok (.reservedPkt7 { head 0 0x80 0 with write := true, dstEp := 0 } []) := by decide

theorem test_decode_command_length : decode .cmd [0x19] = .error .commandLength := by decide
theorem test_decode_short_header : decode .noc h1 = .error .shortHeader := by decide

theorem test_decode_payload_length :
    decode .noc ([0x02, 0x00, 0x00, 0x00, 0x01, 0, 0, 0] ++ tail 2 0 1 ++ [5]) = .error .payloadLength := by decide

/-- H-1, H-2 and H-3. -/
theorem test_header_bytes :
    encHdr { reply := false, grantCredits := false, replyEnabled := true, senderEpId := 3, replyEpId := 2, length := 8,
             senderCoreId := 1, label := 0xAA, replyLabel := 0xBB } = h1 ∧
      (decHdr h2).reply = true ∧ (decHdr h2).grantCredits = true ∧ (decHdr h2).replyEpId = 3 ∧
      (decHdr h2).senderCoreId = 2 := by decide

theorem test_header_reserved :
    let h := decHdr ([0xFC, 3, 2, 0xFF] ++ h1.drop 4)
    h.reply = false ∧ h.grantCredits = false ∧ h.replyEnabled = true ∧ h.senderEpId = 3 := by decide

/-! ### Commands -/

/-- C-5. -/
theorem test_idle_stores :
    after (exec (.idle 5) (sys pe1 pe2 [])) (peOf 1 fun pe => (pe.command, pe.phase)) = some (0x28#64, .idle) := by
  decide

/-- S1, the execute step. -/
theorem test_send_starts :
    after (exec (.send 3) (sys (running 1 3 0x100 8 0 pe1) pe2 []))
      (peOf 1 fun pe => ((epAt pe 3).credit, pe.phase, pe.xfer.bind fun x => x.header.map encHdr)) =
      some (0x10000#64, .xfer, some h1) := by decide

/-- S3. -/
theorem test_send_too_large :
    after (exec (.send 3) (sys (running 1 3 0x100 41 0 pe1) pe2 []))
      (peOf 1 fun pe => ((epAt pe 3).credit, pe.result, pe.xfer.isSome)) = some (0x10001#64, 6#8, false) := by decide

/-- Y1, the execute step at PE 2. -/
theorem test_reply_starts :
    after (exec (.reply 1) { sys pe1 (running 2 1 0x300 4 0x2000 pe2) [] with active := 2 })
      (peOf 2 fun pe => pe.xfer.map fun x => (x.remoteEp, x.size, (x.header.map encHdr).getD [])) =
      some (some (2#8, 28#64, h2)) := by decide

/-- Y3. -/
theorem test_reply_no_slot :
    after (exec (.reply 1) { sys pe1 (running 2 1 0x300 4 0x2010 pe2) [] with active := 2 })
      (peOf 2 fun pe => pe.result) = some 7#8 := by decide

/-- R1, the execute step. -/
theorem test_read_starts :
    after (exec (.read 4) (sys (running 3 4 0x400 100 0x10 pe1) pe2 []))
      (peOf 1 fun pe => pe.xfer.map fun x => (x.type, x.remotePe, x.remoteAddr, x.size)) =
      some (some (.localWrite, 0#16, 0x4010#64, 100#64)) := by decide

/-- R8: no wrap of `off + n`. -/
theorem test_read_no_wrap :
    after (exec (.read 4) (sys (running 3 4 0x400 0x20 0xFFFFFFFFFFFFFFF0 pe1) pe2 [])) (peOf 1 Pe.result) =
      some 4#8 := by decide

/-- W4: at the region's end, no bytes. -/
theorem test_write_empty :
    after (exec (.write 4) (sys (running 4 4 0x200 0 0x1000 pe1) pe2 []))
      (peOf 1 fun pe => (pe.result, pe.phase, pe.xfer.isSome)) = some (0#8, .finishPending, false) := by decide

/-- W6. -/
theorem test_write_no_permission :
    after (exec (.write 5) (sys (running 4 5 0x200 8 0 pe1) pe2 [])) (peOf 1 Pe.result) = some 5#8 := by decide

/-- I-3: the read pointer wraps. -/
theorem test_incReadPtr_wraps :
    after (exec (.incReadPtr 1)
        (sys (running 5 1 0 0 0 { pe1 with eps := [ep0, { recv1 with credit := 0x200010003#64 }] }) pe2 []))
      (peOf 1 fun pe => (epAt pe 1).credit) = some 0x100010000#64 := by decide

/-- I-6: `NUM_SLOTS = 0`. -/
theorem test_incReadPtr_no_slots :
    after (exec (.incReadPtr 1)
        (sys (running 5 1 0 0 0 { pe1 with eps := [ep0, { recv1 with cfg0 := 0x400002#64, credit := 0x100000007#64 }] })
          pe2 []))
      (peOf 1 fun pe => (epAt pe 1).credit) = some 0#64 := by decide

/-- C-7, the finish step: one pulse. -/
theorem test_wakeup_pulse :
    after (step (sys { running 6 0 0 0 0 pe1 with phase := .finishPending } pe2 [.engine 1]))
      (fun t => (peOf 1 Pe.command t).map fun c => (c, t.outputs)) = some (0#64, [.wakeup 1]) := by decide

theorem test_wakeup_executes :
    after (exec (.wakeupCore 9) (sys (running 6 9 0 0 0 pe1) pe2 [])) (peOf 1 fun pe => (pe.result, pe.phase)) =
      some (0#8, .finishPending) := by decide

/-- C-6, both steps. -/
theorem test_reserved7_unknown :
    after (exec (.reserved7 1) (sys (running 7 1 0 0 0 pe1) pe2 [])) (peOf 1 Pe.result) = some 1#8 := by decide

theorem test_reserved7_reported :
    after (step (sys { running 7 1 0 0 0 pe1 with phase := .finishPending, result := 1 } pe2 [.engine 1]))
      (peOf 1 fun pe => (pe.command, pe.status, pe.phase)) = some (0x10008#64, 0#64, .idle) := by decide

/-- P1, statement 6 of PE 1, with its poll; D-5. -/
theorem test_pseudo_send :
    (Pseudo.sync (.send 3 0x100 8 2 0xBB)).expand =
        [.wr 2 0x100, .wr 3 8, .wr 5 2, .wr 6 0xBB, .wr 1 0x19, .poll 1 7 0] ∧
      composeCommand 7 4#3 = 0x3C ∧ composeCommand 7 3#3 = 0x3B := by decide

/-! ### Packets -/

/-- S1, the store at PE 2. -/
theorem test_message_stored :
    after (exec (.message (head 2 0 32) (h1 ++ [1, 2, 3, 4, 5, 6, 7, 8])) (sys pe1 pe2 []))
      (fun t => (peOf 2 (fun pe => ((epAt pe 1).credit, readByte pe.mem 0x201F)) t).map
        fun r => (r, t.responses.map Response.bytes)) =
      some ((0x100010000#64, 8#8), [encodeResponse 0 0 []]) := by decide

/-- Y8: the grant is applied before the endpoint is found invalid. -/
theorem test_message_grants_first :
    after (exec (.message { head 1 0 28 with dstEp := 0 } (h2 ++ [0xDE, 0xAD, 0xBE, 0xEF]))
        (sys { pe1 with eps := [ep0, ep0, ep0, { send3 with credit := 0x10000#64 }] } pe2 []))
      (peOf 1 fun pe => ((epAt pe 3).credit, pe.status)) = some (0x10001#64, 0xA04#64) := by decide

/-- M1. -/
theorem test_readReq_served :
    after (exec (.readReq (head 1 0x106 2)) (sys pe1 pe2 [])) (fun t => some (t.responses.map Response.bytes)) =
      some [encodeResponse 0 0 [0x77, 0x88]] := by decide

/-- M2. -/
theorem test_readReq_out_of_bounds :
    after (exec (.readReq (head 1 0xFFF0 0x20)) (sys pe1 pe2 [])) (fun t => some (t.responses.map Response.bytes)) =
      some [encodeResponse 0xC 0 []] := by decide

/-- M3. -/
theorem test_writeReq_served :
    after (exec (.writeReq (head 1 0xFFFE 2) [1, 2]) (sys pe1 pe2 []))
      (peOf 1 fun pe => (readByte pe.mem 0xFFFE, readByte pe.mem 0xFFFF, readByte pe.mem 0x107)) =
      some (1#8, 2#8, 0x88#8) := by decide

/-- M4. -/
theorem test_writeReq_out_of_bounds :
    after (exec (.writeReq (head 1 0xFFFF 2) [1, 2]) (sys pe1 pe2 []))
      (fun t => (peOf 1 (fun pe => readByte pe.mem 0xFFFF) t).map fun b => (b, t.responses.map Response.bytes)) =
      some (0#8, [encodeResponse 0xC 0 []]) := by decide

/-- M7. -/
theorem test_cacheMemReq_reads :
    after (exec (.cacheMemReq (head 1 0x100 1) []) (sys pe1 pe2 [])) (fun t => some (t.responses.map Response.bytes)) =
      some [encodeResponse 0 0 [0x11]] := by decide

/-- M8. -/
theorem test_cacheMemReqFunc_writes :
    after (exec (.cacheMemReqFunc { head 1 0x80 1 with write := true } [9]) (sys pe1 pe2 []))
      (peOf 1 fun pe => readByte pe.mem 0x80) = some 9#8 := by decide

/-- M6, for each reserved type. -/
theorem test_reservedPkt5_malformed :
    after (exec (.reservedPkt5 (head 1 0 0) []) (sys pe1 pe2 [])) (fun t => some (t.responses.map Response.bytes)) =
      some [encodeResponse 0xF 0 []] := by decide
theorem test_reservedPkt6_malformed :
    after (exec (.reservedPkt6 (head 1 0 0) []) (sys pe1 pe2 [])) (fun t => some (t.responses.map Response.bytes)) =
      some [encodeResponse 0xF 0 []] := by decide
theorem test_reservedPkt7_malformed :
    after (exec (.reservedPkt7 (head 1 0 0) [1]) (sys pe1 pe2 [])) (fun t => some (t.responses.map Response.bytes)) =
      some [encodeResponse 0xF 0 []] := by decide

/-! ### Instructions placed where the next step fetches them -/

/-- Opcode 7 as the first instruction after reset; a READ_REQ of all its 256 header bits. -/
theorem test_fetch_command :
    decodeTableWord 8 7 = some (.reserved7 0) ∧
      after (step (State.reset.withFetchWord 8 7)) (peOf 1 Pe.result) = some 1#8 := by decide

theorem test_fetch_packet :
    decodeTableWord 256 0x100000001 = some (.readReq { head 0 0 0 with dstEp := 0 }) ∧
      after (step (State.reset.withFetchWord 256 0x100000001)) (fun t => some (t.requests, t.responses)) =
        some ([], [{ dest := 1, bytes := encodeResponse 0 0 [] }]) := by decide

/-! ### Witnesses: for each statement with hypotheses, values that meet them, at the boundaries of its clauses -/

/-- `DecodeOfEncode`: well-formed packets, with no payload and with one. -/
theorem witness_DecodeOfEncode :
    (Instr.message (head 2 0 0) []).wellFormed = true ∧ (Instr.message (head 2 0 1) [7]).wellFormed = true ∧
      (Instr.cacheMemReq (head 2 0 5) []).wellFormed = true ∧ (Instr.send 0xFF).wellFormed = true := by decide

/-- `EncodeOfDecodedPacket`: bytes with every reserved bit 1. -/
theorem witness_EncodeOfDecodedPacket :
    decode .noc ([0xF1, 0x00, 0x00, 0x00, 0x01, 0, 0xFF, 0xFF] ++ tail 0x40 0 0) =
      .ok (.readReq { head 0 0x80 0x40 with dstEp := 0 }) := by decide

/-- `HeadersAndResponsesAreReadBack`: exactly 24 bytes. -/
theorem witness_HeadersAndResponsesAreReadBack : 24 ≤ h1.length := by decide

/-- `FormatterPackets`: the least and the greatest sizes. -/
theorem witness_FormatterPackets :
    24 + ([] : List Byte).length < 2 ^ 64 ∧ 0 < 2 ^ 64 ∧ 2 ^ 64 - 1 < 2 ^ 64 ∧ ([] : List Byte).length < 2 ^ 64 := by
  decide

/-- `EndpointPredicatesAndReservedIndices`: index 7, and the first one above the eight endpoints. -/
theorem witness_EndpointPredicatesAndReservedIndices :
    (7 = 7 ∨ 8 + 4 * pe1.eps.length ≤ 7) ∧ (40 = 7 ∨ 8 + 4 * pe1.eps.length ≤ 40) := by decide

/-- `EndpointRegistersArePrivileged`: the first and the last endpoint register, and the last below them. -/
theorem witness_EndpointRegistersArePrivileged :
    (8 ≤ 8 ∧ 8 < 8 + 4 * pe1.eps.length) ∧ (8 ≤ 39 ∧ 39 < 8 + 4 * pe1.eps.length) ∧ 7 < 8 := by decide

/-- `CommandGroupWrites`: a running command, with the first and the last index of the group, and an idle PE. -/
theorem witness_CommandGroupWrites :
    (running 1 3 0 8 0 pe1).cmdInProgress = true ∧ 1 ≤ 1 ∧ 1 ≤ 6 ∧ 6 ≤ 6 ∧ pe1.cmdInProgress = false := by decide

/-- A READ_REQ in flight. -/
def readBytes0 : List Byte := encode (.readReq (head 0 0x80 0x40))

/-- `StepRunsTheDecodedInstruction`, its two clauses. -/
theorem witness_StepRunsTheDecodedInstruction :
    (nextAt (sys (running 1 3 0x100 8 0 pe1) pe2 [.engine 1]) (.engine 1) 1 (running 1 3 0x100 8 0 pe1) ∧
      (running 1 3 0x100 8 0 pe1).phase = .execPending ∧
      decode .cmd (wordBytes (commandWord 1 3 0#8)) = .ok (.send 3)) ∧
    nextEvent { sys pe1 pe2 [.deliverRequest 0] with requests := [readBytes0] } = .deliverRequest 0 ∧
      decode .noc readBytes0 = .ok (.readReq (head 0 0x80 0x40)) :=
  ⟨⟨⟨rfl, rfl⟩, rfl, by decide⟩, rfl, by decide⟩

/-- `ClientReachesTheRegisters`: a read of the last register, the write of an IDLE word, of another word, and of another
register; the last index. -/
theorem witness_ClientReachesTheRegisters :
    2 ^ 61 - 1 < 2 ^ 61 ∧
    nextAt (sys pe1 pe2 [.clientRead 1 (regAddr pe1 39) 8]) (.clientRead 1 (regAddr pe1 39) 8) 1 pe1 ∧
    (nextAt (sys pe1 pe2 [.clientWrite 1 (regAddr pe1 1) 8 0x28 false]) (.clientWrite 1 (regAddr pe1 1) 8 0x28 false) 1
        pe1 ∧ opcodeOf 0x28 = 0#3) ∧
    (nextAt (sys pe1 pe2 [.clientWrite 1 (regAddr pe1 1) 8 0x19 true]) (.clientWrite 1 (regAddr pe1 1) 8 0x19 true) 1
        pe1 ∧ opcodeOf 0x19 ≠ 0#3) ∧
    nextAt (sys pe1 pe2 [.clientWrite 1 (regAddr pe1 0) 8 2 false]) (.clientWrite 1 (regAddr pe1 0) 8 2 false) 1 pe1 ∧
      (0 : Nat) ≠ 1 :=
  ⟨by decide, ⟨rfl, rfl⟩, ⟨⟨rfl, rfl⟩, by decide⟩, ⟨⟨rfl, rfl⟩, by decide⟩, ⟨rfl, rfl⟩, by decide⟩

/-- R31, R11: with `DTU_REG_BASE` 8 below 2^64, COMMAND is at address 0. -/
theorem test_register_address_wraps :
    (let pe : Pe := { pe1 with cfg := { PeConfig.ref with dtuRegBase := 0xFFFFFFFFFFFFFFF8 } }
     regAddr pe 1 = 0 ∧ regAccess pe 0 8 = .index 1 ∧ regAccess pe 1 8 = .misplaced) := by decide

/-- `IdleStoresItsWord` and `WakeupCoreAndOpcode7End`: the active PE exists, idle or running. -/
theorem witness_active :
    (sys pe1 pe2 []).pes[(sys pe1 pe2 []).active]? = some pe1 ∧
      (sys (running 6 0 0 0 0 pe1) pe2 []).pes[(sys pe1 pe2 []).active]? = some (running 6 0 0 0 0 pe1) := ⟨rfl, rfl⟩

/-- `SendStartsItsTransfer`: the largest message, 64 bytes with its header. -/
theorem witness_SendStartsItsTransfer :
    let pe := running 1 3 0x100 40 0 pe1
    (sys pe pe2 []).pes[(sys pe pe2 []).active]? = some pe ∧ pe.eps[(3#8).toNat]? = some send3 ∧ epType send3 = 1#3 ∧
      epCredits send3 ≠ 0#16 ∧ 24 + pe.cur.dataSize.toNat ≤ min (epMaxMsgSize send3).toNat pe.cfg.chunkLimit :=
  ⟨rfl, rfl, by decide, by decide, by decide⟩

/-- PE 1 with no credit left. -/
def spent : Pe := { pe1 with eps := [ep0, ep0, ep0, { send3 with credit := 0x10000#64 }] }

/-- `SendChecks`, its three clauses: a RECEIVE endpoint, no credits, one byte too many. -/
theorem witness_SendChecks :
    isSend pe1 2 = false ∧ (isSend spent 3 = true ∧ epCredits (epAt spent 3) = 0#16) ∧
      (let pe := running 1 3 0x100 41 0 pe1
       isSend pe 3 = true ∧ epCredits (epAt pe 3) ≠ 0#16 ∧
         min (epMaxMsgSize (epAt pe 3)).toNat pe.cfg.chunkLimit < 24 + pe.cur.dataSize.toNat) := by decide

/-- A PE whose last slot, at the end of its memory, holds H-1. -/
def lastSlot : Pe :=
  running 2 1 0x300 40 0xFFC0
    { pe2 with eps := [ep0, { recv1 with cfg1 := 0xFF00 }], mem := writeBytes [] 0xFFC0 h1 }

/-- `ReplyStartsItsTransfer`: the last slot and the largest reply. -/
theorem witness_ReplyStartsItsTransfer :
    let e : Endpoint := { recv1 with cfg1 := 0xFF00 }
    let s := sys lastSlot pe2 []
    s.pes[s.active]? = some lastSlot ∧ lastSlot.eps[(1#8).toNat]? = some e ∧ epType e = 2#3 ∧
      24 + lastSlot.cur.dataSize.toNat ≤ lastSlot.cfg.chunkLimit ∧ lastSlot.cfg.chunkLimit < 2 ^ 64 ∧
      3 < (epNumSlots e).toNat ∧ 0 < (epSlotSize e).toNat ∧
      lastSlot.cur.offset.toNat = (epBufAddr e).toNat + 3 * (epSlotSize e).toNat ∧
      lastSlot.cur.offset.toNat + 24 ≤ lastSlot.cfg.memSize ∧
      (decHdr (readBytes lastSlot.mem lastSlot.cur.offset.toNat 24)).replyEnabled = true :=
  ⟨rfl, rfl, by decide, by decide, by decide, by decide, by decide, by decide, by decide, by decide⟩

/-- `ReplyChecks`: no RECEIVE endpoint; one byte too many; the address behind the last slot; a slot that local memory cuts
off; an original that allows no reply. -/
theorem witness_ReplyChecks :
    isRecv pe2 3 = false ∧ pe2.eps[(1#8).toNat]? = some recv1 ∧ epType recv1 = 2#3 ∧
    (running 2 1 0x300 41 0x2000 pe2).cfg.chunkLimit < 24 + (running 2 1 0x300 41 0x2000 pe2).cur.dataSize.toNat ∧
    24 + (running 2 1 0x300 40 0x2100 pe2).cur.dataSize.toNat ≤ pe2.cfg.chunkLimit ∧
    (∀ i < (epNumSlots recv1).toNat, 0 < (epSlotSize recv1).toNat →
      (running 2 1 0x300 40 0x2100 pe2).cur.offset.toNat ≠ (epBufAddr recv1).toNat + i * (epSlotSize recv1).toNat) ∧
    (let e : Endpoint := { recv1 with cfg1 := 0xFFE9 }
     0 < (epNumSlots e).toNat ∧ (0xFFE9#64).toNat = (epBufAddr e).toNat + 0 * (epSlotSize e).toNat ∧
       pe2.cfg.memSize < (0xFFE9#64).toNat + 24) ∧
    (0x2040#64).toNat = (epBufAddr recv1).toNat + 1 * (epSlotSize recv1).toNat ∧
    (0x2040#64).toNat + 24 ≤ pe2.cfg.memSize ∧ (decHdr (readBytes pe2.mem 0x2040 24)).replyEnabled = false :=
  ⟨by decide, rfl, by decide, by decide, by decide, by decide, by decide, by decide, by decide, by decide⟩

/-- `ReadAndWriteStart`: up to the last byte of the region, and no byte at its end. -/
theorem witness_ReadAndWriteStart :
    (let pe := running 3 4 0x400 0x40 0xFC0 pe1
     (sys pe pe2 []).pes[(sys pe pe2 []).active]? = some pe ∧ pe.eps[(4#8).toNat]? = some mem4 ∧ epType mem4 = 3#3 ∧
       pe.cur.offset.toNat + pe.cur.dataSize.toNat ≤ mem4.cfg2.toNat ∧ pe.cur.dataSize ≠ 0#64) ∧
    (let pe := running 4 4 0x400 0 0x1000 pe1
     pe.cur.offset.toNat + pe.cur.dataSize.toNat ≤ mem4.cfg2.toNat ∧ pe.cur.dataSize = 0#64) ∧
    mem4.cfg0.getLsbD 3 = true ∧ mem4.cfg0.getLsbD 4 = true :=
  ⟨⟨rfl, rfl, by decide, by decide, by decide⟩, by decide, by decide, by decide⟩

/-- A MEMORY endpoint without permissions. -/
def noPerm : Endpoint := { mem4 with cfg0 := 0x3 }

/-- `ReadAndWriteChecks`: a SEND endpoint; no permission to read, none to write; one byte past the region, also where the
sum exceeds 64 bits. -/
theorem witness_ReadAndWriteChecks :
    isMem pe1 3 = false ∧ pe1.eps[(4#8).toNat]? = some mem4 ∧ epType noPerm = 3#3 ∧ noPerm.cfg0.getLsbD 3 = false ∧
    mem5.cfg0.getLsbD 4 = false ∧ epType mem5 = 3#3 ∧ mem4.cfg0.getLsbD 3 = true ∧
    mem4.cfg2.toNat < (0xFC1#64).toNat + (0x40#64).toNat ∧
    mem4.cfg2.toNat < (0xFFFFFFFFFFFFFFF0#64).toNat + (0x20#64).toNat :=
  ⟨by decide, rfl, by decide, by decide, by decide, by decide, by decide, by decide, by decide⟩

/-- `IncReadPtrAdvancesTheRing`: no RECEIVE endpoint, an empty ring, a ring of one message whose pointer is the last. -/
theorem witness_IncReadPtrAdvancesTheRing :
    isRecv pe1 3 = false ∧ pe2.eps[(1#8).toNat]? = some recv1 ∧ epType recv1 = 2#3 ∧ epMsgCount recv1 = 0#16 ∧
    (let e : Endpoint := { recv1 with credit := 0x100000003#64 }
     epType e = 2#3 ∧ epMsgCount e ≠ 0#16) :=
  ⟨by decide, rfl, by decide, by decide, by decide⟩

/-- PE 1 before its finish step. -/
def finishing : Pe := { running 1 3 0 8 0 pe1 with phase := .finishPending, result := 3 }

/-- `FinishStepReports`. -/
theorem witness_FinishStepReports :
    nextAt (sys finishing pe2 [.engine 1]) (.engine 1) 1 finishing ∧ finishing.phase = .finishPending :=
  ⟨⟨rfl, rfl⟩, rfl⟩

/-- `GrantAddsOneCredit`: one below the limit; at the limit; no SEND endpoint. -/
theorem witness_GrantAddsOneCredit :
    (let e : Endpoint := { send3 with credit := 0x10000#64 }
     spent.eps[(3#8).toNat]? = some e ∧ epType e = 1#3 ∧ (epCredits e).toNat < (epMaxCredits e).toNat) ∧
    (epMaxCredits (epAt pe1 3)).toNat ≤ (epCredits (epAt pe1 3)).toNat ∧ isSend pe1 2 = false :=
  ⟨⟨rfl, by decide, by decide⟩, by decide, by decide⟩

/-- A receive ring with one free slot, its last, which ends where local memory does; and a 64-byte message for it. -/
def lastFree : Endpoint := { recv1 with cfg1 := 0xFF00, credit := 0x300030000#64 }
def fullMessage : List Byte := [0x06, 0x03, 0x04, 0x00, 40, 0] ++ List.replicate 58 0

/-- `MessageIsStored`: the last free slot, at the end of local memory, and a message as large as the slot. -/
theorem witness_MessageIsStored :
    let pe : Pe := { pe1 with eps := [ep0, lastFree] }
    let h := head 1 0 64
    (sys pe pe2 []).pes[h.dstPe.toNat]? = some pe ∧ pe.eps[h.dstEp.toNat]? = some lastFree ∧ epType lastFree = 2#3 ∧
      Memory.wf pe.mem ∧ fullMessage.length = h.size.toNat ∧ 24 ≤ h.size.toNat ∧
      (decHdr fullMessage).length.toNat = h.size.toNat - 24 ∧ h.size.toNat ≤ (epSlotSize lastFree).toNat ∧
      (epMsgCount lastFree).toNat < (epNumSlots lastFree).toNat ∧
      (epBufAddr lastFree).toNat + (epWrPtr lastFree).toNat * (epSlotSize lastFree).toNat + h.size.toNat ≤
        pe.cfg.memSize ∧ (decHdr fullMessage).grantCredits = true :=
  ⟨rfl, rfl, by decide, by decide, by decide, by decide, by decide, by decide, by decide, by decide, by decide⟩

/-- `MessageChecks`: one byte less than a header; a length that is off by one; no RECEIVE endpoint; one byte more than a
slot; a full ring; a slot that ends one byte past local memory. -/
theorem witness_MessageChecks :
    (head 2 0 23).size.toNat < 24 ∧
    (24 ≤ (head 2 0 31).size.toNat ∧ (decHdr h1).length.toNat ≠ (head 2 0 31).size.toNat - 24) ∧
    (24 ≤ (head 2 0 32).size.toNat ∧ (decHdr h1).length.toNat = (head 2 0 32).size.toNat - 24 ∧
      (h1 ++ [1, 2, 3, 4, 5, 6, 7, 8]).length = (head 2 0 32).size.toNat) ∧
    isRecv pe1 1 = false ∧ pe2.eps[(head 2 0 32).dstEp.toNat]? = some recv1 ∧ epType recv1 = 2#3 ∧
    (epSlotSize { recv1 with cfg0 := 0x4001F0002#64 }).toNat < (head 2 0 32).size.toNat ∧
    (head 2 0 32).size.toNat ≤ (epSlotSize recv1).toNat ∧
    (epNumSlots recv1).toNat ≤ (epMsgCount { recv1 with credit := 0x400000000#64 }).toNat ∧
    (epMsgCount recv1).toNat < (epNumSlots recv1).toNat ∧
    (let e : Endpoint := { recv1 with cfg1 := 0xFFE1 }
     pe2.cfg.memSize < (epBufAddr e).toNat + (epWrPtr e).toNat * (epSlotSize e).toNat + (head 2 0 32).size.toNat) :=
  ⟨by decide, by decide, by decide, by decide, rfl, by decide, by decide, by decide, by decide, by decide, by decide⟩

/-- `ReadsAreServed` and `WritesAreServed`: up to the last byte of local memory, no byte behind it, one byte too many. -/
theorem witness_ReadsAndWritesAreServed :
    (sys pe1 pe2 []).pes[(head 1 0 0).dstPe.toNat]? = some pe1 ∧ (head 1 0 0).write = false ∧ Memory.wf pe1.mem ∧
      [1, 2].length = (head 1 0xFFFE 2).size.toNat ∧
      (head 1 0xFFFE 2).addr.toNat + (head 1 0xFFFE 2).size.toNat ≤ pe1.cfg.memSize ∧
      (head 1 0x10000 0).size.toNat = 0 ∧
      ((head 1 0xFFFF 2).size.toNat ≠ 0 ∧ pe1.cfg.memSize < (head 1 0xFFFF 2).addr.toNat + (head 1 0xFFFF 2).size.toNat) ∧
      ({ head 1 0 0 with write := true } : PacketHead).write = true :=
  ⟨rfl, rfl, by decide, rfl, by decide, by decide, by decide, rfl⟩

/-- `ReservedPacketsAreMalformed`. -/
theorem witness_ReservedPacketsAreMalformed :
    (sys pe1 pe2 []).pes[(head 2 0 0).dstPe.toNat]? = some pe2 ∧
      Instr.reservedPkt7 (head 2 0 0) [] ∈
        [Instr.reservedPkt5 (head 2 0 0) [], .reservedPkt6 (head 2 0 0) [], .reservedPkt7 (head 2 0 0) []] :=
  ⟨rfl, by decide⟩

/-- `EveryPacketIsAnsweredOnce`: the last PE, and the first id that is none. -/
theorem witness_EveryPacketIsAnsweredOnce :
    (sys pe1 pe2 []).pes.length ≤ (head 3 0 0).dstPe.toNat ∧ (head 2 0 0).dstPe.toNat < (sys pe1 pe2 []).pes.length ∧
      Instr.readReq (head 2 0 0) ∈
        [Instr.message (head 2 0 0) [], .readReq (head 2 0 0), .writeReq (head 2 0 0) [], .cacheMemReq (head 2 0 0) [],
          .cacheMemReqFunc (head 2 0 0) [], .reservedPkt5 (head 2 0 0) [], .reservedPkt6 (head 2 0 0) [],
          .reservedPkt7 (head 2 0 0) []] := by decide

/-- `ServingLeavesTheCommandEngine`: a PE whose command runs serves a request. -/
theorem witness_ServingLeavesTheCommandEngine :
    (Instr.readReq (head 1 0 0)).format = .noc ∧
      (after (exec (.readReq (head 1 0 0)) (sys (running 1 3 0 8 0 pe1) pe2 [])) fun t => t.pes[1]?) =
        some (running 1 3 0 8 0 pe1) := ⟨rfl, rfl⟩

/-- A transfer at its second chunk. -/
def xferAt (type : XferType) (st : ChunkState) (localAddr size : Word) : Xfer :=
  { type := type, kind := .mem, localAddr := localAddr, remotePe := 0, remoteEp := 0, remoteAddr := 0x4010,
    size := size, done := 64, chunkIndex := 1, header := none, chunkState := st, pas := [{ pa := 0x440, len := 36 }] }

def inXfer (x : Xfer) : Pe := { running 3 4 0x400 100 0x10 pe1 with phase := .xfer, xfer := some x }

/-- A SEND of no payload. -/
def emptyMessage : Xfer :=
  { messageXfer pe1 2 1 (sendHeader 1 3 pe1) with size := 24, localAddr := 0x20000 }

/-- `LocalReadChunkIsSent`: a chunk that ends where local memory does, one that ends a byte later, and an empty message,
whose address does not matter. -/
theorem witness_LocalReadChunkIsSent :
    (let x := xferAt .localRead .translate 0xFF9C 100
     nextAt (sys (inXfer x) pe2 [.transfer 1]) (.transfer 1) 1 (inXfer x) ∧ (inXfer x).phase = .xfer ∧
       (inXfer x).xfer = some x ∧ x.chunkState = .translate ∧ (inXfer x).cfg.vmEnabled = false ∧ x.kind = .mem ∧
       (x.localAddr + x.done).toNat + chunkLen (inXfer x).cfg x ≤ (inXfer x).cfg.memSize) ∧
    (let x := xferAt .localRead .translate 0xFF9D 100
     chunkLen (inXfer x).cfg x ≠ 0 ∧
       (inXfer x).cfg.memSize < (x.localAddr + x.done).toNat + chunkLen (inXfer x).cfg x) ∧
    emptyMessage.kind = .msg ∧ emptyMessage.size.toNat - 24 = 0 ∧ emptyMessage.header = some (sendHeader 1 3 pe1) :=
  ⟨⟨⟨rfl, rfl⟩, rfl, rfl, rfl, rfl, rfl, by decide⟩, by decide, rfl, by decide, rfl⟩

/-- `LocalWriteChunkIsRequested`: as above, for a READ. -/
theorem witness_LocalWriteChunkIsRequested :
    (let x := xferAt .localWrite .translate 0xFF9C 100
     nextAt (sys (inXfer x) pe2 [.transfer 1]) (.transfer 1) 1 (inXfer x) ∧ (inXfer x).xfer = some x ∧
       x.chunkState = .translate ∧ (inXfer x).cfg.vmEnabled = false ∧
       (x.localAddr + x.done).toNat + chunkLen (inXfer x).cfg x ≤ (inXfer x).cfg.memSize) ∧
    (let x := xferAt .localWrite .translate 0xFF9D 100
     (inXfer x).cfg.memSize < (x.localAddr + x.done).toNat + chunkLen (inXfer x).cfg x) :=
  ⟨⟨⟨rfl, rfl⟩, rfl, rfl, rfl, by decide⟩, by decide⟩

/-- The system with a response in flight to PE 1. -/
def withResponse (pe : Pe) (bytes : List Byte) : State :=
  { sys pe pe2 [.deliverResponse 0] with responses := [{ dest := 1, bytes := bytes }] }

/-- `ChunkResponseIsTaken`: the last chunk's data over two ranges, the second of which ends where local memory does, and
over ranges that overlap; an error; and the acknowledgement of a WRITE chunk that is not the last. -/
theorem witness_ChunkResponseIsTaken :
    (let x := { xferAt .localWrite .issued 0x400 100 with pas := [{ pa := 0x440, len := 16 }, { pa := 0xFFEC, len := 20 }] }
     let bytes := encodeResponse 0 (tagWord 0 1) (List.replicate 36 5)
     responseAt (withResponse (inXfer x) bytes) 0 { dest := 1, bytes := bytes } 1 (inXfer x) ∧
       tagUnit (responseTag bytes) = 0#2 ∧ (inXfer x).phase = .xfer ∧ (inXfer x).xfer = some x ∧
       x.chunkState = .issued ∧ tagOp (responseTag bytes) = x.chunkIndex.setWidth 62 ∧ responseStatus bytes = 0#8 ∧
       Memory.wf (inXfer x).mem ∧ (responseData bytes).length = chunkLen (inXfer x).cfg x ∧
       (∀ piece ∈ x.pas, piece.pa.toNat + piece.len ≤ (inXfer x).cfg.memSize) ∧
       (rangeAddrs x.pas)[35]? = some 0xFFFF ∧
       x.done + BitVec.ofNat 64 (chunkLen (inXfer x).cfg x) = x.size) ∧
    responseStatus (encodeResponse 9 (tagWord 0 1) []) ≠ 0#8 ∧
    (let ranges : List PhysRange := [{ pa := 0x440, len := 4 }, { pa := 0x442, len := 4 }]
     (rangeAddrs ranges)[2]? = some 0x442 ∧ (rangeAddrs ranges)[4]? = some 0x442 ∧
       ∀ j, 4 < j → j < 8 → (rangeAddrs ranges)[j]? ≠ some 0x442) ∧
    (let x := xferAt .localRead .issued 0x400 200
     x.type = .localRead ∧ x.done + BitVec.ofNat 64 (chunkLen (inXfer x).cfg x) ≠ x.size) := by
  refine ⟨⟨⟨⟨rfl, rfl⟩, rfl, rfl, by decide⟩, by decide, rfl, rfl, rfl, by decide, by decide, by decide, by decide,
    by decide, by decide, by decide⟩, by decide, ⟨by decide, by decide, ?_⟩, rfl, by decide⟩
  intro j h1 h2
  rcases (by omega : j = 5 ∨ j = 6 ∨ j = 7) with rfl | rfl | rfl <;> decide

/-- `ForeignResponsesAreDiscarded`: no transfer; a chunk not issued; another chunk's tag; no such cache request; the two
reserved units. -/
theorem witness_ForeignResponsesAreDiscarded :
    (let bytes := encodeResponse 0 (tagWord 0 3) []
     responseAt (withResponse pe1 bytes) 0 { dest := 1, bytes := bytes } 1 pe1 ∧ tagUnit (responseTag bytes) = 0#2 ∧
       pe1.xfer = none) ∧
    (xferAt .localRead .translate 0 100).chunkState = .translate ∧
    tagOp (responseTag (encodeResponse 0 (tagWord 0 3) [])) ≠ (xferAt .localRead .issued 0 100).chunkIndex.setWidth 62 ∧
    (tagUnit (responseTag (encodeResponse 0 (tagWord 1 3) [])) = 1#2 ∧ ∀ c ∈ pe1.cacheReqs, c.1 ≠ 3#62) ∧
    tagUnit (responseTag (encodeResponse 0 (tagWord 2 0) [])) = 2#2 ∧
    tagUnit (responseTag (encodeResponse 0 (tagWord 3 0) [])) = 3#2 :=
  ⟨⟨⟨⟨rfl, rfl⟩, rfl, rfl, by decide⟩, by decide, rfl⟩, rfl, by decide, ⟨by decide, by decide⟩, by decide, by decide⟩

/-- `ChunkLengthsSumToTheSize` and `MemoryAndTransferInvariantsAreKept`: sizes that the limit divides and does not, and a transfer
that meets the invariant. -/
theorem witness_transferOk :
    (1 ≤ 64 ∧ 0 < 1 ∧ 128 % 64 = 0 ∧ 100 % 64 ≠ 0) ∧
    transferOk (inXfer (xferAt .localRead .translate 0x400 100)) ∧
    everyPe transferOk (sys (inXfer (xferAt .localRead .translate 0x400 100)) pe2 [.setCoreWaiting 1 true]) := by
  have noXfer : ∀ pe : Pe, pe.cfg = PeConfig.ref → pe.xfer = none → transferOk pe := by
    intro pe h1 h2
    refine ⟨by rw [h1]; decide, by rw [h1]; decide, ?_⟩
    intro x hx
    rw [h2] at hx
    cases hx
  have one : transferOk (inXfer (xferAt .localRead .translate 0x400 100)) := by
    refine ⟨by decide, by decide, ?_⟩
    intro x hx
    cases hx
    decide
  refine ⟨by decide, one, ?_⟩
  intro pe hpe
  simp only [sys, List.mem_cons, List.not_mem_nil, or_false] at hpe
  rcases hpe with rfl | rfl | rfl
  · exact noXfer _ rfl rfl
  · exact one
  · exact noXfer _ rfl rfl

/-- A cache request of the largest size, and PE 1 with it outstanding. -/
def fetchReq : CacheRequest := { kind := .fetch, va := 0x80, size := 256, data := [], functional := false }
def fetchEntry : CacheEntry := { kind := .fetch, va := 0x80, pa := none, size := 256, data := [], functional := false }
def caching (pe : Pe) : Pe := { pe with cacheReqs := [(5, fetchEntry)] }

/-- PE 1 in REF_VM, with a TLB and a queue. -/
def vmPe (tlb : List (Nat × PageEntry)) (tq : List WalkRequest) (res : List WalkResult) : Pe :=
  { pe1 with cfg := PeConfig.refVm, tlb := tlb, tq := tq, res := res, walkIds := 2 }

def rw7 : PageEntry := { ppn := 7, r := true, w := true, x := false }
def walk1 : WalkRequest := { id := 0, va := 0x1000, flags := { r := true, w := false, x := false }, owner := .cmd }
def walk2 : WalkRequest := { id := 1, va := 0x5000, flags := { r := true, w := false, x := false }, owner := .cache 1 }

/-- `CachePath`: a request without virtual memory, and with it one that ends where its page does; the translate step; a
response without virtual memory and with it. -/
theorem witness_CachePath :
    (nextAt (sys pe1 pe2 [.cacheRequest 1 5 fetchReq]) (.cacheRequest 1 5 fetchReq) 1 pe1 ∧
      (∀ d ∈ pe1.cacheReqs, d.1 ≠ 5#62) ∧ 1 ≤ fetchReq.size.toNat ∧ fetchReq.size.toNat ≤ pe1.cfg.maxNocPacketSize ∧
      pe1.cfg.vmEnabled = false ∧ fetchReq.data.length = (if fetchReq.kind = .write then fetchReq.size.toNat else 0)) ∧
    (let pe := vmPe [] [] []
     let req : CacheRequest := { fetchReq with va := 0x1F00 }
     nextAt (sys pe pe2 [.cacheRequest 1 5 req]) (.cacheRequest 1 5 req) 1 pe ∧ (∀ d ∈ pe.cacheReqs, d.1 ≠ 5#62) ∧
       req.size.toNat ≤ pe.cfg.maxNocPacketSize ∧ pe.cfg.vmEnabled = true ∧
       req.va.toNat % pe.cfg.pageSize + req.size.toNat = pe.cfg.pageSize) ∧
    (nextAt (sys (caching pe1) pe2 [.cacheTranslate 1 5]) (.cacheTranslate 1 5) 1 (caching pe1) ∧
      (caching pe1).cacheReqs.lookup 5 = some fetchEntry ∧ (caching pe1).cfg.vmEnabled = false) ∧
    (let bytes := encodeResponse 0 (tagWord 1#2 5) [1]
     responseTag bytes = tagWord 1#2 5 ∧
       (responseAt (withResponse (caching pe1) bytes) 0 { dest := 1, bytes := bytes } 1 (caching pe1) ∧
         ∃ d, (5#62, d) ∈ (caching pe1).cacheReqs) ∧
       responseAt (withResponse (caching (vmPe [] [] [])) bytes) 0 { dest := 1, bytes := bytes } 1
         (caching (vmPe [] [] [])) ∧ (caching (vmPe [] [] [])).cfg.vmEnabled = true) :=
  ⟨⟨⟨rfl, rfl⟩, by decide, by decide, by decide, rfl, by decide⟩,
    ⟨⟨rfl, rfl⟩, by decide, by decide, rfl, by decide⟩, ⟨⟨rfl, rfl⟩, by decide, rfl⟩, by decide,
    ⟨⟨⟨rfl, rfl⟩, rfl, rfl, by decide⟩, fetchEntry, by decide⟩, ⟨⟨rfl, rfl⟩, rfl, rfl, by decide⟩, rfl⟩

/-- `TranslateInOnePage`: a whole page; a waiting fault; a hit that permits and one that does not; a miss with room, with
its own walk pending, and with a full queue. -/
theorem witness_TranslateInOnePage :
    (PeConfig.refVm.vmEnabled = true ∧ 1 ≤ 4096 ∧ 1 ≤ PeConfig.refVm.pageSize ∧
      (0x1000#64).toNat % PeConfig.refVm.pageSize + 4096 ≤ PeConfig.refVm.pageSize ∧
      (0x1000#64).toNat + 4096 ≤ 2 ^ 64) ∧
    resFaulted (vmPe [] [] [{ owner := .cmd, vpn := 1, outcome := .faulted }]) .cmd 1 = true ∧
    (resFaulted (vmPe [(1, rw7)] [] []) .cmd 1 = false ∧
      (resOk (vmPe [(1, rw7)] [] []) .cmd 1).or ((vmPe [(1, rw7)] [] []).tlb.lookup 1) = some rw7) ∧
    permits rw7 { r := true, w := false, x := false } = true ∧ permits rw7 { r := false, w := false, x := true } = false ∧
    (resOk (vmPe [] [] []) .cmd 1).or ((vmPe [] [] []).tlb.lookup 1) = none ∧
    walkPending (vmPe [] [walk1] []) .cmd 1 = true ∧
    PeConfig.refVm.transQueueDepth ≤ (vmPe [] [walk1, walk2] []).tq.length := by decide

/-- PE 1 in REF_VM at a chunk, and with a cache request. -/
def vmXfer (tlb : List (Nat × PageEntry)) (tq : List WalkRequest) : Pe :=
  { vmPe tlb tq [] with phase := .xfer, xfer := some (xferAt .localWrite .translate 0x1000 100), cacheReqs := [(5, fetchEntry)] }

/-- The ranges of a translation that succeeded. -/
def rangesOf : Translation → List PhysRange
  | .ok _ ranges => ranges
  | .fault _ => []
  | .miss _ => []
  | .wait => []

/-- How a translation ended. -/
def outcomeOf : Translation → String
  | .ok _ _ => "ok"
  | .fault _ => "fault"
  | .miss _ => "miss"
  | .wait => "wait"

/-- `TranslationOutcomesAreReported`: success with a range in local memory and, for a page beyond it, with one that is not;
a fault, a miss and a wait; of the Transfer Unit and of the cache path. -/
theorem witness_TranslationOutcomesAreReported :
    (nextAt (sys (vmXfer [] []) pe2 [.transfer 1]) (.transfer 1) 1 (vmXfer [] []) ∧ (vmXfer [] []).phase = .xfer ∧
      (vmXfer [] []).xfer = some (xferAt .localWrite .translate 0x1000 100)) ∧
    (nextAt (sys (vmXfer [] []) pe2 [.cacheTranslate 1 5]) (.cacheTranslate 1 5) 1 (vmXfer [] []) ∧
      (vmXfer [] []).cacheReqs.lookup 5 = some fetchEntry ∧ fetchEntry.pa = none) ∧
    ([vmXfer [(1, rw7)] [], vmXfer [(1, { rw7 with w := false })] [], vmXfer [] [], vmXfer [] [walk1]].map fun pe =>
        outcomeOf (translate .cmd (0x1000 + 64) 36 { r := false, w := true, x := false } pe)) =
      ["ok", "fault", "miss", "wait"] ∧
    ([vmXfer [(1, rw7)] [], vmXfer [(1, { rw7 with ppn := 16 })] []].map fun pe =>
        rangesOf (translate .cmd (0x1000 + 64) 36 { r := false, w := true, x := false } pe)) =
      [[{ pa := 0x7040, len := 36 }], [{ pa := 0x10040, len := 36 }]] ∧
    rangesOf (translate .cmd 0x1FF0 32 { r := true, w := false, x := false }
        (vmXfer [(1, rw7), (2, { rw7 with ppn := 3 })] [])) =
      [{ pa := 0x7FF0, len := 16 }, { pa := 0x3000, len := 16 }] ∧
    ([vmXfer [(0, { rw7 with x := true })] [], vmXfer [(0, rw7)] [], vmXfer [] [], vmXfer [] [walk1, walk2]].map fun pe =>
        outcomeOf (translate (.cache 5) 0x80 256 { r := false, w := false, x := true } pe)) =
      ["ok", "fault", "miss", "wait"] :=
  ⟨⟨⟨rfl, rfl⟩, rfl, rfl⟩, ⟨⟨rfl, rfl⟩, by decide, rfl⟩, by decide, by decide, by decide, by decide⟩

/-- `RangesCoverTheAccess`: the identity without virtual memory; T2, two pages that are both ready; of the second page, the
first not ready, a waiting fault, an entry that forbids the access, and none, with room in the queue and without. -/
theorem witness_RangesCoverTheAccess :
    pe1.cfg.vmEnabled = false ∧
    (PeConfig.refVm.vmEnabled = true ∧ PeConfig.refVm.pageSize = 2 ^ PeConfig.refVm.pageSize.log2) ∧
    (15 < 32 ∧ (0x1FF0 + 15) / 4096 = 1 ∧ (0x1FF0 + 16) / 4096 = 2) ∧
    ([vmPe [(1, rw7), (2, rw7)] [] [],
      vmPe [(1, rw7), (2, rw7)] [] [{ owner := .cmd, vpn := 2, outcome := .faulted }],
      vmPe [(1, rw7), (2, { rw7 with r := false })] [] [], vmPe [(1, rw7)] [] [], vmPe [(1, rw7)] [walk1, walk2] []].map
        fun pe => outcomeOf (translate .cmd 0x1FF0 32 { r := true, w := false, x := false } pe)) =
      ["ok", "fault", "fault", "miss", "wait"] := by decide

/-- `WalkAnswerResumesOrFaults` and `TranslationAndSessionInvariantsAreKept`: a PE with two walks, an answer that permits
the access and one that does not; a TLB with room, a full one, and none. -/
theorem witness_WalkAnswerResumesOrFaults :
    (let pe := vmPe [(0, rw7), (2, rw7), (3, rw7), (4, rw7)] [walk1, walk2] []
     nextAt (sys pe pe2 [.walkAnswer 1 0 (.ok rw7)]) (.walkAnswer 1 0 (.ok rw7)) 1 pe ∧ translationOk pe ∧
       walk1 ∈ pe.tq ∧ walk1.id = 0 ∧ 0 < pe.cfg.tlbEntries ∧ pe.cfg.tlbEntries ≤ pe.tlb.length) ∧
    permits rw7 walk1.flags = true ∧ permits { rw7 with r := false } walk1.flags = false ∧
    translationOk { vmPe [] [walk1] [] with cfg := { PeConfig.refVm with tlbEntries := 0 } } ∧
    translationOk (vmPe [(0, rw7)] [walk1] []) := by
  unfold translationOk
  exact ⟨⟨⟨rfl, rfl⟩, by decide, by decide, rfl, by decide, by decide⟩, by decide, by decide, by decide, by decide⟩

/-- An accelerator PE in a state of its engine. -/
def accel (st : CtxState) (off : Word) (pending : Bool) : Pe :=
  { pe2 with
    session := some { state := st, contextSize := 4096, stateSize := 512, byteOffset := off, ctxSwPending := pending,
                      flags := 0 } }

def accelSession (st : CtxState) (off : Word) (pending : Bool) : Session :=
  { state := st, contextSize := 4096, stateSize := 512, byteOffset := off, ctxSwPending := pending, flags := 0 }

/-- `ContextSwitchPolls`: a flag word that ends where local memory does, and one a byte later; the states of its other
clauses. -/
theorem witness_ContextSwitchPolls :
    (let pe : Pe := { accel .check 0 false with cfg := { PeConfig.ref with rctmuxFlags := 0xFFF8 } }
     nextAt (sys pe1 pe [.ctxSwitch 2]) (.ctxSwitch 2) 2 pe ∧ pe.session = some (accelSession .check 0 false) ∧
       pe.cfg.rctmuxFlags.toNat + 8 ≤ pe.cfg.memSize) ∧
    PeConfig.ref.memSize < (0xFFF9#64).toNat + 8 ∧
    ([accelSession .flags 0 true, accelSession .save 0 false, accelSession .wait 0 true].map Session.state) =
      [.flags, .save, .wait] :=
  ⟨⟨⟨rfl, rfl⟩, rfl, by decide⟩, by decide, by decide⟩

theorem accel_engineOk (st : CtxState) (off : Word) (pending : Bool) : engineOk (accel st off pending) := by
  refine ⟨?_, ?_, ?_, ?_, ?_⟩
  · show (false = true ↔ Phase.idle ≠ .idle)
    decide
  · show statusBusy 0 = false
    decide
  · show (opcodeOf 0 ≠ 0#3 ↔ false = true)
    decide
  · show ((none : Option Xfer).isSome = true ↔ Phase.idle = .xfer)
    decide
  · intro h
    cases h

/-- `ContextSwitchIssuesCommands`: everything through; one byte left; a command running. -/
theorem witness_ContextSwitchIssuesCommands :
    (let pe := accel .saveSend 4607 false
     nextAt (sys pe1 pe [.ctxSwitch 2]) (.ctxSwitch 2) 2 pe ∧ pe.session = some (accelSession .saveSend 4607 false) ∧
       engineOk pe ∧ (4607#64).toNat < 4096 + 512 ∧ pe.status.getLsbD 0 = false) ∧
    (let pe := accel .restore 4608 false
     pe.session = some (accelSession .restore 4608 false) ∧ engineOk pe ∧ 4096 + 512 ≤ (4608#64).toNat) ∧
    (running 1 3 0 8 0 (accel .saveSend 0 false)).status.getLsbD 0 = true :=
  ⟨⟨⟨rfl, rfl⟩, rfl, accel_engineOk _ _ _, by decide, by decide⟩, ⟨rfl, accel_engineOk _ _ _, by decide⟩, by decide⟩

/-- `ContextSwitchAwaitsItsCommand`: a running command; an error; a success that leaves bytes, and the last one. -/
theorem witness_ContextSwitchAwaitsItsCommand :
    (let pe := accel .saveWait 4352 false
     nextAt (sys pe1 pe [.ctxSwitch 2]) (.ctxSwitch 2) 2 pe ∧ pe.session = some (accelSession .saveWait 4352 false) ∧
       opcodeOf pe.command = 0#3 ∧ commandError pe.command = 0#8 ∧
       4096 + 512 ≤ (4352#64).toNat + min pe.cfg.maxDataSize (4096 + 512 - (4352#64).toNat)) ∧
    (4096#64).toNat + min PeConfig.ref.maxDataSize (4096 + 512 - (4096#64).toNat) < 4096 + 512 ∧
    (opcodeOf 0x20038 = 0#3 ∧ commandError 0x20038 ≠ 0#8) ∧ opcodeOf 0x3C ≠ 0#3 ∧
    (accelSession .restoreWait 0 false).state = .restoreWait :=
  ⟨⟨⟨rfl, rfl⟩, rfl, by decide, by decide, by decide⟩, by decide, by decide, by decide, rfl⟩

/-- `ContextSwitchSignalsDone`: the flag word at the end of local memory and 8 bytes later, in both states. -/
theorem witness_ContextSwitchSignalsDone :
    let pe : Pe := { accel .saveDone 4608 false with cfg := { PeConfig.ref with rctmuxFlags := 0xFFF8 } }
    nextAt (sys pe1 pe [.ctxSwitch 2]) (.ctxSwitch 2) 2 pe ∧ pe.session = some (accelSession .saveDone 4608 false) ∧
      Memory.wf pe.mem ∧ pe.cfg.rctmuxFlags.toNat + 8 ≤ pe.cfg.memSize ∧ pe.cfg.memSize < (0x10000#64).toNat + 8 ∧
      (accelSession .saveDone 4608 false).state = .saveDone ∧ (accelSession .restoreDone 0 true).state = .restoreDone :=
  ⟨⟨rfl, rfl⟩, rfl, by decide, by decide, by decide, rfl, rfl⟩

/-- PE 2 in a state of its engine, its buffer at the given address. -/
def buffering (st : CtxState) (off buf : Word) : Pe :=
  { accel st off false with cfg := { PeConfig.ref with bufferAddr := buf } }

/-- `ContextIsCopiedOutAndBack`: a buffer at the end of local memory, a context of no bytes; one step at a chunk that is not
the last, at the last, which ends where local memory does, and behind it, in both states; and a buffer whose last chunk ends
one byte past local memory. -/
theorem witness_ContextIsCopiedOutAndBack :
    (let pe := buffering .saveWrite 0 0xF000
     pe.session = some (accelSession .saveWrite 0 false) ∧ (accelSession .saveWrite 0 false).byteOffset = 0#64 ∧
       pe.cfg.bufferAddr.toNat + 4096 ≤ pe.cfg.memSize ∧ pe.cfg.bufferAddr.toNat + 4096 ≤ 2 ^ 64 ∧
       1 ≤ pe.cfg.chunkSize ∧ Memory.wf pe.mem ∧ Memory.wf pe.ctx ∧ max 1 (chunkCount 4096 pe.cfg.chunkSize) = 4) ∧
    max 1 (chunkCount 0 PeConfig.ref.chunkSize) = 1 ∧
    (accelSession .restoreRead 0 true).state = .restoreRead ∧
    (let pe := buffering .restoreRead 3072 0xF000
     nextAt (sys pe1 pe [.ctxSwitch 2]) (.ctxSwitch 2) 2 pe ∧ pe.session = some (accelSession .restoreRead 3072 false) ∧
       3072 < 4096 ∧ min pe.cfg.chunkSize (4096 - 3072) = 1024 ∧
       (pe.cfg.bufferAddr + 3072).toNat + 1024 = pe.cfg.memSize ∧ 3072 + 1024 = 4096 ∧ 1024 + 1024 ≠ 4096) ∧
    (nextAt (sys pe1 (buffering .saveWrite 4096 0xF000) [.ctxSwitch 2]) (.ctxSwitch 2) 2
        (buffering .saveWrite 4096 0xF000) ∧
      (accelSession .saveWrite 4096 false).contextSize.toNat ≤ (accelSession .saveWrite 4096 false).byteOffset.toNat) ∧
    (let pe := buffering .saveWrite 3072 0xF001
     nextAt (sys pe1 pe [.ctxSwitch 2]) (.ctxSwitch 2) 2 pe ∧ pe.session = some (accelSession .saveWrite 3072 false) ∧
       pe.cfg.memSize < (pe.cfg.bufferAddr + 3072).toNat + min pe.cfg.chunkSize (4096 - (3072#64).toNat)) :=
  ⟨⟨rfl, rfl, by decide, by decide, by decide, by decide, by decide, by decide⟩, by decide, rfl,
    ⟨⟨rfl, rfl⟩, rfl, by decide, by decide, by decide, by decide, by decide⟩, ⟨⟨rfl, rfl⟩, by decide⟩,
    ⟨⟨rfl, rfl⟩, rfl, by decide⟩⟩

/-- R388, R395: the last chunk of each state, of four bytes, from the middle of the context. -/
theorem test_last_chunk :
    let cfg : PeConfig := { PeConfig.ref with bufferAddr := 0xF000, chunkSize := 4 }
    let save : Pe := { accel .saveWrite 4092 false with cfg := cfg, ctx := [(4092, 5), (4095, 6)] }
    let restore : Pe := { accel .restoreRead 4092 false with cfg := cfg, mem := [(0xFFFC, 5), (0xFFFF, 6)] }
    (after (step (sys pe1 save [.ctxSwitch 2]))
        (peOf 2 fun pe => (readBytes pe.mem 0xFFFC 4, pe.session.map fun c => (c.state, c.byteOffset)))) =
      some ([5, 0, 0, 6], some (.saveSend, 0#64)) ∧
    (after (step (sys pe1 restore [.ctxSwitch 2]))
        (peOf 2 fun pe => (readBytes pe.ctx 4092 4, pe.session.map fun c => (c.state, c.byteOffset)))) =
      some ([5, 0, 0, 6], some (.restoreDone, 4096#64)) := by decide

/-- `ReplyRoundTrip`: S1 and Y1, the two execute steps, and the size of the reply's packet. -/
theorem witness_ReplyRoundTrip :
    let a := running 1 3 0x100 8 0 pe1
    let b := running 2 1 0x300 4 0x2000 pe2
    (sendExecute 3 1 a).phase = .xfer ∧ (sendExecute 3 1 a).xfer.isSome = true ∧
      ((sendExecute 3 1 a).xfer.bind fun x => x.header.map encHdr) = some (readBytes b.mem b.cur.offset.toNat 24) ∧
      (replyExecute 1 2 b).phase = .xfer ∧ (replyExecute 1 2 b).xfer.isSome = true ∧ a.phase ≠ .xfer ∧
      b.phase ≠ .xfer ∧ (head 1 0 28).size.toNat = 24 + [0xDE, 0xAD, 0xBE, 0xEF].length := by decide

/-- `ResetMeetsTheInvariants`: REF's launches; the bounds of `NUM_PE`. -/
theorem witness_ResetMeetsTheInvariants :
    Launch.systemOk [Launch.ref, Launch.ref, Launch.refAccelerator] ∧
      [0, 1, 65536, 65537].map numPeWellFormed = [false, true, true, false] := by
  unfold Launch.systemOk Launch.ok
  exact ⟨by decide, by decide⟩

/-- `EngineInvariantIsKept`: a PE with a pending command; `accel_engineOk` is an idle one. -/
theorem witness_EngineInvariantIsKept :
    everyPe engineOk { sys (accel .check 0 false) (accel .check 0 false) [.ctxSwitch 1] with pes := [accel .check 0 false] } ∧
    engineOk (running 1 3 0x100 8 0 pe1) ∧ reservedBitsOk (accel .check 0 false) ∧
    ∃ t, step { sys pe1 pe2 [.ctxSwitch 0] with pes := [accel .check 0 false] } = .next t := by
  refine ⟨?_, ?_, ⟨?_, ?_⟩, _, rfl⟩
  · intro pe hpe
    simp only [List.mem_singleton] at hpe
    exact hpe ▸ accel_engineOk _ _ _
  · unfold engineOk
    decide
  · intro i _
    show (0#64).getLsbD i = false
    simp
  · intro i _
    show (0#64).getLsbD i = false
    simp

/-- `MemoryAndTransferInvariantsAreKept`: memory and context that list bytes. -/
theorem witness_memoryOk :
    everyPe memoryOk { sys pe1 pe2 [.coreStore 0 0x10 [1]] with pes := [{ accel .check 0 false with ctx := [(0, 7)] }] } ∧
    ∃ t, step { sys pe1 pe2 [.coreStore 0 0x10 [1]] with pes := [{ accel .check 0 false with ctx := [(0, 7)] }] } =
      .next t := by
  refine ⟨?_, _, rfl⟩
  intro pe hpe
  simp only [List.mem_singleton] at hpe
  subst hpe
  refine ⟨by decide, by decide, by decide, ?_⟩
  intro c hc
  cases hc
  decide

/-- `TranslationAndSessionInvariantsAreKept`: a session at the end of its context. -/
theorem witness_sessionOk : sessionOk (accel .saveWrite 4096 false) ∧ sessionOk (accel .wait 0 true) := by
  refine ⟨?_, ?_⟩ <;> intro c hc <;> cases hc <;> decide

/-- `TransportAndParametersAreKept` and `StopsOnlyWhereTheSpecDoes`: a request, a response and a cache write in flight. -/
theorem witness_transportOk :
    peIdsOk (sys pe1 pe2 []) ∧ transportOk
      { sys pe1 pe2 [.deliverRequest 0] with
        pes := [{ pe1 with cacheReqs := [(5, { fetchEntry with kind := .write, size := 1, data := [7] })] }]
        requests := [readBytes0], responses := [{ dest := 1, bytes := encodeResponse 0 0 [] }] } := by
  refine ⟨by unfold peIdsOk; decide, ?_, ?_, ?_⟩
  · intro b hb
    simp only [List.mem_singleton] at hb
    exact ⟨.readReq (head 0 0x80 0x40), by subst hb; decide⟩
  · decide
  · decide

/-- `OnlyPrivilegedWritesConfigure` and `CreditsStayWithinTheirLimit`: a SEND that takes the last credit. -/
theorem witness_CreditsStayWithinTheirLimit :
    let s := sys (running 1 3 0x100 8 0 pe1) pe2 [.engine 1]
    (∃ t, step s = .next t) ∧ eventPrivileged (nextEvent s) = false ∧
      s.pes[1]? = some (running 1 3 0x100 8 0 pe1) ∧ (running 1 3 0x100 8 0 pe1).eps[3]? = some send3 ∧
      after (step s) (fun t => (t.pes[1]?).bind fun pe => pe.eps[3]?) = some { send3 with credit := 0x10000 } ∧
      epType send3 = 1#3 ∧ (epCredits send3).toNat ≤ (epMaxCredits send3).toNat :=
  ⟨⟨_, rfl⟩, rfl, rfl, rfl, by decide, by decide, by decide⟩

/-- A message to an endpoint of PE 1 that cannot receive it, and its packet. -/
def strayMessage : List Byte := encode (.message { head 1 0 32 with dstEp := 3 } (h1 ++ [1, 2, 3, 4, 5, 6, 7, 8]))

/-- `TransportAndParametersAreKept` and `StepsAreLocal`: a step of PE 1 does not concern PE 2; a step with a pulse; a message
turned away while a command runs, which records a receive error. -/
theorem witness_StepsAreLocal :
    (let s := sys (running 1 3 0x100 8 0 pe1) pe2 [.engine 1]
     (∃ t, step s = .next t) ∧ ¬ concerns s (nextEvent s) 2) ∧
    (after (step (sys { running 6 0 0 0 0 pe1 with phase := .finishPending } pe2 [.engine 1])) fun t => some t.outputs) =
      some [.wakeup 1] ∧
    after (step { sys (running 1 3 0x100 8 0 pe1) pe2 [.deliverRequest 0] with requests := [strayMessage] })
        (peOf 1 fun pe => (pe.status.getLsbD 2, pe.command, pe.result)) =
      some (true, (running 1 3 0x100 8 0 pe1).command, (running 1 3 0x100 8 0 pe1).result) := by
  refine ⟨⟨⟨_, rfl⟩, ?_⟩, by decide, by decide⟩
  rintro (h | h) <;> cases h

/-- `ContextIsFrozenDuringASwitch`: the accelerator of PE 2 in the middle of a save, which tries to change its extra state,
alone, in a part and in a race; a store of another client. -/
theorem witness_ContextIsFrozenDuringASwitch :
    let s := sys pe1 (accel .saveWrite 1024 false)
    let part : Event := .accessPart 2 (.accelExtra 0 [1]) [0x9000]
    let race : Event := .race 2 (.accelExtra 0 [1]) [(0x9000, 0)]
    ([.coreStore 2 0x8000 [1], .accelExtra 2 0 [1], part, race].map fun e => after (step (s [e])) fun _ => some ()) =
        [some (), some (), some (), some ()] ∧
      (s []).pes[2]? = some (accel .saveWrite 1024 false) ∧
      (accel .saveWrite 1024 false).session = some (accelSession .saveWrite 1024 false) ∧
      [Event.coreStore 2 0x8000 [1], .accelExtra 2 0 [1], part, race].map (stepsCtxSwitch 2) =
        [false, false, false, false] ∧
      Memory.wf (accel .saveWrite 1024 false).mem :=
  ⟨by decide, rfl, rfl, by decide, by decide⟩

/-- An accelerator that may run, its extra state of 512 bytes, its buffer at the given address. -/
def computing (buf : Word) : Pe := { buffering .check 0 buf with accelStateSize := 512 }

/-- `StoresOfTheEnvironmentTakeEffect`: each store at the last place of its space and one byte later: the core's, the
scheduler's, the accelerator's into its context, and into its extra state, whose end is 512 or where local memory ends. -/
theorem witness_StoresOfTheEnvironmentTakeEffect :
    (nextAt (sys pe1 pe2 [.coreStore 1 0xFFFF [1]]) (.coreStore 1 0xFFFF [1]) 1 pe1 ∧ Memory.wf pe1.mem ∧
      Memory.wf pe1.ctx ∧ (0xFFFF#64).toNat + 1 ≤ pe1.cfg.memSize ∧ pe1.cfg.memSize < (0xFFFF#64).toNat + 2) ∧
    (nextAt (sys pe1 pe2 [.schedulerWrite 1 2]) (.schedulerWrite 1 2) 1 pe1 ∧
      pe1.cfg.rctmuxFlags.toNat + 8 ≤ pe1.cfg.memSize ∧ (0xFFF8#64).toNat + 8 ≤ pe1.cfg.memSize ∧
      pe1.cfg.memSize < (0xFFF9#64).toNat + 8) ∧
    (let pe := computing 0xEE00
     pe.session = some (accelSession .check 0 false) ∧ (accelSession .check 0 false).ctxSwPending = false ∧
       nextAt (sys pe1 pe [.accelContext 2 4095 [1]]) (.accelContext 2 4095 [1]) 2 pe ∧ 4095 + 1 ≤ 4096 ∧ 4096 < 4096 + 1 ∧
       nextAt (sys pe1 pe [.accelExtra 2 511 [1]]) (.accelExtra 2 511 [1]) 2 pe ∧
       511 + 1 ≤ pe.accelStateSize.toNat ∧ pe.accelStateSize.toNat < 512 + 1 ∧
       (pe.cfg.bufferAddr + 4096 + BitVec.ofNat 64 511).toNat + 1 ≤ pe.cfg.memSize ∧
       (computing 0xEE01).cfg.memSize < ((computing 0xEE01).cfg.bufferAddr + 4096 + BitVec.ofNat 64 511).toNat + 1) :=
  ⟨⟨⟨rfl, rfl⟩, by decide, by decide, by decide, by decide⟩, ⟨⟨rfl, rfl⟩, by decide, by decide, by decide⟩,
    rfl, rfl, ⟨rfl, rfl⟩, by decide, by decide, ⟨rfl, rfl⟩, by decide, by decide, by decide, by decide⟩

/-- R381: while it may run, the accelerator changes the last byte of its context and of its extra state. -/
theorem test_accelerator_stores :
    after (step (sys pe1 (computing 0xEE00) [.accelContext 2 4095 [9]])) (peOf 2 fun pe => readByte pe.ctx 4095) =
      some 9#8 ∧
    after (step (sys pe1 (computing 0xEE00) [.accelExtra 2 511 [9]])) (peOf 2 fun pe => readByte pe.mem 0xFFFF) =
      some 9#8 := by decide

/-- PE 1, which requests are in flight to. -/
def racing (pe : Pe) (agenda : List Event) (requests : List Instr) : State :=
  { sys pe pe2 agenda with requests := requests.map encode }

/-- The core's store of four bytes, in all tests of races. -/
def storing : Racer := .coreStore 0x40 [1, 2, 3, 4]

/-- R86, R99: the core's store in progress is torn against two reads, served one after the other: the first finds its third
byte, the second its third and fourth. -/
theorem test_race_two_reads :
    let r : Instr := .readReq (head 1 0x42 4)
    after (Host.Core.run Sys2Proof.core 5 (racing pe1
        [.accessPart 1 storing [0x42], .deliverRequest 0, .accessPart 1 storing [0x43], .deliverRequest 0,
          .race 1 storing []] [r, r]))
      (fun t => some (t.responses.map fun a => responseData a.bytes)) = some [[3, 0, 0, 0], [3, 4, 0, 0]] := by decide

/-- R86, R97: a served write of [5, 6, 7, 8] at 0x42 in progress is torn against the reads of two chunks, of four bytes each:
of the two bytes of it that each reads, the second is the written one. -/
theorem test_race_two_chunks :
    let x : Xfer := { xferAt .localRead .translate 0x40 8 with done := 0, chunkIndex := 0 }
    let w : Instr := .writeReq (head 1 0x42 4) [5, 6, 7, 8]
    let s : State :=
      { racing { inXfer x with cfg := { PeConfig.ref with bufChunkSize := 4 } }
          [.accessPart 1 (.request (encode w)) [0x43], .transfer 1, .deliverResponse 0,
            .accessPart 1 (.request (encode w)) [0x45], .transfer 1, .race 1 (.request (encode w)) []] [w] with
        responses := [{ dest := 1, bytes := encodeResponse 0 (tagWord 0 0) [] }] }
    after (Host.Core.run Sys2Proof.core 6 s)
      (fun t => some (t.requests.map (List.drop 32), peOf 1 (fun pe => readBytes pe.mem 0x41 6) t)) =
      some ([[0, 0, 0, 6], [0, 8, 0, 0]], some [0, 5, 6, 7, 8, 0]) := by decide

/-- R86: a read in progress while the core and the accelerator store to the same three bytes: one byte from before both, one
from between them, one from after both. -/
def underTwoWriters (order : List (Nat × Nat)) : State :=
  racing (computing 0xEE00)
    [.accessPart 1 (.request (encode (.readReq (head 1 0xFE00 3)))) [], .coreStore 1 0xFE00 [1, 1, 1],
      .accelExtra 1 0 [2, 2, 2], .race 1 (.request (encode (.readReq (head 1 0xFE00 3)))) order]
    [.readReq (head 1 0xFE00 3)]

theorem test_race_two_writers :
    after (Host.Core.run Sys2Proof.core 4 (underTwoWriters [(0xFE00, 0), (0xFE01, 1)]))
      (fun t => t.responses.head?.map fun a => responseData a.bytes) = some [0, 1, 2] := by decide

/-- R86: a WRITE_REQ that overlaps the core's store, of which each racing byte ends as one agent's. -/
theorem test_race_write :
    after (Host.Core.run Sys2Proof.core 3 (racing pe1
        [.accessPart 1 storing [0x42], .deliverRequest 0, .race 1 storing []]
        [.writeReq (head 1 0x42 4) [5, 6, 7, 8]]))
      (peOf 1 fun pe => readBytes pe.mem 0x40 6) = some [1, 2, 5, 4, 7, 8] := by decide

/-- R86: "no larger access is atomic": a read of nine bytes in progress finds the scheduler's write of the flag word torn. -/
theorem test_race_flag_word_torn :
    let r : Instr := .readReq (head 1 0x3000 9)
    after (Host.Core.run Sys2Proof.core 3 (racing pe1
        [.accessPart 1 (.request (encode r)) [], .schedulerWrite 1 0x0202020202020202,
          .race 1 (.request (encode r)) [(0x3000, 0)]] [r]))
      (fun t => t.responses.head?.map fun a => responseData a.bytes) = some [0, 2, 2, 2, 2, 2, 2, 2, 0] := by decide

/-- R86: the core's store of nine bytes from the flag word on has stored the first of them: a read of nine bytes finds it
half-done, one of exactly the flag word comes after the whole store. -/
theorem test_race_flag_word_read :
    let read (n : Word) (steps : Nat) : Option (List Byte) :=
      after (Host.Core.run Sys2Proof.core steps (racing pe1
          [.accessPart 1 (.coreStore 0x3000 [1, 2, 3, 4, 5, 6, 7, 8, 9]) [0x3000], .deliverRequest 0]
          [.readReq (head 1 0x3000 n)]))
        (fun t => t.responses.head?.map fun a => responseData a.bytes)
    read 9 2 = some [1, 0, 0, 0, 0, 0, 0, 0, 0] ∧ read 8 2 = none ∧ read 8 3 = some [1, 2, 3, 4, 5, 6, 7, 8] := by decide

/-- R99: what the core has begun to store is performed before its next store. -/
theorem test_race_own_next_access :
    let s := racing pe1 [.accessPart 1 storing [0x42], .coreStore 1 0x40 [9, 9]] []
    [1, 2, 3].map (fun n => after (Host.Core.run Sys2Proof.core n s) (peOf 1 fun pe => readBytes pe.mem 0x40 4)) =
      [some [0, 0, 3, 0], some [1, 2, 3, 4], some [9, 9, 3, 4]] := by decide

/-- R99: what a message has begun to store is performed before its endpoint is reconfigured, which would undo it. -/
theorem test_race_reconfiguration :
    let m : Instr := .message (head 1 0 32) (h1 ++ [1, 2, 3, 4, 5, 6, 7, 8])
    let pe : Pe := { pe1 with eps := [ep0, recv1] }
    let s := racing pe [.accessPart 1 (.request (encode m)) [0x2000], .clientWrite 1 (regAddr pe 12) 8 0 true] [m]
    [1, 2, 3].map (fun n => after (Host.Core.run Sys2Proof.core n s) (peOf 1 fun pe => (epMsgCount (epAt pe 1), isRecv pe 1))) =
      [some (0, true), some (1, true), some (1, false)] := by decide

/-- R510, R9: the store of a message that overlaps a finish step is a step of its own; each step emits its own pulse. -/
theorem test_race_one_pulse_a_step :
    let pe : Pe := { running 6 0 0 0 0 pe1 with phase := .finishPending, coreWaiting := true, eps := [ep0, recv1] }
    let m : Instr := .message (head 1 0 32) (h1 ++ [1, 2, 3, 4, 5, 6, 7, 8])
    let s := racing pe [.accessPart 1 (.request (encode m)) [0x2000], .engine 1, .race 1 (.request (encode m)) []] [m]
    [1, 2, 3].map (fun n => after (Host.Core.run Sys2Proof.core n s) fun t => some t.outputs) =
      [some [], some [.wakeup 1], some [.wakeup 1]] := by decide

/-- `EveryAccessMayRace`: an event that is no access; an access of each condition that may be in progress, and one that is the
flag word, or all but a byte of it; a part of a store whose last byte is the last of local memory, of which a byte is stored
before; its step, with an order; a plain store, which another agent's access in progress outlasts; what is stored early, over
another agent's event, and over the step of another access that has to be performed first. -/
theorem witness_EveryAccessMayRace :
    let store : Racer := .coreStore 0xFFFE [1, 2]
    let w : Instr := .writeReq (head 1 0xFFFF 1) [7]
    let own : OpenAccess := { pe := 1, agent := .core, access := store, moments := [[(0xFFFF, 9)]], stored := [0xFFFE] }
    let other : OpenAccess :=
      { pe := 1, agent := .memoryUnit, access := .request (encode w), moments := [], stored := [0xFFFF] }
    let away : OpenAccess := { own with pe := 2 }
    let s (e : Event) : State := { racing pe1 [e] [w] with accesses := [own, other, away] }
    (let s0 : State := { s (.setCoreWaiting 1 true) with accesses := [other] }
     eventAccess s0 (nextEvent s0) = none ∧ ∃ t, step s0 = .next t) ∧
    (Memory.wf pe1.mem ∧ racerAgent (s (.engine 1)) 1 store = some .core ∧ flagAccess pe1 store = false ∧
      (running 1 3 0 8 0 pe1).phase = .execPending ∧
      chunkMayRead (inXfer (xferAt .localRead .translate 0x400 100)) = true ∧
      (accelSession .saveWrite 0 false).state.isLocal = true ∧ accelMayRun (accelSession .check 0 false) = true ∧
      flagAccess pe1 (.coreStore 0x3000 [0, 0, 0, 0, 0, 0, 0, 0]) = true ∧
      flagAccess pe1 (.coreStore 0x3000 [0, 0, 0, 0, 0, 0, 0]) = false) ∧
    (let e : Event := .accessPart 1 store [0xFFFE, 0xFFFF]
     nextEvent (s e) = e ∧ underWay (s e).accesses 1 .core store = own ∧ 0xFFFF < pe1.cfg.memSize ∧
       (after (step (s e)) fun t => some (t.accesses, readByte (memoryAt t 1) 0xFFFE, readByte (memoryAt t 1) 0xFFFF)) =
         some ([{ other with moments := [pe1.mem] }, away, { own with stored := [0xFFFE, 0xFFFF] }], 0, 2) ∧
       nextEvent (s (.accessPart 1 (.schedulerWrite 1) [0x3000])) = .accessPart 1 (.schedulerWrite 1) [0x3000]) ∧
    (let e : Event := .race 1 store [(0xFFFF, 0)]
     nextEvent (s e) = e ∧ storesTo 1 store (s e) 0xFFFE = true ∧ storesTo 1 store (s e) 0xFFFD = false ∧
       (after (step (s e)) fun t => some (t.accesses, readByte (memoryAt t 1) 0xFFFE, readByte (memoryAt t 1) 0xFFFF)) =
         some ([{ other with moments := [pe1.mem] }, away], 0, 2)) ∧
    (let e : Event := .coreStore 1 0 [1]
     let s1 : State := { s e with accesses := [other] }
     eventRacer s1 (nextEvent s1) = some (1, .coreStore 0 [1], []) ∧
       (after (step s1) fun t => some (t.accesses, plannedByte 1 other.access t 0xFFFF)) =
         some ([{ other with moments := [pe1.mem] }], some 7) ∧
       racerAgent s1 1 other.access = some .memoryUnit) ∧
    (let e : Event := .coreStore 1 0 [1]
     nextEvent (s e) = .race 1 store [] ∧ nextEvent (s (.race 1 store [])) = .race 1 store [] ∧ other ≠ own ∧
       (∃ t, step (s e) = .next t) ∧ (s e).pes.all (fun pe => decide (Memory.wf pe.mem)) = true ∧
       [own, other, away].map (fun o => (o.pe, o.agent)) = [(1, .core), (1, .memoryUnit), (2, .core)]) :=
  ⟨⟨by decide, ⟨_, rfl⟩⟩,
    ⟨by decide, rfl, by decide, rfl, by decide, by decide, by decide, by decide, by decide⟩,
    ⟨by decide, by decide, by decide, by decide, by decide⟩, ⟨by decide, by decide, by decide, by decide⟩,
    ⟨by decide, by decide, by decide⟩, ⟨by decide, by decide, by decide, ⟨_, rfl⟩, by decide, by decide⟩⟩

/-- `RacingBytesAreEitherAgents`: reads and writes that overlap the core's store by one byte at either end; a read in progress
under two writers; the engine and the scheduler at the flag word, which ends where local memory may, and a store of the core
that holds all of the word, its first byte stored early, its last not; two stores of the core. -/
theorem witness_RacingBytesAreEitherAgents :
    ((racing pe1 [] []).accesses = [] ∧ Memory.wf pe1.mem ∧ (0x40#64).toNat + 4 ≤ pe1.cfg.memSize ∧
      isFlagWord pe1 0x40 4 = false ∧ isFlagWord pe1 0x43 4 = false ∧ isFlagWord pe1 0x3D 4 = false ∧
      (head 1 0x43 4).dstPe.toNat = 1 ∧ (0x43#64).toNat + 4 ≤ pe1.cfg.memSize ∧
      (∀ a ∈ [0x40, 0x43], (0x40#64).toNat ≤ a ∧ a < (0x40#64).toNat + 4)) ∧
    ([Instr.readReq (head 1 0x43 4), .cacheMemReq (head 1 0x43 4) [], .cacheMemReqFunc (head 1 0x3D 4) [],
        .writeReq (head 1 0x43 4) [5, 6, 7, 8], .cacheMemReq { head 1 0x43 4 with write := true } [5, 6, 7, 8],
        .cacheMemReqFunc { head 1 0x3D 4 with write := true } [5, 6, 7, 8]].all
        fun i => decide (decode .noc (encode i) = .ok i)) = true ∧
    (let b := encode (.readReq (head 1 0xFE00 3))
     let s := underTwoWriters [(0xFE00, 0), (0xFFFF, 1)]
     isFlagWord (computing 0xEE00) 0xFE00 3 = false ∧ 0xFFFF < (computing 0xEE00).cfg.memSize ∧
       eventRacer s (.coreStore 1 0xFE00 [1, 1, 1]) = some (1, .coreStore 0xFE00 [1, 1, 1], []) ∧
       eventRacer s (.accelExtra 1 0 [2, 2, 2]) = some (1, .accelExtra 0 [2, 2, 2], []) ∧
       racerAgent s 1 (.coreStore 0xFE00 [1, 1, 1]) = some .core ∧
       racerAgent s 1 (.accelExtra 0 [2, 2, 2]) = some .accelerator ∧
       (after (Host.Core.run Sys2Proof.core 3 s) fun t =>
         some (t.requests.contains b, decide (Memory.wf (memoryAt t 1)))) = some (true, true)) ∧
    ((accel .check 0 false).session = some (accelSession .check 0 false) ∧ Memory.wf (accel .check 0 false).mem ∧
      (accel .check 0 false).cfg.rctmuxFlags.toNat = 0x3000 ∧ 0x3000 + 8 ≤ (accel .check 0 false).cfg.memSize ∧
      isFlagWord (accel .check 0 false) 0x2FFF 9 = false ∧ (0x2FFF#64).toNat + 9 ≤ (accel .check 0 false).cfg.memSize ∧
      (∀ a ∈ [0x3000], (0x2FFF#64).toNat ≤ a ∧ a < (0x2FFF#64).toNat + 9) ∧ 0x3007 ∉ [0x3000] ∧
      0x3007 < (0x2FFF#64).toNat + 9) ∧
    (sys pe1 pe2 [.accessPart 1 (.coreStore 0 [1]) [0], .race 1 (.coreStore 0 [2]) [(0, 0)]]).accesses = [] ∧
    isFlagWord pe1 0 1 = false ∧ [1#8] ≠ [2#8] :=
  ⟨⟨rfl, by decide, by decide, by decide, by decide, by decide, by decide, by decide, by decide⟩, by decide,
    ⟨by decide, by decide, rfl, rfl, rfl, rfl, by decide⟩,
    ⟨rfl, by decide, by decide, by decide, by decide, by decide, by decide, by decide, by decide⟩,
    rfl, by decide, by decide⟩

/-- `ShortCommandsComplete`: WAKEUP_CORE, opcode 7, and INC_READ_PTR on the first id that names no endpoint. -/
theorem witness_ShortCommandsComplete :
    let s := sys (accel .check 0 false) pe2
      [.clientWrite 1 (regAddr pe1 1) 8 ((6#3).setWidth 64 ||| ((0#8).setWidth 64 <<< 3)) false, .engine 1, .engine 1]
    (∀ o ∈ s.accesses, o.stored = []) ∧ s.pes[1]? = some (accel .check 0 false) ∧
      engineOk (accel .check 0 false) ∧ (accel .check 0 false).phase = .idle ∧ isRecv (accel .check 0 false) 8 = false :=
  ⟨by decide, rfl, accel_engineOk _ _ _, rfl, by decide⟩

end Sys2Proof.Tests
end

section
/-! SUPPORT. What the register file and a client's access to it do, said once (10_state.md R31 to R34, R41, R45, R46): an
equation for each kind of register index, the bits of STATUS after a write, and the step of a client's access. -/

namespace Sys2Proof.Machine

/-! ### The endpoint registers (R30, R41) -/

/-- One register of an endpoint after one was replaced. -/
theorem endpointReg_putEndpointReg (e : Endpoint) (j j' : Nat) (v : Word) (hj : j < 4) (hj' : j' < 4) :
    endpointReg (putEndpointReg e j v) j' = if j' = j then v else endpointReg e j' := by
  interval_cases j <;> interval_cases j' <;> rfl

/-- Index `k + 8` is register `k % 4` of endpoint `k / 4`, and reads 0 past the last endpoint. -/
theorem regRead_endpoint (pe : Pe) (k : Nat) :
    regRead pe (k + 8) = ((pe.eps[k / 4]?).map (endpointReg · (k % 4))).getD 0 := by
  simp only [regRead]
  cases pe.eps[k / 4]? <;> rfl

@[simp] theorem regWrite_endpoint_unprivileged (pe : Pe) (k : Nat) (v : Word) : regWrite (k + 8) v false pe = pe := rfl

/-- A privileged write past the last endpoint leaves the endpoints too. -/
theorem regWrite_endpoint_privileged (pe : Pe) (k : Nat) (v : Word) :
    regWrite (k + 8) v true pe = { pe with eps := pe.eps.modify (k / 4) (putEndpointReg · (k % 4) v) } := by
  simp only [regWrite, if_true]
  cases hk : pe.eps[k / 4]? <;> simp [List.modify_eq_set_getElem?, hk]

/-- The endpoint registers after one was replaced: that register reads the word written, every other as before. -/
theorem regRead_modify (pe : Pe) (k j : Nat) (v : Word) (hk : k < 4 * pe.eps.length) :
    regRead { pe with eps := pe.eps.modify (k / 4) (putEndpointReg · (k % 4) v) } j =
      if j = k + 8 then v else regRead pe j := by
  by_cases hj : j < 8
  · have hne : j ≠ k + 8 := by omega
    rw [if_neg hne]
    interval_cases j <;> rfl
  · obtain ⟨i, rfl⟩ : ∃ i, j = i + 8 := ⟨j - 8, by omega⟩
    rw [regRead_endpoint, regRead_endpoint]
    simp only [List.getElem?_modify]
    by_cases hq : k / 4 = i / 4
    · have hlt : i / 4 < pe.eps.length := by omega
      have hreg : i = k ↔ i % 4 = k % 4 := by omega
      simp [hq, hlt, hreg, endpointReg_putEndpointReg _ _ _ _ (Nat.mod_lt k (by omega)) (Nat.mod_lt i (by omega))]
    · have hne : i ≠ k := by rintro rfl; exact hq rfl
      simp [hq, hne]

/-- Below the endpoint registers a write does not look at the privilege (R45). -/
theorem regWrite_below (pe : Pe) {i : Nat} (v : Word) (priv : Bool) (h : i < 8) :
    regWrite i v priv pe = regWrite i v false pe := by
  interval_cases i <;> rfl

/-- An unprivileged write changes no endpoint (R45). -/
@[simp] theorem regWrite_unprivileged_eps (i : Nat) (v : Word) (pe : Pe) : (regWrite i v false pe).eps = pe.eps := by
  have argument : ∀ stored : Pe, stored.eps = pe.eps → (writeArgument pe stored).eps = pe.eps := by
    intro stored h
    unfold writeArgument
    split
    · rfl
    · exact h
  match i with
  | 0 => rfl
  | 1 =>
    simp only [regWrite, writeCommand]
    split
    · rfl
    · split <;> rfl
  | 2 => exact argument _ rfl
  | 3 => exact argument _ rfl
  | 4 => exact argument _ rfl
  | 5 => exact argument _ rfl
  | 6 => exact argument _ rfl
  | 7 => rfl
  | k + 8 => rfl

/-- A reserved index (R32): the one below the endpoint registers, or one past them. -/
theorem reserved_index_cases {n i : Nat} (h : i = 7 ∨ 8 + 4 * n ≤ i) : i = 7 ∨ ∃ k, i = k + 8 ∧ n ≤ k / 4 :=
  h.imp_right fun h => ⟨i - 8, by omega, by omega⟩

theorem regRead_reserved (pe : Pe) {i : Nat} (h : i = 7 ∨ 8 + 4 * pe.eps.length ≤ i) : regRead pe i = 0#64 := by
  rcases reserved_index_cases h with rfl | ⟨k, rfl, hk⟩
  · rfl
  · rw [regRead_endpoint, List.getElem?_eq_none hk]
    rfl

theorem regWrite_reserved (pe : Pe) {i : Nat} (v : Word) (priv : Bool) (h : i = 7 ∨ 8 + 4 * pe.eps.length ≤ i) :
    regWrite i v priv pe = pe := by
  rcases reserved_index_cases h with rfl | ⟨k, rfl, hk⟩
  · rfl
  · cases priv with
    | false => rfl
    | true => rw [regWrite_endpoint_privileged, List.modify_eq_self hk]

/-! ### The predicates on endpoint ids (R46) -/

/-- An id names an endpoint of a type exactly when that endpoint exists and has it. -/
theorem validEp_and_epType_iff (pe : Pe) (n : EpId) (ty : BitVec 3) :
    (validEp pe n && epType (epAt pe n) == ty) = true ↔ ∃ e, pe.eps[n.toNat]? = some e ∧ epType e = ty := by
  simp only [Bool.and_eq_true, beq_iff_eq]
  constructor
  · rintro ⟨hvalid, hty⟩
    exact ⟨_, getElem?_of_validEp hvalid, hty⟩
  · rintro ⟨e, he, hty⟩
    exact ⟨validEp_eq he, epAt_eq he ▸ hty⟩

/-! ### STATUS (R34) -/

/-- Every bit of a word after one bit was replaced. -/
theorem getLsbD_putBit (w : Word) (i k : Nat) (b : Bool) (hi : i < 64) :
    (putBit w i b).getLsbD k = if k = i then b else w.getLsbD k := by
  have hk : (i ≤ k ∧ k < i + 1) ↔ k = i := by omega
  rw [putBit, getLsbD_putField]
  simp only [hk]
  split
  · subst k
    simp [hi]
  · rfl

/-- The receive error record is bit 2 and bits 23:8. -/
theorem getLsbD_clearRecvErr (w : Word) (k : Nat) :
    (clearRecvErr w).getLsbD k = if k = 2 ∨ (8 ≤ k ∧ k < 24) then false else w.getLsbD k := by
  simp only [clearRecvErr, getLsbD_putField, getLsbD_putBit _ 2 k false (by omega)]
  grind

theorem getLsbD_statusAfterWrite (w v : Word) (k : Nat) :
    (statusAfterWrite w v).getLsbD k =
      if (k = 1 ∧ v.getLsbD 1 = true) ∨ ((k = 2 ∨ (8 ≤ k ∧ k < 24)) ∧ v.getLsbD 2 = true) then false
      else w.getLsbD k := by
  have rejected : (if bitAt v 1 then putBit w 1 false else w).getLsbD k =
      if k = 1 ∧ v.getLsbD 1 = true then false else w.getLsbD k := by
    cases h1 : v.getLsbD 1 <;> simp only [bitAt, h1] <;> simp [getLsbD_putBit]
  unfold statusAfterWrite
  cases h2 : v.getLsbD 2 <;> simp only [bitAt, h2] at rejected ⊢
  · simpa using rejected
  · simp only [if_true, getLsbD_clearRecvErr, rejected]
    grind

/-! ### A client's access (R31) -/

theorem decodeCommand_idle {v : Word} (h : opcodeOf v = 0#3) : decodeCommand v = .idle (epIdOf v) := by
  rw [decodeCommand, h]
  rfl

/-- The instruction IDLE is the write of its word to COMMAND, alike with and without privilege (40_command_engine.md R210). -/
theorem exec_idle (ep : EpId) (priv : Bool) (s : State) :
    exec (.idle ep) s = onActive s fun _ pe => regWrite 1 (commandWord 0#3 ep errNone) priv pe := rfl

theorem stepClientRead_regAddr {s : State} {p : Nat} {pe : Pe} {i : Nat} (hp : s.pes[p]? = some pe) (hi : i < 2 ^ 61) :
    stepClientRead s p (regAddr pe i) 8 =
      .next (commit s p { pe := pe, outputs := [.regValue (peId p) i (regRead pe i)] }) := by
  simp only [stepClientRead, hp, regAccess_regAddr pe i hi]

theorem stepClientWrite_regAddr {s : State} {p : Nat} {pe : Pe} {i : Nat} (v : Word) (priv : Bool)
    (hp : s.pes[p]? = some pe) (hi : i < 2 ^ 61) :
    stepClientWrite s p (regAddr pe i) 8 v priv =
      if i = 1 ∧ opcodeOf v = 0#3 then exec (.idle (epIdOf v)) { s with active := p }
      else .next (commit s p { pe := regWrite i v priv pe }) := by
  simp only [stepClientWrite, hp, regAccess_regAddr pe i hi]
  split
  · rename_i hidle
    rw [decodeCommand_idle hidle.2]
  · rfl

/-- What a client's write that answers a next state does to the PEs: nothing, or one register write. -/
theorem stepClientWrite_pes {s t : State} {p width : Nat} {addr v : Word} {priv : Bool}
    (h : stepClientWrite s p addr width v priv = .next t) :
    t.pes = s.pes ∨ ∃ pe i w, s.pes[p]? = some pe ∧ t.pes = s.pes.set p (regWrite i w priv pe) := by
  unfold stepClientWrite at h
  split at h
  · cases h
    exact .inl rfl
  · rename_i pe hp
    split at h
    · split at h
      · rename_i hidle
        rw [decodeCommand_idle hidle.2, exec_idle _ priv] at h
        obtain ⟨pe', hp', rfl⟩ := onActive_next h
        exact .inr ⟨pe', 1, _, hp', rfl⟩
      · cases h
        exact .inr ⟨pe, _, _, hp, rfl⟩
    · cases h
    · cases h

/-- A client's unprivileged write changes no endpoint of any PE (R45). -/
theorem stepClientWrite_unprivileged_eps {s t : State} {p width : Nat} {addr v : Word}
    (h : stepClientWrite s p addr width v false = .next t) (q : Nat) :
    (t.pes[q]?).map Pe.eps = (s.pes[q]?).map Pe.eps := by
  rcases stepClientWrite_pes h with ht | ⟨pe, i, w, hp, ht⟩ <;> rw [ht]
  by_cases hq : p = q
  · subst q
    rw [pes_set_get hp, hp]
    simp
  · rw [List.getElem?_set_ne hq]

end Sys2Proof.Machine
end

section
/-! SUPPORT. What the engines write of an endpoint (10_state.md R45), said once: the four ways in which a step that is no
privileged register write changes one, that each step of a PE changes each of its endpoints in at most one of them, and that
every step of the system does to each PE one step of a PE, but for the bytes of its local memory. -/

namespace Sys2Proof.Machine

/-! ### What is written of one endpoint -/

/-- What a step that is no privileged register write can make of an endpoint. -/
inductive EngineWrite (e : Endpoint) : Endpoint → Prop where
  | kept : EngineWrite e e
  /-- SEND takes a credit (41_message_unit.md R241). -/
  | spend (hsend : epType e = 1#3) (hcredit : epCredits e ≠ 0#16) : EngineWrite e (spendCredit e)
  /-- A message returns a credit (R252). -/
  | grant (hsend : epType e = 1#3) (hroom : (epCredits e).toNat < (epMaxCredits e).toNat) :
    EngineWrite e (putCredits e (epCredits e + 1#16))
  /-- INC_READ_PTR (40_command_engine.md R212). -/
  | readPtr (hrecv : epType e = 2#3) (hmsg : epMsgCount e ≠ 0#16) : EngineWrite e (advanceReadPtr e)
  /-- A message is stored (R254). -/
  | writePtr (hrecv : epType e = 2#3) (hslot : (epMsgCount e).toNat < (epNumSlots e).toNat) :
    EngineWrite e (advanceWritePtr e)

theorem EngineWrite.config_eq {e e' : Endpoint} (h : EngineWrite e e') :
    e'.cfg0 = e.cfg0 ∧ e'.cfg1 = e.cfg1 ∧ e'.cfg2 = e.cfg2 := by
  cases h <;> exact ⟨rfl, rfl, rfl⟩

theorem EngineWrite.credit_eq_or_type {e e' : Endpoint} (h : EngineWrite e e') :
    e'.credit = e.credit ∨ epType e = 1#3 ∨ epType e = 2#3 := by
  cases h with
  | kept => exact .inl rfl
  | spend hsend | grant hsend => exact .inr (.inl hsend)
  | readPtr hrecv | writePtr hrecv => exact .inr (.inr hrecv)

/-- Of a SEND endpoint only `CREDITS`, bits 15:0, is written. -/
theorem EngineWrite.send_bits {e e' : Endpoint} (h : EngineWrite e e') (hsend : epType e = 1#3) {k : Nat} (hk : 16 ≤ k) :
    e'.credit.getLsbD k = e.credit.getLsbD k := by
  have outside : ∀ v : BitVec 16, (putField e.credit 0 v).getLsbD k = e.credit.getLsbD k := by
    intro v
    rw [getLsbD_putField, if_neg (by omega)]
  cases h with
  | kept => rfl
  | spend | grant => exact outside _
  | readPtr hrecv | writePtr hrecv => simp [hsend] at hrecv

/-- Of a RECEIVE endpoint only `RD_PTR`, `WR_PTR` and `MSG_COUNT`, bits 47:0, are written. -/
theorem EngineWrite.receive_bits {e e' : Endpoint} (h : EngineWrite e e') (hrecv : epType e = 2#3) {k : Nat} (hk : 48 ≤ k) :
    e'.credit.getLsbD k = e.credit.getLsbD k := by
  have outside : ∀ (w : Word) (lo : Nat) (v : BitVec 16), lo ≤ 32 → (putField w lo v).getLsbD k = w.getLsbD k := by
    intro w lo v hlo
    rw [getLsbD_putField, if_neg (by omega)]
  cases h with
  | kept => rfl
  | spend hsend | grant hsend => simp [hrecv] at hsend
  | readPtr | writePtr => exact (outside _ 32 _ (by omega)).trans (outside _ _ _ (by omega))

/-! ### What a step of a PE writes of its endpoints -/

/-- Each endpoint of a PE is written in at most one of the engines' ways. -/
def EngineWrites (pe pe' : Pe) : Prop :=
  ∀ (n : Nat) (e e' : Endpoint), pe.eps[n]? = some e → pe'.eps[n]? = some e' → EngineWrite e e'

theorem EngineWrites.of_eps_eq {pe pe' : Pe} (h : pe'.eps = pe.eps) : EngineWrites pe pe' := by
  intro n e e' he he'
  rw [h, he] at he'
  cases he'
  exact .kept

theorem EngineWrites.of_eps_set {pe pe' : Pe} {ep : EpId} {v : Endpoint} (h : pe'.eps = pe.eps.set ep.toNat v)
    (hv : EngineWrite (epAt pe ep) v) : EngineWrites pe pe' := by
  intro n e e' he he'
  by_cases hn : ep.toNat = n
  · subst n
    rw [h, List.getElem?_set_self (List.getElem?_eq_some_iff.1 he).1] at he'
    cases he'
    exact epAt_eq he ▸ hv
  · rw [h, List.getElem?_set_ne hn, he] at he'
    cases he'
    exact .kept

theorem sendExecute_engineWrites (ep : EpId) (me : PeId) (pe : Pe) : EngineWrites pe (sendExecute ep me pe) := by
  rcases sendExecute_cases ep me pe with ⟨_, h⟩ | ⟨hsend, hcredit, _, h⟩ <;> rw [h]
  · exact .of_eps_eq rfl
  · exact .of_eps_set rfl (.spend (isSend_some hsend).2 hcredit)

theorem incReadPtrExecute_engineWrites (ep : EpId) (pe : Pe) : EngineWrites pe (incReadPtrExecute ep pe) := by
  rcases incReadPtrExecute_cases ep pe with ⟨_, h⟩ | ⟨hrecv, hmsg, h⟩ <;> rw [h]
  · exact .of_eps_eq rfl
  · exact .of_eps_set rfl (.readPtr (isRecv_some hrecv).2 hmsg)

theorem grantCredit_engineWrites (c : EpId) (pe : Pe) : EngineWrites pe (grantCredit c pe) := by
  rcases grantCredit_cases c pe with ⟨hsend, hroom, h⟩ | h <;> rw [h]
  · exact .of_eps_set rfl (.grant (isSend_some hsend).2 hroom)
  · exact .of_eps_eq rfl

/-- A credit return writes SEND endpoints only, so a RECEIVE endpoint is after it as before. -/
theorem grantCredit_receive (c : EpId) {pe : Pe} {n : Nat} {e e' : Endpoint} (he : pe.eps[n]? = some e)
    (he' : (grantCredit c pe).eps[n]? = some e') (hrecv : epType e' = 2#3) : e' = e := by
  rcases grantCredit_cases c pe with ⟨hsend, _, h⟩ | h <;> rw [h] at he'
  · by_cases hn : c.toNat = n
    · subst n
      rw [setEp_eps, List.getElem?_set_self (List.getElem?_eq_some_iff.1 he).1] at he'
      cases he'
      have hty : epType (epAt pe c) = 2#3 := hrecv
      rw [(isSend_some hsend).2] at hty
      cases hty
    · rw [setEp_eps, List.getElem?_set_ne hn, he] at he'
      cases he'
      rfl
  · rw [recvError_eps, he] at he'
    cases he'
    rfl

/-- The receipt of a message after its grant, which leaves RECEIVE endpoints, so that no endpoint is written twice. -/
theorem acceptMessage_engineWrites (h : PacketHead) (payload : List Byte) {pe granted : Pe}
    (hgrant : EngineWrites pe granted)
    (hreceive : ∀ (n : Nat) (e e' : Endpoint), pe.eps[n]? = some e → granted.eps[n]? = some e' → epType e' = 2#3 → e' = e) :
    EngineWrites pe (acceptMessage h payload granted).pe := by
  rcases acceptMessage_cases h payload granted with ⟨_, _, ha⟩ | ⟨m, hrecv, hslot, _, ha⟩ <;> rw [ha]
  · exact hgrant
  · obtain ⟨hat, hty⟩ := isRecv_some hrecv
    intro n e e' he he'
    by_cases hn : h.dstEp.toNat = n
    · subst n
      have heq : epAt granted h.dstEp = e := hreceive _ _ _ he hat hty
      rw [setEp_eps, List.getElem?_set_self (List.getElem?_eq_some_iff.1 hat).1] at he'
      cases he'
      rw [heq] at hty hslot ⊢
      exact .writePtr hty hslot
    · rw [setEp_eps, List.getElem?_set_ne hn] at he'
      exact hgrant n e e' he he'

theorem receiveMessage_engineWrites (h : PacketHead) (payload : List Byte) (pe : Pe) :
    EngineWrites pe (receiveMessage h payload pe).pe := by
  rcases receiveMessage_cases h payload pe with hr | ⟨granted, hg, hr⟩ <;> rw [hr]
  · exact .of_eps_eq rfl
  · rcases hg with rfl | rfl
    · refine acceptMessage_engineWrites h payload (.of_eps_eq rfl) fun n e e' he he' _ => ?_
      exact Option.some.inj (he'.symm.trans he)
    · exact acceptMessage_engineWrites h payload (grantCredit_engineWrites _ pe)
        fun _ _ _ he he' => grantCredit_receive _ he he'

/-! ### The steps that write no endpoint -/

@[simp] theorem replyExecute_eps (ep : EpId) (me : PeId) (pe : Pe) : (replyExecute ep me pe).eps = pe.eps := by
  rcases replyExecute_cases ep me pe with ⟨_, h⟩ | ⟨_, _, _, _, _, _, h⟩ <;> rw [h] <;> rfl

@[simp] theorem memoryExecute_eps (type : XferType) (permitted : Endpoint → Bool) (ep : EpId) (pe : Pe) :
    (memoryExecute type permitted ep pe).eps = pe.eps := by
  rcases memoryExecute_cases type permitted ep pe with ⟨_, h⟩ | ⟨_, _, _, h | ⟨_, h⟩⟩ <;> rw [h] <;> rfl

theorem transferStep_eps {me : PeId} {pe : Pe} {e : Effect} (h : transferStep me pe = some e) : e.pe.eps = pe.eps := by
  obtain ⟨_, _, _, _, h⟩ := transferStep_enabled h
  obtain ⟨_, ⟨_, _, _, rfl⟩, rfl | ⟨_, rfl⟩ | ⟨_, _, _, rfl⟩ | ⟨_, _, _, rfl⟩⟩ := chunkStepA_cases h <;> rfl

@[simp] theorem issueCommand_eps (op : BitVec 3) (off : Word) (n : Nat) (pe : Pe) :
    (issueCommand op off n pe).eps = pe.eps := by
  simp [issueCommand]

/-- The context-switch engine writes registers as an unprivileged client (45_ctxswitch.md R397). -/
theorem ctxSwitchStep_eps {me : PeId} {pe : Pe} {e : Effect} (h : ctxSwitchStep me pe = some e) : e.pe.eps = pe.eps := by
  obtain ⟨_, _, _, _, _, _, h⟩ := ctxSwitchStep_cases h
  rcases h with h | ⟨_, _, _, _, h⟩ | ⟨_, _, h⟩ | ⟨_, _, _, h⟩ <;> rw [h]
  · rfl
  · rfl
  · rfl
  · simp

theorem memWrite_eps {pe pe' : Pe} {a : Nat} {bytes : List Byte} (h : memWrite pe a bytes = some pe') :
    pe'.eps = pe.eps := by
  obtain ⟨_, rfl⟩ := memWrite_eq_some.1 h
  rfl

@[simp] theorem serveWrite_eps (h : PacketHead) (payload : List Byte) (pe : Pe) :
    (serveWrite h payload pe).pe.eps = pe.eps := by
  unfold serveWrite
  split
  · rfl
  · rename_i hw
    exact memWrite_eps hw

@[simp] theorem advanceChunk_eps (x : Xfer) (pe : Pe) : (advanceChunk x pe).eps = pe.eps := by
  simp only [advanceChunk]
  split <;> rfl

@[simp] theorem chunkResponse_eps (bytes : List Byte) (pe : Pe) : (chunkResponse bytes pe).eps = pe.eps := by
  rcases chunkResponse_cases bytes pe with h | ⟨_, _, _, _, _, ⟨_, h⟩ | ⟨_, h, _⟩⟩ <;> rw [h]
  · rfl
  · simp

@[simp] theorem cacheResponse_eps (me : PeId) (bytes : List Byte) (pe : Pe) :
    (cacheResponse me bytes pe).pe.eps = pe.eps := by
  simp only [cacheResponse]
  split <;> rfl

theorem accelContextEffect_eps {off : Nat} {bytes : List Byte} {pe : Pe} {e : Effect}
    (h : accelContextEffect off bytes pe = some e) : e.pe.eps = pe.eps := by
  unfold accelContextEffect at h
  split at h
  · split at h
    · cases h
      rfl
    · cases h
  · cases h

theorem acceptCacheRequest_eps {id : OpId} {req : CacheRequest} {pe pe' : Pe}
    (h : acceptCacheRequest id req pe = some pe') : pe'.eps = pe.eps := by
  unfold acceptCacheRequest at h
  split at h
  · cases h
    rfl
  · cases h

theorem cacheTranslateStep_eps {me : PeId} {id : OpId} {pe : Pe} {e : Effect}
    (h : cacheTranslateStep me id pe = some e) : e.pe.eps = pe.eps := by
  obtain ⟨_, _, _, _, ⟨_, _, _, rfl⟩, rfl | rfl | ⟨_, rfl⟩⟩ := cacheTranslateStep_cases h <;> rfl

@[simp] theorem fillTlb_eps (me : PeId) (v : Nat) (pte : PageEntry) (pe : Pe) : (fillTlb me v pte pe).eps = pe.eps := by
  rcases fillTlb_cases me v pte pe with ⟨_, h⟩ | ⟨_, ⟨_, h⟩ | ⟨_, _, h⟩ | ⟨_, _, _, h⟩⟩ <;> rw [h]

theorem walkAnswered_eps {me : PeId} {id : Nat} {answer : WalkAnswer} {pe pe' : Pe}
    (h : walkAnswered me id answer pe = some pe') : pe'.eps = pe.eps := by
  simp only [walkAnswered, Option.map_eq_some_iff] at h
  obtain ⟨q, _, rfl⟩ := h
  obtain ⟨_, _, _, h | ⟨_, _, _, _, h⟩⟩ := takeAnswer_cases me q answer pe <;> rw [h] <;> simp

/-- A step of a PE that is no privileged register write writes of each endpoint what the engines do: SEND, INC_READ_PTR and
the receipt of a message write endpoints, every other step none. -/
theorem PeStep.engineWrites {ev : Event} {me : PeId} {pe : Pe} {e : Effect} (h : PeStep ev me pe e)
    (hev : eventPrivileged ev = false) : EngineWrites pe e.pe := by
  cases h with
  | send _ _ ep => exact sendExecute_engineWrites ep me pe
  | incReadPtr ep => exact incReadPtrExecute_engineWrites ep pe
  | receive _ _ hd payload => exact receiveMessage_engineWrites hd payload pe
  | same _ hpe => exact .of_eps_eq (by rw [hpe])
  | write => exact .of_eps_eq (by simp [hev])
  | reply => exact .of_eps_eq (replyExecute_eps _ _ _)
  | memory => exact .of_eps_eq (memoryExecute_eps _ _ _ _)
  | wakeupCore | reserved7 | finish | coreWaiting | accelStateSize => exact .of_eps_eq rfl
  | transfer _ ht => exact .of_eps_eq (transferStep_eps ht)
  | ctxSwitch _ _ _ hc => exact .of_eps_eq (ctxSwitchStep_eps hc)
  | serveWrite => exact .of_eps_eq (serveWrite_eps _ _ _)
  | chunkResponse => exact .of_eps_eq (chunkResponse_eps _ _)
  | cacheResponse => exact .of_eps_eq (cacheResponse_eps _ _ _)
  | store _ _ _ hw => exact .of_eps_eq (memWrite_eps hw)
  | accelContext _ _ _ ha => exact .of_eps_eq (accelContextEffect_eps ha)
  | cacheRequest _ _ _ ha => exact .of_eps_eq (acceptCacheRequest_eps ha)
  | cacheTranslate _ _ ht => exact .of_eps_eq (cacheTranslateStep_eps ht)
  | walkAnswer _ _ _ ha => exact .of_eps_eq (walkAnswered_eps ha)

/-! ### What a step of the system does to one PE -/

/-- Replacing bytes changes of each PE at most its local memory. -/
theorem withBytes_pe {s : State} {p : Nat} {pe : Pe} (hp : s.pes[p]? = some pe) (q : Nat) (cells : List Host.Cell) :
    ∃ m, (withBytes s q cells).pes[p]? = some { pe with mem := m } := by
  by_cases hq : q = p
  · subst q
    rw [withBytes_some hp]
    exact ⟨_, pes_set_get hp _⟩
  · rw [withBytes_other s hq]
    exact ⟨pe.mem, hp⟩

/-- An agent's step does to each PE a step of a PE, if only one that leaves it. -/
theorem Ran.pe_step {ev : Event} {s t : State} (h : Ran ev s t) {p : Nat} {pe : Pe} (hp : s.pes[p]? = some pe) :
    ∃ e, PeStep ev (peId p) pe e ∧ t.pes[p]? = some e.pe := by
  have left : PeStep ev (peId p) pe { pe := pe } := .same _ rfl rfl (by simp)
  rcases h with ⟨hpes, _⟩ | ⟨q, pe', e, _, hq, hstep, hpes, _⟩
  · exact ⟨_, left, hpes ▸ hp⟩
  · by_cases hqp : q = p
    · subst q
      rw [hp] at hq
      cases hq
      exact ⟨e, hstep, hpes ▸ pes_set_get hp _⟩
    · refine ⟨_, left, ?_⟩
      rw [hpes, List.getElem?_set_ne hqp, hp]

/-- Every step of the system does to each PE a step of a PE, with local memory as it was or replaced before it and after it;
a step of a PE is privileged only where the event is. -/
theorem step_pe {s t : State} (h : step s = .next t) {p : Nat} {pe : Pe} (hp : s.pes[p]? = some pe) :
    ∃ ev m e m', eventPrivileged ev = eventPrivileged (nextEvent s) ∧ PeStep ev (peId p) { pe with mem := m } e ∧
      t.pes[p]? = some { e.pe with mem := m' } := by
  have htaken : (takeEvent s).pes[p]? = some pe := by rwa [takeEvent_pes]
  rcases step_cases h with hran | ⟨q, r, bytes, _, rfl⟩ | ⟨q, r, order, cells, kept, u, hev, _, _, _, _, hran, rfl⟩
  · obtain ⟨e, hstep, ht⟩ := hran.pe_step hp
    exact ⟨_, pe.mem, e, e.pe.mem, rfl, hstep, ht⟩
  · obtain ⟨m, hm⟩ := withBytes_pe htaken q (partCells s.accesses q r bytes (takeEvent s))
    exact ⟨_, pe.mem, { pe := pe }, m, rfl, .same _ rfl rfl (by simp), hm⟩
  · obtain ⟨m, hm⟩ := withBytes_pe htaken q cells
    obtain ⟨e, hstep, hu⟩ := hran.pe_step hm
    obtain ⟨m', ht⟩ := withBytes_pe hu q (cellsAt (memoryAt s q) kept)
    refine ⟨_, m, e, m', ?_, hstep, ht⟩
    rw [hev]
    cases r <;> rfl

/-- A step that is no privileged register write writes of each endpoint what the engines do. -/
theorem step_engineWrites {s t : State} (h : step s = .next t) (hev : eventPrivileged (nextEvent s) = false) {p : Nat}
    {pe pe' : Pe} (hp : s.pes[p]? = some pe) (hp' : t.pes[p]? = some pe') : EngineWrites pe pe' := by
  obtain ⟨ev, m, e, m', heq, hstep, ht⟩ := step_pe h hp
  rw [ht] at hp'
  cases hp'
  exact hstep.engineWrites (heq.trans hev)

/-- A step that is an unprivileged register write changes no endpoint. -/
theorem step_unprivilegedWrite_eps {s t : State} (h : step s = .next t) {q width : Nat} {addr v : Word}
    (hev : nextEvent s = .clientWrite q addr width v false) {p : Nat} {pe pe' : Pe} (hp : s.pes[p]? = some pe)
    (hp' : t.pes[p]? = some pe') : pe'.eps = pe.eps := by
  rw [step, hev] at h
  have heps := stepClientWrite_unprivileged_eps h p
  rw [takeEvent_pes, hp, hp'] at heps
  exact Option.some.inj heps

end Sys2Proof.Machine
end

section
/-! PROOFS. The statements about the register file, a client's access to it, and who writes endpoints (10_state.md). -/

namespace Sys2Proof.Machine

/-- Settles O52: each endpoint is written in one of the engines' ways, whose bits are the fields named; a client's
unprivileged write reaches none. -/
theorem onlyPrivilegedWritesConfigure : Obligations.OnlyPrivilegedWritesConfigure := by
  intro s t h hev p pe pe' n e e' hp hp' he he'
  have hw : EngineWrite e e' := step_engineWrites h hev hp hp' n e e' he he'
  obtain ⟨h0, h1, h2⟩ := hw.config_eq
  refine ⟨h0, h1, h2, hw.credit_eq_or_type, fun hsend _ => hw.send_bits hsend, fun hrecv _ => hw.receive_bits hrecv, ?_⟩
  intro q addr width v hclient
  rw [step_unprivilegedWrite_eps h hclient hp hp', he] at he'
  exact (Option.some.inj he').symm

/-- Settles O7: the two sticky bits are cleared one after the other, and no register but STATUS is touched. -/
theorem statusIsWriteOneToClear : Obligations.StatusIsWriteOneToClear :=
  fun pe v _ => ⟨statusAfterWrite pe.status v, rfl, getLsbD_statusAfterWrite pe.status v⟩

/-- Settles O8: index `k + 8` is register `k % 4` of endpoint `k / 4`. -/
theorem endpointRegistersArePrivileged : Obligations.EndpointRegistersArePrivileged := by
  intro pe i v
  refine ⟨fun h => ?_, fun h hi => ?_, fun h => regWrite_below pe v true h⟩
  · obtain ⟨k, rfl⟩ := Nat.exists_eq_add_of_le' h
    exact regWrite_endpoint_unprivileged pe k v
  · obtain ⟨k, rfl⟩ := Nat.exists_eq_add_of_le' h
    exact ⟨_, regWrite_endpoint_privileged pe k v, List.length_modify _ _ _, fun j => regRead_modify pe k j v (by omega)⟩

/-- Settles O11: the address `DTU_REG_BASE + 8*i`, modulo 2^64, is register `i`'s, and an IDLE word is decoded and run. -/
theorem clientReachesTheRegisters : Obligations.ClientReachesTheRegisters := by
  intro s p pe i v priv hi
  have taken : s.pes[p]? = some pe → (takeEvent s).pes[p]? = some pe := fun hp => by rwa [takeEvent_pes]
  refine ⟨fun ⟨hev, hp⟩ => ?_, fun ⟨hev, hp⟩ => ?_⟩
  · rw [step, hev]
    exact stepClientRead_regAddr (taken hp) hi
  · have hstep : step s = stepClientWrite (takeEvent s) p (regAddr pe i) 8 v priv := by
      rw [step, hev]
      rfl
    rw [hstep, stepClientWrite_regAddr v priv (taken hp) hi]
    exact ⟨fun hcommand hidle => if_pos ⟨hcommand, hidle⟩, fun hother => if_neg (not_and_or.2 hother)⟩

/-- Settles O6: `TYPE` is bits 2:0 of `EP_CFG0`, and no endpoint holds a reserved index. -/
theorem endpointPredicatesAndReservedIndices : Obligations.EndpointPredicatesAndReservedIndices :=
  ⟨fun pe e => ⟨validEp_iff, validEp_and_epType_iff pe e 1#3, validEp_and_epType_iff pe e 2#3,
      validEp_and_epType_iff pe e 3#3⟩,
    fun pe _ v priv h => ⟨regRead_reserved pe h, regWrite_reserved pe v priv h⟩⟩

end Sys2Proof.Machine
end

section
/-! SUPPORT. What a step of a PE leaves of local memory, of the context buffer and of the transfer in flight (20_memory.md R84,
42_transfer_unit.md R280 to R286): each write stays inside its memory, no step changes the size of the context, and a transfer
goes from one chunk to the next or ends. -/

namespace Sys2Proof.Machine

/-! ### What the steps change -/

theorem serveWrite_cases (hd : PacketHead) (payload : List Byte) (pe : Pe) :
    serveWrite hd payload pe = { pe := pe, responses := [responseTo hd errMemOutOfBounds []] } ∨
      ∃ m, memWrite pe hd.addr.toNat payload = some { pe with mem := m } ∧
        serveWrite hd payload pe = { pe := { pe with mem := m }, responses := [responseTo hd errNone []] } := by
  unfold serveWrite
  split
  · exact .inl rfl
  · rename_i hw
    obtain ⟨_, rfl⟩ := memWrite_eq_some.1 hw
    exact .inr ⟨_, hw, rfl⟩

theorem grantCredit_frame (c : EpId) (pe : Pe) :
    ∃ status eps, grantCredit c pe = { pe with status := status, eps := eps } := by
  rcases grantCredit_cases c pe with ⟨_, _, h⟩ | h <;> exact ⟨_, _, h⟩

theorem cacheResponse_frame (me : PeId) (bytes : List Byte) (pe : Pe) :
    ∃ reqs, (cacheResponse me bytes pe).pe = { pe with cacheReqs := reqs } := by
  simp only [cacheResponse]
  split <;> exact ⟨_, rfl⟩

theorem acceptCacheRequest_frame {id : OpId} {req : CacheRequest} {pe pe' : Pe}
    (h : acceptCacheRequest id req pe = some pe') : ∃ reqs, pe' = { pe with cacheReqs := reqs } := by
  unfold acceptCacheRequest at h
  split at h
  · cases h
    exact ⟨_, rfl⟩
  · cases h

theorem walkAnswered_frame {me : PeId} {id : Nat} {answer : WalkAnswer} {pe pe' : Pe}
    (h : walkAnswered me id answer pe = some pe') :
    ∃ tlb tq res draws, pe' = { pe with tlb := tlb, tq := tq, res := res, draws := draws } := by
  simp only [walkAnswered, Option.map_eq_some_iff] at h
  obtain ⟨q, _, rfl⟩ := h
  obtain ⟨v, _, _, ht | ⟨pte, _, _, _, ht⟩⟩ := takeAnswer_cases me q answer pe
  · exact ⟨_, _, _, _, ht⟩
  · rcases fillTlb_cases me v pte (removeWalk q.id pe) with ⟨_, hf⟩ | ⟨_, ⟨_, hf⟩ | ⟨_, _, hf⟩ | ⟨_, _, _, hf⟩⟩ <;>
      rw [hf] at ht <;> exact ⟨_, _, _, _, ht⟩

/-- The accelerator's store into its context lies inside it (45_ctxswitch.md R384). -/
theorem accelContextEffect_eq_some {off : Nat} {bytes : List Byte} {pe : Pe} {e : Effect}
    (h : accelContextEffect off bytes pe = some e) :
    ∃ c, pe.session = some c ∧ off + bytes.length ≤ c.contextSize.toNat ∧
      e = { pe := { pe with ctx := writeBytes pe.ctx off bytes } } := by
  unfold accelContextEffect at h
  split at h
  · rename_i c hc
    split at h
    · rename_i hok
      cases h
      rw [Bool.and_eq_true, decide_eq_true_eq] at hok
      exact ⟨c, hc, hok.2, rfl⟩
    · cases h
  · cases h

/-! ### Local memory and the context buffer -/

/-- The invariant of the memories reads of a PE only these fields. -/
theorem memoryOk.of_eq {pe pe' : Pe} (h : memoryOk pe) (hcfg : pe'.cfg = pe.cfg) (hmem : pe'.mem = pe.mem)
    (hctx : pe'.ctx = pe.ctx) (hsession : pe'.session = pe.session) : memoryOk pe' := by
  unfold memoryOk
  rw [hcfg, hmem, hctx, hsession]
  exact h

/-- Local memory replaced by one in canonical form and inside its size. -/
theorem memoryOk.with_mem {pe : Pe} (h : memoryOk pe) {m : Memory} (hwf : Memory.wf m)
    (hin : ∀ c ∈ m, c.1 < pe.cfg.memSize) : memoryOk { pe with mem := m } := by
  obtain ⟨_, _, hctx⟩ := h
  exact ⟨hwf, hin, hctx⟩

theorem memoryOk.memWrite {pe pe' : Pe} {a : Nat} {bytes : List Byte} (h : memoryOk pe)
    (hw : memWrite pe a bytes = some pe') : memoryOk pe' := by
  obtain ⟨hwf, hin, hctx⟩ := h
  have hwf' := memWrite_wf hw hwf
  have hin' := memWrite_inside hw hin
  obtain ⟨_, rfl⟩ := memWrite_eq_some.1 hw
  exact ⟨hwf', hin', hctx⟩

/-- A write of bytes of the context that lie inside its size. -/
theorem memoryOk.with_ctx {pe : Pe} {c : Session} (h : memoryOk pe) (hc : pe.session = some c) {off : Nat} {bytes : List Byte}
    (hlen : bytes = [] ∨ off + bytes.length ≤ c.contextSize.toNat) :
    memoryOk { pe with ctx := writeBytes pe.ctx off bytes } := by
  obtain ⟨hwf, hin, hcwf, hcin⟩ := h
  refine ⟨hwf, hin, writeBytes_wf _ _ _ hcwf, fun c' hc' x hx => ?_⟩
  have heq : c = c' := Option.some.inj (hc.symm.trans hc')
  subst c'
  rcases writeBytes_mem _ _ _ _ hx with hx | hx
  · rcases hlen with rfl | hlen
    · simp at hx
      omega
    · omega
  · exact hcin c hc x hx

/-- A session of the same context size. -/
theorem memoryOk.setSession {pe : Pe} {c c' : Session} (h : memoryOk pe) (hc : pe.session = some c)
    (hsize : c'.contextSize = c.contextSize) : memoryOk (setSession c' pe) := by
  obtain ⟨hwf, hin, hcwf, hcin⟩ := h
  refine ⟨hwf, hin, hcwf, fun d hd x hx => ?_⟩
  have heq : c' = d := Option.some.inj hd
  rw [← heq, hsize]
  exact hcin c hc x hx

@[simp] theorem afterLocalChunk_contextSize (c : Session) (n : Nat) (st : CtxState) (b : Bool) :
    (afterLocalChunk c n st b).contextSize = c.contextSize := by
  simp only [afterLocalChunk]
  split <;> rfl

@[simp] theorem afterRestoreCommand_contextSize (cfg : PeConfig) (c : Session) :
    (afterRestoreCommand cfg c).contextSize = c.contextSize := by
  unfold afterRestoreCommand
  split <;> rfl

/-- No step of the context-switch engine changes the size of the context (45_ctxswitch.md R380). -/
theorem sessionStep_contextSize {me : PeId} {c : Session} {pe : Pe} {e : Effect} (h : sessionStep me c pe = some e) :
    ∃ c', e.pe.session = some c' ∧ c'.contextSize = c.contextSize := by
  unfold sessionStep at h
  split at h
  · simp only [ctxCheck, Option.map_eq_some_iff] at h
    obtain ⟨_, _, rfl⟩ := h
    exact ⟨_, rfl, rfl⟩
  · cases h
    unfold ctxFlags
    repeat' split
    all_goals exact ⟨_, rfl, rfl⟩
  · cases h
    exact ⟨_, rfl, rfl⟩
  · unfold ctxSaveWrite at h
    split at h
    · cases h
      exact ⟨_, rfl, rfl⟩
    · simp only [Option.map_eq_some_iff] at h
      obtain ⟨_, _, rfl⟩ := h
      exact ⟨_, rfl, afterLocalChunk_contextSize ..⟩
  · unfold ctxSaveSend at h
    split at h
    · cases h
      exact ⟨_, rfl, rfl⟩
    · split at h
      · cases h
      · cases h
        exact ⟨_, rfl, rfl⟩
  · unfold ctxSaveWait at h
    split at h
    · cases h
    · split at h <;> cases h <;> exact ⟨_, rfl, rfl⟩
  · simp only [ctxSaveDone, Option.map_eq_some_iff] at h
    obtain ⟨_, _, rfl⟩ := h
    exact ⟨_, rfl, rfl⟩
  · cases h
    exact ⟨_, rfl, rfl⟩
  · unfold ctxRestore at h
    split at h
    · cases h
      exact ⟨_, rfl, rfl⟩
    · split at h
      · cases h
      · cases h
        exact ⟨_, rfl, rfl⟩
  · unfold ctxRestoreWait at h
    split at h
    · cases h
    · split at h <;> cases h
      · exact ⟨_, rfl, rfl⟩
      · exact ⟨_, rfl, afterRestoreCommand_contextSize ..⟩
  · unfold ctxRestoreRead at h
    split at h
    · cases h
      exact ⟨_, rfl, rfl⟩
    · simp only [Option.map_eq_some_iff] at h
      obtain ⟨_, _, rfl⟩ := h
      exact ⟨_, rfl, afterLocalChunk_contextSize ..⟩
  · simp only [ctxRestoreDone, Option.map_eq_some_iff] at h
    obtain ⟨_, _, rfl⟩ := h
    exact ⟨_, rfl, rfl⟩

theorem memoryOk.ctxSwitchStep {me : PeId} {pe : Pe} {e : Effect} (h : memoryOk pe) (hs : ctxSwitchStep me pe = some e) :
    memoryOk e.pe := by
  obtain ⟨c, c', hc, hstep, _, _, hpe⟩ := ctxSwitchStep_cases hs
  obtain ⟨d, hd, hsize⟩ := sessionStep_contextSize hstep
  have same : ∀ q : Pe, e.pe = Machine.setSession c' q → c'.contextSize = c.contextSize := by
    intro q hq
    rw [hq] at hd
    exact (congrArg Session.contextSize (Option.some.inj hd)).trans hsize
  rcases hpe with hpe | ⟨a, bytes, m, hw, hpe⟩ | ⟨bytes, hr, hpe⟩ | ⟨op, off, n, hpe⟩ <;>
    have hsame := same _ hpe <;> rw [hpe]
  · exact h.setSession hc hsame
  · exact (h.memWrite hw).setSession hc hsame
  · refine (h.with_ctx hc ?_).setSession hc hsame
    obtain ⟨_, rfl⟩ := memRead_eq_some.1 hr
    by_cases hoff : c.byteOffset.toNat < c.contextSize.toNat
    · right
      rw [readBytes_length, localChunk]
      omega
    · left
      rw [show localChunk pe.cfg c = 0 by rw [localChunk]; omega]
      rfl
  · refine memoryOk.setSession (c := c) (h.of_eq ?_ ?_ ?_ ?_) ?_ hsame <;> simp [issueCommand, hc]

theorem memoryOk.receiveMessage {pe : Pe} (h : memoryOk pe) (hd : PacketHead) (payload : List Byte) :
    memoryOk (receiveMessage hd payload pe).pe := by
  rcases receiveMessage_cases hd payload pe with hr | ⟨g, hg, hr⟩ <;> rw [hr]
  · exact h
  · have hok : memoryOk g := by
      rcases hg with rfl | rfl
      · exact h
      · obtain ⟨_, _, hc⟩ := grantCredit_frame (decHdr payload).replyEpId pe
        exact hc ▸ h
    rcases acceptMessage_cases hd payload g with ⟨_, _, ha⟩ | ⟨m, _, _, hw, ha⟩ <;> rw [ha]
    · exact hok
    · exact memoryOk.memWrite (pe' := { g with mem := m }) hok hw

theorem advanceChunk_memoryOk (x : Xfer) {pe : Pe} (h : memoryOk pe) : memoryOk (advanceChunk x pe) := by
  simp only [advanceChunk]
  split <;> exact h

theorem memoryOk.chunkResponse {pe : Pe} (h : memoryOk pe) (bytes : List Byte) : memoryOk (chunkResponse bytes pe) := by
  rcases chunkResponse_cases bytes pe with hc | ⟨x, _, _, _, _, ⟨_, hc⟩ | ⟨m, hc, hm⟩⟩ <;> rw [hc]
  · exact h
  · exact h
  · refine advanceChunk_memoryOk x ?_
    rcases hm with rfl | hw
    · exact h
    · obtain ⟨hwf, hin⟩ := writeRanges_ok hw h.1 h.2.1
      exact h.with_mem hwf hin

theorem memoryOk.serveWrite {pe : Pe} (h : memoryOk pe) (hd : PacketHead) (payload : List Byte) :
    memoryOk (serveWrite hd payload pe).pe := by
  rcases serveWrite_cases hd payload pe with hs | ⟨m, hw, hs⟩ <;> rw [hs]
  · exact h
  · exact memoryOk.memWrite (pe' := { pe with mem := m }) h hw

theorem memoryOk.accelContext {pe : Pe} {off : Nat} {bytes : List Byte} {e : Effect} (h : memoryOk pe)
    (ha : accelContextEffect off bytes pe = some e) : memoryOk e.pe := by
  obtain ⟨_, hc, hlen, rfl⟩ := accelContextEffect_eq_some ha
  exact h.with_ctx hc (.inr hlen)

/-- Every step of a PE keeps its memories in canonical form and inside their sizes. -/
theorem PeStep.memoryOk {ev : Event} {me : PeId} {pe : Pe} {e : Effect} (hs : PeStep ev me pe e) (h : memoryOk pe) :
    memoryOk e.pe := by
  cases hs with
  | same _ hpe => exact hpe ▸ h
  | write i v => exact h.of_eq (by simp) (by simp) (by simp) (by simp)
  | send _ _ ep => rcases sendExecute_cases ep me pe with ⟨_, hx⟩ | ⟨_, _, _, hx⟩ <;> rw [hx] <;> exact h
  | reply ep => rcases replyExecute_cases ep me pe with ⟨_, hx⟩ | ⟨_, _, _, _, _, _, hx⟩ <;> rw [hx] <;> exact h
  | memory ty pm ep =>
    rcases memoryExecute_cases ty pm ep pe with ⟨_, hx⟩ | ⟨_, _, _, hx | ⟨_, hx⟩⟩ <;> rw [hx] <;> exact h
  | incReadPtr ep => rcases incReadPtrExecute_cases ep pe with ⟨_, hx⟩ | ⟨_, _, hx⟩ <;> rw [hx] <;> exact h
  | wakeupCore | reserved7 | finish | coreWaiting | accelStateSize => exact h
  | transfer e ht =>
    obtain ⟨_, _, _, _, ht⟩ := transferStep_enabled ht
    obtain ⟨_, ⟨_, _, _, rfl⟩, rfl | ⟨_, rfl⟩ | ⟨_, _, _, rfl⟩ | ⟨_, _, _, rfl⟩⟩ := chunkStepA_cases ht <;> exact h
  | ctxSwitch _ _ _ hc => exact h.ctxSwitchStep hc
  | receive _ _ hd payload => exact h.receiveMessage hd payload
  | serveWrite hd payload => exact h.serveWrite hd payload
  | chunkResponse bytes => exact h.chunkResponse bytes
  | cacheResponse bytes =>
    obtain ⟨_, hx⟩ := cacheResponse_frame me bytes pe
    exact hx ▸ h
  | store _ _ _ hw => exact h.memWrite hw
  | accelContext _ _ _ ha => exact h.accelContext ha
  | cacheRequest id req pe' ha =>
    obtain ⟨_, rfl⟩ := acceptCacheRequest_frame ha
    exact h
  | cacheTranslate id e ht =>
    obtain ⟨_, _, _, _, ⟨_, _, _, rfl⟩, rfl | rfl | ⟨_, rfl⟩⟩ := cacheTranslateStep_cases ht <;> exact h
  | walkAnswer id a pe' ha =>
    obtain ⟨_, _, _, _, rfl⟩ := walkAnswered_frame ha
    exact h

/-! ### The transfer in flight -/

/-- The invariant of the transfer reads of a PE only these fields. -/
theorem transferOk.of_eq {pe pe' : Pe} (h : transferOk pe) (hcfg : pe'.cfg = pe.cfg) (hxfer : pe'.xfer = pe.xfer) :
    transferOk pe' := by
  unfold transferOk
  rw [hcfg, hxfer]
  exact h

theorem transferOk.endXfer {pe : Pe} (h : transferOk pe) (code : ErrorCode) : transferOk (endXfer code pe) :=
  ⟨h.1, h.2.1, nofun⟩

/-- What the invariant asks of the record of a transfer. -/
def xferOk (cfg : PeConfig) (x : Xfer) : Prop :=
  x.done.toNat = x.chunkIndex.toNat * cfg.chunkLimit ∧ x.done.toNat < x.size.toNat ∧
  (x.kind = .msg →
    x.type = .localRead ∧ x.header.isSome = true ∧ x.done = 0#64 ∧ headerSize ≤ x.size.toNat ∧
    x.size.toNat ≤ cfg.chunkLimit) ∧
  (x.kind = .mem → x.header = none) ∧
  (x.chunkState = .issued → x.type = .localWrite → ∀ r ∈ x.pas, r.pa.toNat + r.len ≤ cfg.memSize)

theorem transferOk_iff (pe : Pe) :
    transferOk pe ↔ 1 ≤ pe.cfg.chunkLimit ∧ pe.cfg.chunkLimit < 2 ^ 64 ∧ ∀ x, pe.xfer = some x → xferOk pe.cfg x := Iff.rfl

/-- A PE whose transfer is replaced by one that meets the invariant. -/
theorem transferOk.with_xfer {pe pe' : Pe} {x : Xfer} (h : transferOk pe) (hcfg : pe'.cfg = pe.cfg)
    (hx : pe'.xfer = some x) (hok : xferOk pe.cfg x) : transferOk pe' := by
  rw [transferOk_iff, hcfg]
  refine ⟨h.1, h.2.1, fun y hy => ?_⟩
  rw [hx] at hy
  cases hy
  exact hok

/-- A message fits in one chunk (42_transfer_unit.md R282). -/
theorem messageXfer_ok {pe : Pe} {dst : PeId} {dstEp : EpId} {hdr : MessageHeader} (h : transferOk pe)
    (hsize : headerSize + pe.cur.dataSize.toNat ≤ pe.cfg.chunkLimit) : xferOk pe.cfg (messageXfer pe dst dstEp hdr) := by
  have hlim : pe.cfg.chunkLimit < 2 ^ 64 := h.2.1
  have hlen : (messageXfer pe dst dstEp hdr).size.toNat = headerSize + pe.cur.dataSize.toNat := by
    simp only [messageXfer, BitVec.toNat_ofNat]
    exact Nat.mod_eq_of_lt (by omega)
  refine ⟨by simp [messageXfer], ?_, fun _ => ⟨rfl, rfl, rfl, ?_, ?_⟩, nofun, nofun⟩
  · rw [hlen]
    simp [messageXfer, headerSize]
  · omega
  · omega

theorem memoryXfer_ok {pe : Pe} {ty : XferType} {ep : EpId} (hsize : pe.cur.dataSize ≠ 0) :
    xferOk pe.cfg (memoryXfer ty ep pe) := by
  refine ⟨by simp [memoryXfer], ?_, nofun, fun _ => rfl, nofun⟩
  have : pe.cur.dataSize.toNat ≠ 0 := fun h => hsize (BitVec.eq_of_toNat_eq (by simpa using h))
  simp only [memoryXfer, BitVec.ofNat_eq_ofNat, BitVec.toNat_ofNat]
  omega

theorem transferOk.transferStep {me : PeId} {pe : Pe} {e : Effect} (h : transferOk pe) (hs : transferStep me pe = some e) :
    transferOk e.pe := by
  obtain ⟨x, _, hx, _, hs⟩ := transferStep_enabled hs
  obtain ⟨hdone, hless, hmsg, hmem, _⟩ := h.2.2 x hx
  obtain ⟨_, ⟨_, _, _, rfl⟩, rfl | ⟨_, rfl⟩ | ⟨hty, _, _, rfl⟩ | ⟨hty, ranges, hin, rfl⟩⟩ := chunkStepA_cases hs
  · exact h
  · exact ⟨h.1, h.2.1, nofun⟩
  · exact h.with_xfer rfl rfl ⟨hdone, hless, hmsg, hmem, fun _ hw => by simp [hty] at hw⟩
  · exact h.with_xfer rfl rfl ⟨hdone, hless, hmsg, hmem, fun _ _ => hin⟩

/-- The offset after a chunk that is not the last is that of the next index, and a message has no next chunk
(42_transfer_unit.md R282, R286). -/
theorem nextChunk_ok {cfg : PeConfig} {x : Xfer} (hpos : 1 ≤ cfg.chunkLimit) (h : xferOk cfg x)
    (hlast : x.done + BitVec.ofNat 64 (chunkLen cfg x) ≠ x.size) :
    xferOk cfg { x with
      done := x.done + BitVec.ofNat 64 (chunkLen cfg x), chunkIndex := x.chunkIndex + 1, chunkState := .translate } := by
  obtain ⟨hdone, hless, hmsg, hmem, _⟩ := h
  have hsize := x.size.isLt
  have hlen : chunkLen cfg x = min cfg.chunkLimit (x.size.toNat - x.done.toNat) := by rw [chunkLen, hdone]
  have hnext : (x.done + BitVec.ofNat 64 (chunkLen cfg x)).toNat = x.done.toNat + chunkLen cfg x := by
    rw [BitVec.toNat_add, BitVec.toNat_ofNat, Nat.add_mod_mod]
    exact Nat.mod_eq_of_lt (by omega)
  have hne : x.done.toNat + chunkLen cfg x ≠ x.size.toNat := fun he => hlast (BitVec.eq_of_toNat_eq (hnext.trans he))
  have hfull : chunkLen cfg x = cfg.chunkLimit := by omega
  have hoff : x.done.toNat + chunkLen cfg x = (x.chunkIndex.toNat + 1) * cfg.chunkLimit := by
    rw [Nat.add_mul, Nat.one_mul, hfull, hdone]
  have hindex : (x.chunkIndex + 1).toNat = x.chunkIndex.toNat + 1 := by
    have : x.chunkIndex.toNat + 1 ≤ (x.chunkIndex.toNat + 1) * cfg.chunkLimit := Nat.le_mul_of_pos_right _ hpos
    rw [BitVec.toNat_add]
    exact Nat.mod_eq_of_lt (by simp; omega)
  refine ⟨?_, ?_, fun hk => ?_, hmem, nofun⟩
  · rw [hindex, hnext, hoff]
  · show (x.done + BitVec.ofNat 64 (chunkLen cfg x)).toNat < x.size.toNat
    omega
  · obtain ⟨_, _, hzero, _, hfits⟩ := hmsg hk
    have : x.done.toNat = 0 := by simp [hzero]
    omega

theorem transferOk.advanceChunk {pe : Pe} {x : Xfer} (h : transferOk pe) (hx : xferOk pe.cfg x) :
    transferOk (advanceChunk x pe) := by
  simp only [Machine.advanceChunk]
  split
  · exact h.endXfer _
  · rename_i hlast
    exact h.with_xfer rfl rfl (nextChunk_ok h.1 hx hlast)

theorem transferOk.chunkResponse {pe : Pe} (h : transferOk pe) (bytes : List Byte) : transferOk (chunkResponse bytes pe) := by
  rcases chunkResponse_cases bytes pe with hc | ⟨x, _, hx, _, _, ⟨_, hc⟩ | ⟨m, hc, _⟩⟩ <;> rw [hc]
  · exact h
  · exact h.endXfer _
  · exact transferOk.advanceChunk (pe := { pe with mem := m }) h (h.2.2 x hx)

theorem transferOk.receiveMessage {pe : Pe} (h : transferOk pe) (hd : PacketHead) (payload : List Byte) :
    transferOk (receiveMessage hd payload pe).pe := by
  rcases receiveMessage_cases hd payload pe with hr | ⟨g, hg, hr⟩ <;> rw [hr]
  · exact h
  · have hok : transferOk g := by
      rcases hg with rfl | rfl
      · exact h
      · obtain ⟨_, _, hc⟩ := grantCredit_frame (decHdr payload).replyEpId pe
        exact hc ▸ h
    rcases acceptMessage_cases hd payload g with ⟨_, _, ha⟩ | ⟨m, _, _, hw, ha⟩ <;> rw [ha] <;> exact hok

theorem transferOk.ctxSwitchStep {me : PeId} {pe : Pe} {e : Effect} (h : transferOk pe)
    (hs : ctxSwitchStep me pe = some e) : transferOk e.pe := by
  obtain ⟨_, _, _, _, _, _, hpe⟩ := ctxSwitchStep_cases hs
  rcases hpe with hpe | ⟨_, _, _, _, hpe⟩ | ⟨_, _, hpe⟩ | ⟨op, off, n, hpe⟩ <;> rw [hpe]
  · exact h
  · exact h
  · exact h
  · exact h.of_eq (by simp [issueCommand]) (by simp [issueCommand])

/-- Every step of a PE keeps the invariant of its transfer. -/
theorem PeStep.transferOk {ev : Event} {me : PeId} {pe : Pe} {e : Effect} (hs : PeStep ev me pe e) (h : transferOk pe) :
    transferOk e.pe := by
  cases hs with
  | same _ hpe => exact hpe ▸ h
  | write i v => exact h.of_eq (by simp) (by simp)
  | send _ _ ep =>
    rcases sendExecute_cases ep me pe with ⟨_, hx⟩ | ⟨_, _, hsize, hx⟩ <;> rw [hx]
    · exact h
    · exact h.with_xfer rfl rfl (messageXfer_ok h (by omega))
  | reply ep =>
    rcases replyExecute_cases ep me pe with ⟨_, hx⟩ | ⟨_, _, _, _, _, hsize, hx⟩ <;> rw [hx]
    · exact h
    · exact h.with_xfer rfl rfl (messageXfer_ok h hsize)
  | memory ty pm ep =>
    rcases memoryExecute_cases ty pm ep pe with ⟨_, hx⟩ | ⟨_, _, _, hx | ⟨hsize, hx⟩⟩ <;> rw [hx]
    · exact h
    · exact h
    · exact h.with_xfer rfl rfl (memoryXfer_ok hsize)
  | incReadPtr ep => rcases incReadPtrExecute_cases ep pe with ⟨_, hx⟩ | ⟨_, _, hx⟩ <;> rw [hx] <;> exact h
  | wakeupCore | reserved7 | finish | coreWaiting | accelStateSize => exact h
  | transfer _ ht => exact h.transferStep ht
  | ctxSwitch _ _ _ hc => exact h.ctxSwitchStep hc
  | receive _ _ hd payload => exact h.receiveMessage hd payload
  | chunkResponse bytes => exact h.chunkResponse bytes
  | serveWrite hd payload =>
    rcases serveWrite_cases hd payload pe with hx | ⟨_, _, hx⟩ <;> rw [hx] <;> exact h
  | cacheResponse bytes =>
    obtain ⟨_, hx⟩ := cacheResponse_frame me bytes pe
    exact hx ▸ h
  | store _ _ _ hw =>
    obtain ⟨_, rfl⟩ := memWrite_eq_some.1 hw
    exact h
  | accelContext _ _ _ ha =>
    obtain ⟨_, _, _, rfl⟩ := accelContextEffect_eq_some ha
    exact h
  | cacheRequest id req pe' ha =>
    obtain ⟨_, rfl⟩ := acceptCacheRequest_frame ha
    exact h
  | cacheTranslate id e ht =>
    obtain ⟨_, _, _, _, ⟨_, _, _, rfl⟩, rfl | rfl | ⟨_, rfl⟩⟩ := cacheTranslateStep_cases ht <;> exact h
  | walkAnswer id a pe' ha =>
    obtain ⟨_, _, _, _, rfl⟩ := walkAnswered_frame ha
    exact h

end Sys2Proof.Machine
end

section
/-! SUPPORT. Which events answer a next state, said once for each kind: the Command Engine's step always, a delivery where what
is in flight is well framed, a client's access where it is a register access, and a cache request where it is acceptable. -/

namespace Sys2Proof.Machine

theorem stepEngine_answers (s : State) (p : Nat) : ∃ t, stepEngine s p = .next t := by
  cases hp : s.pes[p]? with
  | none => exact ⟨s, by simp [stepEngine, hp]⟩
  | some pe =>
    obtain ⟨t, ht, _⟩ := stepEngine_keeps hp
    exact ⟨t, ht⟩

/-- The service of a packet answers a next state, also where its destination does not exist (43_memory_unit.md R339). -/
theorem stepDeliverRequest_answers {s : State} (h : ∀ b ∈ s.requests, ∃ i, decode .noc b = .ok i) (k : Nat) :
    ∃ t, stepDeliverRequest s k = .next t := by
  unfold stepDeliverRequest
  split
  · exact ⟨_, rfl⟩
  · rename_i b hb
    obtain ⟨i, hi⟩ := h b (List.mem_of_getElem? hb)
    rw [hi]
    rcases exec_packet (decodePacket_head hi) (Eq.refl (Event.deliverRequest k))
        { s with requests := s.requests.eraseIdx k } with ⟨_, _, _, _, hx⟩ | ⟨_, hx⟩ <;> exact ⟨_, hx⟩

theorem stepDeliverResponse_answers {s : State} (h : ∀ r ∈ s.responses, 16 ≤ r.bytes.length) (k : Nat) :
    ∃ t, stepDeliverResponse s k = .next t := by
  unfold stepDeliverResponse
  split
  · exact ⟨_, rfl⟩
  · rename_i r hr
    have hlen := h r (List.mem_of_getElem? hr)
    rw [if_neg (by omega)]
    exact ⟨_, rfl⟩

theorem runRacer_answers {s : State} (hreq : ∀ b ∈ s.requests, ∃ i, decode .noc b = .ok i)
    (hresp : ∀ r ∈ s.responses, 16 ≤ r.bytes.length) (p : Nat) (r : Racer) : ∃ t, runRacer p r s = .next t := by
  cases r with
  | engine => exact stepEngine_answers s p
  | request b => exact stepDeliverRequest_answers hreq _
  | response d b => exact stepDeliverResponse_answers hresp _
  | transfer | ctxSwitch | coreStore | schedulerWrite | accelExtra => exact ⟨_, rfl⟩

theorem stepRace_answers {s : State} (hreq : ∀ b ∈ s.requests, ∃ i, decode .noc b = .ok i)
    (hresp : ∀ r ∈ s.responses, 16 ≤ r.bytes.length) (p : Nat) (r : Racer) (order : List (Nat × Nat))
    (l : List OpenAccess) : ∃ t, stepRace p r order l s = .next t := by
  unfold stepRace
  split
  · obtain ⟨t, ht⟩ := runRacer_answers (s := withBytes s p (raceCells l p r order s)) (by simpa using hreq)
      (by simpa using hresp) p r
    rw [ht]
    exact ⟨_, rfl⟩
  · exact ⟨_, rfl⟩

/-- A client's write answers a next state, but for an access of an existing PE that is no register access. -/
theorem stepClientWrite_answers (s : State) (p : Nat) (addr : Word) (width : Nat) (v : Word) (priv : Bool) :
    (∃ t, stepClientWrite s p addr width v priv = .next t) ∨
      ∃ pe, s.pes[p]? = some pe ∧ ∀ i, regAccess pe addr width ≠ .index i := by
  unfold stepClientWrite
  split
  · exact .inl ⟨_, rfl⟩
  · rename_i pe hp
    cases ha : regAccess pe addr width with
    | index i =>
      left
      simp only []
      split
      · rename_i hidle
        rw [decodeCommand_idle hidle.2, exec_idle _ priv]
        exact ⟨_, onActive_some (s := { s with active := p }) _ hp⟩
      · exact ⟨_, rfl⟩
    | misplaced => exact .inr ⟨pe, hp, by simp [ha]⟩
    | outside => exact .inr ⟨pe, hp, by simp [ha]⟩

theorem stepClientRead_answers (s : State) (p : Nat) (addr : Word) (width : Nat) :
    (∃ t, stepClientRead s p addr width = .next t) ∨
      ∃ pe, s.pes[p]? = some pe ∧ ∀ i, regAccess pe addr width ≠ .index i := by
  unfold stepClientRead
  split
  · exact .inl ⟨_, rfl⟩
  · rename_i pe hp
    cases ha : regAccess pe addr width with
    | index i => exact .inl ⟨_, rfl⟩
    | misplaced => exact .inr ⟨pe, hp, by simp [ha]⟩
    | outside => exact .inr ⟨pe, hp, by simp [ha]⟩

theorem stepCacheRequest_answers (s : State) (p : Nat) (id : OpId) (req : CacheRequest) :
    (∃ t, stepCacheRequest s p id req = .next t) ∨
      ∃ pe, s.pes[p]? = some pe ∧ cacheAcceptable id req pe = false := by
  unfold stepCacheRequest acceptCacheRequest
  split
  · exact .inl ⟨_, rfl⟩
  · rename_i pe hp
    cases ha : cacheAcceptable id req pe with
    | true => exact .inl ⟨_, rfl⟩
    | false => exact .inr ⟨pe, hp, ha⟩

end Sys2Proof.Machine
end

section
/-! SUPPORT. What an access in progress does, against the same access alone (20_memory.md R86, R99): the step of an access is its
agent's step from a state that differs in local memory and in the schedule only, the bytes that it has planned are those that
it stores alone, and an access that has stored bytes stays in progress until its step. -/

namespace Sys2Proof.Machine

/-! ### An access alone -/

/-- The system with local memory `found` at the PE at place `p`, and with no schedule and no output. -/
def unscheduled (s : State) (p : Nat) (pe : Pe) (found : Memory) : State :=
  { withMemAt s p pe found with agenda := [], accesses := [], outputs := [] }

/-- The next step where it is an access's own, none is in progress, and local memory is `found`. -/
def stepAlone (s : State) (p : Nat) (pe : Pe) (r : Racer) (found : Memory) : Host.Outcome State Fault Refusal :=
  step { s with agenda := [racerEvent s p r], accesses := [], pes := s.pes.set p { pe with mem := found } }

theorem stepAlone_eq (s : State) (p : Nat) (pe : Pe) (r : Racer) (found : Memory) :
    stepAlone s p pe r found = runRacer p r (unscheduled s p pe found) := by
  obtain ⟨hnext, htaken⟩ := takeEvent_cons
    (s := { s with agenda := [racerEvent s p r], accesses := [], pes := s.pes.set p { pe with mem := found } })
    rfl (pressed_nil rfl)
  rw [stepAlone, step, hnext, htaken, accessesAfter_nil rfl (by cases r <;> exact nofun)]
  cases r <;> rfl

/-- The step of an access under any schedule is its step alone. -/
theorem runRacer_unscheduled (s : State) (p : Nat) (pe : Pe) (r : Racer) (found : Memory) (a t o x) :
    runRacer p r (withSchedule (unscheduled s p pe found) a t o x) =
      mapNext (withSchedule · a t o x) (stepAlone s p pe r found) := by
  rw [runRacer_schedule, stepAlone_eq]

theorem withSchedule_unscheduled {s : State} {p : Nat} {pe : Pe} (hp : s.pes[p]? = some pe) :
    withSchedule (unscheduled s p pe pe.mem) s.agenda s.turn s.accesses s.outputs = s := by
  simp [withSchedule, unscheduled, withMemAt_self hp]

/-- The state as the next event finds it differs in the schedule only, and in the outputs, which are gone. -/
theorem takeEvent_eq (s : State) :
    takeEvent s =
      withSchedule { s with outputs := [] } (takeEvent s).agenda (takeEvent s).turn (takeEvent s).accesses [] := by
  simp only [takeEvent, consumeChoice]
  split
  · rfl
  · split <;> rfl

theorem takeEvent_withMemAt (s : State) (p : Nat) (pe : Pe) (found : Memory) :
    withMemAt (takeEvent s) p pe found =
      withSchedule (unscheduled s p pe found) (takeEvent s).agenda (takeEvent s).turn (takeEvent s).accesses [] := by
  conv => lhs; rw [takeEvent_eq s]
  rfl

/-- The byte that an access has planned for an address is the one that it stores there alone. -/
theorem plannedByte_eq_some_iff {s : State} {p : Nat} {pe : Pe} {r : Racer} (hp : s.pes[p]? = some pe) {a : Nat} {b : Byte} :
    plannedByte p r s a = some b ↔
      storesTo p r s a = true ∧ ∃ t, stepAlone s p pe r pe.mem = .next t ∧ b = readByte (memoryAt t p) a := by
  have hrun := runRacer_unscheduled s p pe r pe.mem s.agenda s.turn s.accesses s.outputs
  rw [withSchedule_unscheduled hp] at hrun
  unfold plannedByte
  rw [hrun]
  cases stepAlone s p pe r pe.mem with
  | next t =>
    simp only [mapNext, memoryAt_schedule, Option.ite_none_right_eq_some, Option.some.injEq, Host.Outcome.next.injEq,
      exists_eq_left']
    exact and_congr_right fun _ => eq_comm
  | fault _ => simp [mapNext]
  | refused _ => simp [mapNext]

/-- An access has bytes planned where it stores, and nowhere else. -/
theorem plannedByte_of_storesTo {s : State} {p : Nat} {r : Racer} {a : Nat} (h : storesTo p r s a = true) :
    ∃ b, plannedByte p r s a = some b := by
  have hs := h
  unfold storesTo at h
  split at h
  · rename_i hrun _
    simp [plannedByte, hrun, hs]
  · cases h

theorem plannedByte_of_not_storesTo {s : State} {p : Nat} {r : Racer} {a : Nat} (h : storesTo p r s a = false) :
    plannedByte p r s a = none := by
  unfold plannedByte
  split
  · simp [h]
  · rfl

/-! ### The accesses in progress after an access -/

/-- An event that is no access to local memory leaves the accesses in progress. -/
theorem accessesAfter_of_eventAccess {e : Event} {s : State} (h : eventAccess s e = none) :
    accessesAfter e s = s.accesses := by
  simp [accessesAfter, h]

/-- What an access of an agent makes of those in progress (R86): every other agent's at this PE is overlapped. -/
theorem overlapAll_overlapped (p : Nat) (pe : Pe) (agent : Agent) {l : List OpenAccess} {o : OpenAccess} (ho : o ∈ l) :
    (o.pe ≠ p → o ∈ overlapAll p pe agent l) ∧
      (o.pe = p → o.agent ≠ agent → { o with moments := o.moments ++ [pe.mem] } ∈ overlapAll p pe agent l) :=
  ⟨fun hne => (overlapAll_other ho fun hk => hne (congrArg Prod.fst hk)).1 hne,
    fun heq hne => (overlapAll_other ho fun hk => hne (congrArg Prod.snd hk)).2 heq⟩

theorem overlapAll_ended {p : Nat} {pe : Pe} {agent : Agent} {l : List OpenAccess} {o : OpenAccess}
    (ho : o ∈ overlapAll p pe agent l) (hp : o.pe = p) : o.agent ≠ agent :=
  fun ha => overlapAll_own p pe agent l o ho (by rw [OpenAccess.key, hp, ha])

/-- An access of another agent, or at another PE, leaves one in progress, with what it has stored. -/
theorem overlapAll_keeps {p : Nat} {pe : Pe} {agent : Agent} {l : List OpenAccess} {o : OpenAccess} (ho : o ∈ l)
    (hk : o.key ≠ (p, agent)) :
    ∃ o' ∈ overlapAll p pe agent l, o'.pe = o.pe ∧ o'.agent = o.agent ∧ o'.access = o.access ∧ o'.stored = o.stored := by
  obtain ⟨hother, hhere⟩ := overlapAll_other (pe := pe) ho hk
  by_cases hp : o.pe = p
  · exact ⟨_, hhere hp, rfl, rfl, rfl, rfl⟩
  · exact ⟨_, hother hp, rfl, rfl, rfl, rfl⟩

theorem accessesAfter_part {s : State} {p : Nat} {pe : Pe} {r : Racer} {agent : Agent} (hp : s.pes[p]? = some pe)
    (ha : racerAgent s p r = some agent) (bytes : List Nat) :
    accessesAfter (.accessPart p r bytes) s =
      if mayOverlap pe r then
        overlapAll p pe agent s.accesses ++
          [{ underWay s.accesses p agent r with
            stored := (underWay s.accesses p agent r).stored ++ partAddrs s.accesses p r bytes s }]
      else s.accesses := by
  simp [accessesAfter, eventAccess, hp, ha]

/-- An access in progress, the only one of its agent there, goes on as itself. -/
theorem underWay_of_unique {l : List OpenAccess} {o : OpenAccess} (ho : o ∈ l)
    (huniq : ∀ o' ∈ l, o'.pe = o.pe → o'.agent = o.agent → o' = o) : underWay l o.pe o.agent o.access = o := by
  have hfound : accessOf l o.pe o.agent = some o := by
    cases hf : accessOf l o.pe o.agent with
    | none => simpa using List.find?_eq_none.1 hf o ho
    | some o' =>
      have hkey := List.find?_some hf
      simp only [Bool.and_eq_true, beq_iff_eq] at hkey
      rw [huniq o' (List.mem_of_find?_eq_some hf) hkey.1 hkey.2]
  simp [underWay, hfound]

/-! ### What a part of an access and its step do -/

/-- A part of an access that may not overlap others is passed over. -/
theorem step_part_passed {s : State} {p : Nat} {pe : Pe} {r : Racer} {agent : Agent} {bytes : List Nat}
    (hp : s.pes[p]? = some pe) (ha : racerAgent s p r = some agent) (hev : nextEvent s = .accessPart p r bytes)
    (hmay : mayOverlap pe r = false) : step s = .next (takeEvent s) ∧ (takeEvent s).accesses = s.accesses := by
  constructor
  · rw [step, hev]
    exact congrArg Host.Outcome.next (stepPart_passed (takeEvent_pes s ▸ hp) hmay bytes _)
  · rw [takeEvent_accesses, hev, accessesAfter_part hp ha, hmay]
    rfl

/-- A part of an access that may overlap others stores planned bytes and changes nothing else. -/
theorem step_part {s : State} {p : Nat} {pe : Pe} {r : Racer} {agent : Agent} {bytes : List Nat}
    (hp : s.pes[p]? = some pe) (hwf : Memory.wf pe.mem) (ha : racerAgent s p r = some agent)
    (hev : nextEvent s = .accessPart p r bytes) (hmay : mayOverlap pe r = true) :
    ∃ m : Memory, Memory.wf m ∧
      (∀ a, readByte m a =
        if a ∈ partAddrs s.accesses p r bytes s then (plannedByte p r s a).getD (readByte pe.mem a)
        else readByte pe.mem a) ∧
      step s = .next { takeEvent s with
        pes := s.pes.set p { pe with mem := m }
        accesses := overlapAll p pe agent s.accesses ++
          [{ underWay s.accesses p agent r with
            stored := (underWay s.accesses p agent r).stored ++ partAddrs s.accesses p r bytes s }] } := by
  obtain ⟨m, hwfm, hm, hstep⟩ := stepPart_memory (takeEvent_pes s ▸ hp) hwf r bytes s.accesses
  simp only [partAddrs_takeEvent, plannedByte_takeEvent] at hm
  refine ⟨m, hwfm, hm, ?_⟩
  have hafter := accessesAfter_part hp ha bytes
  rw [hmay, if_pos rfl, ← hev] at hafter
  rw [step, hev, ← hafter]
  exact congrArg Host.Outcome.next (hstep.trans (by rw [takeEvent_pes]; rfl))

/-- The step of an access that overlaps others is its step alone, on the bytes that it finds, but for local memory after it
and for the schedule. -/
theorem step_race {s t : State} {p : Nat} {pe pe' : Pe} {r : Racer} {agent : Agent} {order : List (Nat × Nat)}
    (hp : s.pes[p]? = some pe) (hwf : Memory.wf pe.mem) (ha : racerAgent s p r = some agent)
    (hev : nextEvent s = .race p r order)
    (halone : stepAlone s p pe r (putBytes pe.mem (raceCells s.accesses p r order s)) = .next t)
    (hp' : t.pes[p]? = some pe') :
    ∃ m : Memory, Memory.wf m ∧
      (∀ a, readByte m a =
        if a ∈ (underWay s.accesses p agent r).stored ∧ a < pe.cfg.memSize then readByte pe.mem a
        else (plannedByte p r s a).getD (readByte pe.mem a)) ∧
      step s = .next { t with
        pes := t.pes.set p { pe' with mem := m }, agenda := (takeEvent s).agenda, turn := (takeEvent s).turn
        accesses := overlapAll p pe agent s.accesses } := by
  have hpt : (takeEvent s).pes[p]? = some pe := takeEvent_pes s ▸ hp
  have hat : racerAgent (takeEvent s) p r = some agent := racerAgent_takeEvent p r s ▸ ha
  have hafter : (takeEvent s).accesses = overlapAll p pe agent s.accesses := by
    rw [takeEvent_accesses, hev]
    exact accessesAfter_eventRacer rfl hp ha
  have hrun : runRacer p r (withBytes (takeEvent s) p (raceCells s.accesses p r order (takeEvent s))) =
      .next (withSchedule t (takeEvent s).agenda (takeEvent s).turn (takeEvent s).accesses []) := by
    rw [raceCells_takeEvent, withBytes_withMemAt hpt, takeEvent_withMemAt, runRacer_unscheduled, halone]
    rfl
  have hrace : stepRace p r order s.accesses (takeEvent s) =
      .next (withBytes (withSchedule t (takeEvent s).agenda (takeEvent s).turn (takeEvent s).accesses []) p
        (cellsAt (memoryAt (takeEvent s) p) (raceKept s.accesses p r order (takeEvent s)))) := by
    unfold stepRace
    rw [if_pos (by rw [hat]; rfl), hrun]
  obtain ⟨q, hq, hwfm, hm⟩ := stepRace_memory hpt hwf hat hrace
  rw [withBytes_some (s := withSchedule t _ _ _ _) hp'] at hrace hq
  obtain rfl : _ = q := Option.some.inj ((pes_set_get hp' _).symm.trans hq)
  simp only [plannedByte_takeEvent] at hm
  refine ⟨_, hwfm, hm, ?_⟩
  rw [step, hev, ← hafter]
  exact hrace

/-! ### What is stored early is performed -/

/-- An access in progress that has stored bytes stays in progress over every event that is not its own step (R99), the others
there being of other agents. -/
theorem step_keeps_stored {s t : State} (h : step s = .next t) {o : OpenAccess} (ho : o ∈ s.accesses)
    (huniq : ∀ o' ∈ s.accesses, o'.pe = o.pe → o'.agent = o.agent → o' = o)
    (ha : racerAgent s o.pe o.access = some o.agent)
    (hown : eventAgent s (nextEvent s) = some (o.pe, o.agent) → ∃ bytes, nextEvent s = .accessPart o.pe o.access bytes) :
    ∃ o' ∈ t.accesses, o'.pe = o.pe ∧ o'.agent = o.agent ∧ o'.access = o.access ∧ ∀ a ∈ o.stored, a ∈ o'.stored := by
  have self : t.accesses = s.accesses →
      ∃ o' ∈ t.accesses, o'.pe = o.pe ∧ o'.agent = o.agent ∧ o'.access = o.access ∧ ∀ a ∈ o.stored, a ∈ o'.stored :=
    fun hsame => ⟨o, hsame ▸ ho, rfl, rfl, rfl, fun _ ha => ha⟩
  have hafter : t.accesses = accessesAfter (nextEvent s) s := (step_schedule h).2.2
  rcases accessesAfter_cases (nextEvent s) s with hsame | ⟨p, r, pe, agent, hacc, hp, hag, hcases⟩
  · exact self (hafter.trans hsame)
  · have hagent : eventAgent s (nextEvent s) = some (p, agent) := by simp [eventAgent, hacc, hag]
    by_cases hk : o.key = (p, agent)
    · obtain ⟨rfl, rfl⟩ := Prod.mk.inj hk
      obtain ⟨bytes, hev⟩ := hown hagent
      rw [hev] at hacc hafter
      cases hacc
      rw [accessesAfter_part hp ha, underWay_of_unique ho huniq] at hafter
      split at hafter
      · exact ⟨{ o with stored := o.stored ++ partAddrs s.accesses o.pe o.access bytes s }, by simp [hafter], rfl, rfl, rfl,
          fun _ hmem => List.mem_append_left _ hmem⟩
      · exact self hafter
    · obtain ⟨o', ho', h1, h2, h3, h4⟩ := overlapAll_keeps (pe := pe) ho hk
      refine ⟨o', ?_, h1, h2, h3, fun _ hmem => h4 ▸ hmem⟩
      rw [hafter]
      rcases hcases with hcases | ⟨bytes, _, _, hcases⟩ <;> rw [hcases]
      · exact ho'
      · exact List.mem_append_left _ ho'

/-- An event before which an access in progress need not be performed, though it has stored bytes, is a part or the step of
that access, or an act of another agent that undoes nothing of it. -/
theorem not_presses_cases {s : State} {e : Event} {o : OpenAccess} (h : presses s e o = false) (hstored : o.stored ≠ [])
    (ha : racerAgent s o.pe o.access = some o.agent) :
    (∃ bytes, e = .accessPart o.pe o.access bytes) ∨ (∃ order, e = .race o.pe o.access order) ∨
      (eventAgent s e ≠ some (o.pe, o.agent) ∧ undoes s e o = false) := by
  by_cases hcont : continues o e = true
  · unfold continues at hcont
    split at hcont
    · rename_i p r bytes
      simp only [Bool.and_eq_true, beq_iff_eq] at hcont
      obtain ⟨rfl, rfl⟩ := hcont
      exact .inl ⟨bytes, rfl⟩
    · rename_i p r order
      simp only [Bool.and_eq_true, beq_iff_eq] at hcont
      obtain ⟨rfl, rfl⟩ := hcont
      exact .inr (.inl ⟨order, rfl⟩)
    · cases hcont
  · have hne : o.stored.isEmpty = false := by simpa using hstored
    simp only [presses, hne, ha, hcont, Bool.not_false, beq_self_eq_true, Bool.true_and, Bool.or_eq_false_iff,
      beq_eq_false_iff_ne] at h
    obtain ⟨⟨hagent, _⟩, hundo⟩ := h
    exact .inr (.inr ⟨hagent, hundo⟩)

/-- What an access in progress has stored it performs (R99): the next step is its own, or leaves it in progress and what it
stored as its step will store it, or is the step of another access that has to be performed first. -/
theorem step_performs_stored {s t : State} (h : step s = .next t) (hwf : ∀ pe ∈ s.pes, Memory.wf pe.mem) {o : OpenAccess}
    (ho : o ∈ s.accesses) (huniq : ∀ o' ∈ s.accesses, o'.pe = o.pe → o'.agent = o.agent → o' = o)
    (hstored : o.stored ≠ []) (ha : racerAgent s o.pe o.access = some o.agent) :
    (∃ order, nextEvent s = .race o.pe o.access order) ∨
      ((∃ o' ∈ t.accesses, o'.pe = o.pe ∧ o'.agent = o.agent ∧ o'.access = o.access ∧ ∀ a ∈ o.stored, a ∈ o'.stored) ∧
        ((racerAgent t o.pe o.access = some o.agent ∧
            ∀ a ∈ o.stored, plannedByte o.pe o.access t a = plannedByte o.pe o.access s a) ∨
          ∃ o' ∈ s.accesses, o' ≠ o ∧ o'.stored ≠ [] ∧ nextEvent s = .race o'.pe o'.access [])) := by
  rcases not_presses ho with hnot | ⟨first, hfirst, hev⟩
  · rcases not_presses_cases hnot hstored ha with ⟨bytes, hev⟩ | hrace | ⟨hagent, hundo⟩
    · have hsome : (racerAgent s o.pe o.access).isSome = true := by rw [ha]; rfl
      refine .inr ⟨step_keeps_stored h ho huniq ha fun _ => ⟨bytes, hev⟩, .inl ⟨?_, fun a _ => ?_⟩⟩
      · rw [(part_planned hev h hwf o.access hsome 0).1, ha]
      · exact (part_planned hev h hwf o.access hsome a).2
    · exact .inl hrace
    · exact .inr ⟨step_keeps_stored h ho huniq ha fun hx => absurd hx hagent, .inl (undoes_step hundo h)⟩
  · by_cases hself : first = o
    · exact .inl ⟨[], hself ▸ hev⟩
    · right
      have hmem : first ∈ s.accesses := List.mem_of_find?_eq_some hfirst
      have hpress := List.find?_some hfirst
      simp only [presses, Bool.and_eq_true, Bool.not_eq_true', beq_iff_eq] at hpress
      obtain ⟨⟨⟨hne, hfa⟩, _⟩, _⟩ := hpress
      refine ⟨step_keeps_stored h ho huniq ha fun hx => ?_, .inr ⟨first, hmem, hself, by simpa using hne, hev⟩⟩
      rw [hev] at hx
      have hagent : eventAgent s (.race first.pe first.access []) = some (first.pe, first.agent) := by
        simp [eventAgent, eventAccess, eventRacer, hfa]
      rw [hagent] at hx
      obtain ⟨hpe, hag⟩ := Prod.mk.inj (Option.some.inj hx)
      exact absurd (huniq first hmem hpe hag) hself

end Sys2Proof.Machine
end

section
/-! SUPPORT. The accesses of which R86's outcomes are stated, each said once (20_memory.md R86): a request served as a read or as a
write, the store of the core, whole and in parts, the scheduler's write of the flag word, and CHECK's read of it. -/

namespace Sys2Proof.Machine

/-! ### The bytes an access has planned -/

/-- The address `a` is one of the `n` from `addr` on. -/
abbrev Within (addr : Word) (n a : Nat) : Prop := addr.toNat ≤ a ∧ a < addr.toNat + n

/-- An access whose step writes one block of bytes, whatever local memory holds, has those bytes planned. -/
theorem plannedByte_of_writes {s : State} {p : Nat} {pe : Pe} {r : Racer} {a : Nat} {bs : List Byte}
    (hp : s.pes[p]? = some pe) (hwf : Memory.wf pe.mem)
    (h : ∀ m, ∃ t, runRacer p r (withMemAt s p pe m) = .next t ∧ memoryAt t p = writeBytes m a bs) (x : Nat) :
    plannedByte p r s x = if a ≤ x ∧ x < a + bs.length then some (bs.getD (x - a) 0#8) else none := by
  obtain ⟨t, ht, hmt⟩ := h pe.mem
  obtain ⟨u, hu, hmu⟩ := h (putBytes pe.mem [(x, readByte pe.mem x + 1#8)])
  rw [withMemAt_self hp] at ht
  have hread : ∀ m, Memory.wf m → readByte (writeBytes m a bs) x =
      if a ≤ x ∧ x < a + bs.length then bs.getD (x - a) 0#8 else readByte m x :=
    fun m hm => readByte_writeBytes bs m a hm x
  simp only [plannedByte, storesTo, ht, memoryAt_some hp, withBytes_withMemAt hp, hu, hmt, hmu, hread _ hwf,
    hread _ (putBytes_wf _ _ hwf), readByte_putBytes _ _ hwf]
  by_cases hx : a ≤ x ∧ x < a + bs.length
  · simp only [if_pos hx, beq_self_eq_true, if_true]
  · simp [hx]

/-- An access whose step leaves local memory, whatever it holds, stores nowhere. -/
theorem plannedByte_of_reads {s : State} {p : Nat} {pe : Pe} {r : Racer} (hp : s.pes[p]? = some pe)
    (hwf : Memory.wf pe.mem) (h : ∀ m, ∃ t, runRacer p r (withMemAt s p pe m) = .next t ∧ memoryAt t p = m) (x : Nat) :
    plannedByte p r s x = none := by
  rw [plannedByte_of_writes (a := 0) (bs := []) hp hwf h]
  exact if_neg (by simp)

/-! ### Served requests (43_memory_unit.md R322 to R327) -/

theorem decodePacket_eq_ok {b : List Byte} {i : Instr} (h : decode .noc b = .ok i) :
    i = packetOf (packetType b) (packetHead b) (b.drop 32) ∧
      ∀ n, packetBodyLength (packetType b) (packetHead b) = some n → (b.drop 32).length = n := by
  simp only [decode, decodePacket] at h
  split at h
  · cases h
  · split at h
    · rename_i n hn
      split at h
      · rename_i hlen
        cases h
        refine ⟨rfl, fun k hk => ?_⟩
        rw [hn] at hk
        exact hlen.trans (Option.some.inj hk)
      · cases h
    · rename_i hn
      cases h
      refine ⟨rfl, fun k hk => ?_⟩
      rw [hn] at hk
      cases hk

/-- A decoded request carries as many bytes as its type asks for (30_encoding.md R131). -/
theorem decodePacket_wellFormed {b : List Byte} {i : Instr} (h : decode .noc b = .ok i) : i.wellFormed = true := by
  obtain ⟨rfl, hlen⟩ := decodePacket_eq_ok h
  generalize packetType b = ty at *
  unfold packetOf
  split <;> simp only [Instr.wellFormed, beq_iff_eq]
  · exact hlen _ rfl
  · exact hlen _ rfl
  · exact hlen _ rfl
  · exact hlen _ rfl

/-- The bytes `b` are a request with header `h`, no MESSAGE, served at its destination as `f`. -/
def Serves (b : List Byte) (h : PacketHead) (f : Pe → Effect) : Prop :=
  ∃ i, decode .noc b = .ok i ∧ instrHead i = some h ∧ (∀ hd x, i ≠ .message hd x) ∧
    ∀ s, exec i s = serveAt s h fun _ pe => f pe

theorem Serves.head {b : List Byte} {h : PacketHead} {f : Pe → Effect} (hs : Serves b h f) : packetHead b = h := by
  obtain ⟨i, hi, hh, _⟩ := hs
  exact Option.some.inj ((decodePacket_head hi).symm.trans hh)

/-- A request that is no MESSAGE is served by the Memory Unit. -/
theorem Serves.agent {b : List Byte} {h : PacketHead} {f : Pe → Effect} (hs : Serves b h f) {s : State} {p : Nat}
    (hb : b ∈ s.requests) (hd : h.dstPe.toNat = p) : racerAgent s p (.request b) = some .memoryUnit := by
  have htype : packetType b ≠ 0#3 := by
    obtain ⟨i, hi, _, hmsg, _⟩ := hs
    intro h0
    have heq := (decodePacket_eq_ok hi).1
    rw [h0] at heq
    exact hmsg _ _ heq
  simp [racerAgent, hb, hs.head, hd, htype]

theorem Serves.deliver {b : List Byte} {h : PacketHead} {f : Pe → Effect} (hs : Serves b h f) {s : State} {k p : Nat}
    {pe : Pe} (hb : s.requests[k]? = some b) (hd : h.dstPe.toNat = p) (hp : s.pes[p]? = some pe) :
    stepDeliverRequest s k = .next (commit { s with requests := s.requests.eraseIdx k } p (f pe)) := by
  obtain ⟨i, hi, _, _, hx⟩ := hs
  subst p
  simp only [stepDeliverRequest, hb, hi, hx]
  exact serveAt_some _ hp

/-- The bytes `b` are a READ_REQ or a reading cache request with header `h`. -/
def Reads (b : List Byte) (h : PacketHead) : Prop :=
  decode .noc b = .ok (.readReq h) ∨
    (h.write = false ∧ ∃ x, decode .noc b = .ok (.cacheMemReq h x) ∨ decode .noc b = .ok (.cacheMemReqFunc h x))

theorem Reads.serves {b : List Byte} {h : PacketHead} (hr : Reads b h) : Serves b h (serveRead h) := by
  rcases hr with hr | ⟨hw, x, hr | hr⟩
  · exact ⟨_, hr, rfl, nofun, fun _ => rfl⟩
  · refine ⟨_, hr, rfl, nofun, fun s => ?_⟩
    simp [exec, execCacheMemReq, serveCache, hw]
  · refine ⟨_, hr, rfl, nofun, fun s => ?_⟩
    simp [exec, execCacheMemReqFunc, serveCache, hw]

/-- The bytes `b` are a WRITE_REQ or a writing cache request with header `h` and payload `x`. -/
def Writes (b : List Byte) (h : PacketHead) (x : List Byte) : Prop :=
  decode .noc b = .ok (.writeReq h x) ∨
    (h.write = true ∧ (decode .noc b = .ok (.cacheMemReq h x) ∨ decode .noc b = .ok (.cacheMemReqFunc h x)))

theorem Writes.serves {b : List Byte} {h : PacketHead} {x : List Byte} (hw : Writes b h x) :
    Serves b h (serveWrite h x) := by
  rcases hw with hw | ⟨hwr, hw | hw⟩
  · exact ⟨_, hw, rfl, nofun, fun _ => rfl⟩
  · refine ⟨_, hw, rfl, nofun, fun s => ?_⟩
    simp [exec, execCacheMemReq, serveCache, hwr]
  · refine ⟨_, hw, rfl, nofun, fun s => ?_⟩
    simp [exec, execCacheMemReqFunc, serveCache, hwr]

/-- A decoded request that writes carries the bytes that its header counts (30_encoding.md R131). -/
theorem Writes.length {b : List Byte} {h : PacketHead} {x : List Byte} (hw : Writes b h x) : x.length = h.size.toNat := by
  rcases hw with hw | ⟨hwr, hw | hw⟩ <;> have hok := decodePacket_wellFormed hw
  · simpa [Instr.wellFormed] using hok
  · simpa [Instr.wellFormed, PacketHead.cacheBytes, hwr] using hok
  · simpa [Instr.wellFormed, PacketHead.cacheBytes, hwr] using hok

theorem serveRead_pe (h : PacketHead) (pe : Pe) : (serveRead h pe).pe = pe := by
  unfold serveRead
  split <;> rfl

theorem serveRead_inside {h : PacketHead} {pe : Pe} (hin : h.addr.toNat + h.size.toNat ≤ pe.cfg.memSize) :
    serveRead h pe =
      { pe := pe, responses := [responseTo h errNone (readBytes pe.mem h.addr.toNat h.size.toNat)] } := by
  simp only [serveRead, memRead_eq_some.2 ⟨.inr hin, rfl⟩]

theorem serveWrite_inside {h : PacketHead} {x : List Byte} {pe : Pe} (hin : h.addr.toNat + x.length ≤ pe.cfg.memSize) :
    serveWrite h x pe =
      { pe := { pe with mem := writeBytes pe.mem h.addr.toNat x }, responses := [responseTo h errNone []] } := by
  simp only [serveWrite, memWrite_eq_some.2 ⟨.inr hin, rfl⟩]

/-- A served read stores nothing. -/
theorem Reads.plannedByte {b : List Byte} {h : PacketHead} (hr : Reads b h) {s : State} {p : Nat} {pe : Pe}
    (hb : b ∈ s.requests) (hd : h.dstPe.toNat = p) (hp : s.pes[p]? = some pe) (hwf : Memory.wf pe.mem) (x : Nat) :
    plannedByte p (.request b) s x = none := by
  refine plannedByte_of_reads hp hwf (fun m => ?_) x
  have hget := withMemAt_get hp m
  refine ⟨_, hr.serves.deliver (s := withMemAt s p pe m) (List.getElem?_idxOf hb) hd hget, ?_⟩
  exact (memoryAt_commit (s := { withMemAt s p pe m with requests := _ }) hget _).trans (by rw [serveRead_pe]; rfl)

/-! ### The store of the core -/

theorem coreStoreEffect_inside {addr : Word} {bytes : List Byte} {pe : Pe}
    (hin : addr.toNat + bytes.length ≤ pe.cfg.memSize) :
    coreStoreEffect addr bytes pe = some { pe := { pe with mem := writeBytes pe.mem addr.toNat bytes } } := by
  simp only [coreStoreEffect, memWrite_eq_some.2 ⟨.inr hin, rfl⟩, Option.map_some]

theorem stepPe_some {s : State} {p : Nat} {pe : Pe} {f : PeId → Pe → Option Effect} {e : Effect} (hp : s.pes[p]? = some pe)
    (hf : f (peId p) pe = some e) : stepPe s p f = commit s p e := by
  simp [stepPe, hp, hf]

theorem plannedByte_coreStore {s : State} {p : Nat} {pe : Pe} {addr : Word} {bytes : List Byte} (hp : s.pes[p]? = some pe)
    (hwf : Memory.wf pe.mem) (hin : addr.toNat + bytes.length ≤ pe.cfg.memSize) (x : Nat) :
    plannedByte p (.coreStore addr bytes) s x =
      if Within addr bytes.length x then some (bytes.getD (x - addr.toNat) 0#8) else none := by
  refine plannedByte_of_writes hp hwf (fun m => ⟨_, rfl, ?_⟩) x
  have hget := withMemAt_get hp m
  rw [stepPe_some hget (coreStoreEffect_inside (pe := pe.withMem m) hin), memoryAt_commit hget]
  rfl

/-- The store of the core as an access in progress. -/
def storeAccess (p : Nat) (addr : Word) (bytes : List Byte) (moments : List Memory) (stored : List Nat) : OpenAccess :=
  { pe := p, agent := .core, access := .coreStore addr bytes, moments := moments, stored := stored }

/-- Of the core's accesses at the PE at place `p`, no other than this store is in progress, and it with these moments and
stored addresses, if it is. -/
def OnlyStore (l : List OpenAccess) (p : Nat) (pe : Pe) (addr : Word) (bytes : List Byte) (moments : List Memory)
    (stored : List Nat) : Prop :=
  underWay l p .core (.coreStore addr bytes) = storeAccess p addr bytes moments stored ∧ overlapAll p pe .core l = []

theorem OnlyStore.nil (p : Nat) (pe : Pe) (addr : Word) (bytes : List Byte) : OnlyStore [] p pe addr bytes [] [] :=
  ⟨rfl, rfl⟩

theorem OnlyStore.single (p : Nat) (pe : Pe) (addr : Word) (bytes : List Byte) (moments : List Memory) (stored : List Nat) :
    OnlyStore [storeAccess p addr bytes moments stored] p pe addr bytes moments stored := by
  constructor
  · simp [underWay, accessOf, storeAccess]
  · simp [overlapAll, overlap, storeAccess]

/-- A part of the core's store: of its addresses given, those at which it has not stored are stored now. -/
theorem step_storePart {s : State} {rest : List Event} {p : Nat} {pe : Pe} {addr : Word} {bytes : List Byte}
    {addrs : List Nat} {moments : List Memory} {stored : List Nat}
    (hagenda : s.agenda = .accessPart p (.coreStore addr bytes) addrs :: rest) (hpressed : pressed s = none)
    (hp : s.pes[p]? = some pe) (hwf : Memory.wf pe.mem) (hin : addr.toNat + bytes.length ≤ pe.cfg.memSize)
    (hflag : isFlagWord pe addr bytes.length = false) (honly : OnlyStore s.accesses p pe addr bytes moments stored) :
    ∃ (m : Memory) (now : List Nat) (t : State), Memory.wf m ∧
      (∀ x, x ∈ now ↔ x ∈ addrs ∧ Within addr bytes.length x ∧ x ∉ stored) ∧
      (∀ x, readByte m x = if x ∈ now then bytes.getD (x - addr.toNat) 0#8 else readByte pe.mem x) ∧
      t = { s with
        agenda := rest, outputs := [], pes := s.pes.set p { pe with mem := m }
        accesses := [storeAccess p addr bytes moments (stored ++ now)] } ∧
      step s = .next t := by
  obtain ⟨hev, htaken⟩ := takeEvent_cons hagenda hpressed
  have hmay : mayOverlap pe (.coreStore addr bytes) = true := by simp [mayOverlap, flagAccess, hflag]
  obtain ⟨hunder, hown⟩ := honly
  obtain ⟨m, hwfm, hm, hstep⟩ := step_part (agent := .core) hp hwf rfl hev hmay
  rw [htaken, hown, hunder] at hstep
  have hnow : ∀ x, x ∈ partAddrs s.accesses p (.coreStore addr bytes) addrs s ↔
      x ∈ addrs ∧ Within addr bytes.length x ∧ x ∉ stored := by
    intro x
    have hsome : (plannedByte p (.coreStore addr bytes) s x).isSome = true ↔ Within addr bytes.length x := by
      rw [plannedByte_coreStore hp hwf hin]
      split
      · exact ⟨fun _ => ‹_›, fun _ => rfl⟩
      · exact ⟨nofun, fun hw => absurd hw ‹_›⟩
    rw [mem_partAddrs, hsome]
    constructor
    · rintro ⟨q, agent, hq, hag, _, hx, _, hnot, hw⟩
      cases hag
      rw [hunder] at hnot
      exact ⟨hx, hw, hnot⟩
    · rintro ⟨hx, hw, hnot⟩
      exact ⟨pe, .core, hp, rfl, hmay, hx, by omega, by rwa [hunder], hw⟩
  refine ⟨m, _, _, hwfm, hnow, fun x => ?_, rfl, hstep⟩
  rw [hm, plannedByte_coreStore hp hwf hin]
  split
  · rename_i hx
    rw [if_pos ((hnow x).1 hx).2.1]
    rfl
  · rfl

/-- The step of the core's store: it stores the bytes that it has not stored before, which it leaves as they are. -/
theorem step_storeRace {s : State} {p : Nat} {pe : Pe} {addr : Word} {bytes : List Byte} {order : List (Nat × Nat)}
    {moments : List Memory} {stored : List Nat} (hev : nextEvent s = .race p (.coreStore addr bytes) order)
    (hp : s.pes[p]? = some pe) (hwf : Memory.wf pe.mem) (hin : addr.toNat + bytes.length ≤ pe.cfg.memSize)
    (honly : OnlyStore s.accesses p pe addr bytes moments stored) :
    ∃ (m : Memory) (t : State), Memory.wf m ∧
      (∀ x, readByte m x =
        if Within addr bytes.length x ∧ x ∉ stored then bytes.getD (x - addr.toNat) 0#8 else readByte pe.mem x) ∧
      t = { takeEvent s with pes := s.pes.set p { pe with mem := m }, accesses := [] } ∧ step s = .next t := by
  obtain ⟨hunder, hown⟩ := honly
  have hget : ∀ found, (unscheduled s p pe found).pes[p]? = some (pe.withMem found) := fun found => withMemAt_get hp found
  have halone : ∀ found, stepAlone s p pe (.coreStore addr bytes) found =
      .next (commit (unscheduled s p pe found) p { pe := { pe with mem := writeBytes found addr.toNat bytes } }) := by
    intro found
    rw [stepAlone_eq]
    exact congrArg Host.Outcome.next
      (stepPe_some (hget found) (coreStoreEffect_inside (pe := pe.withMem found) hin))
  obtain ⟨m, hwfm, hm, hstep⟩ := step_race (agent := .core) hp hwf rfl hev (halone _) (pes_set_get (hget _) _)
  rw [hunder] at hm
  refine ⟨m, _, hwfm, fun x => ?_, rfl, hstep.trans ?_⟩
  · rw [hm, plannedByte_coreStore hp hwf hin]
    by_cases hw : Within addr bytes.length x
    · rw [if_pos hw]
      by_cases hst : x ∈ stored
      · rw [if_pos ⟨hst, by omega⟩, if_neg fun h => h.2 hst]
      · rw [if_neg fun h => hst h.1, if_pos ⟨hw, hst⟩]
        rfl
    · rw [if_neg hw, Option.getD_none, ite_self, if_neg fun h => hw h.1]
  · rw [hown]
    conv => rhs; rw [takeEvent_eq s]
    simp [commit, unscheduled, withMemAt, withSchedule]

/-- What the core's store has planned is the same wherever local memory has the same size. -/
theorem undoes_storeAccess {s t : State} {e : Event} {p : Nat} {pe pe' : Pe} {addr : Word} {bytes : List Byte}
    {moments : List Memory} {stored : List Nat} (hp : s.pes[p]? = some pe) (hwf : Memory.wf pe.mem)
    (hin : addr.toNat + bytes.length ≤ pe.cfg.memSize) (hrun : runEvent e s.accesses s = .next t)
    (hp' : t.pes[p]? = some pe') (hwf' : Memory.wf pe'.mem) (hcfg : pe'.cfg = pe.cfg) :
    undoes s e (storeAccess p addr bytes moments stored) = false := by
  simp only [undoes, hrun, storeAccess, plannedByte_coreStore hp hwf hin,
    plannedByte_coreStore hp' hwf' (hcfg ▸ hin)]
  simp [racerAgent]

/-! ### A request served beside the core's store -/

/-- The core's store does not have to be performed before a request is served that is no access to exactly the flag word. -/
theorem pressed_deliver {s : State} {rest : List Event} {p : Nat} {pe : Pe} {addr : Word} {bytes : List Byte}
    {moments : List Memory} {stored : List Nat} {b : List Byte} {others : List (List Byte)} {h : PacketHead} {f : Pe → Effect}
    (hagenda : s.agenda = .deliverRequest 0 :: rest) (hacc : s.accesses = [storeAccess p addr bytes moments stored])
    (hp : s.pes[p]? = some pe) (hwf : Memory.wf pe.mem) (hin : addr.toNat + bytes.length ≤ pe.cfg.memSize)
    (hreq : s.requests = b :: others) (hs : Serves b h f) (hd : h.dstPe.toNat = p)
    (hflag : isFlagWord pe h.addr h.size.toNat = false) (hwf' : Memory.wf (f pe).pe.mem) (hcfg : (f pe).pe.cfg = pe.cfg) :
    pressed s = none := by
  have hfirst : s.requests[0]? = some b := by simp [hreq]
  have hracer : eventRacer s (.deliverRequest 0) = some (p, .request b, []) := by simp [eventRacer, hfirst, hs.head, hd]
  have hagent : eventAgent s (.deliverRequest 0) = some (p, .memoryUnit) := by
    simp [eventAgent, eventAccess, hracer, hs.agent (s := s) (by simp [hreq]) hd]
  have hhalf : seesHalf s (.deliverRequest 0) (storeAccess p addr bytes moments stored) = false := by
    simp [seesHalf, storeAccess, hp, hracer, flagAccess, hs.head, hflag]
  have hundo : undoes s (.deliverRequest 0) (storeAccess p addr bytes moments stored) = false :=
    undoes_storeAccess hp hwf hin (hs.deliver hfirst hd hp) (pes_set_get hp _) hwf' hcfg
  have hpress : presses s (.deliverRequest 0) (storeAccess p addr bytes moments stored) = false := by
    simp only [presses, hagent, hhalf, hundo]
    simp [storeAccess]
  rw [pressed, hacc, chosenEvent, hagenda]
  simp [hpress]

theorem step_deliver {s : State} {rest : List Event} {p : Nat} {pe : Pe} {b : List Byte} {others : List (List Byte)}
    {h : PacketHead} {f : Pe → Effect} (hagenda : s.agenda = .deliverRequest 0 :: rest) (hpressed : pressed s = none)
    (hp : s.pes[p]? = some pe) (hreq : s.requests = b :: others) (hs : Serves b h f) (hd : h.dstPe.toNat = p) :
    step s = .next (commit
      { s with
        agenda := rest, requests := others, outputs := [], accesses := overlapAll p pe .memoryUnit s.accesses }
      p (f pe)) := by
  obtain ⟨hev, htaken⟩ := takeEvent_cons hagenda hpressed
  have hfirst : s.requests[0]? = some b := by simp [hreq]
  have hracer : eventRacer s (.deliverRequest 0) = some (p, .request b, []) := by simp [eventRacer, hfirst, hs.head, hd]
  rw [accessesAfter_eventRacer hracer hp (hs.agent (by simp [hreq]) hd)] at htaken
  have hrun := hs.deliver (s := takeEvent s) (k := 0) (by rwa [takeEvent_requests]) hd (by rwa [takeEvent_pes])
  rw [step, hev]
  refine hrun.trans ?_
  rw [htaken]
  simp [hreq]

theorem overlapAll_storeAccess (p : Nat) (pe : Pe) (addr : Word) (bytes : List Byte) (moments : List Memory)
    (stored : List Nat) :
    overlapAll p pe .memoryUnit [storeAccess p addr bytes moments stored] =
      [storeAccess p addr bytes (moments ++ [pe.mem]) stored] := by
  simp [overlapAll, overlap, storeAccess]

/-! ### Accesses where none is in progress that has begun to store -/

/-- With no access in progress that has been overlapped or has stored, the step of an access is its own step. -/
theorem step_race_fresh {s : State} {p : Nat} {r : Racer} {order : List (Nat × Nat)} {agent : Agent}
    (hev : nextEvent s = .race p r order) (ha : racerAgent s p r = some agent)
    (hfresh : ∀ o ∈ s.accesses, o.moments = [] ∧ o.stored = []) : step s = runRacer p r (takeEvent s) := by
  have hunder : (underWay s.accesses p agent r).moments = [] ∧ (underWay s.accesses p agent r).stored = [] := by
    unfold underWay
    split
    · rename_i o ho
      split
      · exact hfresh o (List.mem_of_find?_eq_some ho)
      · exact ⟨rfl, rfl⟩
    · exact ⟨rfl, rfl⟩
  have horder : raceOrder s.accesses p r order (takeEvent s) = [] := by
    rw [raceOrder_takeEvent]
    refine List.eq_nil_iff_forall_not_mem.2 fun x hx => ?_
    obtain ⟨_, agent', _, ha', _, _, _, hlt⟩ := mem_raceOrder hx
    rw [ha] at ha'
    cases ha'
    simp [hunder.1] at hlt
  rw [step, hev]
  exact stepRace_alone (by rwa [racerAgent_takeEvent]) horder hunder.2

/-! ### The flag word (45_ctxswitch.md R383, R385) -/

/-- The step of CHECK: the flag word is read into the session. -/
theorem stepPe_check {s : State} {p : Nat} {pe : Pe} {c : Session} (hp : s.pes[p]? = some pe) (hc : pe.session = some c)
    (hstate : c.state = .check) (hin : pe.cfg.rctmuxFlags.toNat + 8 ≤ pe.cfg.memSize) :
    stepPe s p ctxSwitchStep = commit s p
      { pe := { pe with session := some { c with
        flags := BitVec.ofNat 64 (ofLE (readBytes pe.mem pe.cfg.rctmuxFlags.toNat 8)), state := .flags } } } := by
  refine stepPe_some hp ?_
  simp only [ctxSwitchStep, hc, sessionStep, hstate, ctxCheck, memRead_eq_some.2 ⟨.inr hin, rfl⟩, Option.map_some]
  rfl

theorem stepPe_schedulerWrite {s : State} {p : Nat} {pe : Pe} (v : Word) (hp : s.pes[p]? = some pe)
    (hin : pe.cfg.rctmuxFlags.toNat + 8 ≤ pe.cfg.memSize) :
    stepPe s p (fun _ pe => schedulerEffect v pe) = commit s p
      { pe := { pe with mem := writeBytes pe.mem pe.cfg.rctmuxFlags.toNat (wordBytes v) } } := by
  have hwrite : memWrite pe pe.cfg.rctmuxFlags.toNat (wordBytes v) = some _ :=
    memWrite_eq_some.2 ⟨.inr (by rwa [wordBytes_length]), rfl⟩
  exact stepPe_some hp (by rw [schedulerEffect, hwrite]; rfl)

/-- CHECK stores nothing. -/
theorem storesTo_check {s : State} {p : Nat} {pe : Pe} {c : Session} (hp : s.pes[p]? = some pe) (hwf : Memory.wf pe.mem)
    (hc : pe.session = some c) (hstate : c.state = .check) (hin : pe.cfg.rctmuxFlags.toNat + 8 ≤ pe.cfg.memSize) (a : Nat) :
    storesTo p .ctxSwitch s a = false := by
  have hnone : plannedByte p .ctxSwitch s a = none := by
    refine plannedByte_of_reads hp hwf (fun m => ⟨_, rfl, ?_⟩) a
    have hget := withMemAt_get hp m
    rw [stepPe_check (pe := pe.withMem m) hget hc hstate hin, memoryAt_commit hget]
    rfl
  by_contra hst
  obtain ⟨b, hb⟩ := plannedByte_of_storesTo (Bool.eq_true_of_not_eq_false hst)
  rw [hnone] at hb
  cases hb

theorem flagAccess_check {pe : Pe} {c : Session} (hc : pe.session = some c) (hstate : c.state = .check) :
    flagAccess pe .ctxSwitch = true := by
  simp [flagAccess, ctxFlagAccess, hc, hstate]

/-- A read of the flag word by CHECK does not come between the bytes of the word that the core has stored and those that it has
yet to store (R86). -/
theorem pressed_check {s : State} {rest : List Event} {p : Nat} {pe : Pe} {c : Session} {addr : Word} {bytes : List Byte}
    {moments : List Memory} {stored : List Nat} (hagenda : s.agenda = .ctxSwitch p :: rest)
    (hacc : s.accesses = [storeAccess p addr bytes moments stored]) (hp : s.pes[p]? = some pe) (hwf : Memory.wf pe.mem)
    (hin : addr.toNat + bytes.length ≤ pe.cfg.memSize) (hc : pe.session = some c) (hstate : c.state = .check)
    (hword : pe.cfg.rctmuxFlags.toNat + 8 ≤ pe.cfg.memSize)
    (hdone : ∃ a ∈ stored, Within pe.cfg.rctmuxFlags 8 a)
    (hleft : ∃ a, a ∉ stored ∧ Within addr bytes.length a ∧ Within pe.cfg.rctmuxFlags 8 a) :
    pressed s = some (storeAccess p addr bytes moments stored) := by
  have inWord : ∀ a, Within pe.cfg.rctmuxFlags 8 a → a ∈ (List.range 8).map (pe.cfg.rctmuxFlags.toNat + ·) := fun a ha =>
    List.mem_map.2 ⟨a - pe.cfg.rctmuxFlags.toNat, List.mem_range.2 (by omega), by omega⟩
  obtain ⟨a, hmem, ha⟩ := hdone
  obtain ⟨b, hnot, hstore, hb⟩ := hleft
  have hhalf : seesHalf s (.ctxSwitch p) (storeAccess p addr bytes moments stored) = true := by
    have hsome : ((List.range 8).map (pe.cfg.rctmuxFlags.toNat + ·)).any (fun x => stored.contains x) = true :=
      List.any_eq_true.2 ⟨a, inWord a ha, by simpa using hmem⟩
    have hrest : ((List.range 8).map (pe.cfg.rctmuxFlags.toNat + ·)).any (fun x =>
        !stored.contains x && (plannedByte p (.coreStore addr bytes) s x).isSome) = true :=
      List.any_eq_true.2 ⟨b, inWord b hb, by rw [plannedByte_coreStore hp hwf hin, if_pos hstore]; simp [hnot]⟩
    have hread : ((List.range 8).map (pe.cfg.rctmuxFlags.toNat + ·)).any (fun x => storesTo p .ctxSwitch s x) = false := by
      simp [storesTo_check hp hwf hc hstate hword]
    simp only [seesHalf, storeAccess, hp, eventRacer, flagAccess_check hc hstate, hsome, hrest, hread, beq_self_eq_true]
    rfl
  have hpress : presses s (.ctxSwitch p) (storeAccess p addr bytes moments stored) = true := by
    have hne : stored.isEmpty = false := by simpa using List.ne_nil_of_mem hmem
    simp only [presses, hhalf]
    simp [storeAccess, hne, racerAgent, continues]
  rw [pressed, hacc, chosenEvent, hagenda]
  simp [hpress]

/-! ### Runs -/

/-- A run goes on from the next state. -/
theorem run_succ {s t : State} (h : step s = .next t) (k : Nat) :
    Host.Core.run Sys2Proof.core (k + 1) s = Host.Core.run Sys2Proof.core k t := by
  simp only [Host.Core.run, show Sys2Proof.core.step s = .next t from h]

theorem run_one_congr {s t : State} (h : step s = step t) :
    Host.Core.run Sys2Proof.core 1 s = Host.Core.run Sys2Proof.core 1 t := by
  simp only [Host.Core.run, show Sys2Proof.core.step s = Sys2Proof.core.step t from h]

theorem run_zero (s : State) : Host.Core.run Sys2Proof.core 0 s = .next s := rfl

end Sys2Proof.Machine
end

section
/-! SUPPORT. The runs of which R86's outcomes are stated (20_memory.md R86, R99), each said once: a store of the core torn by two
reads, a store of the core beside a served write, a read in progress over two other accesses, the flag word written and read,
and two stores of the core. -/

namespace Sys2Proof.Machine

/-! ### The memory after a store -/

/-- An access of `n` bytes inside local memory that is not exactly the flag word. -/
def Fits (pe : Pe) (addr : Word) (n : Nat) : Prop :=
  addr.toNat + n ≤ pe.cfg.memSize ∧ isFlagWord pe addr n = false

/-- The memory `m` is `old` with the bytes from `addr` on replaced. -/
def IsStored (m old : Memory) (addr : Word) (bytes : List Byte) : Prop :=
  ∀ x, (Within addr bytes.length x → readByte m x = bytes.getD (x - addr.toNat) 0#8) ∧
    (¬ Within addr bytes.length x → readByte m x = readByte old x)

theorem IsStored.writeBytes {m : Memory} (hm : Memory.wf m) (addr : Word) (bytes : List Byte) :
    IsStored (writeBytes m addr.toNat bytes) m addr bytes := by
  intro x
  rw [readByte_writeBytes _ _ _ hm]
  exact ⟨fun hw => if_pos hw, fun hw => if_neg hw⟩

/-- The rest of a store completes it: what is stored before holds its bytes, the rest is stored now. -/
theorem IsStored.of_parts {m before old : Memory} {addr : Word} {bytes : List Byte} {stored : List Nat}
    (hm : ∀ x, readByte m x =
      if Within addr bytes.length x ∧ x ∉ stored then bytes.getD (x - addr.toNat) 0#8 else readByte before x)
    (hstored : ∀ x ∈ stored, Within addr bytes.length x ∧ readByte before x = bytes.getD (x - addr.toNat) 0#8)
    (hrest : ∀ x, x ∉ stored → readByte before x = readByte old x) : IsStored m old addr bytes := by
  intro x
  rw [hm]
  by_cases hx : x ∈ stored
  · rw [if_neg fun h => h.2 hx]
    exact ⟨fun _ => (hstored x hx).2, fun hnot => absurd (hstored x hx).1 hnot⟩
  · exact ⟨fun hw => if_pos ⟨hw, hx⟩, fun hnot => (if_neg fun h => hnot h.1).trans (hrest x hx)⟩

/-! ### A store of the core and served requests -/

/-- The store of the core in progress does not have to be performed before its own parts and its own step. -/
theorem pressed_continues {s : State} {e : Event} {rest : List Event} {o : OpenAccess} (hagenda : s.agenda = e :: rest)
    (hacc : s.accesses = [o]) (hcont : continues o e = true) : pressed s = none := by
  rw [pressed, hacc, chosenEvent, hagenda]
  simp [presses, hcont]

/-- A read served while the store of the core is in progress. -/
theorem step_readBesideStore {s : State} {rest : List Event} {p : Nat} {pe : Pe} {addr : Word} {bytes : List Byte}
    {moments : List Memory} {stored : List Nat} {b : List Byte} {others : List (List Byte)} {h : PacketHead}
    (hagenda : s.agenda = .deliverRequest 0 :: rest) (hacc : s.accesses = [storeAccess p addr bytes moments stored])
    (hp : s.pes[p]? = some pe) (hwf : Memory.wf pe.mem) (hin : addr.toNat + bytes.length ≤ pe.cfg.memSize)
    (hreq : s.requests = b :: others) (hr : Reads b h) (hd : h.dstPe.toNat = p) (hfits : Fits pe h.addr h.size.toNat) :
    ∃ t : State,
      t = { s with
        agenda := rest, requests := others, outputs := []
        responses := s.responses ++ [responseTo h errNone (readBytes pe.mem h.addr.toNat h.size.toNat)]
        accesses := [storeAccess p addr bytes (moments ++ [pe.mem]) stored] } ∧
      step s = .next t := by
  have hpressed := pressed_deliver hagenda hacc hp hwf hin hreq hr.serves hd hfits.2 (by rwa [serveRead_pe])
    (by rw [serveRead_pe])
  have hstep := step_deliver hagenda hpressed hp hreq hr.serves hd
  rw [serveRead_inside hfits.1, hacc, overlapAll_storeAccess] at hstep
  refine ⟨_, rfl, hstep.trans ?_⟩
  simp [commit, pes_set_self hp]

/-- A write served while the store of the core is in progress. -/
theorem step_writeBesideStore {s : State} {rest : List Event} {p : Nat} {pe : Pe} {addr : Word} {bytes : List Byte}
    {moments : List Memory} {stored : List Nat} {b : List Byte} {others : List (List Byte)} {h : PacketHead}
    {payload : List Byte} (hagenda : s.agenda = .deliverRequest 0 :: rest)
    (hacc : s.accesses = [storeAccess p addr bytes moments stored]) (hp : s.pes[p]? = some pe) (hwf : Memory.wf pe.mem)
    (hin : addr.toNat + bytes.length ≤ pe.cfg.memSize) (hreq : s.requests = b :: others) (hw : Writes b h payload)
    (hd : h.dstPe.toNat = p) (hfits : Fits pe h.addr h.size.toNat) :
    ∃ t : State,
      t = { s with
        agenda := rest, requests := others, outputs := [], responses := s.responses ++ [responseTo h errNone []]
        pes := s.pes.set p { pe with mem := writeBytes pe.mem h.addr.toNat payload }
        accesses := [storeAccess p addr bytes (moments ++ [pe.mem]) stored] } ∧
      step s = .next t := by
  have hserve := serveWrite_inside (h := h) (x := payload) (pe := pe) (by rw [hw.length]; exact hfits.1)
  have hpressed := pressed_deliver hagenda hacc hp hwf hin hreq hw.serves hd hfits.2
    (by rw [hserve]; exact writeBytes_wf _ _ _ hwf) (by rw [hserve])
  have hstep := step_deliver hagenda hpressed hp hreq hw.serves hd
  rw [hserve, hacc, overlapAll_storeAccess] at hstep
  refine ⟨_, rfl, hstep.trans ?_⟩
  simp [commit]

/-- A store of the core torn by two reads, the parts before each given: no read finds an old byte after a new one. -/
theorem run_store_torn_by_reads {s : State} {rest : List Event} {p : Nat} {pe : Pe} {addr : Word} {bytes : List Byte}
    {at1 at2 : List Nat} {b1 b2 : List Byte} {others : List (List Byte)} {h1 h2 : PacketHead}
    (hagenda : s.agenda =
      .accessPart p (.coreStore addr bytes) at1 :: .deliverRequest 0 :: .accessPart p (.coreStore addr bytes) at2 ::
        .deliverRequest 0 :: .race p (.coreStore addr bytes) [] :: rest)
    (hp : s.pes[p]? = some pe) (hacc : s.accesses = []) (hwf : Memory.wf pe.mem) (hfits : Fits pe addr bytes.length)
    (hreq : s.requests = b1 :: b2 :: others) (hr1 : Reads b1 h1) (hr2 : Reads b2 h2) (hd1 : h1.dstPe.toNat = p)
    (hd2 : h2.dstPe.toNat = p) (hf1 : Fits pe h1.addr h1.size.toNat) (hf2 : Fits pe h2.addr h2.size.toNat)
    (hat : ∀ a ∈ at1 ++ at2, Within addr bytes.length a) :
    ∃ (m : Memory) (data1 data2 : List Byte),
      IsStored m pe.mem addr bytes ∧ data1.length = h1.size.toNat ∧ data2.length = h2.size.toNat ∧
      (∀ j < h1.size.toNat,
        data1.getD j 0#8 = readByte (if h1.addr.toNat + j ∈ at1 then m else pe.mem) (h1.addr.toNat + j)) ∧
      (∀ j < h2.size.toNat,
        data2.getD j 0#8 = readByte (if h2.addr.toNat + j ∈ at1 ++ at2 then m else pe.mem) (h2.addr.toNat + j)) ∧
      Host.Core.run Sys2Proof.core 5 s =
        .next (commit { s with agenda := rest, requests := others, outputs := [] } p
          { pe := { pe with mem := m }, responses := [responseTo h1 errNone data1, responseTo h2 errNone data2] }) := by
  obtain ⟨hin, hflag⟩ := hfits
  obtain ⟨m1, now1, s1, hwf1, hnow1, hm1, hs1, hstep1⟩ :=
    step_storePart hagenda (pressed_nil hacc) hp hwf hin hflag (hacc ▸ OnlyStore.nil p pe addr bytes)
  have hp1 : s1.pes[p]? = some { pe with mem := m1 } := by rw [hs1]; exact pes_set_get hp _
  obtain ⟨s2, hs2, hstep2⟩ := step_readBesideStore (s := s1) (by rw [hs1]) (by rw [hs1]) hp1 hwf1 hin
    (by rw [hs1]; exact hreq) hr1 hd1 hf1
  have hp2 : s2.pes[p]? = some { pe with mem := m1 } := by rw [hs2]; exact hp1
  have hpressed2 : pressed s2 = none :=
    pressed_continues (s := s2) (by rw [hs2]) (by rw [hs2]) (by simp [continues, storeAccess])
  obtain ⟨m3, now2, s3, hwf3, hnow2, hm3, hs3, hstep3⟩ :=
    step_storePart (s := s2) (by rw [hs2]) hpressed2 hp2 hwf1 hin hflag (by rw [hs2]; exact .single ..)
  have hp3 : s3.pes[p]? = some { pe with mem := m3 } := by rw [hs3]; exact pes_set_get hp2 _
  obtain ⟨s4, hs4, hstep4⟩ := step_readBesideStore (s := s3) (by rw [hs3]) (by rw [hs3]) hp3 hwf3 hin
    (by rw [hs3, hs2]) hr2 hd2 hf2
  have hp4 : s4.pes[p]? = some { pe with mem := m3 } := by rw [hs4]; exact hp3
  have hpressed4 : pressed s4 = none :=
    pressed_continues (s := s4) (by rw [hs4]) (by rw [hs4]) (by simp [continues, storeAccess])
  obtain ⟨hev4, htaken4⟩ := takeEvent_cons (s := s4) (by rw [hs4]) hpressed4
  obtain ⟨m, s5, hwf5, hm, hs5, hstep5⟩ :=
    step_storeRace hev4 hp4 hwf3 hin (by rw [hs4]; exact .single ..)
  have hat1 : ∀ a, a ∈ now1 ↔ a ∈ at1 := fun a => by
    rw [hnow1]
    exact ⟨fun h => h.1, fun h => ⟨h, hat a (List.mem_append_left _ h), List.not_mem_nil⟩⟩
  have hat2 : ∀ a, a ∈ [] ++ now1 ++ now2 ↔ a ∈ at1 ++ at2 := fun a => by
    have hw : a ∈ at2 → Within addr bytes.length a := fun h => hat a (List.mem_append_right _ h)
    simp only [List.nil_append, List.mem_append, hat1, hnow2]
    tauto
  have hbefore : ∀ x, readByte m3 x =
      if x ∈ [] ++ now1 ++ now2 then bytes.getD (x - addr.toNat) 0#8 else readByte pe.mem x := by
    intro x
    rw [hm3]
    simp only [hm1, List.nil_append, List.mem_append]
    by_cases hx1 : x ∈ now1 <;> by_cases hx2 : x ∈ now2 <;> simp [hx1, hx2]
  have hstored : IsStored m pe.mem addr bytes := by
    refine IsStored.of_parts hm (fun x hx => ⟨hat x ((hat2 x).1 hx), ?_⟩) fun x hx => ?_
    · rw [hbefore, if_pos hx]
    · rw [hbefore, if_neg hx]
  refine ⟨m, readBytes m1 h1.addr.toNat h1.size.toNat, readBytes m3 h2.addr.toNat h2.size.toNat, hstored,
    readBytes_length .., readBytes_length .., fun j hj => ?_, fun j hj => ?_, ?_⟩
  · refine (readBytes_getD m1 _ _ j hj).trans ?_
    rw [hm1]
    simp only [hat1]
    split
    · rename_i ha
      exact ((hstored _).1 (hat _ (List.mem_append_left _ ha))).symm
    · rfl
  · refine (readBytes_getD m3 _ _ j hj).trans ?_
    rw [hbefore]
    simp only [hat2]
    split
    · rename_i ha
      exact ((hstored _).1 (hat _ ha)).symm
    · rfl
  · rw [run_succ hstep1, run_succ hstep2, run_succ hstep3, run_succ hstep4, run_succ hstep5, run_zero, hs5, htaken4, hs4,
      hs3, hs2, hs1]
    simp [commit, hacc]

/-- A store of the core that overlaps a served write: of the bytes that both store, those stored early end as the request's,
the others as the core's. -/
theorem run_store_beside_write {s : State} {rest : List Event} {p : Nat} {pe : Pe} {addr : Word} {bytes : List Byte}
    {early : List Nat} {b : List Byte} {others : List (List Byte)} {h : PacketHead} {payload : List Byte}
    (hagenda : s.agenda =
      .accessPart p (.coreStore addr bytes) early :: .deliverRequest 0 :: .race p (.coreStore addr bytes) [] :: rest)
    (hp : s.pes[p]? = some pe) (hacc : s.accesses = []) (hwf : Memory.wf pe.mem) (hfits : Fits pe addr bytes.length)
    (hreq : s.requests = b :: others) (hw : Writes b h payload) (hd : h.dstPe.toNat = p)
    (hf : Fits pe h.addr h.size.toNat) (hearly : ∀ a ∈ early, Within addr bytes.length a) :
    ∃ m : Memory,
      (∀ x, Within addr bytes.length x → (x ∉ early ∨ ¬ Within h.addr h.size.toNat x) →
        readByte m x = bytes.getD (x - addr.toNat) 0#8) ∧
      (∀ x, Within h.addr h.size.toNat x → (x ∈ early ∨ ¬ Within addr bytes.length x) →
        readByte m x = payload.getD (x - h.addr.toNat) 0#8) ∧
      (∀ x, ¬ Within addr bytes.length x → ¬ Within h.addr h.size.toNat x → readByte m x = readByte pe.mem x) ∧
      Host.Core.run Sys2Proof.core 3 s =
        .next (commit { s with agenda := rest, requests := others, outputs := [] } p
          { pe := { pe with mem := m }, responses := [responseTo h errNone []] }) := by
  obtain ⟨hin, hflag⟩ := hfits
  obtain ⟨m1, now, s1, hwf1, hnow, hm1, hs1, hstep1⟩ :=
    step_storePart hagenda (pressed_nil hacc) hp hwf hin hflag (hacc ▸ OnlyStore.nil p pe addr bytes)
  have hp1 : s1.pes[p]? = some { pe with mem := m1 } := by rw [hs1]; exact pes_set_get hp _
  obtain ⟨s2, hs2, hstep2⟩ := step_writeBesideStore (s := s1) (by rw [hs1]) (by rw [hs1]) hp1 hwf1 hin
    (by rw [hs1]; exact hreq) hw hd hf
  have hp2 : s2.pes[p]? = some { pe with mem := writeBytes m1 h.addr.toNat payload } := by
    rw [hs2]; exact pes_set_get hp1 _
  have hpressed2 : pressed s2 = none :=
    pressed_continues (s := s2) (by rw [hs2]) (by rw [hs2]) (by simp [continues, storeAccess])
  obtain ⟨hev2, htaken2⟩ := takeEvent_cons (s := s2) (by rw [hs2]) hpressed2
  obtain ⟨m, s3, _, hm, hs3, hstep3⟩ :=
    step_storeRace hev2 hp2 (writeBytes_wf _ _ _ hwf1) hin (by rw [hs2]; exact .single ..)
  have hnow : ∀ a, a ∈ [] ++ now ↔ a ∈ early := fun a => by
    rw [List.nil_append, hnow]
    exact ⟨fun h => h.1, fun h => ⟨h, hearly a h, List.not_mem_nil⟩⟩
  have hend : ∀ x, readByte m x =
      if Within addr bytes.length x ∧ x ∉ early then bytes.getD (x - addr.toNat) 0#8
      else if Within h.addr h.size.toNat x then payload.getD (x - h.addr.toNat) 0#8
      else if x ∈ early then bytes.getD (x - addr.toNat) 0#8 else readByte pe.mem x := by
    intro x
    rw [hm, readByte_writeBytes _ _ _ hwf1, hw.length, hm1]
    simp only [← hnow x, List.nil_append]
    rfl
  refine ⟨m, fun x hx hor => ?_, fun x hx hor => ?_, fun x hx hx' => ?_, ?_⟩
  · rw [hend]
    by_cases he : x ∈ early
    · rw [if_neg fun hc => hc.2 he, if_neg (hor.resolve_left fun hn => hn he), if_pos he]
    · rw [if_pos ⟨hx, he⟩]
  · rw [hend, if_neg, if_pos hx]
    rintro ⟨hc, hn⟩
    exact hor.elim hn fun h => h hc
  · rw [hend, if_neg fun hc => hx hc.1, if_neg hx', if_neg fun he => hx (hearly x he)]
  · rw [run_succ hstep1, run_succ hstep2, run_succ hstep3, run_zero, hs3, htaken2, hs2, hs1]
    simp [commit, hacc]

/-! ### A read in progress -/

/-- A served request as an access in progress that has stored nothing. -/
def readAccess (p : Nat) (b : List Byte) (moments : List Memory) : OpenAccess :=
  { pe := p, agent := .memoryUnit, access := .request b, moments := moments, stored := [] }

/-- A part of an access that stores nothing changes the schedule only. -/
theorem step_part_nil {s : State} {p : Nat} {r : Racer} (hev : nextEvent s = .accessPart p r []) :
    step s = .next (takeEvent s) := by
  have hnone : partAddrs s.accesses p r [] (takeEvent s) = [] := by
    unfold partAddrs
    split
    · split <;> rfl
    · rfl
  rw [step, hev]
  simp [runEvent, stepPart, partCells, hnone]

/-- Another agent's access while a read is in progress: the memory before it is kept. -/
theorem step_overlaps_read {s t : State} {e : Event} {rest : List Event} {p : Nat} {pe : Pe} {b : List Byte}
    {moments : List Memory} {r : Racer} {order : List (Nat × Nat)} {g : Agent} (hagenda : s.agenda = e :: rest)
    (hacc : s.accesses = [readAccess p b moments]) (hp : s.pes[p]? = some pe) (hracer : eventRacer s e = some (p, r, order))
    (hag : racerAgent s p r = some g) (hg : g ≠ .memoryUnit) (h : step s = .next t) :
    t.agenda = rest ∧ t.accesses = [readAccess p b (moments ++ [memoryAt s p])] ∧
      ∃ pe', t.pes[p]? = some pe' ∧ pe'.cfg = pe.cfg := by
  have hpressed : pressed s = none := pressed_of_stored (by simp [hacc, readAccess])
  obtain ⟨hev, htaken⟩ := takeEvent_cons hagenda hpressed
  obtain ⟨hagenda', _, hacc'⟩ := step_schedule h
  refine ⟨by rw [hagenda', htaken], ?_, ?_⟩
  · rw [hacc', hev, accessesAfter_eventRacer hracer hp hag, hacc, memoryAt_some hp]
    simp [overlapAll, overlap, readAccess, Ne.symm hg]
  · obtain ⟨_, _, _, _, _, hstep, ht⟩ := step_pe h hp
    exact ⟨_, ht, hstep.cfg_eq⟩

/-- The step of a read in progress: it answers the bytes that it finds as its order says, and leaves local memory. -/
theorem step_readRace {s : State} {p : Nat} {pe : Pe} {b : List Byte} {moments : List Memory} {h : PacketHead}
    {order : List (Nat × Nat)} (hev : nextEvent s = .race p (.request b) order) (hp : s.pes[p]? = some pe)
    (hwf : Memory.wf pe.mem) (hacc : s.accesses = [readAccess p b moments]) (hr : Reads b h) (hb : b ∈ s.requests)
    (hd : h.dstPe.toNat = p) (hfits : Fits pe h.addr h.size.toNat)
    (horder : ∀ x ∈ order, x.1 < pe.cfg.memSize ∧ x.2 < moments.length) :
    ∃ (found : Memory) (t : State),
      (∀ a k m, order.lookup a = some k → moments[k]? = some m → readByte found a = readByte m a) ∧
      (∀ a, order.lookup a = none → readByte found a = readByte pe.mem a) ∧
      step s = .next t ∧
      t.responses = s.responses ++ [responseTo h errNone (readBytes found h.addr.toNat h.size.toNat)] ∧
      ∀ x, readByte (memoryAt t p) x = readByte pe.mem x := by
  have hag := hr.serves.agent hb hd
  have hunder : underWay s.accesses p .memoryUnit (.request b) = readAccess p b moments := by
    rw [hacc]
    simp [underWay, accessOf, readAccess]
  have hmay : mayOverlap pe (.request b) = true := by simp [mayOverlap, flagAccess, hr.serves.head, hfits.2]
  have hall : raceOrder s.accesses p (.request b) order s = order := by
    simp only [raceOrder, hp, hag, hmay, if_true, hunder]
    exact List.filter_eq_self.2 fun x hx => decide_eq_true (horder x hx)
  have hlookup := lookup_raceCells (l := s.accesses) (order := order) hag
  rw [hall, hunder] at hlookup
  have hget := fun found => withMemAt_get hp found
  have halone : ∀ found, stepAlone s p pe (.request b) found = .next (commit
      { unscheduled s p pe found with requests := s.requests.eraseIdx (s.requests.idxOf b) } p
      { pe := pe.withMem found
        responses := [responseTo h errNone (readBytes found h.addr.toNat h.size.toNat)] }) := by
    intro found
    rw [stepAlone_eq, runRacer, hr.serves.deliver (s := unscheduled s p pe found) (List.getElem?_idxOf hb) hd (hget found),
      serveRead_inside (pe := pe.withMem found) hfits.1]
    rfl
  obtain ⟨m, _, hm, hstep⟩ := step_race hp hwf hag hev (halone _) (pes_set_get (hget _) _)
  rw [hunder] at hm
  refine ⟨putBytes pe.mem (raceCells s.accesses p (.request b) order s), _, ?_, ?_, hstep, rfl, fun x => ?_⟩
  · intro a k mem hk hmoment
    rw [readByte_putBytes _ _ hwf, hlookup, hk]
    simp [readAccess, hmoment]
  · intro a hk
    rw [readByte_putBytes _ _ hwf, hlookup, hk]
    rfl
  · rw [memoryAt_some (pes_set_get (pes_set_get (hget _) _) _), hm, hr.plannedByte hb hd hp hwf]
    simp

/-- A read in progress while two accesses of other agents are performed finds each byte as before the first, between them, or
after both. -/
theorem run_read_over_two {s s1 s2 s3 : State} {rest : List Event} {p : Nat} {pe : Pe} {e1 e2 : Event} {r1 r2 : Racer}
    {o1 o2 : List (Nat × Nat)} {g1 g2 : Agent} {b : List Byte} {h : PacketHead} {order : List (Nat × Nat)}
    (hagenda : s.agenda = .accessPart p (.request b) [] :: e1 :: e2 :: .race p (.request b) order :: rest)
    (hacc : s.accesses = []) (hp : s.pes[p]? = some pe) (hb : b ∈ s.requests) (hr : Reads b h) (hd : h.dstPe.toNat = p)
    (hfits : Fits pe h.addr h.size.toNat) (hstep1 : step s = .next s1) (hstep2 : step s1 = .next s2)
    (hstep3 : step s2 = .next s3) (hb3 : b ∈ s3.requests) (hr1 : eventRacer s1 e1 = some (p, r1, o1))
    (ha1 : racerAgent s1 p r1 = some g1) (hg1 : g1 ≠ .memoryUnit) (hr2 : eventRacer s2 e2 = some (p, r2, o2))
    (ha2 : racerAgent s2 p r2 = some g2) (hg2 : g2 ≠ .memoryUnit)
    (horder : ∀ x ∈ order, x.1 < pe.cfg.memSize ∧ (x.2 = 0 ∨ x.2 = 1)) (hwf : Memory.wf (memoryAt s3 p)) :
    ∃ data : List Byte, data.length = h.size.toNat ∧
      (∀ j < h.size.toNat, ∃ a, a = h.addr.toNat + j ∧
        (order.lookup a = some 0 → data.getD j 0#8 = readByte (memoryAt s1 p) a) ∧
        (order.lookup a = some 1 → data.getD j 0#8 = readByte (memoryAt s2 p) a) ∧
        (order.lookup a = none → data.getD j 0#8 = readByte (memoryAt s3 p) a)) ∧
      ∃ t : State, step s3 = .next t ∧ t.responses = s3.responses ++ [responseTo h errNone data] ∧
        ∀ x, readByte (memoryAt t p) x = readByte (memoryAt s3 p) x := by
  have hag := hr.serves.agent hb hd
  obtain ⟨hev, htaken⟩ := takeEvent_cons hagenda (pressed_nil hacc)
  rw [step_part_nil hev, htaken] at hstep1
  injection hstep1 with hs1
  have hmay : mayOverlap pe (.request b) = true := by simp [mayOverlap, flagAccess, hr.serves.head, hfits.2]
  have hacc1 : s1.accesses = [readAccess p b []] := by
    rw [← hs1]
    simp only [accessesAfter_part hp hag, hmay, if_true, hacc]
    simp [overlapAll, underWay, accessOf, readAccess, partAddrs, hp, hag, hmay]
  have hp1 : s1.pes[p]? = some pe := by rw [← hs1]; exact hp
  obtain ⟨hagenda2, hacc2, pe2, hp2, hcfg2⟩ := step_overlaps_read (by rw [← hs1]) hacc1 hp1 hr1 ha1 hg1 hstep2
  obtain ⟨hagenda3, hacc3, pe3, hp3, hcfg3⟩ := step_overlaps_read hagenda2 hacc2 hp2 hr2 ha2 hg2 hstep3
  have hcfg : pe3.cfg = pe.cfg := hcfg3.trans hcfg2
  have hev3 := (takeEvent_cons hagenda3 (pressed_of_stored (by simp [hacc3, readAccess]))).1
  rw [memoryAt_some hp3] at hwf ⊢
  obtain ⟨found, t, hmoments, hnow, hstep, hresp, hmem⟩ :=
    step_readRace hev3 hp3 hwf hacc3 hr hb3 hd (by rwa [Fits, isFlagWord, hcfg]) (by
      intro x hx
      rw [hcfg]
      refine ⟨(horder x hx).1, ?_⟩
      rcases (horder x hx).2 with h0 | h1 <;> simp [*])
  refine ⟨readBytes found h.addr.toNat h.size.toNat, readBytes_length .., fun j hj => ⟨_, rfl, ?_, ?_, ?_⟩, t, hstep, hresp,
    hmem⟩
  · exact fun hk => (readBytes_getD found _ _ j hj).trans (hmoments _ 0 _ hk rfl)
  · exact fun hk => (readBytes_getD found _ _ j hj).trans (hmoments _ 1 _ hk rfl)
  · exact fun hk => (readBytes_getD found _ _ j hj).trans (hnow _ hk)

/-! ### The flag word -/

/-- A part of an access to exactly the flag word changes the agenda only. -/
theorem step_part_flagWord {s : State} {rest : List Event} {p : Nat} {pe : Pe} {r : Racer} {agent : Agent} {bytes : List Nat}
    (hagenda : s.agenda = .accessPart p r bytes :: rest) (hacc : s.accesses = []) (hp : s.pes[p]? = some pe)
    (ha : racerAgent s p r = some agent) (hflag : flagAccess pe r = true) :
    ∃ t : State, t = { s with agenda := rest, outputs := [] } ∧ step s = .next t := by
  obtain ⟨hev, htaken⟩ := takeEvent_cons hagenda (pressed_nil hacc)
  obtain ⟨hstep, hsame⟩ := step_part_passed hp ha hev (by simp [mayOverlap, hflag])
  rw [htaken] at hstep hsame
  refine ⟨_, rfl, ?_⟩
  rw [hstep, show accessesAfter (.accessPart p r bytes) s = s.accesses from hsame]

/-- With no access in progress, the step of an access is its own step. -/
theorem step_race_alone {s : State} {rest : List Event} {p : Nat} {r : Racer} {order : List (Nat × Nat)} {agent : Agent}
    (hagenda : s.agenda = .race p r order :: rest) (hacc : s.accesses = []) (ha : racerAgent s p r = some agent) :
    step s = runRacer p r { s with agenda := rest, outputs := [] } := by
  obtain ⟨hev, htaken⟩ := takeEvent_cons hagenda (pressed_nil hacc)
  rw [step_race_fresh hev ha (by simp [hacc]), htaken, accessesAfter_nil (e := .race p r order) hacc nofun, ← hacc]

/-- The flag word of a PE in the local memory `m`. -/
def flagWord (pe : Pe) (m : Memory) : Word := BitVec.ofNat 64 (ofLE (readBytes m pe.cfg.rctmuxFlags.toNat 8))

/-- Local memory with `v` written as the flag word. -/
def withFlagWord (pe : Pe) (v : Word) : Memory := writeBytes pe.mem pe.cfg.rctmuxFlags.toNat (wordBytes v)

theorem flagWord_withFlagWord {pe : Pe} (v : Word) (hwf : Memory.wf pe.mem) : flagWord pe (withFlagWord pe v) = v := by
  have hbytes := readBytes_writeBytes (wordBytes v) pe.mem pe.cfg.rctmuxFlags.toNat hwf
  rw [wordBytes_length] at hbytes
  rw [flagWord, withFlagWord, hbytes, wordBytes, ofLE_toLE, show 256 ^ 8 = 2 ^ 64 from rfl, Nat.mod_eq_of_lt v.isLt,
    BitVec.ofNat_toNat, BitVec.setWidth_eq]

/-- The PE after CHECK has read `read` as the flag word, with local memory `m`. -/
def checkedPe (pe : Pe) (c : Session) (m : Memory) (read : Word) : Pe :=
  { pe with mem := m, session := some { c with flags := read, state := .flags } }

section
variable {s : State} {rest : List Event} {p : Nat} {pe : Pe} {c : Session}

theorem step_check {order : List (Nat × Nat)} (hagenda : s.agenda = .race p .ctxSwitch order :: rest)
    (hacc : s.accesses = []) (hp : s.pes[p]? = some pe) (hc : pe.session = some c) (hstate : c.state = .check)
    (hin : pe.cfg.rctmuxFlags.toNat + 8 ≤ pe.cfg.memSize) :
    ∃ t : State,
      t = { s with
        agenda := rest, outputs := []
        pes := s.pes.set p (checkedPe pe c pe.mem (flagWord pe pe.mem)) } ∧
      step s = .next t := by
  refine ⟨_, rfl, (step_race_alone (agent := .ctxSwitchEngine) hagenda hacc rfl).trans ?_⟩
  rw [runRacer, stepPe_check (s := { s with agenda := rest, outputs := [] }) hp hc hstate hin, commit_pe_only]
  rfl

theorem step_schedulerWrite {v : Word} {order : List (Nat × Nat)}
    (hagenda : s.agenda = .race p (.schedulerWrite v) order :: rest) (hacc : s.accesses = [])
    (hp : s.pes[p]? = some pe) (hin : pe.cfg.rctmuxFlags.toNat + 8 ≤ pe.cfg.memSize) :
    ∃ t : State,
      t = { s with
        agenda := rest, outputs := []
        pes := s.pes.set p { pe with mem := withFlagWord pe v } } ∧
      step s = .next t := by
  refine ⟨_, rfl, (step_race_alone (agent := .scheduler) hagenda hacc rfl).trans ?_⟩
  rw [runRacer, stepPe_schedulerWrite v (s := { s with agenda := rest, outputs := [] }) hp hin, commit_pe_only]
  rfl

/-- The scheduler's write and CHECK's read of the flag word are atomic: the read comes first, and finds the old word. -/
theorem run_check_then_write {v : Word} {bytes : List Nat} {o1 o2 : List (Nat × Nat)}
    (hp : s.pes[p]? = some pe) (hacc : s.accesses = []) (hc : pe.session = some c) (hstate : c.state = .check)
    (hin : pe.cfg.rctmuxFlags.toNat + 8 ≤ pe.cfg.memSize)
    (hagenda : s.agenda =
      .accessPart p (.schedulerWrite v) bytes :: .race p .ctxSwitch o1 :: .race p (.schedulerWrite v) o2 :: rest) :
    Host.Core.run Sys2Proof.core 3 s = .next (commit { s with agenda := rest, outputs := [] } p
      { pe := checkedPe pe c (withFlagWord pe v)
          (flagWord pe pe.mem) }) := by
  obtain ⟨s1, hs1, hstep1⟩ := step_part_flagWord hagenda hacc hp (agent := .scheduler) rfl rfl
  have hp1 : s1.pes[p]? = some pe := by rw [hs1]; exact hp
  have hacc1 : s1.accesses = [] := by rw [hs1]; exact hacc
  obtain ⟨s2, hs2, hstep2⟩ := step_check (by rw [hs1]) hacc1 hp1 hc hstate hin
  have hp2 : s2.pes[p]? = some (checkedPe pe c pe.mem (flagWord pe pe.mem)) := by rw [hs2]; exact pes_set_get hp1 _
  obtain ⟨s3, hs3, hstep3⟩ := step_schedulerWrite (s := s2) (by rw [hs2]) (by rw [hs2]; exact hacc1) hp2 hin
  rw [run_succ hstep1, run_succ hstep2, run_succ hstep3, run_zero, hs3, hs2, hs1]
  simp [commit, checkedPe, withFlagWord]

/-- The scheduler's write and CHECK's read of the flag word are atomic: the write comes first, and the read finds the new
word. -/
theorem run_write_then_check {v : Word} {bytes : List Nat} {o1 o2 : List (Nat × Nat)}
    (hp : s.pes[p]? = some pe) (hacc : s.accesses = []) (hc : pe.session = some c) (hstate : c.state = .check)
    (hwf : Memory.wf pe.mem) (hin : pe.cfg.rctmuxFlags.toNat + 8 ≤ pe.cfg.memSize)
    (hagenda : s.agenda =
      .accessPart p .ctxSwitch bytes :: .race p (.schedulerWrite v) o1 :: .race p .ctxSwitch o2 :: rest) :
    Host.Core.run Sys2Proof.core 3 s = .next (commit { s with agenda := rest, outputs := [] } p
      { pe := checkedPe pe c (withFlagWord pe v) v }) := by
  obtain ⟨s1, hs1, hstep1⟩ :=
    step_part_flagWord hagenda hacc hp (agent := .ctxSwitchEngine) rfl (flagAccess_check hc hstate)
  have hp1 : s1.pes[p]? = some pe := by rw [hs1]; exact hp
  have hacc1 : s1.accesses = [] := by rw [hs1]; exact hacc
  obtain ⟨s2, hs2, hstep2⟩ := step_schedulerWrite (by rw [hs1]) hacc1 hp1 hin
  have hp2 : s2.pes[p]? = some { pe with mem := withFlagWord pe v } := by rw [hs2]; exact pes_set_get hp1 _
  obtain ⟨s3, hs3, hstep3⟩ := step_check (s := s2) (by rw [hs2]) (by rw [hs2]; exact hacc1) hp2 hc hstate hin
  have hread : flagWord { pe with mem := withFlagWord pe v } (withFlagWord pe v) = v := flagWord_withFlagWord v hwf
  rw [run_succ hstep1, run_succ hstep2, run_succ hstep3, run_zero, hs3, hs2, hs1]
  simp [commit, checkedPe, hread]

/-- Where a store of the core has stored some bytes of the flag word and has others yet to store, CHECK comes after the whole
store. -/
theorem run_check_after_store {addr : Word} {bytes : List Byte} {early : List Nat}
    (hp : s.pes[p]? = some pe) (hacc : s.accesses = []) (hc : pe.session = some c) (hstate : c.state = .check)
    (hwf : Memory.wf pe.mem) (hword : pe.cfg.rctmuxFlags.toNat + 8 ≤ pe.cfg.memSize)
    (hagenda : s.agenda = .accessPart p (.coreStore addr bytes) early :: .ctxSwitch p :: rest)
    (hfits : Fits pe addr bytes.length) (hearly : ∀ a ∈ early, Within addr bytes.length a)
    (hdone : ∃ a ∈ early, Within pe.cfg.rctmuxFlags 8 a)
    (hleft : ∃ a, a ∉ early ∧ Within addr bytes.length a ∧ Within pe.cfg.rctmuxFlags 8 a) :
    ∃ m : Memory, IsStored m pe.mem addr bytes ∧
      Host.Core.run Sys2Proof.core 3 s = .next (commit { s with agenda := rest, outputs := [] } p
        { pe := checkedPe pe c m (flagWord pe m) }) := by
  obtain ⟨hin, hflag⟩ := hfits
  obtain ⟨m1, now, s1, hwf1, hnow, hm1, hs1, hstep1⟩ :=
    step_storePart hagenda (pressed_nil hacc) hp hwf hin hflag (hacc ▸ OnlyStore.nil p pe addr bytes)
  have hnow : ∀ a, a ∈ now ↔ a ∈ early := fun a => by
    rw [hnow]
    exact ⟨fun h => h.1, fun h => ⟨h, hearly a h, List.not_mem_nil⟩⟩
  have hp1 : s1.pes[p]? = some { pe with mem := m1 } := by rw [hs1]; exact pes_set_get hp _
  have hacc1 : s1.accesses = [storeAccess p addr bytes [] now] := by rw [hs1]; rfl
  have hpressed1 : pressed s1 = some (storeAccess p addr bytes [] now) :=
    pressed_check (s := s1) (by rw [hs1]) hacc1 hp1 hwf1 hin hc hstate hword (by simpa only [hnow] using hdone)
      (by simpa only [hnow] using hleft)
  have hev1 : nextEvent s1 = .race p (.coreStore addr bytes) [] := by simp [nextEvent, hpressed1, storeAccess]
  obtain ⟨m, s2, hwf2, hm, hs2, hstep2⟩ := step_storeRace hev1 hp1 hwf1 hin (by rw [hacc1]; exact .single ..)
  have hs2 : s2 = { s1 with outputs := [], pes := s1.pes.set p { pe with mem := m }, accesses := [] } := by
    rw [hs2]
    simp [takeEvent, hpressed1]
  obtain ⟨hev2, htaken2⟩ := takeEvent_cons (s := s2) (e := .ctxSwitch p) (rest := rest) (by rw [hs2, hs1])
    (pressed_nil (by rw [hs2]))
  have hp2 : (takeEvent s2).pes[p]? = some { pe with mem := m } := by
    rw [takeEvent_pes, hs2]
    exact pes_set_get hp1 _
  have hstep3 : step s2 = .next (stepPe (takeEvent s2) p ctxSwitchStep) := by rw [step, hev2]; rfl
  rw [stepPe_check hp2 hc hstate hword, htaken2, accessesAfter_nil (e := .ctxSwitch p) (by rw [hs2]) nofun] at hstep3
  refine ⟨m, IsStored.of_parts hm (fun x hx => ⟨hearly x ((hnow x).1 hx), ?_⟩) (fun x hx => ?_), ?_⟩
  · rw [hm1, if_pos hx]
  · rw [hm1, if_neg hx]
  · rw [run_succ hstep1, run_succ hstep2, run_succ hstep3, run_zero, hs2, hs1]
    simp [commit, checkedPe, flagWord, hacc]

end

/-! ### Two stores of the core -/

/-- A store of the core that has begun and stored nothing is dropped when the core stores again. -/
theorem run_store_dropped {s : State} {rest : List Event} {p : Nat} {a1 a2 : Word} {b1 b2 : List Byte}
    {order : List (Nat × Nat)}
    (hagenda : s.agenda = .accessPart p (.coreStore a1 b1) [] :: .race p (.coreStore a2 b2) order :: rest)
    (hacc : s.accesses = []) :
    Host.Core.run Sys2Proof.core 2 s =
      Host.Core.run Sys2Proof.core 1 { s with agenda := .coreStore p a2 b2 :: rest } := by
  obtain ⟨hev, htaken⟩ := takeEvent_cons hagenda (pressed_nil hacc)
  have hfresh : ∀ o ∈ accessesAfter (.accessPart p (.coreStore a1 b1) []) s,
      o.key = (p, Agent.core) ∧ o.moments = [] ∧ o.stored = [] := by
    intro o ho
    cases hp : s.pes[p]? with
    | none => simp [accessesAfter, eventAccess, hp, hacc] at ho
    | some pe =>
      rw [accessesAfter_part (agent := .core) hp rfl, hacc] at ho
      split at ho
      · simp only [overlapAll, List.filterMap_nil, List.nil_append, List.mem_singleton] at ho
        rw [ho]
        have hnone : partAddrs [] p (.coreStore a1 b1) [] s = [] :=
          List.eq_nil_iff_forall_not_mem.2 fun x hx => by simpa using mem_partAddrs.1 hx
        simp [underWay, accessOf, OpenAccess.key, hnone]
      · cases ho
  obtain ⟨s1, hs1⟩ : ∃ s1, s1 = takeEvent s := ⟨_, rfl⟩
  have hstep1 : step s = .next s1 := hs1 ▸ step_part_nil hev
  rw [htaken] at hs1
  obtain ⟨hev1, htaken1⟩ := takeEvent_cons (s := s1) (e := .race p (.coreStore a2 b2) order) (rest := rest) (by rw [hs1])
    (pressed_of_stored (by rw [hs1]; exact fun o ho => (hfresh o ho).2.2))
  have hended : accessesAfter (.race p (.coreStore a2 b2) order) s1 = [] := by
    cases hp : s1.pes[p]? with
    | none =>
      have hsame : accessesAfter (.race p (.coreStore a2 b2) order) s1 = s1.accesses := by
        simp [accessesAfter, eventAccess, eventRacer, hp]
      rw [hs1] at hp
      rw [hsame, hs1]
      simp only [accessesAfter, eventAccess, show s.pes[p]? = none from hp, hacc]
    | some pe =>
      rw [accessesAfter_eventRacer (e := .race p (.coreStore a2 b2) order) rfl hp (agent := .core) rfl]
      refine List.eq_nil_iff_forall_not_mem.2 fun o ho => ?_
      obtain ⟨o', ho', hover⟩ := mem_overlapAll ho
      rw [hs1] at ho'
      obtain ⟨_, _, _, hother, _⟩ := overlap_cases hover
      exact hother (hfresh o' ho').1
  have hstep2 := step_race_fresh (agent := .core) hev1 rfl (by rw [hs1]; exact fun o ho => (hfresh o ho).2)
  obtain ⟨hev', htaken'⟩ := takeEvent_cons (s := { s with agenda := .coreStore p a2 b2 :: rest }) rfl (pressed_nil hacc)
  have hdirect : step { s with agenda := .coreStore p a2 b2 :: rest } =
      runRacer p (.coreStore a2 b2) { s with agenda := rest, outputs := [] } := by
    have hnone := accessesAfter_nil (e := .coreStore p a2 b2) (s := { s with agenda := .coreStore p a2 b2 :: rest }) hacc
      nofun
    rw [step, hev', htaken', hnone, ← hacc]
    rfl
  rw [run_succ hstep1]
  refine run_one_congr ?_
  rw [hstep2, htaken1, hended, hdirect, hs1, ← hacc]

/-- A store of the core that has stored some of its bytes is performed before the core stores again. -/
theorem run_store_first {s : State} {rest : List Event} {p : Nat} {pe : Pe} {a1 a2 : Word} {b1 b2 : List Byte}
    {bytes : List Nat} {order : List (Nat × Nat)}
    (hagenda : s.agenda = .accessPart p (.coreStore a1 b1) bytes :: .race p (.coreStore a2 b2) order :: rest)
    (hacc : s.accesses = []) (hp : s.pes[p]? = some pe) (hwf : Memory.wf pe.mem) (hf1 : Fits pe a1 b1.length)
    (hf2 : Fits pe a2 b2.length) (hne : a1 ≠ a2 ∨ b1 ≠ b2) (hsome : ∃ a ∈ bytes, Within a1 b1.length a) :
    ∃ m1 m2 : Memory, IsStored m1 pe.mem a1 b1 ∧ IsStored m2 m1 a2 b2 ∧
      Host.Core.run Sys2Proof.core 3 s =
        .next (commit { s with agenda := rest, outputs := [] } p { pe := { pe with mem := m2 } }) := by
  obtain ⟨hin1, hflag1⟩ := hf1
  obtain ⟨hin2, _⟩ := hf2
  obtain ⟨m1, now, s1, hwf1, hnow, hm1, hs1, hstep1⟩ :=
    step_storePart hagenda (pressed_nil hacc) hp hwf hin1 hflag1 (hacc ▸ OnlyStore.nil p pe a1 b1)
  have hp1 : s1.pes[p]? = some { pe with mem := m1 } := by rw [hs1]; exact pes_set_get hp _
  have hacc1 : s1.accesses = [storeAccess p a1 b1 [] now] := by rw [hs1]; rfl
  have hagenda1 : s1.agenda = .race p (.coreStore a2 b2) order :: rest := by rw [hs1]
  have hpressed1 : pressed s1 = some (storeAccess p a1 b1 [] now) := by
    obtain ⟨a, ha, hw⟩ := hsome
    have hfull : now.isEmpty = false := by
      simpa using List.ne_nil_of_mem ((hnow a).2 ⟨ha, hw, List.not_mem_nil⟩)
    have hother : ¬ (a2 = a1 ∧ b2 = b1) := fun h => hne.elim (fun h1 => h1 h.1.symm) fun h1 => h1 h.2.symm
    have hpress : presses s1 (.race p (.coreStore a2 b2) order) (storeAccess p a1 b1 [] now) = true := by
      simp [presses, storeAccess, hfull, racerAgent, continues, eventAgent, eventAccess, eventRacer, hother]
    rw [pressed, hacc1, chosenEvent, hagenda1]
    simp [hpress]
  have hev1 : nextEvent s1 = .race p (.coreStore a1 b1) [] := by simp [nextEvent, hpressed1, storeAccess]
  obtain ⟨m2, s2, hwf2, hm2, hs2, hstep2⟩ := step_storeRace hev1 hp1 hwf1 hin1 (by rw [hacc1]; exact .single ..)
  have hs2 : s2 = { s1 with outputs := [], pes := s1.pes.set p { pe with mem := m2 }, accesses := [] } := by
    rw [hs2]
    simp [takeEvent, hpressed1]
  have hp2 : s2.pes[p]? = some { pe with mem := m2 } := by rw [hs2]; exact pes_set_get hp1 _
  have hstep3 := step_race_alone (s := s2) (rest := rest) (agent := .core) (r := .coreStore a2 b2) (order := order)
    (by rw [hs2, hs1]) (by rw [hs2]) rfl
  simp only [runRacer] at hstep3
  rw [stepPe_some (s := { s2 with agenda := rest, outputs := [] }) hp2
    (coreStoreEffect_inside (pe := { pe with mem := m2 }) hin2)] at hstep3
  have hstored : IsStored m2 pe.mem a1 b1 :=
    IsStored.of_parts hm2 (fun x hx => ⟨((hnow x).1 hx).2.1, by rw [hm1, if_pos hx]⟩)
      fun x hx => by rw [hm1, if_neg hx]
  refine ⟨m2, writeBytes m2 a2.toNat b2, hstored, .writeBytes hwf2 a2 b2, ?_⟩
  rw [run_succ hstep1, run_succ hstep2, run_succ hstep3, run_zero, hs2, hs1]
  simp [commit, hacc]

end Sys2Proof.Machine
end

section
/-! PROOFS. The statements about local memory (20_memory.md): its invariant, accesses that race, and where the system stops. -/

namespace Sys2Proof.Machine

/-- Settles O49: every step of a PE keeps both invariants, and so does replacing bytes inside local memory. -/
theorem memoryAndTransferInvariantsAreKept : Obligations.MemoryAndTransferInvariantsAreKept := by
  intro s t h
  refine ⟨fun hs => everyPe_step (fun _ _ _ _ hok hstep => hstep.memoryOk hok) ?_ hs h,
    fun hs => everyPe_step (fun _ _ _ _ hok hstep => hstep.transferOk hok) (fun _ _ hok _ => hok) hs h⟩
  intro pe cells hok hcells
  exact hok.with_mem (putBytes_wf _ _ hok.1) (putBytes_inside _ _ _ hok.2.1 hcells)

/-- Settles O57: what an access alone stores is what it has planned, so a part stores planned bytes, and an overlapping step
is the access's own on the bytes that it finds. -/
theorem everyAccessMayRace : Obligations.EveryAccessMayRace := by
  refine ⟨fun s t h hnone => (step_schedule h).2.2.trans (accessesAfter_of_eventAccess hnone), ?_, ?_⟩
  · intro s p pe r agent hp hwf ha may mine alone stores overlapped ended
    have hmay : mayOverlap pe r = true ↔ may := mayOverlap_iff pe r
    have hnotMay : mayOverlap pe r = false ↔ ¬ may := by rw [← hmay, Bool.not_eq_true]
    have hplanned : ∀ a b, plannedByte p r s a = some b ↔ stores a b := fun _ _ => plannedByte_eq_some_iff hp
    have hover : overlapped (overlapAll p pe agent s.accesses) := fun o ho => overlapAll_overlapped p pe agent ho
    have hended : ended (overlapAll p pe agent s.accesses) := ⟨hover, fun o ho hpe => overlapAll_ended ho hpe⟩
    refine ⟨fun order t hev h => ?_, fun bytes hev => ⟨fun hno => ?_, fun hyes => ?_⟩, ?_⟩
    · rw [(step_schedule h).2.2, accessesAfter_eventRacer hev hp ha]
      exact hended
    · exact step_part_passed hp ha hev (hnotMay.2 hno)
    · have hov := hmay.2 hyes
      obtain ⟨m, _, hm, hstep⟩ := step_part hp hwf ha hev hov
      have hnow : ∀ a, a ∈ partAddrs s.accesses p r bytes s ↔
          a ∈ bytes ∧ a < pe.cfg.memSize ∧ a ∉ mine.stored ∧ ∃ b, stores a b := by
        intro a
        simp only [← hplanned, ← Option.isSome_iff_exists]
        simp [mem_partAddrs, hp, ha, hov, mine]
      refine ⟨m, partAddrs s.accesses p r bytes s, _, hnow, fun a => ⟨fun hout => ?_, fun hin => ?_⟩, ?_, ?_, hstep⟩
      · rw [hm, if_neg hout]
      · obtain ⟨_, _, _, b, hb⟩ := (hnow a).1 hin
        rw [hm, if_pos hin, (hplanned a b).2 hb]
        exact hb
      · exact fun o ho => ⟨fun hne => List.mem_append_left _ ((hover o ho).1 hne),
          fun heq hne => List.mem_append_left _ ((hover o ho).2 heq hne)⟩
      · exact List.mem_append_right _ (List.mem_singleton_self _)
    · intro order hev ends
      have key : ends (raceOrder s.accesses p r order s) := by
        have hfound := lookup_raceCells (l := s.accesses) (order := order) ha
        refine ⟨putBytes pe.mem (raceCells s.accesses p r order s), putBytes_wf _ _ hwf, ?_, ?_, ?_⟩
        · intro a k m hk hmoment
          rw [readByte_putBytes _ _ hwf, hfound, hk]
          simp [show (underWay s.accesses p agent r).moments[k]? = some m from hmoment]
        · intro a hk
          rw [readByte_putBytes _ _ hwf, hfound, hk]
          rfl
        · intro t pe' halone hpe'
          obtain ⟨m, _, hm, hstep⟩ := step_race hp hwf ha hev halone hpe'
          refine ⟨m, _, fun a hkept => ?_, fun a hnot hst => ?_, hended, hstep⟩
          · rw [hm]
            split
            · rfl
            · rename_i hnot
              rw [plannedByte_of_not_storesTo (hkept.resolve_left hnot)]
              rfl
          · obtain ⟨b, hb⟩ := plannedByte_of_storesTo hst
            rw [hm, if_neg hnot, hb]
            exact (hplanned a b).1 hb
      refine ⟨fun hyes hin => ?_, fun hno => ?_⟩
      · have hall : raceOrder s.accesses p r order s = order := by
          simp only [raceOrder, hp, ha, hmay.2 hyes, if_true]
          exact List.filter_eq_self.2 fun x hx => decide_eq_true (hin x hx)
        exact hall ▸ key
      · exact raceOrder_of_not_overlap (l := s.accesses) (order := order) hp (hnotMay.2 hno) ▸ key
  · intro s t h hwf huniq o ho hstored ha
    exact step_performs_stored h hwf ho (fun o' ho' hpe hag => huniq o' ho' o ho hpe hag) hstored ha

/-- Settles O58: each run is its steps one after the other, of which a store in progress is performed before what would read
half of its flag word or be the core's next store, and beside every other access. -/
theorem racingBytesAreEitherAgents : Obligations.RacingBytesAreEitherAgents := by
  refine ⟨?_, ?_, ?_, ?_, ?_⟩
  · intro s rest p pe addr bytes at1 at2 b1 b2 others h1 h2 hagenda hp hacc hwf hfits hreq hr1 hr2 hd1 hd2 hf1 hf2 hat
    exact run_store_torn_by_reads hagenda hp hacc hwf hfits hreq hr1 hr2 hd1 hd2 hf1 hf2 hat
  · intro s rest p pe addr bytes early b others h payload hagenda hp hacc hwf hfits hreq hw hd hf hearly
    exact run_store_beside_write hagenda hp hacc hwf hfits hreq hw hd hf hearly
  · intro s s1 s2 s3 rest p pe e1 e2 r1 r2 o1 o2 g1 g2 b h order hagenda hacc hp hb hr hd hfits hstep1 hstep2 hstep3 hb3
      hr1 ha1 hg1 hr2 ha2 hg2 horder hwf
    exact run_read_over_two hagenda hacc hp hb hr hd hfits hstep1 hstep2 hstep3 hb3 hr1 ha1 hg1 hr2 ha2 hg2 horder hwf
  · intro s rest p pe c f hp hacc hc hstate hwf hf hin ends
    subst f
    refine ⟨fun v bytes o1 o2 => ⟨withFlagWord pe v, ?_, fun hagenda => ?_,
      fun hagenda => ?_⟩, fun addr bytes early hagenda hfits hearly hdone hleft => ?_⟩
    · exact IsStored.writeBytes hwf pe.cfg.rctmuxFlags (wordBytes v)
    · exact run_check_then_write hp hacc hc hstate hin hagenda
    · exact run_write_then_check hp hacc hc hstate hwf hin hagenda
    · exact run_check_after_store hp hacc hc hstate hwf hin hagenda hfits hearly hdone hleft
  · intro s rest p a1 a2 b1 b2 bytes order hagenda hacc
    refine ⟨fun hnil => ?_, fun pe hp hwf hf1 hf2 hne hsome => ?_⟩
    · subst bytes
      exact run_store_dropped hagenda hacc
    · exact run_store_first hagenda hacc hp hwf hf1 hf2 hne hsome

/-- Settles O59: only a client's access and a cache request can stop; every other event answers a next state. -/
theorem stopsOnlyWhereTheSpecDoes : Obligations.StopsOnlyWhereTheSpecDoes := by
  intro s ⟨hreq, hresp, _⟩
  rw [← takeEvent_requests s] at hreq
  rw [← takeEvent_responses s] at hresp
  unfold step nextAt
  cases hev : nextEvent s with
  | engine p => exact .inl (stepEngine_answers _ p)
  | deliverRequest k => exact .inl (stepDeliverRequest_answers hreq k)
  | deliverResponse k => exact .inl (stepDeliverResponse_answers hresp k)
  | race p r order => exact .inl (stepRace_answers hreq hresp p r order _)
  | clientWrite p addr width v priv =>
    refine (stepClientWrite_answers (takeEvent s) p addr width v priv).imp_right fun ⟨pe, hp, ha⟩ => ?_
    exact .inl ⟨p, addr, width, v, priv, pe, ⟨rfl, takeEvent_pes s ▸ hp⟩, ha⟩
  | clientRead p addr width =>
    refine (stepClientRead_answers (takeEvent s) p addr width).imp_right fun ⟨pe, hp, ha⟩ => ?_
    exact .inr (.inl ⟨p, addr, width, pe, ⟨rfl, takeEvent_pes s ▸ hp⟩, ha⟩)
  | cacheRequest p id req =>
    refine (stepCacheRequest_answers (takeEvent s) p id req).imp_right fun ⟨pe, hp, ha⟩ => ?_
    exact .inr (.inr ⟨p, id, req, pe, ⟨rfl, takeEvent_pes s ▸ hp⟩, ha⟩)
  | transfer | ctxSwitch | coreStore | setCoreWaiting | schedulerWrite | accelContext | accelExtra | accelStateSize
  | cacheTranslate | walkAnswer | accessPart => exact .inl ⟨_, rfl⟩

end Sys2Proof.Machine
end

section
/-! SUPPORT. The encodings read backwards (30_encoding.md): bytes written again after they were read are the same bytes, a
word of disjoint fields is the sum of its shifted fields, a message header is read back from its bytes, and a packet that was
decoded is encoded as its header and the bytes after it. -/

namespace Sys2Proof

/-! ### Bytes written again (R80) -/

/-- A field of bytes that was read and is written again. -/
theorem toLE_ofLE_take {bs : List Byte} {i n : Nat} (h : i + n ≤ bs.length) :
    toLE n (ofLE ((bs.drop i).take n)) = (bs.drop i).take n := by
  have hlen : ((bs.drop i).take n).length = n := by
    rw [List.length_take, List.length_drop]
    omega
  have hagain := toLE_ofLE ((bs.drop i).take n)
  rwa [hlen] at hagain

/-- What `n` bytes hold is a number of `n` bytes. -/
theorem ofLE_take_lt (bs : List Byte) (n : Nat) : ofLE (bs.take n) < 256 ^ n := by
  induction n generalizing bs with
  | zero => simp [ofLE]
  | succ n ih =>
    cases bs with
    | nil => simp [ofLE]
    | cons b bs =>
      have hb : b.toNat < 256 := b.isLt
      have hrest : ofLE (bs.take n) < 256 ^ n := ih bs
      rw [List.take_succ_cons, ofLE, Nat.pow_succ]
      omega

theorem wordBytes_wordAt {bs : List Byte} {i : Nat} (h : i + 8 ≤ bs.length) :
    wordBytes (wordAt bs i) = (bs.drop i).take 8 := by
  rw [wordBytes, wordAt, BitVec.toNat_ofNat, Nat.mod_eq_of_lt (b := 2 ^ 64) (ofLE_take_lt (bs.drop i) 8),
    toLE_ofLE_take h]

theorem toLE_halfAt {bs : List Byte} {i : Nat} (h : i + 2 ≤ bs.length) :
    toLE 2 (halfAt bs i).toNat = (bs.drop i).take 2 := by
  rw [halfAt, BitVec.toNat_ofNat, Nat.mod_eq_of_lt (b := 2 ^ 16) (ofLE_take_lt (bs.drop i) 2),
    toLE_ofLE_take h]

/-- Two neighbouring stretches of a byte string are one. -/
theorem take_drop_append_take_drop (bs : List Byte) (i m n : Nat) :
    (bs.drop i).take m ++ (bs.drop (i + m)).take n = (bs.drop i).take (m + n) := by
  rw [List.take_add, List.drop_drop]

/-! ### The sum of the fields (R11) -/

/-- A field put above a word that ends below it adds its shifted value. -/
theorem toNat_putField_above (w : Word) (lo : Nat) {len : Nat} (v : BitVec len) (hw : w.toNat < 2 ^ lo)
    (hlo : lo + len ≤ 64) : (putField w lo v).toNat = w.toNat + v.toNat * 2 ^ lo := by
  rw [Nat.add_comm, Nat.mul_comm]
  apply Nat.eq_of_testBit_eq
  intro i
  rw [BitVec.testBit_toNat, getLsbD_putField, Nat.testBit_two_pow_mul_add _ hw, BitVec.testBit_toNat, BitVec.testBit_toNat]
  by_cases hi : i < lo
  · simp [hi, Nat.not_le.2 hi]
  · by_cases hfield : i < lo + len
    · simp [hi, Nat.le_of_not_lt hi, hfield, show i < 64 by omega]
    · have hw0 : w.getLsbD i = false := by
        rw [← BitVec.testBit_toNat]
        exact Nat.testBit_lt_two_pow (hw.trans_le (Nat.pow_le_pow_right (by omega) (by omega)))
      simp [hi, hfield, hw0, BitVec.getLsbD_of_ge v (i - lo) (by omega)]

/-- R130: the first word of a request as a number. -/
theorem toNat_packetWord0 (t : BitVec 3) (h : PacketHead) :
    (packetWord0 t h).toNat =
      t.toNat + (BitVec.ofBool h.write).toNat * 2 ^ 3 + h.dstEp.toNat * 2 ^ 8 + h.dstPe.toNat * 2 ^ 16 +
        h.srcPe.toNat * 2 ^ 32 := by
  have ht := t.isLt
  have hwrite := (BitVec.ofBool h.write).isLt
  have hep := h.dstEp.isLt
  have hdst := h.dstPe.isLt
  have e0 : (putField (0 : Word) 0 t).toNat = t.toNat := by
    rw [toNat_putField_above _ _ _ (by simp) (by omega)]
    simp
  have e1 : (putBit (putField 0 0 t) 3 h.write).toNat = t.toNat + (BitVec.ofBool h.write).toNat * 2 ^ 3 := by
    rw [putBit, toNat_putField_above _ _ _ (by omega) (by omega), e0]
  have e2 : (putField (putBit (putField 0 0 t) 3 h.write) 8 h.dstEp).toNat =
      t.toNat + (BitVec.ofBool h.write).toNat * 2 ^ 3 + h.dstEp.toNat * 2 ^ 8 := by
    rw [toNat_putField_above _ _ _ (by omega) (by omega), e1]
  have e3 : (putField (putField (putBit (putField 0 0 t) 3 h.write) 8 h.dstEp) 16 h.dstPe).toNat =
      t.toNat + (BitVec.ofBool h.write).toNat * 2 ^ 3 + h.dstEp.toNat * 2 ^ 8 + h.dstPe.toNat * 2 ^ 16 := by
    rw [toNat_putField_above _ _ _ (by omega) (by omega), e2]
  rw [packetWord0, toNat_putField_above _ _ _ (by omega) (by omega), e3]

/-- R130: the header bytes of a request as the numbers of its words. -/
theorem packetHeadBytes_eq_toLE (t : BitVec 3) (h : PacketHead) :
    packetHeadBytes t h =
      toLE 8 (t.toNat + (BitVec.ofBool h.write).toNat * 2 ^ 3 + h.dstEp.toNat * 2 ^ 8 + h.dstPe.toNat * 2 ^ 16 +
          h.srcPe.toNat * 2 ^ 32) ++
        toLE 8 h.addr.toNat ++ toLE 8 h.size.toNat ++ toLE 8 h.tag.toNat := by
  simp only [packetHeadBytes, wordBytes, toNat_packetWord0]

/-- R134: a tag as a number. -/
theorem toNat_tagWord (unit : BitVec 2) (op : OpId) : (tagWord unit op).toNat = unit.toNat * 2 ^ 62 + op.toNat := by
  have hop := op.isLt
  have e0 : (putField (0 : Word) 0 op).toNat = op.toNat := by
    rw [toNat_putField_above _ _ _ (by simp) (by omega)]
    simp
  rw [tagWord, toNat_putField_above _ _ _ (by omega) (by omega), e0, Nat.add_comm]

/-- R130: the first word of a request encoded with what was read from a word drops that word's reserved bits, 7:4 and
63:48. -/
theorem getLsbD_packetWord0_decoded (bytes : List Byte) (k : Nat) :
    (packetWord0 (packetType bytes) (packetHead bytes)).getLsbD k =
      if (4 ≤ k ∧ k < 8) ∨ 48 ≤ k then false else (wordAt bytes 0).getLsbD k := by
  simp only [packetWord0, packetType, packetHead, getLsbD_putField, Machine.getLsbD_putBit _ 3 k _ (by omega),
    getLsbD_fieldAt, bitAt]
  by_cases hreserved : (4 ≤ k ∧ k < 8) ∨ 48 ≤ k
  · grind
  · grind

/-! ### The message header (R125 to R128) -/

/-- The flag bits of a header (R125). -/
theorem getLsbD_headerFlags (h : MessageHeader) :
    (headerFlags h).getLsbD 0 = h.reply ∧ (headerFlags h).getLsbD 1 = h.grantCredits ∧
      (headerFlags h).getLsbD 2 = h.replyEnabled := by
  unfold headerFlags
  cases h.reply <;> cases h.grantCredits <;> cases h.replyEnabled <;> decide

/-- The flags of a header that was read are the three low bits of its first byte (R128). -/
theorem headerFlags_decHdr (bs : List Byte) : headerFlags (decHdr bs) = byteAt bs 0 &&& 7#8 := by
  have key : ∀ b : Byte,
      (if b.getLsbD 0 then 1#8 else 0#8) ||| (if b.getLsbD 1 then 2#8 else 0#8) ||| (if b.getLsbD 2 then 4#8 else 0#8) =
        b &&& 7#8 := by decide
  exact key _

/-- R127: a header is read back from its bytes, whatever follows. -/
theorem decHdr_encHdr (h : MessageHeader) (rest : List Byte) : decHdr (encHdr h ++ rest) = h := by
  obtain ⟨hreply, hgrant, henabled⟩ := getLsbD_headerFlags h
  have hlength : halfAt (encHdr h ++ rest) 4 = h.length := by
    have := halfAt_toLE [headerFlags h, h.senderEpId, h.replyEpId, 0#8]
      (toLE 2 h.senderCoreId.toNat ++ wordBytes h.label ++ wordBytes h.replyLabel ++ rest) h.length 4 rfl
    simpa [encHdr] using this
  have hcore : halfAt (encHdr h ++ rest) 6 = h.senderCoreId := by
    have := halfAt_toLE ([headerFlags h, h.senderEpId, h.replyEpId, 0#8] ++ toLE 2 h.length.toNat)
      (wordBytes h.label ++ wordBytes h.replyLabel ++ rest) h.senderCoreId 6 (by simp)
    simpa [encHdr] using this
  have hlabel : wordAt (encHdr h ++ rest) 8 = h.label := by
    have := wordAt_wordBytes
      ([headerFlags h, h.senderEpId, h.replyEpId, 0#8] ++ toLE 2 h.length.toNat ++ toLE 2 h.senderCoreId.toNat)
      (wordBytes h.replyLabel ++ rest) h.label 8 (by simp)
    simpa [encHdr] using this
  have hreplyLabel : wordAt (encHdr h ++ rest) 16 = h.replyLabel := by
    have := wordAt_wordBytes
      ([headerFlags h, h.senderEpId, h.replyEpId, 0#8] ++ toLE 2 h.length.toNat ++ toLE 2 h.senderCoreId.toNat ++
        wordBytes h.label) rest h.replyLabel 16 (by simp)
    simpa [encHdr] using this
  rw [decHdr, hlength, hcore, hlabel, hreplyLabel]
  show MessageHeader.mk ((headerFlags h).getLsbD 0) ((headerFlags h).getLsbD 1) ((headerFlags h).getLsbD 2) _ _ _ _ _ _ = h
  rw [hreply, hgrant, henabled]
  rfl

/-- R128: of 24 bytes that are read as a header and written again, byte 3 and flag bits 7:3 are dropped. -/
theorem encHdr_decHdr {bs : List Byte} (h : 24 ≤ bs.length) :
    encHdr (decHdr bs) = ((bs.take 24).set 0 (byteAt bs 0 &&& 7#8)).set 3 0#8 := by
  have hlength : toLE 2 (decHdr bs).length.toNat = (bs.drop 4).take 2 := toLE_halfAt (by omega)
  have hcore : toLE 2 (decHdr bs).senderCoreId.toNat = (bs.drop 6).take 2 := toLE_halfAt (by omega)
  have hlabel : wordBytes (decHdr bs).label = (bs.drop 8).take 8 := wordBytes_wordAt (by omega)
  have hreplyLabel : wordBytes (decHdr bs).replyLabel = (bs.drop 16).take 8 := wordBytes_wordAt (by omega)
  rw [encHdr, hlength, hcore, hlabel, hreplyLabel, headerFlags_decHdr, List.append_assoc _ (List.take 2 (List.drop 4 bs)),
    take_drop_append_take_drop bs 4 2 2, List.append_assoc _ (List.take _ (List.drop 4 bs)),
    take_drop_append_take_drop bs 4 4 8, List.append_assoc _ (List.take _ (List.drop 4 bs)),
    take_drop_append_take_drop bs 4 12 8]
  match bs, h with
  | b0 :: b1 :: b2 :: b3 :: rest, _ => rfl

/-! ### The decoder's formats (R120, R121, R130, R131) -/

theorem decode_commandBytes (op : BitVec 3) (ep : EpId) : decode .cmd (commandBytes op ep) = .ok (commandOf op ep) := by
  have hword : wordAt (commandBytes op ep) 0 = commandWord op ep 0#8 := by
    have := wordAt_wordBytes [] [] (commandWord op ep 0#8) 0 rfl
    simpa [commandBytes] using this
  rw [decode, if_pos (commandBytes_length op ep), hword, decodeCommand_commandWord]

/-- The eight values of `OPCODE` and `TYPE`. -/
theorem threeBits_cases (t : BitVec 3) :
    t = 0#3 ∨ t = 1#3 ∨ t = 2#3 ∨ t = 3#3 ∨ t = 4#3 ∨ t = 5#3 ∨ t = 6#3 ∨ t = 7#3 := by
  revert t
  decide

theorem format_packetOf (t : BitVec 3) (h : PacketHead) (body : List Byte) : (packetOf t h body).format = .noc := by
  unfold packetOf
  split <;> rfl

/-- The encoding of the packet of a type is its header and its body, which of a READ_REQ is empty (R131). -/
theorem encode_packetOf (t : BitVec 3) (h : PacketHead) (body : List Byte)
    (hlen : ∀ n, packetBodyLength t h = some n → body.length = n) :
    encode (packetOf t h body) = packetHeadBytes t h ++ body := by
  rcases threeBits_cases t with rfl | rfl | rfl | rfl | rfl | rfl | rfl | rfl
  case inr.inl =>
    have hbody : body = [] := List.length_eq_zero_iff.1 (hlen 0 rfl)
    subst body
    exact (List.append_nil _).symm
  all_goals rfl

/-- What the decoder of packets takes has a whole header (R130). -/
theorem decodePacket_length {bytes : List Byte} {i : Instr} (h : decode .noc bytes = .ok i) : 32 ≤ bytes.length := by
  by_contra hshort
  rw [decode, decodePacket, if_pos (Nat.lt_of_not_le hshort)] at h
  cases h

/-- The header of a request written again after it was read: of its 32 bytes those from the ninth on are the same. -/
theorem packetHeadBytes_decoded (t : BitVec 3) {bytes : List Byte} (h : 32 ≤ bytes.length) :
    packetHeadBytes t (packetHead bytes) ++ bytes.drop 32 =
      wordBytes (packetWord0 t (packetHead bytes)) ++ bytes.drop 8 := by
  have haddr : wordBytes (packetHead bytes).addr = (bytes.drop 8).take 8 := wordBytes_wordAt (by omega)
  have hsize : wordBytes (packetHead bytes).size = (bytes.drop 16).take 8 := wordBytes_wordAt (by omega)
  have htag : wordBytes (packetHead bytes).tag = (bytes.drop 24).take 8 := wordBytes_wordAt (by omega)
  have hrest : bytes.drop 32 = (bytes.drop 8).drop 24 := by rw [List.drop_drop]
  rw [packetHeadBytes, haddr, hsize, htag, List.append_assoc _ (List.take 8 (List.drop 8 bytes)),
    take_drop_append_take_drop bytes 8 8 8, List.append_assoc _ (List.take _ (List.drop 8 bytes)),
    take_drop_append_take_drop bytes 8 16 8, List.append_assoc, hrest, List.take_append_drop]

end Sys2Proof
end

section
/-! SUPPORT. What the PEs put in flight is well framed (30_encoding.md R130, R133; 43_memory_unit.md R330), and what no step
of a PE changes (70_reset_and_hazards.md R603): every packet that the formatter builds decodes, every answer is a response, and
a cache request keeps the bytes its packet needs. -/

namespace Sys2Proof.Machine

/-! ### Packets that the formatter builds (30_encoding.md R135) -/

/-- The bytes are a NoC request. -/
def Decodes (bytes : List Byte) : Prop := ∃ i, decode .noc bytes = .ok i

theorem decodes_packetHeadBytes {t : BitVec 3} {h : PacketHead} {body : List Byte}
    (hlen : ∀ n, packetBodyLength t h = some n → body.length = n) : Decodes (packetHeadBytes t h ++ body) :=
  ⟨_, decodePacket_packetHeadBytes t h body hlen⟩

theorem decodes_pktMsg (me pe : PeId) (ep : EpId) (hdr : MessageHeader) (payload : List Byte) (k : OpId)
    (h : headerSize + payload.length < 2 ^ 64) : Decodes (pktMsg me pe ep hdr payload k) := by
  refine decodes_packetHeadBytes fun n hn => ?_
  rw [← Option.some.inj hn, List.length_append, encHdr_length, BitVec.toNat_ofNat, Nat.mod_eq_of_lt h]

theorem decodes_pktRead (me pe : PeId) (addr : Word) (n : Nat) (k : OpId) : Decodes (pktRead me pe addr n k) := by
  rw [pktRead, encode, ← List.append_nil (packetHeadBytes _ _)]
  exact decodes_packetHeadBytes fun n hn => Option.some.inj hn

theorem decodes_pktWrite (me pe : PeId) (addr : Word) (bytes : List Byte) (k : OpId) (h : bytes.length < 2 ^ 64) :
    Decodes (pktWrite me pe addr bytes k) := by
  refine decodes_packetHeadBytes fun n hn => ?_
  rw [← Option.some.inj hn, BitVec.toNat_ofNat, Nat.mod_eq_of_lt h]

theorem decodes_pktCache (me : PeId) (func wr : Bool) (pe : PeId) (addr size : Word) (bytes : List Byte) (id : OpId)
    (h : wr = true → bytes.length = size.toNat) : Decodes (pktCache me func wr pe addr size bytes id) := by
  have hbody : (if wr then bytes else []).length = if wr then size.toNat else 0 := by
    cases wr with
    | true => exact h rfl
    | false => rfl
  cases func <;> exact decodes_packetHeadBytes fun n hn => hbody.trans (Option.some.inj hn)

/-! ### What a step of a PE sends -/

/-- The bytes of a chunk and a message's header fit the 64 bits of `SIZE` (42_transfer_unit.md R282, R284). -/
theorem localPart_lt (cfg : PeConfig) (x : Xfer) :
    (localPart cfg x).2 < 2 ^ 64 ∧ (x.kind = .msg → headerSize + (localPart cfg x).2 < 2 ^ 64) := by
  have hsize := x.size.isLt
  unfold localPart chunkLen headerSize
  cases x.kind with
  | mem => exact ⟨by simp only []; omega, nofun⟩
  | msg => exact ⟨by simp only []; omega, fun _ => by simp only []; omega⟩

theorem decodes_chunkPacket (me : PeId) (cfg : PeConfig) (x : Xfer) {data : List Byte}
    (h : data.length ≤ (localPart cfg x).2) : Decodes (chunkPacket me x data) := by
  obtain ⟨hall, hmsg⟩ := localPart_lt cfg x
  unfold chunkPacket
  split
  · rename_i hk _
    exact decodes_pktMsg _ _ _ _ _ _ ((Nat.add_le_add_left h _).trans_lt (hmsg hk))
  · exact decodes_pktWrite _ _ _ _ _ (h.trans_lt hall)

/-- A cache request carries the bytes that its packet needs (43_memory_unit.md R330). -/
def CacheData (c : CacheEntry) : Prop := c.data.length = if c.kind = .write then c.size.toNat else 0

/-- Every outstanding cache request of a PE does. -/
def cacheDataOk (pe : Pe) : Prop := ∀ c ∈ pe.cacheReqs, CacheData c.2

theorem decodes_cachePacket (me : PeId) (id : OpId) {c : CacheEntry} (pa : Word) (cfg : PeConfig) (h : CacheData c) :
    Decodes (cachePacket me id c pa cfg) := by
  refine decodes_pktCache _ _ _ _ _ _ _ _ fun hw => ?_
  rw [h, if_pos (beq_iff_eq.1 hw)]

theorem mem_of_cacheEntry {pe : Pe} {id : OpId} {c : CacheEntry} (h : cacheEntry pe id = some c) : (id, c) ∈ pe.cacheReqs := by
  obtain ⟨before, after, heq, _⟩ := List.lookup_eq_some_iff.1 h
  rw [heq]
  exact List.mem_append_right _ List.mem_cons_self

/-- Requests that decode and responses with a whole header (30_encoding.md R130, R133). -/
def Framed (requests : List (List Byte)) (responses : List Response) : Prop :=
  (∀ b ∈ requests, Decodes b) ∧ ∀ r ∈ responses, 16 ≤ r.bytes.length

theorem Framed.nil : Framed [] [] := ⟨nofun, nofun⟩

theorem Framed.request {b : List Byte} (h : Decodes b) : Framed [b] [] := ⟨List.forall_mem_singleton.2 h, nofun⟩

theorem Framed.answer (h : PacketHead) (code : ErrorCode) (data : List Byte) : Framed [] [responseTo h code data] :=
  ⟨nofun, List.forall_mem_singleton.2 (responseTo_length h code data)⟩

/-- What a step of a PE sends is well framed: chunks and cache requests are packets of the formatter, and each answer is to the
request served. -/
theorem PeStep.framed {ev : Event} {me : PeId} {pe : Pe} {e : Effect} (h : PeStep ev me pe e) (hok : cacheDataOk pe) :
    Framed e.requests e.responses := by
  cases h with
  | same _ _ hreq hresp => exact ⟨by simp [hreq], hresp⟩
  | transfer e ht =>
    obtain ⟨x, _, _, _, ht⟩ := transferStep_enabled ht
    obtain ⟨_, _, rfl | ⟨_, rfl⟩ | ⟨_, data, hlen, rfl⟩ | ⟨_, _, _, rfl⟩⟩ := chunkStepA_cases ht
    · exact .nil
    · exact .nil
    · exact .request (decodes_chunkPacket me pe.cfg x hlen)
    · exact .request (decodes_pktRead ..)
  | cacheTranslate id e ht =>
    obtain ⟨c, _, hc, _, _, rfl | rfl | ⟨pa, rfl⟩⟩ := cacheTranslateStep_cases ht
    · exact .nil
    · exact .nil
    · exact .request (decodes_cachePacket me id pa pe.cfg (hok _ (mem_of_cacheEntry hc)))
  | receive _ _ hd payload =>
    rcases receiveMessage_cases hd payload pe with hr | ⟨g, _, hr⟩ <;> rw [hr]
    · exact .answer hd _ _
    · rcases acceptMessage_cases hd payload g with ⟨_, _, ha⟩ | ⟨_, _, _, _, ha⟩ <;> rw [ha] <;> exact .answer hd _ _
  | serveWrite hd payload =>
    rcases serveWrite_cases hd payload pe with hx | ⟨_, _, hx⟩ <;> rw [hx] <;> exact .answer hd _ _
  | ctxSwitch _ _ _ hc =>
    obtain ⟨_, _, _, _, hreq, hresp, _⟩ := ctxSwitchStep_cases hc
    rw [hreq, hresp]
    exact .nil
  | cacheResponse bytes =>
    unfold Machine.cacheResponse
    simp only []
    split <;> exact .nil
  | accelContext _ _ _ ha =>
    obtain ⟨_, _, _, rfl⟩ := accelContextEffect_eq_some ha
    exact .nil
  | write | send | reply | memory | incReadPtr | wakeupCore | reserved7 | finish | chunkResponse | store | coreWaiting
  | accelStateSize | cacheRequest | walkAnswer => exact .nil

/-! ### What a step of a PE keeps -/

@[simp] theorem regWrite_cacheReqs (i : Nat) (v : Word) (priv : Bool) (pe : Pe) :
    (regWrite i v priv pe).cacheReqs = pe.cacheReqs := by
  obtain ⟨_, _, _, _, _, _, _, _, _, _, _, _, h, _⟩ := regWrite_frame i v priv pe
  rw [h]

@[simp] theorem regWrite_eps_length (i : Nat) (v : Word) (priv : Bool) (pe : Pe) :
    (regWrite i v priv pe).eps.length = pe.eps.length := by
  obtain ⟨_, _, _, _, _, _, _, _, _, _, _, _, h, hlen⟩ := regWrite_frame i v priv pe
  rw [h]
  exact hlen

/-- A PE with as many endpoints as another and a context-switch engine where the other has one (R603), whose cache requests
carry the bytes their packets need if the other's do. -/
structure Kept (pe pe' : Pe) : Prop where
  eps : pe'.eps.length = pe.eps.length
  session : pe'.session.isSome = pe.session.isSome
  cacheData : cacheDataOk pe → cacheDataOk pe'

theorem Kept.refl (pe : Pe) : Kept pe pe := ⟨rfl, rfl, id⟩

theorem Kept.trans {pe pe' pe'' : Pe} (h : Kept pe pe') (h' : Kept pe' pe'') : Kept pe pe'' :=
  ⟨h'.eps.trans h.eps, h'.session.trans h.session, h'.cacheData ∘ h.cacheData⟩

theorem Kept.of_cacheReqs_eq {pe pe' : Pe} (heps : pe'.eps.length = pe.eps.length)
    (hsession : pe'.session.isSome = pe.session.isSome) (hreqs : pe'.cacheReqs = pe.cacheReqs) : Kept pe pe' :=
  ⟨heps, hsession, fun h => by rwa [cacheDataOk, hreqs]⟩

theorem Kept.regWrite (i : Nat) (v : Word) (priv : Bool) (pe : Pe) : Kept pe (regWrite i v priv pe) :=
  .of_cacheReqs_eq (by simp) (by simp) (by simp)

theorem Kept.setEp (pe : Pe) (n : EpId) (v : Endpoint) : Kept pe (setEp pe n v) := ⟨List.length_set, rfl, id⟩

theorem Kept.memWrite {pe pe' : Pe} {a : Nat} {bytes : List Byte} (h : memWrite pe a bytes = some pe') : Kept pe pe' := by
  obtain ⟨_, rfl⟩ := memWrite_eq_some.1 h
  exact ⟨rfl, rfl, id⟩

theorem Kept.of_sameButQueue {pe pe' : Pe} (h : SameButQueue pe pe') : Kept pe pe' := by
  obtain ⟨_, _, _, rfl⟩ := h
  exact ⟨rfl, rfl, id⟩

theorem Kept.grantCredit (c : EpId) (pe : Pe) : Kept pe (grantCredit c pe) := by
  rcases grantCredit_cases c pe with ⟨_, _, h⟩ | h <;> rw [h]
  · exact .setEp ..
  · exact ⟨rfl, rfl, id⟩

theorem Kept.receiveMessage (hd : PacketHead) (payload : List Byte) (pe : Pe) : Kept pe (receiveMessage hd payload pe).pe := by
  rcases receiveMessage_cases hd payload pe with hr | ⟨g, hg, hr⟩ <;> rw [hr]
  · exact ⟨rfl, rfl, id⟩
  · have hkept : Kept pe g := by
      rcases hg with rfl | rfl
      · exact .refl _
      · exact .grantCredit ..
    refine hkept.trans ?_
    rcases acceptMessage_cases hd payload g with ⟨_, _, ha⟩ | ⟨m, _, _, hw, ha⟩ <;> rw [ha]
    · exact ⟨rfl, rfl, id⟩
    · exact (Kept.memWrite hw).trans (.setEp ..)

theorem Kept.chunkResponse (bytes : List Byte) (pe : Pe) : Kept pe (chunkResponse bytes pe) := by
  rcases chunkResponse_cases bytes pe with hc | ⟨x, _, _, _, _, ⟨_, hc⟩ | ⟨m, hc, _⟩⟩ <;> rw [hc]
  · exact .refl _
  · exact ⟨rfl, rfl, id⟩
  · simp only [advanceChunk]
    split <;> exact ⟨rfl, rfl, id⟩

theorem Kept.ctxSwitchStep {me : PeId} {pe : Pe} {e : Effect} (h : ctxSwitchStep me pe = some e) : Kept pe e.pe := by
  obtain ⟨c, c', hc, _, _, _, hpe⟩ := ctxSwitchStep_cases h
  rcases hpe with hpe | ⟨_, _, _, _, hpe⟩ | ⟨_, _, hpe⟩ | ⟨op, off, n, hpe⟩ <;> rw [hpe] <;>
    refine .of_cacheReqs_eq ?_ ?_ ?_ <;> simp [hc, issueCommand]

/-- The cache requests after one was removed are some of those before. -/
theorem Kept.removeCacheReq (id : OpId) (pe : Pe) : Kept pe (removeCacheReq id pe) :=
  ⟨rfl, rfl, fun h c hc => h c (List.mem_of_mem_filter hc)⟩

/-- Storing the physical address of a cache request changes neither its kind nor its bytes (43_memory_unit.md R330). -/
theorem Kept.setCachePa (id : OpId) (pa : Word) (pe : Pe) : Kept pe (setCachePa id pa pe) := by
  refine ⟨rfl, rfl, fun h c hc => ?_⟩
  obtain ⟨c', hc', rfl⟩ := List.mem_map.1 hc
  split <;> exact h c' hc'

/-- The precondition of a cache request is that it brings the bytes its packet needs (R330). -/
theorem Kept.acceptCacheRequest {id : OpId} {req : CacheRequest} {pe pe' : Pe}
    (h : acceptCacheRequest id req pe = some pe') : Kept pe pe' := by
  unfold Machine.acceptCacheRequest at h
  split at h
  · rename_i hok
    cases h
    refine ⟨rfl, rfl, fun hdata c hc => ?_⟩
    rcases List.mem_append.1 hc with hc | hc
    · exact hdata c hc
    · rw [List.mem_singleton.1 hc]
      simp only [cacheAcceptable, Bool.and_eq_true, decide_eq_true_eq] at hok
      exact hok.2
  · cases h

/-- No step of a PE adds or removes an endpoint or the context-switch engine, and its cache requests keep the bytes that their
packets need. -/
theorem PeStep.kept {ev : Event} {me : PeId} {pe : Pe} {e : Effect} (h : PeStep ev me pe e) : Kept pe e.pe := by
  cases h with
  | same _ hpe => exact hpe ▸ .refl pe
  | write i v => exact .regWrite ..
  | send _ _ ep =>
    rcases sendExecute_cases ep me pe with ⟨_, hx⟩ | ⟨_, _, _, hx⟩ <;> rw [hx]
    · exact ⟨rfl, rfl, id⟩
    · exact ⟨List.length_set, rfl, id⟩
  | reply ep =>
    rcases replyExecute_cases ep me pe with ⟨_, hx⟩ | ⟨_, _, _, _, _, _, hx⟩ <;> rw [hx] <;> exact ⟨rfl, rfl, id⟩
  | memory ty pm ep =>
    rcases memoryExecute_cases ty pm ep pe with ⟨_, hx⟩ | ⟨_, _, _, hx | ⟨_, hx⟩⟩ <;> rw [hx] <;> exact ⟨rfl, rfl, id⟩
  | incReadPtr ep =>
    rcases incReadPtrExecute_cases ep pe with ⟨_, hx⟩ | ⟨_, _, hx⟩ <;> rw [hx]
    · exact ⟨rfl, rfl, id⟩
    · exact ⟨List.length_set, rfl, id⟩
  | wakeupCore | reserved7 | finish | coreWaiting | accelStateSize => exact ⟨rfl, rfl, id⟩
  | transfer _ ht =>
    obtain ⟨_, _, _, _, ht⟩ := transferStep_enabled ht
    obtain ⟨pe', hqueue, ht⟩ := chunkStepA_cases ht
    refine (Kept.of_sameButQueue hqueue).trans ?_
    rcases ht with rfl | ⟨_, rfl⟩ | ⟨_, _, _, rfl⟩ | ⟨_, _, _, rfl⟩ <;> exact ⟨rfl, rfl, id⟩
  | ctxSwitch _ _ _ hc => exact .ctxSwitchStep hc
  | receive _ _ hd payload => exact .receiveMessage ..
  | serveWrite hd payload =>
    rcases serveWrite_cases hd payload pe with hx | ⟨_, hw, hx⟩ <;> rw [hx]
    · exact .refl _
    · exact .memWrite hw
  | chunkResponse bytes => exact .chunkResponse ..
  | cacheResponse bytes =>
    simp only [Machine.cacheResponse]
    split
    · exact .removeCacheReq ..
    · exact .refl _
  | store _ _ _ hw => exact .memWrite hw
  | accelContext _ _ _ ha =>
    obtain ⟨_, _, _, rfl⟩ := accelContextEffect_eq_some ha
    exact ⟨rfl, rfl, id⟩
  | cacheRequest _ _ _ ha => exact .acceptCacheRequest ha
  | cacheTranslate reqId _ ht =>
    obtain ⟨_, pe', _, _, hqueue, rfl | rfl | ⟨pa, rfl⟩⟩ := cacheTranslateStep_cases ht
    · exact .of_sameButQueue hqueue
    · exact (Kept.of_sameButQueue hqueue).trans (.removeCacheReq reqId pe')
    · exact (Kept.of_sameButQueue hqueue).trans (.setCachePa reqId pa pe')
  | walkAnswer _ _ _ ha =>
    obtain ⟨_, _, _, _, rfl⟩ := walkAnswered_frame ha
    exact ⟨rfl, rfl, id⟩

/-! ### What a step of the system keeps -/

theorem transportOk_iff (s : State) : transportOk s ↔ Framed s.requests s.responses ∧ everyPe cacheDataOk s :=
  ⟨fun ⟨hreq, hresp, hdata⟩ => ⟨⟨hreq, hresp⟩, hdata⟩, fun ⟨⟨hreq, hresp⟩, hdata⟩ => ⟨hreq, hresp, hdata⟩⟩

/-- An agent's step keeps what is in flight well framed. -/
theorem Ran.framed {ev : Event} {s t : State} (h : Ran ev s t) (hdata : everyPe cacheDataOk s)
    (hs : Framed s.requests s.responses) : Framed t.requests t.responses := by
  obtain ⟨hreq, hresp⟩ := hs
  rcases h with ⟨_, h2, h3⟩ | ⟨p, pe, e, _, hp, hstep, _, h2, h3⟩
  · exact ⟨fun b hb => hreq b (h2 b hb), fun r hr => (h3 r hr).elim (hresp r) id⟩
  · obtain ⟨ereq, eresp⟩ := hstep.framed (hdata pe (List.mem_of_getElem? hp))
    exact ⟨fun b hb => (h2 b hb).elim (hreq b) (ereq b), fun r hr => (h3 r hr).elim (hresp r) (eresp r)⟩

/-- Every step keeps what is in flight well framed. -/
theorem step_framed {s t : State} (h : step s = .next t) (hdata : everyPe cacheDataOk s)
    (hs : Framed s.requests s.responses) : Framed t.requests t.responses := by
  have hs0 : Framed (takeEvent s).requests (takeEvent s).responses := by rwa [takeEvent_requests, takeEvent_responses]
  have hdata0 : everyPe cacheDataOk (takeEvent s) := by rwa [everyPe, takeEvent_pes]
  rcases step_cases h with hran | ⟨p, r, bytes, _, rfl⟩ | ⟨p, r, order, cells, kept, u, _, hcells, _, _, _, hran, rfl⟩
  · exact hran.framed hdata hs
  · rwa [withBytes_requests, withBytes_responses]
  · rw [withBytes_requests, withBytes_responses]
    refine hran.framed (everyPe_withBytes (fun _ _ hok _ => hok) (fun _ hp => hcells ▸ raceCells_inside hp) hdata0) ?_
    rwa [withBytes_requests, withBytes_responses]

theorem step_transportOk {s t : State} (h : step s = .next t) (hs : transportOk s) : transportOk t := by
  obtain ⟨hframed, hdata⟩ := (transportOk_iff s).1 hs
  exact (transportOk_iff t).2 ⟨step_framed h hdata hframed,
    everyPe_step (fun _ _ _ _ hok hstep => hstep.kept.cacheData hok) (fun _ _ hok _ => hok) hdata h⟩

theorem Ran.pes_length {ev : Event} {s t : State} (h : Ran ev s t) : t.pes.length = s.pes.length := by
  rcases h with ⟨h, _⟩ | ⟨_, _, _, _, _, _, h, _⟩ <;> rw [h]
  exact List.length_set

/-- No step changes the number of PEs. -/
theorem step_pes_length {s t : State} (h : step s = .next t) : t.pes.length = s.pes.length := by
  rcases step_cases h with hran | ⟨_, _, _, _, rfl⟩ | ⟨_, _, _, _, _, _, _, _, _, _, _, hran, rfl⟩
  · exact hran.pes_length
  · rw [withBytes_length, takeEvent_pes]
  · rw [withBytes_length, hran.pes_length, withBytes_length, takeEvent_pes]

/-- No step changes the parameters of a PE (R603). -/
theorem step_parameters {s t : State} (h : step s = .next t) {p : Nat} {pe pe' : Pe} (hp : s.pes[p]? = some pe)
    (hp' : t.pes[p]? = some pe') :
    pe'.cfg = pe.cfg ∧ pe'.eps.length = pe.eps.length ∧ pe'.session.isSome = pe.session.isSome := by
  obtain ⟨_, _, _, _, _, hstep, ht⟩ := step_pe h hp
  rw [ht] at hp'
  cases hp'
  exact ⟨hstep.cfg_eq, hstep.kept.eps, hstep.kept.session⟩

end Sys2Proof.Machine
end

section
/-! PROOFS. The statements about the encodings (30_encoding.md). -/

namespace Sys2Proof.Machine

/-- Settles O2: a command's word is read back by its two fields, and a packet's header by its words, its body being as long as
its type asks for. -/
theorem decodeOfEncode : Obligations.DecodeOfEncode := by
  have packet : ∀ (t : BitVec 3) (h : PacketHead) (body : List Byte),
      (∀ n, packetBodyLength t h = some n → body.length = n) →
        decode .noc (packetHeadBytes t h ++ body) = .ok (packetOf t h body) := decodePacket_packetHeadBytes
  intro i hwf
  cases i with
  | idle ep | send ep | reply ep | read ep | write ep | incReadPtr ep | wakeupCore ep | reserved7 ep =>
    exact decode_commandBytes _ ep
  | readReq h =>
    have hdecode := packet 1#3 h [] fun n hn => Option.some.inj hn
    rwa [List.append_nil] at hdecode
  | message h payload | writeReq h payload | cacheMemReq h payload | cacheMemReqFunc h payload =>
    exact packet _ h payload fun n hn => (beq_iff_eq.1 hwf).trans (Option.some.inj hn)
  | reservedPkt5 h body | reservedPkt6 h body | reservedPkt7 h body =>
    exact packet _ h body fun _ hn => nomatch hn

/-- Settles O51: what is in flight was there before or is what a PE sent, and each PE did a step of a PE. -/
theorem transportAndParametersAreKept : Obligations.TransportAndParametersAreKept := by
  intro s t h
  refine ⟨step_transportOk h, step_pes_length h, fun hs => ?_, fun p pe pe' hp hp' => ?_⟩
  · rwa [peIdsOk, step_pes_length h]
  · exact step_parameters h hp hp'

/-- Settles O3: what was decoded is the packet of a type with a body as long as the type asks for, and of the words written
again only the first differs. -/
theorem encodeOfDecodedPacket : Obligations.EncodeOfDecodedPacket := by
  intro bytes i h
  have hwf := decodePacket_wellFormed h
  have hlong := decodePacket_length h
  obtain ⟨rfl, hbody⟩ := decodePacket_eq_ok h
  have hagain : encode (packetOf (packetType bytes) (packetHead bytes) (bytes.drop 32)) =
      wordBytes (packetWord0 (packetType bytes) (packetHead bytes)) ++ bytes.drop 8 :=
    (encode_packetOf _ _ _ hbody).trans (packetHeadBytes_decoded _ hlong)
  have hword0 : wordAt (encode (packetOf (packetType bytes) (packetHead bytes) (bytes.drop 32))) 0 =
      packetWord0 (packetType bytes) (packetHead bytes) := hagain ▸ wordAt_wordBytes [] _ _ 0 rfl
  refine ⟨hwf, format_packetOf _ _ _, ?_, ?_, fun k => ?_⟩
  · rw [hagain, List.length_append, wordBytes_length, List.length_drop]
    omega
  · rw [hagain]
    exact List.drop_left' (wordBytes_length _)
  · rw [hword0, getLsbD_packetWord0_decoded]

/-- Settles O4: each field stands at its place among the bytes. -/
theorem headersAndResponsesAreReadBack : Obligations.HeadersAndResponsesAreReadBack :=
  ⟨fun h rest => ⟨encHdr_length h, decHdr_encHdr h rest⟩, fun _ hlen => encHdr_decHdr hlen,
    fun st tag data => ⟨encodeResponse_length st tag data, responseStatus_encodeResponse st tag data,
      responseTag_encodeResponse st tag data, responseData_encodeResponse st tag data⟩,
    fun unit op => ⟨tagUnit_tagWord unit op, tagOp_tagWord unit op⟩⟩

/-- Settles O5: the words of the header as numbers, and the example by evaluation. -/
theorem formatterPackets : Obligations.FormatterPackets := by
  refine ⟨?_, ?_, ?_, ?_, by decide, by decide, by decide, by decide⟩
  · intro me pe ep hdr payload k hsize
    rw [pktMsg, encode, packetHeadBytes_eq_toLE, toNat_tagWord]
    simp only [headerSize, BitVec.toNat_ofNat, Nat.mod_eq_of_lt hsize]
    simp
  · intro me pe addr n k hsize
    rw [pktRead, encode, packetHeadBytes_eq_toLE, toNat_tagWord]
    simp only [BitVec.toNat_ofNat, Nat.mod_eq_of_lt hsize]
    simp
  · intro me pe addr bytes k hsize
    rw [pktWrite, encode, packetHeadBytes_eq_toLE, toNat_tagWord]
    simp only [BitVec.toNat_ofNat, Nat.mod_eq_of_lt hsize]
    simp
  · intro me func wr pe addr n bytes id
    cases func <;> cases wr <;> simp [pktCache, encode, packetHeadBytes_eq_toLE, toNat_tagWord]

/-- Settles O1, by evaluation of the decoder. -/
theorem wordsOfTheSpecDecode : Obligations.WordsOfTheSpecDecode := by
  unfold Obligations.WordsOfTheSpecDecode
  decide

end Sys2Proof.Machine
end

section
/-! SUPPORT. What a step of a PE can make of STATUS, COMMAND and the Command Engine's own state (40_command_engine.md R200 to
R209), said once: a command is started, executed, transferred and finished, a receive error or a rejected write is recorded,
and no other step touches them; each of these keeps the engine's invariant (R218) and the reserved bits. -/

namespace Sys2Proof.Machine

/-! ### The engine's part of a PE -/

/-- STATUS, COMMAND and the Command Engine's own state (R50), with whether there is a transfer. -/
structure EngineView where
  status : Word
  command : Word
  inProgress : Bool
  phase : Phase
  cur : LatchedCommand
  transfer : Bool

def engineView (pe : Pe) : EngineView where
  status := pe.status
  command := pe.command
  inProgress := pe.cmdInProgress
  phase := pe.phase
  cur := pe.cur
  transfer := pe.xfer.isSome

/-- The engine's invariant, of the engine's part alone. -/
def EngineView.Ok (v : EngineView) : Prop :=
  (v.inProgress = true ↔ v.phase ≠ .idle) ∧
  statusBusy v.status = v.inProgress ∧
  (opcodeOf v.command ≠ 0#3 ↔ v.inProgress = true) ∧
  (v.transfer = true ↔ v.phase = .xfer) ∧
  (v.inProgress = true → v.command = commandWord v.cur.opcode v.cur.epId errNone)

theorem engineOk_iff (pe : Pe) : engineOk pe ↔ (engineView pe).Ok := Iff.rfl

/-- The reserved bits of STATUS (10_state.md R33). -/
def StatusReserved (w : Word) : Prop := ∀ i, (3 ≤ i ∧ i < 8) ∨ 24 ≤ i → w.getLsbD i = false

/-- The reserved bits of COMMAND (R35). -/
def CommandReserved (w : Word) : Prop := ∀ i, (11 ≤ i ∧ i < 16) ∨ 24 ≤ i → w.getLsbD i = false

/-- The reserved bits, of the engine's part alone. -/
def EngineView.ReservedOk (v : EngineView) : Prop := StatusReserved v.status ∧ CommandReserved v.command

theorem reservedBitsOk_iff (pe : Pe) : reservedBitsOk pe ↔ (engineView pe).ReservedOk := Iff.rfl

/-- What steps of a PE can make of the engine's part. -/
inductive EngineMove : EngineView → EngineView → Prop where
  | refl (v : EngineView) : EngineMove v v
  | trans {v v' v'' : EngineView} (h : EngineMove v v') (h' : EngineMove v' v'') : EngineMove v v''
  /-- A client's write of STATUS (10_state.md R34). -/
  | statusWrite (v : EngineView) (w : Word) : EngineMove v { v with status := statusAfterWrite v.status w }
  /-- A write of the command group while a command runs (R200). -/
  | reject (v : EngineView) : EngineMove v { v with status := putBit v.status 1 true }
  /-- A receive error (41_message_unit.md R256). -/
  | receiveError (v : EngineView) (code : ErrorCode) (ep : EpId) :
    EngineMove v { v with status := recordRecvErr v.status code ep }
  /-- A write of an IDLE word (R210). -/
  | idleWord (v : EngineView) (ep : EpId) (hidle : v.inProgress = false) :
    EngineMove v { v with command := commandWord 0#3 ep errNone }
  /-- A write of another command word, which starts it (R202). -/
  | start (v : EngineView) (cur : LatchedCommand) (hidle : v.inProgress = false) (hop : cur.opcode ≠ 0#3) :
    EngineMove v
      { v with
        command := commandWord cur.opcode cur.epId errNone, cur := cur, inProgress := true
        status := putBit v.status 0 true, phase := .execPending }
  /-- The execute step ends the command (R203, R206). -/
  | complete (v : EngineView) (hexec : v.phase = .execPending) : EngineMove v { v with phase := .finishPending }
  /-- The execute step starts the command's transfer (42_transfer_unit.md R280). -/
  | startTransfer (v : EngineView) (hexec : v.phase = .execPending) :
    EngineMove v { v with phase := .xfer, transfer := true }
  /-- The transfer ends (R286, R205). -/
  | endTransfer (v : EngineView) (hxfer : v.phase = .xfer) : EngineMove v { v with phase := .finishPending, transfer := false }
  /-- The finish step (R207). -/
  | finish (v : EngineView) (result : ErrorCode) (hfinish : v.phase = .finishPending) :
    EngineMove v
      { v with
        command := finishedCommand v.command result, inProgress := false, status := putBit v.status 0 false
        phase := .idle }

/-! ### COMMAND (10_state.md R35) -/

/-- Every bit of a command word (30_encoding.md R120). -/
theorem getLsbD_commandWord (op : BitVec 3) (ep : EpId) (err : ErrorCode) (k : Nat) :
    (commandWord op ep err).getLsbD k =
      if k < 3 then op.getLsbD k else if 3 ≤ k ∧ k < 11 then ep.getLsbD (k - 3)
      else if 16 ≤ k ∧ k < 24 then err.getLsbD (k - 16) else false := by
  simp only [commandWord, getLsbD_putField]
  grind

/-- A command word as its three shifted fields. -/
theorem commandWord_eq_or (op : BitVec 3) (ep : EpId) (err : ErrorCode) :
    commandWord op ep err = op.setWidth 64 ||| ep.setWidth 64 <<< 3 ||| err.setWidth 64 <<< 16 := by
  apply BitVec.eq_of_getLsbD_eq
  intro k hk
  rw [getLsbD_commandWord]
  simp only [BitVec.getLsbD_or, BitVec.getLsbD_shiftLeft, BitVec.getLsbD_setWidth]
  grind

theorem commandWord_errNone (op : BitVec 3) (ep : EpId) :
    commandWord op ep errNone = op.setWidth 64 ||| ep.setWidth 64 <<< 3 := by
  simp [commandWord_eq_or, errNone]

/-- Every bit of COMMAND after the finish step (40_command_engine.md R207). -/
theorem getLsbD_finishedCommand (w : Word) (result : ErrorCode) (k : Nat) :
    (finishedCommand w result).getLsbD k =
      if k < 3 then false else if 16 ≤ k ∧ k < 24 then result.getLsbD (k - 16) else w.getLsbD k := by
  simp only [finishedCommand, getLsbD_putField]
  grind

@[simp] theorem opcodeOf_finishedCommand (w : Word) (result : ErrorCode) : opcodeOf (finishedCommand w result) = 0#3 := by
  unfold opcodeOf finishedCommand
  rw [fieldAt_putField_apart _ _ _ _ _ (by omega), fieldAt_putField_same _ _ _ (by omega)]

theorem finishedCommand_commandWord (op : BitVec 3) (ep : EpId) (err result : ErrorCode) :
    finishedCommand (commandWord op ep err) result = commandWord 0#3 ep result := by
  apply BitVec.eq_of_getLsbD_eq
  intro k _
  rw [getLsbD_finishedCommand, getLsbD_commandWord, getLsbD_commandWord]
  grind

/-- What COMMAND stores of a word: its bits 10:0 (R200). -/
theorem getLsbD_commandWord_written (v : Word) (k : Nat) :
    (commandWord (opcodeOf v) (epIdOf v) errNone).getLsbD k = (decide (k < 11) && v.getLsbD k) := by
  rw [getLsbD_commandWord, opcodeOf, epIdOf, getLsbD_fieldAt, getLsbD_fieldAt, errNone]
  grind

/-! ### The moves keep the invariant -/

theorem EngineMove.ok {v v' : EngineView} (h : EngineMove v v') (hv : v.Ok) : v'.Ok := by
  induction h with
  | refl => exact hv
  | trans _ _ ih ih' => exact ih' (ih hv)
  | statusWrite v w =>
    obtain ⟨hphase, hbusy, hcommand, htransfer, hlatched⟩ := hv
    exact ⟨hphase, (statusBusy_statusAfterWrite _ _).trans hbusy, hcommand, htransfer, hlatched⟩
  | reject v =>
    obtain ⟨hphase, hbusy, hcommand, htransfer, hlatched⟩ := hv
    exact ⟨hphase, (statusBusy_putBit_rejected _ _).trans hbusy, hcommand, htransfer, hlatched⟩
  | receiveError v code ep =>
    obtain ⟨hphase, hbusy, hcommand, htransfer, hlatched⟩ := hv
    exact ⟨hphase, (statusBusy_recordRecvErr _ _ _).trans hbusy, hcommand, htransfer, hlatched⟩
  | idleWord v ep hidle =>
    obtain ⟨hphase, hbusy, _, htransfer, _⟩ := hv
    exact ⟨hphase, hbusy, by simp [hidle], htransfer, by simp [hidle]⟩
  | start v cur hidle hop =>
    obtain ⟨hphase, _, _, htransfer, _⟩ := hv
    have hnone : v.transfer ≠ true := fun ht => by simp [hidle, htransfer.1 ht] at hphase
    exact ⟨by simp, by simp, by simp [hop], by simpa using hnone, fun _ => rfl⟩
  | complete v hexec =>
    obtain ⟨hphase, hbusy, hcommand, htransfer, hlatched⟩ := hv
    rw [hexec] at hphase htransfer
    exact ⟨by simpa using hphase, hbusy, hcommand, by simpa using htransfer, hlatched⟩
  | startTransfer v hexec =>
    obtain ⟨hphase, hbusy, hcommand, _, hlatched⟩ := hv
    rw [hexec] at hphase
    exact ⟨by simpa using hphase, hbusy, hcommand, by simp, hlatched⟩
  | endTransfer v hxfer =>
    obtain ⟨hphase, hbusy, hcommand, _, hlatched⟩ := hv
    rw [hxfer] at hphase
    exact ⟨by simpa using hphase, hbusy, hcommand, by simp, hlatched⟩
  | finish v result hfinish =>
    obtain ⟨_, _, _, htransfer, _⟩ := hv
    rw [hfinish] at htransfer
    exact ⟨by simp, by simp, by simp, by simpa using htransfer, nofun⟩

theorem StatusReserved.putBit {w : Word} (h : StatusReserved w) {i : Nat} (hi : i < 3) (b : Bool) :
    StatusReserved (putBit w i b) := by
  intro k hk
  rw [getLsbD_putBit _ _ _ _ (by omega), if_neg (by omega)]
  exact h k hk

theorem StatusReserved.recordRecvErr {w : Word} (h : StatusReserved w) (code : ErrorCode) (ep : EpId) :
    StatusReserved (recordRecvErr w code ep) := by
  intro k hk
  rw [Machine.recordRecvErr, getLsbD_putField, if_neg (by omega), getLsbD_putField, if_neg (by omega)]
  exact h.putBit (by omega) true k hk

theorem StatusReserved.statusAfterWrite {w : Word} (h : StatusReserved w) (v : Word) :
    StatusReserved (statusAfterWrite w v) := by
  intro k hk
  rw [getLsbD_statusAfterWrite, h k hk, ite_self]

theorem commandReserved_commandWord (op : BitVec 3) (ep : EpId) (err : ErrorCode) :
    CommandReserved (commandWord op ep err) := by
  intro k hk
  rw [getLsbD_commandWord, if_neg (by omega), if_neg (by omega), if_neg (by omega)]

theorem CommandReserved.finishedCommand {w : Word} (h : CommandReserved w) (result : ErrorCode) :
    CommandReserved (finishedCommand w result) := by
  intro k hk
  rw [getLsbD_finishedCommand, if_neg (by omega), if_neg (by omega)]
  exact h k hk

theorem EngineMove.reservedOk {v v' : EngineView} (h : EngineMove v v') (hv : v.ReservedOk) : v'.ReservedOk := by
  induction h with
  | trans _ _ ih ih' => exact ih' (ih hv)
  | refl | complete | startTransfer | endTransfer => exact hv
  | statusWrite v w => exact ⟨hv.1.statusAfterWrite w, hv.2⟩
  | reject => exact ⟨hv.1.putBit (by omega) _, hv.2⟩
  | receiveError v code ep => exact ⟨hv.1.recordRecvErr code ep, hv.2⟩
  | idleWord => exact ⟨hv.1, commandReserved_commandWord _ _ _⟩
  | start => exact ⟨hv.1.putBit (by omega) _, commandReserved_commandWord _ _ _⟩
  | finish v result => exact ⟨hv.1.putBit (by omega) _, hv.2.finishedCommand result⟩

/-! ### Every step of a PE is a move of the engine -/

/-- The moves that a step of a PE makes of the engine's part. -/
def EngineMoved (pe pe' : Pe) : Prop := EngineMove (engineView pe) (engineView pe')

/-- A step that leaves the engine's part. -/
theorem EngineMoved.of_eq {pe pe' : Pe} (h : engineView pe' = engineView pe) : EngineMoved pe pe' := by
  rw [EngineMoved, h]
  exact .refl _

theorem EngineMoved.trans {pe pe' pe'' : Pe} (h : EngineMoved pe pe') (h' : EngineMoved pe' pe'') : EngineMoved pe pe'' :=
  EngineMove.trans h h'

/-- The transfer in flight goes on as another record. -/
theorem EngineMoved.with_xfer {pe : Pe} (h : pe.xfer.isSome = true) (x : Xfer) : EngineMoved pe { pe with xfer := some x } :=
  .of_eq (by simp [engineView, h])

theorem EngineMoved.endXfer {pe : Pe} (h : pe.phase = .xfer) (code : ErrorCode) : EngineMoved pe (endXfer code pe) :=
  .endTransfer (engineView pe) h

/-- The start of a command latches the word that COMMAND holds (R202). -/
theorem EngineMoved.startCommand {pe : Pe} {op : BitVec 3} (ep : EpId) (hidle : pe.cmdInProgress = false) (hop : op ≠ 0#3) :
    EngineMoved pe (startCommand { pe with command := commandWord op ep errNone }) := by
  have hmove := EngineMove.start (engineView pe) (latchCommand { pe with command := commandWord op ep errNone }) hidle
    (by simpa [latchCommand])
  simp only [latchCommand, opcodeOf_commandWord, epIdOf_commandWord] at hmove
  simpa only [EngineMoved, engineView, startCommand_cur, latchCommand, opcodeOf_commandWord, epIdOf_commandWord]

/-- A write of COMMAND (R200, R202). -/
theorem EngineMoved.writeCommand (v : Word) (pe : Pe) : EngineMoved pe (writeCommand v pe) := by
  unfold Machine.writeCommand
  split
  · exact .reject (engineView pe)
  · rename_i hrun
    have hidle : pe.cmdInProgress = false := by simpa using hrun
    simp only []
    split
    · rename_i hop
      rw [hop]
      exact .idleWord (engineView pe) _ hidle
    · rename_i hop
      exact .startCommand _ hidle hop

theorem EngineMoved.writeArgument {pe stored : Pe} (h : engineView stored = engineView pe) :
    EngineMoved pe (writeArgument pe stored) := by
  unfold Machine.writeArgument
  split
  · exact .reject (engineView pe)
  · exact .of_eq h

theorem EngineMoved.regWrite (i : Nat) (v : Word) (priv : Bool) (pe : Pe) : EngineMoved pe (regWrite i v priv pe) := by
  match i with
  | 0 => exact .statusWrite (engineView pe) v
  | 1 => exact .writeCommand v pe
  | 2 | 3 | 4 | 5 | 6 => exact .writeArgument rfl
  | 7 => exact .refl _
  | k + 8 =>
    cases priv with
    | false => exact .refl _
    | true =>
      rw [regWrite_endpoint_privileged]
      exact .refl _

/-- The context-switch engine issues its commands as a client (45_ctxswitch.md R397). -/
theorem EngineMoved.issueCommand (op : BitVec 3) (off : Word) (n : Nat) (pe : Pe) :
    EngineMoved pe (issueCommand op off n pe) :=
  (EngineMoved.regWrite 2 _ false pe).trans <| (EngineMoved.regWrite 3 _ false _).trans <|
    (EngineMoved.regWrite 4 _ false _).trans <| EngineMoved.regWrite 1 _ false _

theorem EngineMoved.ctxSwitchStep {me : PeId} {pe : Pe} {e : Effect} (h : ctxSwitchStep me pe = some e) :
    EngineMoved pe e.pe := by
  obtain ⟨_, _, _, _, _, _, hpe⟩ := ctxSwitchStep_cases h
  rcases hpe with hpe | ⟨_, _, _, _, hpe⟩ | ⟨_, _, hpe⟩ | ⟨op, off, n, hpe⟩ <;> rw [hpe]
  · exact .refl _
  · exact .refl _
  · exact .refl _
  · exact .issueCommand op off n pe

theorem EngineMoved.transferStep {me : PeId} {pe : Pe} {e : Effect} (h : transferStep me pe = some e) :
    EngineMoved pe e.pe := by
  obtain ⟨x, hphase, hx, _, h⟩ := transferStep_enabled h
  have hsome : pe.xfer.isSome = true := by simp [hx]
  obtain ⟨_, ⟨_, _, _, rfl⟩, rfl | ⟨code, rfl⟩ | ⟨_, _, _, rfl⟩ | ⟨_, _, _, rfl⟩⟩ := chunkStepA_cases h
  · exact .refl _
  · exact EngineMoved.endXfer hphase code
  · exact EngineMoved.with_xfer hsome _
  · exact EngineMoved.with_xfer hsome _

theorem EngineMoved.chunkResponse (bytes : List Byte) (pe : Pe) : EngineMoved pe (chunkResponse bytes pe) := by
  rcases chunkResponse_cases bytes pe with hc | ⟨x, hphase, hx, _, _, ⟨code, hc⟩ | ⟨m, hc, _⟩⟩ <;> rw [hc]
  · exact .refl _
  · exact .endXfer hphase code
  · simp only [advanceChunk]
    split
    · exact EngineMoved.endXfer hphase errNone
    · exact EngineMoved.with_xfer (by simp [hx]) _

theorem EngineMoved.grantCredit (c : EpId) (pe : Pe) : EngineMoved pe (grantCredit c pe) := by
  rcases grantCredit_cases c pe with ⟨_, _, h⟩ | h <;> rw [h]
  · exact .refl _
  · exact .receiveError (engineView pe) _ _

theorem EngineMoved.receiveMessage (hd : PacketHead) (payload : List Byte) (pe : Pe) :
    EngineMoved pe (receiveMessage hd payload pe).pe := by
  rcases receiveMessage_cases hd payload pe with hr | ⟨g, hg, hr⟩ <;> rw [hr]
  · exact .receiveError (engineView pe) _ _
  · have hgrant : EngineMoved pe g := by
      rcases hg with rfl | rfl
      · exact .refl _
      · exact .grantCredit ..
    refine EngineMove.trans hgrant ?_
    rcases acceptMessage_cases hd payload g with ⟨_, _, ha⟩ | ⟨_, _, _, _, ha⟩ <;> rw [ha]
    · exact .receiveError (engineView g) _ _
    · exact .refl _

/-- Every step of a PE does to the engine's part what its moves do: the execute steps leave EXEC_PENDING, a transfer ends or
goes on, and the steps that are the Memory Unit's, the Translation Unit's or the environment's leave it. -/
theorem PeStep.engineMoved {ev : Event} {me : PeId} {pe : Pe} {e : Effect} (h : PeStep ev me pe e) : EngineMoved pe e.pe := by
  cases h with
  | same _ hpe => exact .of_eq (by rw [hpe])
  | write i v => exact .regWrite ..
  | send _ _ ep hexec =>
    rcases sendExecute_cases ep me pe with ⟨_, hx⟩ | ⟨_, _, _, hx⟩ <;> rw [hx]
    · exact .complete (engineView pe) hexec
    · exact .startTransfer (engineView pe) hexec
  | reply ep hexec =>
    rcases replyExecute_cases ep me pe with ⟨_, hx⟩ | ⟨_, _, _, _, _, _, hx⟩ <;> rw [hx]
    · exact .complete (engineView pe) hexec
    · exact .startTransfer (engineView pe) hexec
  | memory ty pm ep hexec =>
    rcases memoryExecute_cases ty pm ep pe with ⟨_, hx⟩ | ⟨_, _, _, hx | ⟨_, hx⟩⟩ <;> rw [hx]
    · exact .complete (engineView pe) hexec
    · exact .complete (engineView pe) hexec
    · exact .startTransfer (engineView pe) hexec
  | incReadPtr ep hexec =>
    rcases incReadPtrExecute_cases ep pe with ⟨_, hx⟩ | ⟨_, _, hx⟩ <;> rw [hx] <;> exact .complete (engineView pe) hexec
  | wakeupCore hexec | reserved7 hexec => exact .complete (engineView pe) hexec
  | finish hfinish => exact .finish (engineView pe) pe.result hfinish
  | transfer _ ht => exact .transferStep ht
  | ctxSwitch _ _ _ hc => exact .ctxSwitchStep hc
  | receive _ _ hd payload => exact .receiveMessage ..
  | chunkResponse bytes => exact .chunkResponse ..
  | serveWrite hd payload =>
    rcases serveWrite_cases hd payload pe with hx | ⟨_, _, hx⟩ <;> rw [hx] <;> exact .refl _
  | cacheResponse bytes =>
    obtain ⟨_, hx⟩ := cacheResponse_frame me bytes pe
    rw [hx]
    exact .refl _
  | store _ _ _ hw =>
    obtain ⟨_, rfl⟩ := memWrite_eq_some.1 hw
    exact .refl _
  | coreWaiting | accelStateSize => exact .refl _
  | accelContext _ _ _ ha =>
    obtain ⟨_, _, _, rfl⟩ := accelContextEffect_eq_some ha
    exact .refl _
  | cacheRequest _ _ _ ha =>
    obtain ⟨_, rfl⟩ := acceptCacheRequest_frame ha
    exact .refl _
  | cacheTranslate _ _ ht =>
    obtain ⟨_, _, _, _, ⟨_, _, _, rfl⟩, rfl | rfl | ⟨_, rfl⟩⟩ := cacheTranslateStep_cases ht <;> exact .refl _
  | walkAnswer _ _ _ ha =>
    obtain ⟨_, _, _, _, rfl⟩ := walkAnswered_frame ha
    exact .refl _

end Sys2Proof.Machine
end

section
/-! SUPPORT. The life cycle of a command (40_command_engine.md R200 to R208), an equation for each of its steps: a write of the
command group, the Command Engine's execute and finish steps, and the execute steps of the commands that the engine performs
itself (R210 to R216); and what one such step, first in the agenda, makes of the system. -/

namespace Sys2Proof.Machine

/-! ### A write of the command group (R200, R202) -/

/-- While a command runs, a write of the command group only sets REJECTED. -/
theorem regWrite_running {pe : Pe} (h : pe.cmdInProgress = true) (v : Word) (priv : Bool) {i : Nat} (hlo : 1 ≤ i)
    (hhi : i ≤ 6) : regWrite i v priv pe = setRejected pe := by
  have argument : ∀ stored, writeArgument pe stored = setRejected pe := fun _ => if_pos h
  interval_cases i
  · exact if_pos h
  all_goals exact argument _

theorem writeArgument_idle {pe : Pe} (h : pe.cmdInProgress = false) (stored : Pe) : writeArgument pe stored = stored :=
  if_neg (by simp [h])

theorem writeCommand_idle {pe : Pe} (h : pe.cmdInProgress = false) (v : Word) :
    writeCommand v pe =
      if opcodeOf v = 0#3 then { pe with command := commandWord (opcodeOf v) (epIdOf v) errNone }
      else startCommand { pe with command := commandWord (opcodeOf v) (epIdOf v) errNone } :=
  if_neg (by simp [h])

/-- What the start of a command latches (R51): of CMD_REPLY_EP only bits 7:0. -/
theorem latchCommand_commandWord (pe : Pe) (op : BitVec 3) (ep : EpId) :
    latchCommand { pe with command := commandWord op ep errNone } =
      { opcode := op, epId := ep, dataAddr := pe.cmdDataAddr, dataSize := pe.cmdDataSize, offset := pe.cmdOffset
        replyEp := pe.cmdReplyEp.setWidth 8, replyLabel := pe.cmdReplyLabel } := by
  simp [latchCommand, fieldAt, BitVec.setWidth_eq_extractLsb']

/-- A PE whose command of an opcode and an endpoint id was started by the write of its word. -/
def commandStarted (op : BitVec 3) (ep : EpId) (pe : Pe) : Pe :=
  startCommand { pe with command := commandWord op ep errNone }

@[simp] theorem commandStarted_opcode (op : BitVec 3) (ep : EpId) (pe : Pe) : (commandStarted op ep pe).cur.opcode = op :=
  opcodeOf_commandWord op ep errNone

@[simp] theorem commandStarted_epId (op : BitVec 3) (ep : EpId) (pe : Pe) : (commandStarted op ep pe).cur.epId = ep :=
  epIdOf_commandWord op ep errNone

theorem regWrite_commandWord {pe : Pe} {op : BitVec 3} (h : pe.cmdInProgress = false) (hop : op ≠ 0#3) (ep : EpId)
    (priv : Bool) : regWrite 1 (commandWord op ep errNone) priv pe = commandStarted op ep pe := by
  refine (writeCommand_idle h _).trans ?_
  rw [opcodeOf_commandWord, epIdOf_commandWord, if_neg hop, commandStarted]

theorem regWrite_idleWord {pe : Pe} (h : pe.cmdInProgress = false) (ep : EpId) (priv : Bool) :
    regWrite 1 (commandWord 0#3 ep errNone) priv pe = { pe with command := commandWord 0#3 ep errNone } := by
  refine (writeCommand_idle h _).trans ?_
  rw [opcodeOf_commandWord, epIdOf_commandWord, if_pos rfl]

/-! ### The Command Engine's steps (R203, R207, R208) -/

theorem step_engine {s : State} {p : Nat} (h : nextEvent s = .engine p) : step s = stepEngine (takeEvent s) p := by
  rw [step, h]
  rfl

/-- The execute step runs the latched command. -/
theorem stepEngine_execute {s : State} {p : Nat} {pe : Pe} (hp : s.pes[p]? = some pe) (h : pe.phase = .execPending) :
    stepEngine s p = exec (commandOf pe.cur.opcode pe.cur.epId) { s with active := p } := by
  simp [stepEngine, hp, h, latchedWord]

theorem stepEngine_finish {s : State} {p : Nat} {pe : Pe} (hp : s.pes[p]? = some pe) (h : pe.phase = .finishPending) :
    stepEngine s p = .next (commit s p (finishCommand (peId p) pe)) := by
  simp [stepEngine, hp, h, engineFinish]

theorem wakesOnFinish_iff (pe : Pe) :
    wakesOnFinish pe = true ↔ pe.cur.opcode = 6#3 ∨ (pe.cfg.wakeupOnCompletion = true ∧ pe.coreWaiting = true) := by
  simp [wakesOnFinish]

/-- The finish step emits its pulse, once, exactly where R208 asks for it. -/
theorem finishCommand_outputs_iff (me : PeId) (pe : Pe) :
    (finishCommand me pe).outputs = [.wakeup me] ↔
      pe.cur.opcode = 6#3 ∨ (pe.cfg.wakeupOnCompletion = true ∧ pe.coreWaiting = true) := by
  rw [← wakesOnFinish_iff]
  simp [finishCommand]

/-! ### The engine's own commands (R210 to R216) -/

theorem exec_wakeupCore {s : State} {pe : Pe} (ep : EpId) (hp : s.pes[s.active]? = some pe) :
    exec (.wakeupCore ep) s = .next (commit s s.active { pe := completeCommand pe }) :=
  onActive_some (fun _ pe => completeCommand pe) hp

theorem exec_reserved7 {s : State} {pe : Pe} (ep : EpId) (hp : s.pes[s.active]? = some pe) :
    exec (.reserved7 ep) s = .next (commit s s.active { pe := failCommand errUnknownCmd pe }) :=
  onActive_some (fun _ pe => failCommand errUnknownCmd pe) hp

theorem exec_incReadPtr {s : State} {pe : Pe} (ep : EpId) (hp : s.pes[s.active]? = some pe) :
    exec (.incReadPtr ep) s = .next (commit s s.active { pe := incReadPtrExecute ep pe }) :=
  onActive_some (fun _ pe => incReadPtrExecute ep pe) hp

theorem incReadPtrExecute_not_receive {pe : Pe} {ep : EpId} (h : isRecv pe ep = false) :
    incReadPtrExecute ep pe = failCommand errInvEp pe := by
  simp [incReadPtrExecute, h]

theorem incReadPtrExecute_receive {pe : Pe} {ep : EpId} {e : Endpoint} (he : pe.eps[ep.toNat]? = some e)
    (hrecv : epType e = 2#3) :
    incReadPtrExecute ep pe =
      if epMsgCount e = 0#16 then failCommand errNoMessage pe else completeCommand (setEp pe ep (advanceReadPtr e)) := by
  simp [incReadPtrExecute, isRecv_eq he, epAt_eq he, hrecv]

@[simp] theorem epRdPtr_advanceReadPtr (e : Endpoint) :
    epRdPtr (advanceReadPtr e) = wrapInc (epRdPtr e) (epNumSlots e) := by
  rw [epRdPtr, advanceReadPtr, putMsgCount_credit, fieldAt_putField_apart _ _ _ _ _ (by omega), putRdPtr_credit,
    fieldAt_putField_same _ _ _ (by omega)]

@[simp] theorem epWrPtr_advanceReadPtr (e : Endpoint) : epWrPtr (advanceReadPtr e) = epWrPtr e := by
  rw [epWrPtr, advanceReadPtr, putMsgCount_credit, fieldAt_putField_apart _ _ _ _ _ (by omega), putRdPtr_credit,
    fieldAt_putField_apart _ _ _ _ _ (by omega), epWrPtr]

@[simp] theorem epMsgCount_advanceReadPtr (e : Endpoint) : epMsgCount (advanceReadPtr e) = epMsgCount e - 1#16 := by
  rw [epMsgCount, advanceReadPtr, putMsgCount_credit, fieldAt_putField_same _ _ _ (by omega)]

/-! ### Commands that the engine ends at once (R214, R216, R212) -/

/-- WAKEUP_CORE, opcode 7, and INC_READ_PTR on no RECEIVE endpoint, each with the error it ends with. -/
def EndsAtOnce (pe : Pe) (op : BitVec 3) (ep : EpId) (code : ErrorCode) : Prop :=
  (op = 6#3 ∧ code = 0#8) ∨ (op = 7#3 ∧ code = 1#8) ∨ (op = 5#3 ∧ isRecv pe ep = false ∧ code = 2#8)

theorem EndsAtOnce.opcode_ne {pe : Pe} {op : BitVec 3} {ep : EpId} {code : ErrorCode} (h : EndsAtOnce pe op ep code) :
    op ≠ 0#3 := by
  rcases h with ⟨rfl, _⟩ | ⟨rfl, _⟩ | ⟨rfl, _⟩ <;> decide

/-- The execute step of such a command does nothing else. -/
theorem EndsAtOnce.exec {s : State} {pe : Pe} {op : BitVec 3} {ep : EpId} {code : ErrorCode} (h : EndsAtOnce pe op ep code)
    (hp : s.pes[s.active]? = some pe) :
    exec (commandOf op ep) s = .next (commit s s.active { pe := failCommand code pe }) := by
  rcases h with ⟨rfl, rfl⟩ | ⟨rfl, rfl⟩ | ⟨rfl, hrecv, rfl⟩
  · exact exec_wakeupCore ep hp
  · exact exec_reserved7 ep hp
  · exact incReadPtrExecute_not_receive hrecv ▸ exec_incReadPtr ep hp

/-- BUSY set by the start of a command and cleared by its finish is as before, where it was 0. -/
theorem putBit_busy_restored {w : Word} (h : statusBusy w = false) : putBit (putBit w 0 true) 0 false = w := by
  apply BitVec.eq_of_getLsbD_eq
  intro k _
  rw [getLsbD_putBit _ _ _ _ (by omega), getLsbD_putBit _ _ _ _ (by omega)]
  split
  · rename_i hk
    subst k
    exact h.symm
  · rfl

/-- An idle PE after a command was started, ended at once and finished. -/
theorem finish_ended_started {pe : Pe} (hok : engineOk pe) (hidle : pe.phase = .idle) (me : PeId) (op : BitVec 3) (ep : EpId)
    (code : ErrorCode) :
    (finishCommand me (failCommand code (commandStarted op ep pe))).pe =
      { pe with command := commandWord 0#3 ep code, cur := (commandStarted op ep pe).cur, result := code } := by
  obtain ⟨hphase, hbusy, _⟩ := hok
  have hrun : pe.cmdInProgress = false := by simpa [hidle] using hphase
  have hstatus := putBit_busy_restored (hbusy.trans hrun)
  simp [finishCommand, setBusy, failCommand, commandStarted, startCommand, finishedCommand_commandWord, hstatus, hrun, hidle]

/-! ### Steps of an agenda while no access in progress has stored -/

/-- An event that is no part of an access lets no access in progress store ahead of its step. -/
theorem accessesAfter_stored {e : Event} {s : State} (he : ∀ p r bytes, e ≠ .accessPart p r bytes)
    (h : ∀ o ∈ s.accesses, o.stored = []) : ∀ o ∈ accessesAfter e s, o.stored = [] := by
  rcases accessesAfter_cases e s with h1 | ⟨p, r, pe, agent, _, _, _, h1 | ⟨bytes, hpart, _⟩⟩
  · rwa [h1]
  · intro o' ho'
    rw [h1] at ho'
    obtain ⟨o, ho, hover⟩ := mem_overlapAll ho'
    obtain ⟨_, _, hstored, _⟩ := overlap_cases hover
    exact hstored.trans (h o ho)
  · exact absurd hpart (he p r bytes)

/-- One step, of the PE at place `p`, takes the system from `s` to `t`, with the rest of the agenda next and no access in
progress that has stored. -/
structure Took (s : State) (p : Nat) (e : Effect) (rest : List Event) (t : State) : Prop where
  step : step s = .next t
  pes : t.pes = s.pes.set p e.pe
  requests : t.requests = s.requests ++ e.requests
  responses : t.responses = s.responses ++ e.responses
  outputs : t.outputs = e.outputs
  agenda : t.agenda = rest
  stored : ∀ o ∈ t.accesses, o.stored = []

/-- The step of the agenda's first event, where it is a step of one PE. -/
theorem took_of_runEvent {s : State} {ev : Event} {rest : List Event} {p a : Nat} {e : Effect}
    (hagenda : s.agenda = ev :: rest) (hstored : ∀ o ∈ s.accesses, o.stored = [])
    (hev : ∀ p r bytes, ev ≠ .accessPart p r bytes)
    (h : runEvent ev s.accesses (takeEvent s) = .next (commit { takeEvent s with active := a } p e)) :
    Took s p e rest (commit { takeEvent s with active := a } p e) := by
  obtain ⟨hnext, htaken⟩ := takeEvent_cons hagenda (pressed_of_stored hstored)
  refine ⟨by rw [Machine.step, hnext]; exact h, ?_, ?_, ?_, ?_, ?_, ?_⟩
  · rw [commit_pes, takeEvent_pes]
  · rw [commit_requests, takeEvent_requests]
  · rw [commit_responses, takeEvent_responses]
  · rw [commit_outputs, takeEvent_outputs, List.nil_append]
  · rw [commit_agenda, htaken]
  · rw [commit_accesses, takeEvent_accesses, hnext]
    exact accessesAfter_stored hev hstored

/-- A client's write of a command word by an idle PE starts the command. -/
theorem took_commandWrite {s : State} {p : Nat} {pe : Pe} {rest : List Event} {op : BitVec 3} {ep : EpId} {priv : Bool}
    (hagenda : s.agenda = .clientWrite p (regAddr pe 1) 8 (commandWord op ep errNone) priv :: rest)
    (hstored : ∀ o ∈ s.accesses, o.stored = []) (hp : s.pes[p]? = some pe) (hidle : pe.cmdInProgress = false)
    (hop : op ≠ 0#3) :
    ∃ t, Took s p { pe := commandStarted op ep pe } rest t := by
  refine ⟨_, took_of_runEvent (a := (takeEvent s).active) hagenda hstored nofun ?_⟩
  rw [← regWrite_commandWord hidle hop ep priv, runEvent, stepClientWrite_regAddr _ _ (by rwa [takeEvent_pes]) (by omega),
    if_neg (by simpa using hop)]

theorem took_execute {s : State} {p : Nat} {pe : Pe} {rest : List Event} {code : ErrorCode}
    (hagenda : s.agenda = .engine p :: rest) (hstored : ∀ o ∈ s.accesses, o.stored = []) (hp : s.pes[p]? = some pe)
    (hphase : pe.phase = .execPending) (hends : EndsAtOnce pe pe.cur.opcode pe.cur.epId code) :
    ∃ t, Took s p { pe := failCommand code pe } rest t := by
  have htaken : (takeEvent s).pes[p]? = some pe := by rwa [takeEvent_pes]
  refine ⟨_, took_of_runEvent (a := p) hagenda hstored nofun ?_⟩
  rw [runEvent, stepEngine_execute htaken hphase]
  exact hends.exec (s := { takeEvent s with active := p }) htaken

theorem took_finish {s : State} {p : Nat} {pe : Pe} {rest : List Event} (hagenda : s.agenda = .engine p :: rest)
    (hstored : ∀ o ∈ s.accesses, o.stored = []) (hp : s.pes[p]? = some pe) (hphase : pe.phase = .finishPending) :
    ∃ t, Took s p (finishCommand (peId p) pe) rest t := by
  refine ⟨_, took_of_runEvent (a := (takeEvent s).active) hagenda hstored nofun ?_⟩
  rw [runEvent, stepEngine_finish (by rwa [takeEvent_pes]) hphase]

end Sys2Proof.Machine
end

section
/-! PROOFS. The statements about the Command Engine (40_command_engine.md). -/

namespace Sys2Proof.Machine

/-- Settles O48: a step of a PE is moves of the engine, each of which keeps the invariant and the reserved bits, and local
memory is no part of either. -/
theorem engineInvariantIsKept : Obligations.EngineInvariantIsKept := by
  intro s t h
  exact ⟨fun hs => everyPe_step (fun _ _ _ _ hok hstep => hstep.engineMoved.ok hok) (fun _ _ hok _ => hok) hs h,
    fun hs => everyPe_step (fun _ _ _ _ hok hstep => hstep.engineMoved.reservedOk hok) (fun _ _ hok _ => hok) hs h⟩

/-- Settles O9: the word stored is the command word of the opcode and the endpoint id that were written. -/
theorem commandGroupWrites : Obligations.CommandGroupWrites := by
  intro pe v priv
  refine ⟨fun hrun i hlo hhi => regWrite_running hrun v priv hlo hhi, fun hidle => ?_⟩
  have argument : ∀ stored, writeArgument pe stored = stored := writeArgument_idle hidle
  refine ⟨argument _, argument _, argument _, argument _, argument _,
    commandWord (opcodeOf v) (epIdOf v) errNone, getLsbD_commandWord_written v, ?_⟩
  refine (writeCommand_idle hidle v).trans (if_congr Iff.rfl rfl ?_)
  rw [startCommand, latchCommand_commandWord]
  rfl

/-- Settles O19: the two checks in their order, and the fields of the endpoint after them. -/
theorem incReadPtrAdvancesTheRing : Obligations.IncReadPtrAdvancesTheRing := by
  intro s pe ep hp
  rw [exec_incReadPtr ep hp]
  refine ⟨fun hnot => by rw [incReadPtrExecute_not_receive hnot]; rfl, fun e he hrecv => ?_⟩
  rw [incReadPtrExecute_receive he hrecv]
  refine ⟨fun hempty => by rw [if_pos hempty]; rfl, fun hmsg => ?_⟩
  have hwrite : EngineWrite e (advanceReadPtr e) := .readPtr hrecv hmsg
  obtain ⟨h0, h1, h2⟩ := hwrite.config_eq
  refine ⟨advanceReadPtr e, by rw [if_neg hmsg]; rfl, h0, h1, h2, ?_, ?_, epWrPtr_advanceReadPtr e,
    fun k hk => hwrite.receive_bits hrecv hk⟩
  · rw [epRdPtr_advanceReadPtr, wrapInc_toNat]
  · rw [epMsgCount_advanceReadPtr]
    bv_omega

/-- Settles O21: the finish step is the engine's, COMMAND is read bit by bit, and the example by evaluation. -/
theorem finishStepReports : Obligations.FinishStepReports := by
  refine ⟨fun s p pe ⟨hnext, hp⟩ hphase => ⟨finishedCommand pe.command pe.result, ?_, getLsbD_finishedCommand _ _⟩,
    by decide⟩
  rw [step_engine hnext, stepEngine_finish (by rwa [takeEvent_pes]) hphase]
  simp only [finishCommand, wakesOnFinish_iff]
  rfl

/-- Settles O60: three steps of the PE, the write that starts the command, its execute step and its finish step. -/
theorem shortCommandsComplete : Obligations.ShortCommandsComplete := by
  intro s p pe op ep code priv hagenda hstored hp hok hidle hends
  replace hends : EndsAtOnce pe op ep code := hends
  have hrun : pe.cmdInProgress = false := by simpa [hidle] using hok.1
  rw [← commandWord_errNone] at hagenda
  obtain ⟨t1, h1⟩ := took_commandWrite hagenda hstored hp hrun hends.opcode_ne
  have hp1 : t1.pes[p]? = some (commandStarted op ep pe) := h1.pes ▸ pes_set_get hp _
  have hends1 : EndsAtOnce (commandStarted op ep pe) (commandStarted op ep pe).cur.opcode (commandStarted op ep pe).cur.epId
      code := by
    rw [commandStarted_opcode, commandStarted_epId]
    exact hends
  obtain ⟨t2, h2⟩ := took_execute h1.agenda h1.stored hp1 rfl hends1
  have hp2 : t2.pes[p]? = some (failCommand code (commandStarted op ep pe)) := h2.pes ▸ pes_set_get hp1 _
  obtain ⟨t3, h3⟩ := took_finish h2.agenda h2.stored hp2 rfl
  refine ⟨t3, _, (commandStarted op ep pe).cur, ?_, ?_, h3.agenda, ?_, ?_, rfl, ?_⟩
  · rw [run_succ h1.step, run_succ h2.step, run_succ h3.step, run_zero]
  · rw [h3.pes, h2.pes, h1.pes, List.set_set, List.set_set, finish_ended_started hok hidle, commandWord_eq_or]
    simp
  · simp [h3.requests, h2.requests, h1.requests, finishCommand]
  · simp [h3.responses, h2.responses, h1.responses, finishCommand]
  · rw [h3.outputs, finishCommand_outputs_iff, failCommand_cur, commandStarted_opcode]
    rfl

/-- Settles O10: the word is decoded to the command of its two fields, and the request leaves the transport. -/
theorem stepRunsTheDecodedInstruction : Obligations.StepRunsTheDecodedInstruction := by
  refine ⟨fun s p pe i ⟨hnext, hp⟩ hphase hdecode => ?_, fun s k bytes i hnext hbytes hdecode => ?_⟩
  · obtain rfl : commandOf pe.cur.opcode pe.cur.epId = i :=
      Except.ok.inj ((decode_commandBytes pe.cur.opcode pe.cur.epId).symm.trans hdecode)
    rw [step_engine hnext, stepEngine_execute (by rwa [takeEvent_pes]) hphase]
  · rw [step, hnext, runEvent, stepDeliverRequest, takeEvent_requests, hbytes]
    simp only [hdecode]

/-- Settles O12: IDLE is the write of its word to COMMAND. -/
theorem idleStoresItsWord : Obligations.IdleStoresItsWord := by
  intro s pe ep hp
  rw [exec_idle ep false, onActive_some _ hp]
  split
  · rename_i hrun
    rw [regWrite_running hrun _ _ (by omega) (by omega)]
    rfl
  · rename_i hidle
    rw [regWrite_idleWord (by simpa using hidle), commandWord_errNone]
    simp

/-- Settles O20: neither execute step looks at the endpoint id. -/
theorem wakeupCoreAndOpcode7End : Obligations.WakeupCoreAndOpcode7End :=
  fun _ _ ep hp => ⟨exec_wakeupCore ep hp, exec_reserved7 ep hp⟩

end Sys2Proof.Machine
end

section
/-! SUPPORT. The Message Unit (41_message_unit.md), an equation for each of its steps: what is left of CREDITS, the checks of SEND
and of REPLY in their order and the transfers they start, and the receipt of a MESSAGE, whose grant leaves every RECEIVE endpoint
as it was. -/

namespace Sys2Proof.Machine

/-! ### Credits (R240, R252, R261) -/

@[simp] theorem epCredits_putCredits (e : Endpoint) (v : BitVec 16) : epCredits (putCredits e v) = v := by
  rw [epCredits, putCredits_credit, fieldAt_putField_same _ _ _ (by omega)]

@[simp] theorem epMaxCredits_putCredits (e : Endpoint) (v : BitVec 16) : epMaxCredits (putCredits e v) = epMaxCredits e := by
  rw [epMaxCredits, putCredits_credit, fieldAt_putField_apart _ _ _ _ _ (by omega), epMaxCredits]

theorem epCredits_spendCredit_toNat {e : Endpoint} (h : epCredits e ≠ 0#16) :
    (epCredits (spendCredit e)).toNat + 1 = (epCredits e).toNat := by
  rw [spendCredit, epCredits_putCredits]
  bv_omega

/-- Below its limit a credit is added without wrap. -/
theorem epCredits_granted_toNat {e : Endpoint} (h : (epCredits e).toNat < (epMaxCredits e).toNat) :
    (epCredits (putCredits e (epCredits e + 1#16))).toNat = (epCredits e).toNat + 1 := by
  have hmax := (epMaxCredits e).isLt
  rw [epCredits_putCredits]
  bv_omega

theorem EngineWrite.send_maxCredits_eq {e e' : Endpoint} (h : EngineWrite e e') (hsend : epType e = 1#3) :
    epMaxCredits e' = epMaxCredits e := by
  cases h with
  | kept => rfl
  | spend | grant => exact epMaxCredits_putCredits e _
  | readPtr hrecv | writePtr hrecv => simp [hsend] at hrecv

/-- Of a SEND endpoint the engines leave `CREDITS`, take one, or add one below the limit. -/
theorem EngineWrite.send_credits {e e' : Endpoint} (h : EngineWrite e e') (hsend : epType e = 1#3) :
    (epCredits e').toNat = (epCredits e).toNat ∨ (epCredits e').toNat + 1 = (epCredits e).toNat ∨
      ((epCredits e').toNat = (epCredits e).toNat + 1 ∧ (epCredits e).toNat < (epMaxCredits e).toNat) := by
  cases h with
  | kept => exact .inl rfl
  | spend _ hcredit => exact .inr (.inl (epCredits_spendCredit_toNat hcredit))
  | grant _ hroom => exact .inr (.inr ⟨epCredits_granted_toNat hroom, hroom⟩)
  | readPtr hrecv | writePtr hrecv => simp [hsend] at hrecv

/-! ### SEND (R241, R243) -/

theorem exec_send {s : State} {pe : Pe} (ep : EpId) (hp : s.pes[s.active]? = some pe) :
    exec (.send ep) s = .next (commit s s.active { pe := sendExecute ep (peId s.active) pe }) :=
  onActive_some (sendExecute ep) hp

theorem sendExecute_not_send {pe : Pe} {ep : EpId} (me : PeId) (h : isSend pe ep = false) :
    sendExecute ep me pe = failCommand errInvEp pe := by
  simp [sendExecute, h]

theorem sendExecute_send {pe : Pe} {ep : EpId} {e : Endpoint} (me : PeId) (he : pe.eps[ep.toNat]? = some e)
    (hsend : epType e = 1#3) :
    sendExecute ep me pe =
      if epCredits e = 0#16 then failCommand errNoCredits pe
      else if min (epMaxMsgSize e).toNat pe.cfg.chunkLimit < 24 + pe.cur.dataSize.toNat then
        failCommand errMsgTooLarge pe
      else
        startXfer (messageXfer pe (epTargetPe e) (epTargetEp e) (sendHeader me ep pe)) (setEp pe ep (spendCredit e)) := by
  simp [sendExecute, isSend_eq he, epAt_eq he, hsend, headerSize]

theorem sendHeader_eq {pe : Pe} {ep : EpId} {e : Endpoint} (me : PeId) (he : pe.eps[ep.toNat]? = some e) :
    sendHeader me ep pe =
      { reply := false, grantCredits := false, replyEnabled := true, senderEpId := ep, replyEpId := pe.cur.replyEp
        length := pe.cur.dataSize.setWidth 16, senderCoreId := me, label := e.cfg1, replyLabel := pe.cur.replyLabel } := by
  rw [sendHeader, epAt_eq he, epLabel]

/-- The size of a message's transfer as a 64-bit word: its header and its payload. -/
theorem messageXfer_eq (pe : Pe) (dstPe : PeId) (dstEp : EpId) (hdr : MessageHeader) :
    messageXfer pe dstPe dstEp hdr =
      { type := .localRead, kind := .msg, localAddr := pe.cur.dataAddr, remotePe := dstPe, remoteEp := dstEp
        remoteAddr := 0, size := 24#64 + pe.cur.dataSize, done := 0, chunkIndex := 0, header := some hdr
        chunkState := .translate, pas := [] } := by
  simp [messageXfer, headerSize, BitVec.ofNat_add]

/-- The transfer that a SEND started is that of its header. -/
theorem sendExecute_xfer {ep : EpId} {me : PeId} {pe : Pe} (h : (sendExecute ep me pe).phase = .xfer) :
    (sendExecute ep me pe).xfer =
      some (messageXfer pe (epTargetPe (epAt pe ep)) (epTargetEp (epAt pe ep)) (sendHeader me ep pe)) := by
  rcases sendExecute_cases ep me pe with ⟨_, hfail⟩ | ⟨_, _, _, hstart⟩
  · rw [hfail, failCommand_phase] at h
    cases h
  · rw [hstart, startXfer_xfer]

/-! ### REPLY (R245, R247) -/

theorem exec_reply {s : State} {pe : Pe} (ep : EpId) (hp : s.pes[s.active]? = some pe) :
    exec (.reply ep) s = .next (commit s s.active { pe := replyExecute ep (peId s.active) pe }) :=
  onActive_some (replyExecute ep) hp

theorem replyExecute_not_receive {pe : Pe} {ep : EpId} (me : PeId) (h : isRecv pe ep = false) :
    replyExecute ep me pe = failCommand errInvEp pe := by
  simp [replyExecute, h]

/-- The header stored in the slot that a REPLY names (R245). -/
def originalHeader (pe : Pe) : MessageHeader := decHdr (readBytes pe.mem pe.cur.offset.toNat 24)

theorem replyExecute_receive {pe : Pe} {ep : EpId} {e : Endpoint} (me : PeId) (he : pe.eps[ep.toNat]? = some e)
    (hrecv : epType e = 2#3) :
    replyExecute ep me pe =
      if pe.cfg.chunkLimit < 24 + pe.cur.dataSize.toNat then failCommand errMsgTooLarge pe
      else if isSlot e pe.cur.offset = false then failCommand errInvReply pe
      else if pe.cfg.memSize < pe.cur.offset.toNat + 24 then failCommand errMemOutOfBounds pe
      else if (originalHeader pe).replyEnabled = false then failCommand errInvReply pe
      else
        startXfer
          (messageXfer pe (originalHeader pe).senderCoreId (originalHeader pe).replyEpId
            (replyHeader me ep pe (originalHeader pe))) pe := by
  by_cases hmem : pe.cfg.memSize < pe.cur.offset.toNat + 24
  · have hread : memRead pe pe.cur.offset.toNat 24 = none := memRead_eq_none.2 ⟨by decide, hmem⟩
    simp [replyExecute, isRecv_eq he, epAt_eq he, hrecv, hread, hmem, headerSize]
  · have hread : memRead pe pe.cur.offset.toNat 24 = some (readBytes pe.mem pe.cur.offset.toNat 24) :=
      memRead_eq_some.2 ⟨.inr (by omega), rfl⟩
    have horig : decHdr (readBytes pe.mem pe.cur.offset.toNat 24) = originalHeader pe := rfl
    simp [replyExecute, isRecv_eq he, epAt_eq he, hrecv, hread, hmem, headerSize, horig]

/-- The transfer that a REPLY started is that of its header, built from the one stored. -/
theorem replyExecute_xfer {ep : EpId} {me : PeId} {pe : Pe} (h : (replyExecute ep me pe).phase = .xfer) :
    (replyExecute ep me pe).xfer =
      some (messageXfer pe (originalHeader pe).senderCoreId (originalHeader pe).replyEpId
        (replyHeader me ep pe (originalHeader pe))) := by
  rcases replyExecute_cases ep me pe with ⟨_, hfail⟩ | ⟨r, hread, _, _, _, _, hstart⟩
  · rw [hfail, failCommand_phase] at h
    cases h
  · obtain ⟨_, rfl⟩ := memRead_eq_some.1 hread
    rw [hstart, startXfer_xfer]
    rfl

/-! ### STATUS after a receive error (R256) -/

theorem getLsbD_recordRecvErr (w : Word) (code : ErrorCode) (ep : EpId) (k : Nat) :
    (recordRecvErr w code ep).getLsbD k =
      if k = 2 then true
      else if 8 ≤ k ∧ k < 16 then code.getLsbD (k - 8)
      else if 16 ≤ k ∧ k < 24 then ep.getLsbD (k - 16)
      else w.getLsbD k := by
  simp only [recordRecvErr, getLsbD_putField, getLsbD_putBit _ 2 k true (by omega)]
  grind

/-! ### The grant (R252) -/

theorem grantCredit_below {pe : Pe} {c : EpId} {e : Endpoint} (he : pe.eps[c.toNat]? = some e) (hsend : epType e = 1#3)
    (hroom : (epCredits e).toNat < (epMaxCredits e).toNat) :
    grantCredit c pe = setEp pe c (putCredits e (epCredits e + 1#16)) := by
  simp [grantCredit, isSend_eq he, epAt_eq he, hsend, hroom]

theorem grantCredit_unexpected {pe : Pe} {c : EpId}
    (h : isSend pe c = false ∨ (epMaxCredits (epAt pe c)).toNat ≤ (epCredits (epAt pe c)).toNat) :
    grantCredit c pe = recvError errUnexpectedCredit c pe := by
  rcases h with h | h <;> simp [grantCredit, h]

/-- A credit return leaves every RECEIVE endpoint as it was. -/
theorem grantCredit_keeps_receive (c : EpId) {pe : Pe} {n : Nat} {e : Endpoint} (he : pe.eps[n]? = some e)
    (hrecv : epType e = 2#3) : (grantCredit c pe).eps[n]? = some e := by
  rcases grantCredit_cases c pe with ⟨hsend, _, h⟩ | h <;> rw [h]
  · have hne : c.toNat ≠ n := by
      rintro rfl
      have hty := (isSend_some hsend).2
      rw [epAt_eq he, hrecv] at hty
      cases hty
    rw [setEp_eps, List.getElem?_set_ne hne, he]
  · exact he

/-- No engine's write makes an endpoint a RECEIVE endpoint or makes one something else. -/
theorem EngineWrites.isRecv_eq {pe pe' : Pe} (h : EngineWrites pe pe') (hlen : pe'.eps.length = pe.eps.length) (n : EpId) :
    isRecv pe' n = isRecv pe n := by
  by_cases hn : n.toNat < pe.eps.length
  · have he := List.getElem?_eq_getElem hn
    have he' := List.getElem?_eq_getElem (hlen.symm ▸ hn)
    obtain ⟨hcfg, _, _⟩ := (h _ _ _ he he').config_eq
    rw [Machine.isRecv_eq he, Machine.isRecv_eq he', epType, hcfg, epType]
  · simp [isRecv, validEp, numEp, hlen, hn]

/-- The PE after the grant that a MESSAGE carries, if it carries one. -/
def afterGrant (payload : List Byte) (pe : Pe) : Pe :=
  if (decHdr payload).grantCredits then grantCredit (decHdr payload).replyEpId pe else pe

theorem afterGrant_cases (payload : List Byte) (pe : Pe) :
    afterGrant payload pe = pe ∨ afterGrant payload pe = grantCredit (decHdr payload).replyEpId pe := by
  unfold afterGrant
  split
  · exact .inr rfl
  · exact .inl rfl

theorem afterGrant_frame (payload : List Byte) (pe : Pe) :
    ∃ status eps, afterGrant payload pe = { pe with status := status, eps := eps } := by
  rcases afterGrant_cases payload pe with h | h <;> rw [h]
  · exact ⟨_, _, rfl⟩
  · exact grantCredit_frame _ pe

@[simp] theorem afterGrant_cfg (payload : List Byte) (pe : Pe) : (afterGrant payload pe).cfg = pe.cfg := by
  obtain ⟨_, _, h⟩ := afterGrant_frame payload pe
  rw [h]

@[simp] theorem afterGrant_mem (payload : List Byte) (pe : Pe) : (afterGrant payload pe).mem = pe.mem := by
  obtain ⟨_, _, h⟩ := afterGrant_frame payload pe
  rw [h]

@[simp] theorem afterGrant_coreWaiting (payload : List Byte) (pe : Pe) :
    (afterGrant payload pe).coreWaiting = pe.coreWaiting := by
  obtain ⟨_, _, h⟩ := afterGrant_frame payload pe
  rw [h]

@[simp] theorem isRecv_afterGrant (payload : List Byte) (pe : Pe) (n : EpId) :
    isRecv (afterGrant payload pe) n = isRecv pe n := by
  rcases afterGrant_cases payload pe with h | h <;> rw [h]
  exact (grantCredit_engineWrites _ pe).isRecv_eq (Kept.grantCredit _ pe).eps n

theorem afterGrant_keeps_receive (payload : List Byte) {pe : Pe} {n : Nat} {e : Endpoint} (he : pe.eps[n]? = some e)
    (hrecv : epType e = 2#3) : (afterGrant payload pe).eps[n]? = some e := by
  rcases afterGrant_cases payload pe with h | h <;> rw [h]
  · exact he
  · exact grantCredit_keeps_receive _ he hrecv

/-! ### The receipt of a MESSAGE (R250, R254, R258) -/

theorem exec_message {s : State} {pe : Pe} {h : PacketHead} (payload : List Byte) (hp : s.pes[h.dstPe.toNat]? = some pe) :
    exec (.message h payload) s = .next (commit s h.dstPe.toNat (receiveMessage h payload pe)) :=
  serveAt_some (fun _ pe => receiveMessage h payload pe) hp

theorem malformedMessage_iff (h : PacketHead) (payload : List Byte) :
    malformedMessage h payload = true ↔
      h.size.toNat < 24 ∨ (decHdr payload).length.toNat ≠ h.size.toNat - 24 := by
  rw [malformedMessage, Bool.or_eq_true, decide_eq_true_iff, decide_eq_true_iff, headerSize]

theorem receiveMessage_malformed {h : PacketHead} {payload : List Byte} (pe : Pe)
    (hbad : h.size.toNat < 24 ∨ (decHdr payload).length.toNat ≠ h.size.toNat - 24) :
    receiveMessage h payload pe = rejectMessage h errMalformed pe :=
  if_pos ((malformedMessage_iff h payload).2 hbad)

theorem receiveMessage_wellFormed {h : PacketHead} {payload : List Byte} (pe : Pe) (hsize : 24 ≤ h.size.toNat)
    (hlength : (decHdr payload).length.toNat = h.size.toNat - 24) :
    receiveMessage h payload pe = acceptMessage h payload (afterGrant payload pe) :=
  if_neg fun hbad => ((malformedMessage_iff h payload).1 hbad).elim (Nat.not_lt.2 hsize) fun hne => hne hlength

theorem acceptMessage_not_receive {h : PacketHead} (payload : List Byte) {pe : Pe} (hnot : isRecv pe h.dstEp = false) :
    acceptMessage h payload pe = rejectMessage h errRecvInvEp pe := by
  simp [acceptMessage, hnot]

theorem acceptMessage_receive {h : PacketHead} (payload : List Byte) {pe : Pe} {e : Endpoint}
    (he : pe.eps[h.dstEp.toNat]? = some e) (hrecv : epType e = 2#3) :
    acceptMessage h payload pe =
      if (epSlotSize e).toNat < h.size.toNat then rejectMessage h errMsgTooLarge pe
      else if (epNumSlots e).toNat ≤ (epMsgCount e).toNat then rejectMessage h errRecvFull pe
      else storeMessage h payload pe := by
  simp [acceptMessage, isRecv_eq he, epAt_eq he, hrecv]

theorem storeMessage_outside {h : PacketHead} {payload : List Byte} {pe : Pe} {e : Endpoint}
    (he : pe.eps[h.dstEp.toNat]? = some e) (hne : payload.length ≠ 0)
    (hout : pe.cfg.memSize < writeSlotAddr e + payload.length) :
    storeMessage h payload pe = rejectMessage h errMemOutOfBounds pe := by
  rw [storeMessage, epAt_eq he, memWrite_eq_none.2 ⟨hne, hout⟩]

theorem storeMessage_inside {h : PacketHead} {payload : List Byte} {pe : Pe} {e : Endpoint}
    (he : pe.eps[h.dstEp.toNat]? = some e) (hin : writeSlotAddr e + payload.length ≤ pe.cfg.memSize) :
    storeMessage h payload pe =
      { pe := setEp { pe with mem := writeBytes pe.mem (writeSlotAddr e) payload } h.dstEp (advanceWritePtr e)
        responses := [responseTo h errNone []]
        outputs := if pe.coreWaiting then [.wakeup h.dstPe] else [] } := by
  rw [storeMessage, epAt_eq he, memWrite_eq_some.2 ⟨.inr hin, rfl⟩]

@[simp] theorem epRdPtr_advanceWritePtr (e : Endpoint) : epRdPtr (advanceWritePtr e) = epRdPtr e := by
  rw [epRdPtr, advanceWritePtr, putMsgCount_credit, fieldAt_putField_apart _ _ _ _ _ (by omega), putWrPtr_credit,
    fieldAt_putField_apart _ _ _ _ _ (by omega), epRdPtr]

@[simp] theorem epWrPtr_advanceWritePtr (e : Endpoint) :
    epWrPtr (advanceWritePtr e) = wrapInc (epWrPtr e) (epNumSlots e) := by
  rw [epWrPtr, advanceWritePtr, putMsgCount_credit, fieldAt_putField_apart _ _ _ _ _ (by omega), putWrPtr_credit,
    fieldAt_putField_same _ _ _ (by omega)]

@[simp] theorem epMsgCount_advanceWritePtr (e : Endpoint) : epMsgCount (advanceWritePtr e) = epMsgCount e + 1#16 := by
  rw [epMsgCount, advanceWritePtr, putMsgCount_credit, fieldAt_putField_same _ _ _ (by omega)]

end Sys2Proof.Machine
end

section
/-! PROOFS. The statements about the Message Unit (41_message_unit.md). -/

namespace Sys2Proof.Machine

/-- Settles O53: a SEND endpoint is written in one of the engines' ways, which take a credit where there is one and add one
below the limit. -/
theorem creditsStayWithinTheirLimit : Obligations.CreditsStayWithinTheirLimit := by
  intro s t h hev p pe pe' n e e' hp hp' he he' hsend
  have hw : EngineWrite e e' := step_engineWrites h hev hp hp' n e e' he he'
  have hcredits := hw.send_credits hsend
  have hmax := hw.send_maxCredits_eq hsend
  exact ⟨hmax, hcredits, by rw [hmax]; omega⟩

/-- Settles O13: of the three checks none fails. -/
theorem sendStartsItsTransfer : Obligations.SendStartsItsTransfer := by
  intro s pe ep e hp he hsend hcredit hfits
  rw [exec_send ep hp, sendExecute_send _ he hsend, if_neg hcredit, if_neg (Nat.not_lt.2 hfits), messageXfer_eq,
    sendHeader_eq _ he]
  rfl

/-- Settles O14: the first check that fails ends the command. -/
theorem sendChecks : Obligations.SendChecks := by
  intro s pe ep hp
  rw [exec_send ep hp]
  refine ⟨fun hnot => ?_, fun hsend hnone => ?_, fun hsend hcredit hlarge => ?_⟩
  · rw [sendExecute_not_send _ hnot]
    rfl
  · obtain ⟨he, hty⟩ := isSend_some hsend
    rw [sendExecute_send _ he hty, if_pos hnone]
    rfl
  · obtain ⟨he, hty⟩ := isSend_some hsend
    rw [sendExecute_send _ he hty, if_neg hcredit, if_pos hlarge]
    rfl

/-- Settles O15: the offset is a slot's address, and of the other checks none fails. -/
theorem replyStartsItsTransfer : Obligations.ReplyStartsItsTransfer := by
  rintro s pe ep e _ i hp he hrecv hfits _ hi hpos haddr hmem rfl henabled
  have hslot : isSlot e pe.cur.offset = true := (isSlot_iff e _).2 ⟨i, hi, hpos, haddr⟩
  have horig : ¬ (originalHeader pe).replyEnabled = false := by
    rw [Bool.not_eq_false]
    exact henabled
  rw [exec_reply ep hp, replyExecute_receive _ he hrecv, if_neg (Nat.not_lt.2 hfits), if_neg (by simp [hslot]),
    if_neg (Nat.not_lt.2 hmem), if_neg horig, messageXfer_eq]
  rfl

/-- Settles O16: the first check that fails ends the command. -/
theorem replyChecks : Obligations.ReplyChecks := by
  intro s pe ep e hp fails
  have ends : ∀ code, replyExecute ep (peId s.active) pe = failCommand code pe → fails code := by
    intro code h
    exact (exec_reply ep hp).trans (by rw [h]; rfl)
  refine ⟨fun hnot => ends _ (replyExecute_not_receive _ hnot), fun he hrecv => ?_⟩
  rw [replyExecute_receive _ he hrecv] at ends
  refine ⟨fun hlarge => ends _ (if_pos hlarge), fun hfits => ?_⟩
  rw [if_neg (Nat.not_lt.2 hfits)] at ends
  refine ⟨fun hnone => ends _ (if_pos ?_), fun hsome => ?_⟩
  · rw [← Bool.not_eq_true, isSlot_iff]
    rintro ⟨i, hi, hpos, haddr⟩
    exact hnone i hi hpos haddr
  · have hslot : isSlot e pe.cur.offset = true := (isSlot_iff e _).2 hsome
    rw [if_neg (by simp [hslot])] at ends
    refine ⟨fun hout => ends _ (if_pos hout), fun hin hdisabled => ends _ ?_⟩
    exact (if_neg (Nat.not_lt.2 hin)).trans (if_pos hdisabled)

/-- Settles O22: three fields of STATUS are replaced, one after the other. -/
theorem receiveErrorIsRecorded : Obligations.ReceiveErrorIsRecorded :=
  fun code ep pe => ⟨recordRecvErr pe.status code ep, rfl, getLsbD_recordRecvErr pe.status code ep⟩

/-- Settles O23: below the limit the sum does not wrap, so only `CREDITS` changes. -/
theorem grantAddsOneCredit : Obligations.GrantAddsOneCredit := by
  intro pe c
  refine ⟨fun e he hsend hroom => ?_, grantCredit_unexpected⟩
  have hw : EngineWrite e (putCredits e (epCredits e + 1#16)) := .grant hsend hroom
  exact ⟨_, grantCredit_below he hsend hroom, rfl, rfl, rfl, epCredits_granted_toNat hroom,
    fun _ hk => hw.send_bits hsend hk⟩

/-- Settles O24: the grant leaves the destination's endpoint and local memory, so the checks are those of the PE before it. -/
theorem messageIsStored : Obligations.MessageIsStored := by
  rintro s pe granted e h payload _ hp he hrecv hwf hlen hsize hlength hslot hroom rfl hin hgranted
  replace hgranted : granted = afterGrant payload pe := hgranted
  have he' : granted.eps[h.dstEp.toNat]? = some e := hgranted ▸ afterGrant_keeps_receive payload he hrecv
  have hmem : granted.mem = pe.mem := hgranted ▸ afterGrant_mem payload pe
  have hwait : granted.coreWaiting = pe.coreWaiting := hgranted ▸ afterGrant_coreWaiting payload pe
  have hinside : writeSlotAddr e + payload.length ≤ granted.cfg.memSize := by
    rw [hgranted, afterGrant_cfg, hlen]
    exact hin
  have hw : EngineWrite e (advanceWritePtr e) := .writePtr hrecv hroom
  obtain ⟨h0, h1, h2⟩ := hw.config_eq
  refine ⟨writeBytes granted.mem (writeSlotAddr e) payload, advanceWritePtr e, ?_, fun x => ?_, h0, h1, h2,
    epRdPtr_advanceWritePtr e, ?_, ?_, fun k hk => hw.receive_bits hrecv hk⟩
  · rw [exec_message payload hp, receiveMessage_wellFormed pe hsize hlength, ← hgranted,
      acceptMessage_receive payload he' hrecv, if_neg (Nat.not_lt.2 hslot), if_neg (Nat.not_le.2 hroom),
      storeMessage_inside he' hinside, ← hwait]
    rfl
  · rw [hmem, readByte_writeBytes payload pe.mem _ hwf, hlen]
    rfl
  · rw [epWrPtr_advanceWritePtr, wrapInc_toNat, if_neg (by omega)]
  · have hmax := (epNumSlots e).isLt
    rw [epMsgCount_advanceWritePtr]
    bv_omega

/-- Settles O25: the grant leaves the destination's endpoint, so the checks after it are those of the PE before it. -/
theorem messageChecks : Obligations.MessageChecks := by
  intro s pe granted h payload hp hlen hgranted rejects
  replace hgranted : granted = afterGrant payload pe := hgranted
  have ends : ∀ by_ code, receiveMessage h payload pe = rejectMessage h code by_ → rejects by_ code := by
    intro by_ code hreject
    exact (exec_message payload hp).trans (by rw [hreject]; rfl)
  refine ⟨fun hbad => ends _ _ (receiveMessage_malformed pe hbad), fun hsize hlength => ?_⟩
  rw [receiveMessage_wellFormed pe hsize hlength, ← hgranted] at ends
  refine ⟨fun hnot => ends _ _ (acceptMessage_not_receive payload ?_), fun e he hrecv => ?_⟩
  · rwa [hgranted, isRecv_afterGrant]
  have he' : granted.eps[h.dstEp.toNat]? = some e := hgranted ▸ afterGrant_keeps_receive payload he hrecv
  rw [acceptMessage_receive payload he' hrecv] at ends
  refine ⟨fun hlarge => ends _ _ (if_pos hlarge), fun hfits => ?_⟩
  rw [if_neg (Nat.not_lt.2 hfits)] at ends
  refine ⟨fun hfull => ends _ _ (if_pos hfull), fun hroom hout => ends _ _ ?_⟩
  have houtside : granted.cfg.memSize < writeSlotAddr e + payload.length := by
    rw [hgranted, afterGrant_cfg, hlen]
    exact hout
  exact (if_neg (Nat.not_le.2 hroom)).trans (storeMessage_outside he' (by omega) houtside)

/-- Settles O46: the header that is read back from the slot is the one that was sent, and the reply's is read back from its
packet. -/
theorem replyRoundTrip : Obligations.ReplyRoundTrip := by
  rintro a sender _ sep x hdr b replier _ rep y rfl hsent hx hheader hstored rfl hreplied hy _ _
  obtain rfl : _ = x := Option.some.inj ((sendExecute_xfer hsent).symm.trans hx)
  obtain rfl : sendHeader a sep sender = hdr := Option.some.inj hheader
  have horig : originalHeader replier = sendHeader a sep sender := by
    rw [originalHeader, hstored, ← List.append_nil (encHdr _), decHdr_encHdr]
  obtain rfl : _ = y := Option.some.inj ((replyExecute_xfer hreplied).symm.trans hy)
  rw [horig]
  refine ⟨rfl, rfl, _, rfl, rfl, rfl, rfl, rfl, fun h payload receiver hsize hlength => ?_⟩
  have hback := decHdr_encHdr (replyHeader b rep replier (sendHeader a sep sender)) payload
  rw [receiveMessage_wellFormed receiver (by omega) (by rw [hback, hlength]; omega), afterGrant, hback]
  rfl

end Sys2Proof.Machine
end

section
/-! SUPPORT. The ranges of a chunk and its chunks (42_transfer_unit.md R282 to R285, R298): what is read and written over the
bytes of some ranges, in order, and the lengths of the chunks of a transfer. -/

namespace Sys2Proof.Machine

/-! ### The bytes of ranges (44_translation_unit.md R354, R361) -/

theorem rangeAddrs_cons (r : PhysRange) (rs : List PhysRange) :
    rangeAddrs (r :: rs) = List.range' r.pa.toNat r.len ++ rangeAddrs rs := by
  simp [rangeAddrs, List.range'_eq_map_range]

theorem readBytes_eq_map (m : Memory) (a n : Nat) : readBytes m a n = (List.range' a n).map (readByte m) := by
  induction n generalizing a with
  | zero => rfl
  | succ n ih => rw [readBytes, ih, List.range'_succ, List.map_cons]

theorem readBytes_eq_one_range (m : Memory) (pa : Word) (n : Nat) :
    readBytes m pa.toNat n = (rangeAddrs [{ pa := pa, len := n }]).map (readByte m) := by
  rw [readBytes_eq_map, rangeAddrs_cons]
  simp [rangeAddrs]

/-! ### Reads over ranges (R284) -/

theorem readRanges_inside {pe : Pe} {rs : List PhysRange} (h : ∀ r ∈ rs, r.len = 0 ∨ r.pa.toNat + r.len ≤ pe.cfg.memSize) :
    readRanges pe rs = some ((rangeAddrs rs).map (readByte pe.mem)) := by
  induction rs with
  | nil => rfl
  | cons r rs ih =>
    obtain ⟨hr, hrs⟩ := List.forall_mem_cons.1 h
    rw [readRanges, memRead_eq_some.2 ⟨hr, rfl⟩, ih hrs, rangeAddrs_cons, List.map_append, readBytes_eq_map]

theorem readRanges_outside {pe : Pe} {rs : List PhysRange} (h : ∃ r ∈ rs, r.len ≠ 0 ∧ pe.cfg.memSize < r.pa.toNat + r.len) :
    readRanges pe rs = none := by
  induction rs with
  | nil => simp at h
  | cons r rs ih =>
    rw [readRanges]
    rcases List.exists_mem_cons_iff .. |>.1 h with hr | hrs
    · rw [memRead_eq_none.2 hr]
    · rw [ih hrs]
      simp

/-! ### Writes over ranges (R285) -/

/-- A memory with bytes written at some addresses in order, as far as there are both. -/
def writeAddrs (m : Memory) : List Nat → List Byte → Memory
  | a :: as, b :: bs => writeAddrs (writeByte m a b) as bs
  | _, _ => m

@[simp] theorem writeAddrs_nil_right (m : Memory) (as : List Nat) : writeAddrs m as [] = m := by
  cases as <;> rfl

theorem writeAddrs_append (m : Memory) (as as' : List Nat) (bs : List Byte) :
    writeAddrs m (as ++ as') bs = writeAddrs (writeAddrs m as (bs.take as.length)) as' (bs.drop as.length) := by
  induction as generalizing m bs with
  | nil => rfl
  | cons a as ih =>
    cases bs with
    | nil => simp
    | cons b bs => exact ih (writeByte m a b) bs

/-- Consecutive addresses, at least as many as there are bytes. -/
theorem writeAddrs_range' (m : Memory) (a n : Nat) (bs : List Byte) (h : bs.length ≤ n) :
    writeAddrs m (List.range' a n) bs = writeBytes m a bs := by
  induction bs generalizing m a n with
  | nil => simp [writeBytes]
  | cons b bs ih =>
    obtain ⟨n, rfl⟩ : ∃ k, n = k + 1 := ⟨n - 1, by simp at h; omega⟩
    exact ih (writeByte m a b) (a + 1) n (by simpa using h)

/-- A write over ranges inside local memory writes the bytes to the ranges' addresses, in order. -/
theorem writeRanges_inside {pe : Pe} {rs : List PhysRange} (h : ∀ r ∈ rs, r.pa.toNat + r.len ≤ pe.cfg.memSize)
    (data : List Byte) :
    writeRanges pe rs data = some { pe with mem := writeAddrs pe.mem (rangeAddrs rs) data } := by
  induction rs generalizing pe data with
  | nil => rfl
  | cons r rs ih =>
    obtain ⟨hr, hrs⟩ := List.forall_mem_cons.1 h
    have hlen : (data.take r.len).length ≤ r.len := List.length_take_le ..
    rw [writeRanges, memWrite_eq_some.2 ⟨.inr (by omega), rfl⟩]
    refine (ih (pe := { pe with mem := writeBytes pe.mem r.pa.toNat (data.take r.len) }) hrs _).trans ?_
    rw [rangeAddrs_cons, writeAddrs_append, List.length_range', writeAddrs_range' _ _ _ _ hlen]

/-- What a memory holds after bytes were written in order: at an address the byte of the last write to it, elsewhere what it
held before. -/
theorem readByte_writeAddrs {m : Memory} (hm : Memory.wf m) (as : List Nat) (bs : List Byte) (a : Nat) :
    (∀ i < bs.length, as[i]? = some a → (∀ j, i < j → j < bs.length → as[j]? ≠ some a) →
      readByte (writeAddrs m as bs) a = bs.getD i 0#8) ∧
    ((∀ i < bs.length, as[i]? ≠ some a) → readByte (writeAddrs m as bs) a = readByte m a) := by
  induction as generalizing m bs with
  | nil => exact ⟨by simp, fun _ => rfl⟩
  | cons a0 as ih =>
    cases bs with
    | nil => exact ⟨by simp, fun _ => rfl⟩
    | cons b bs =>
      obtain ⟨hlast, hnone⟩ := ih (writeByte_wf m a0 b hm) bs
      refine ⟨fun i hi hat hlater => ?_, fun hno => ?_⟩
      · cases i with
        | zero =>
          obtain rfl : a0 = a := by simpa using hat
          refine (hnone fun j hj => ?_).trans ?_
          · exact hlater (j + 1) (by omega) (by simpa using hj)
          · simp [readByte_writeByte m _ b hm]
        | succ i =>
          exact hlast i (by simpa using hi) hat fun j hij hj => hlater (j + 1) (by omega) (by simpa using hj)
      · have hne : a ≠ a0 := fun heq => hno 0 (by simp) (by simp [heq])
        refine (hnone fun j hj => hno (j + 1) (by simpa using hj)).trans ?_
        rw [readByte_writeByte m a0 b hm, if_neg hne]

/-! ### The lengths of the chunks (R282, R298) -/

/-- `ceil(S/C)`. -/
theorem chunkCount_eq {C : Nat} (hC : 1 ≤ C) (S : Nat) :
    chunkCount S C = if S % C = 0 then S / C else S / C + 1 := by
  have hS := Nat.div_add_mod' S C
  have hr := Nat.mod_lt S hC
  have hnext (q : Nat) : (q + 1) * C = q * C + C := Nat.succ_mul q C
  have hnext1 := hnext (S / C)
  have hnext2 := hnext (S / C + 1)
  unfold chunkCount
  split <;> exact Nat.div_eq_of_lt_le (by omega) (by omega)

/-- All chunks but a last shorter one have `C` bytes. -/
theorem chunkLengths_eq {C : Nat} (hC : 1 ≤ C) (S : Nat) :
    chunkLengths S C = List.replicate (S / C) C ++ if S % C = 0 then [] else [S % C] := by
  have hS := Nat.div_add_mod S C
  have hr := Nat.mod_lt S hC
  have hfull : (List.range (S / C)).map (fun k => min C (S - k * C)) = List.replicate (S / C) C := by
    refine List.eq_replicate_iff.2 ⟨by simp, fun n hn => ?_⟩
    obtain ⟨k, hk, rfl⟩ := List.mem_map.1 hn
    have : (k + 1) * C ≤ S / C * C := Nat.mul_le_mul_right C (List.mem_range.1 hk)
    rw [Nat.add_mul, Nat.mul_comm (S / C)] at this
    omega
  rw [chunkLengths, chunkCount_eq hC]
  split
  · rw [hfull, List.append_nil]
  · rw [List.range_succ, List.map_append, hfull, List.map_singleton]
    congr 2
    rw [Nat.mul_comm (S / C)]
    omega

theorem chunkLengths_sum {C : Nat} (hC : 1 ≤ C) (S : Nat) : (chunkLengths S C).sum = S := by
  have hS := Nat.div_add_mod' S C
  rw [chunkLengths_eq hC]
  split <;> simp <;> omega

theorem chunkLengths_bounds {C : Nat} (hC : 1 ≤ C) (S : Nat) : ∀ n ∈ chunkLengths S C, 1 ≤ n ∧ n ≤ C := by
  intro n hn
  rw [chunkLengths_eq hC, List.mem_append] at hn
  rcases hn with hn | hn
  · obtain ⟨_, rfl⟩ := List.mem_replicate.1 hn
    exact ⟨hC, Nat.le_refl _⟩
  · split at hn
    · cases hn
    · have := Nat.mod_lt S hC
      obtain rfl := List.mem_singleton.1 hn
      omega

theorem chunkLengths_getLast? {S C : Nat} (hC : 1 ≤ C) (hS : 0 < S) :
    (chunkLengths S C).getLast? = some (if S % C = 0 then C else S % C) := by
  rw [chunkLengths_eq hC]
  split
  · rename_i hdvd
    have hq : S / C ≠ 0 := (Nat.div_pos (Nat.le_of_dvd hS (Nat.dvd_of_mod_eq_zero hdvd)) hC).ne'
    rw [List.append_nil, List.getLast?_replicate, if_neg hq]
  · exact List.getLast?_concat

/-- The chunk at an offset below the size. -/
theorem chunkLengths_getElem? {S C k : Nat} (hC : 1 ≤ C) (hk : k * C < S) :
    (chunkLengths S C)[k]? = some (min C (S - k * C)) := by
  have hcount : k < chunkCount S C := by
    rw [chunkCount, Nat.lt_iff_add_one_le, Nat.le_div_iff_mul_le hC, Nat.add_mul]
    omega
  simp [chunkLengths, hcount]

end Sys2Proof.Machine
end

section
/-! SUPPORT. The Transfer Unit (42_transfer_unit.md R280 to R292) and the translate step of the cache path (43_memory_unit.md
R330), an equation for each case: the execute steps of READ and WRITE, step A of a chunk for each outcome of its translation,
and step B for the response that is the chunk's and for any other. -/

namespace Sys2Proof.Machine

/-! ### READ and WRITE (R290, R292) -/

theorem exec_read {s : State} {pe : Pe} (ep : EpId) (hp : s.pes[s.active]? = some pe) :
    exec (.read ep) s = .next (commit s s.active { pe := memoryExecute .localWrite epPermR ep pe }) :=
  onActive_some (fun _ pe => memoryExecute .localWrite epPermR ep pe) hp

theorem exec_write {s : State} {pe : Pe} (ep : EpId) (hp : s.pes[s.active]? = some pe) :
    exec (.write ep) s = .next (commit s s.active { pe := memoryExecute .localRead epPermW ep pe }) :=
  onActive_some (fun _ pe => memoryExecute .localRead epPermW ep pe) hp

theorem memoryExecute_not_memory {pe : Pe} {ep : EpId} (type : XferType) (permitted : Endpoint → Bool)
    (h : isMem pe ep = false) : memoryExecute type permitted ep pe = failCommand errInvEp pe := by
  simp [memoryExecute, h]

theorem memoryExecute_memory {pe : Pe} {ep : EpId} {e : Endpoint} (type : XferType) (permitted : Endpoint → Bool)
    (he : pe.eps[ep.toNat]? = some e) (hmem : epType e = 3#3) :
    memoryExecute type permitted ep pe =
      if permitted e = false then failCommand errNoPerm pe
      else if e.cfg2.toNat < pe.cur.offset.toNat + pe.cur.dataSize.toNat then failCommand errOutOfBounds pe
      else if pe.cur.dataSize = 0#64 then completeCommand pe
      else startXfer (memoryXfer type ep pe) pe := by
  have hregion : inRegion e pe.cur.offset pe.cur.dataSize = false ↔
      e.cfg2.toNat < pe.cur.offset.toNat + pe.cur.dataSize.toNat := by
    rw [← Bool.not_eq_true, inRegion_iff, Nat.not_le, epRegionSize]
  simp [memoryExecute, isMem_eq he, epAt_eq he, hmem, hregion]

theorem memoryXfer_eq {pe : Pe} {ep : EpId} {e : Endpoint} (type : XferType) (he : pe.eps[ep.toNat]? = some e) :
    memoryXfer type ep pe =
      { type := type, kind := .mem, localAddr := pe.cur.dataAddr, remotePe := epTargetPe e, remoteEp := 0
        remoteAddr := e.cfg1 + pe.cur.offset, size := pe.cur.dataSize, done := 0, chunkIndex := 0, header := none
        chunkState := .translate, pas := [] } := by
  rw [memoryXfer, epAt_eq he, epRegionAddr]

/-! ### Steps of one PE -/

/-- A step of a PE that exists: its effect, or none. -/
theorem stepPe_elim {s : State} {p : Nat} {pe : Pe} (f : PeId → Pe → Option Effect) (hp : s.pes[p]? = some pe) :
    stepPe s p f = (f (peId p) pe).elim s (commit s p) := by
  cases hf : f (peId p) pe <;> simp [stepPe, hp, hf]

theorem step_transfer {s : State} {p : Nat} {pe : Pe} (h : nextAt s (.transfer p) p pe) :
    step s = .next ((transferStep (peId p) pe).elim (takeEvent s) (commit (takeEvent s) p)) := by
  obtain ⟨hnext, hp⟩ := h
  rw [step, hnext, runEvent, stepPe_elim _ (by rwa [takeEvent_pes])]

theorem step_cacheTranslate {s : State} {p : Nat} {pe : Pe} {id : OpId} (h : nextAt s (.cacheTranslate p id) p pe) :
    step s = .next ((cacheTranslateStep (peId p) id pe).elim (takeEvent s) (commit (takeEvent s) p)) := by
  obtain ⟨hnext, hp⟩ := h
  rw [step, hnext, runEvent, stepPe_elim _ (by rwa [takeEvent_pes])]

theorem withoutResponse_pes (s : State) (k : Nat) : (withoutResponse s k).pes = s.pes := takeEvent_pes s

theorem step_deliverResponse {s : State} {k : Nat} {r : Response} {p : Nat} {pe : Pe} (h : responseAt s k r p pe) :
    step s = .next (commit (withoutResponse s k) p (takeDelivered (peId p) r.bytes pe)) := by
  obtain ⟨⟨hnext, hp⟩, hr, rfl, hlen⟩ := h
  rw [step, hnext, runEvent, stepDeliverResponse, takeEvent_responses, hr]
  simp only [if_neg (Nat.not_lt.2 hlen)]
  exact congrArg Host.Outcome.next (stepPe_some (s := withoutResponse s k) (by rwa [withoutResponse_pes]) rfl)

/-- An effect that leaves its PE and sends and emits nothing leaves the system. -/
theorem commit_self {s : State} {p : Nat} {pe : Pe} (hp : s.pes[p]? = some pe) : commit s p { pe := pe } = s := by
  rw [commit_pe_only, pes_set_self hp]

/-! ### Translations -/

/-- The PE after a translation that succeeds differs from the one before at most in the queue and the outcomes. -/
theorem translate_ok_same {owner : Owner} {va : Word} {n : Nat} {flags : Access} {pe pe' : Pe} {ranges : List PhysRange}
    (h : translate owner va n flags pe = .ok pe' ranges) : SameButQueue pe pe' := by
  rcases translate_cases owner va n flags pe with ⟨_, ht, _⟩ | ⟨_, ht, _⟩ | ⟨ht, _⟩ | ⟨_, ht, _⟩ | ⟨ht, _⟩ <;>
    cases ht.symm.trans h
  · exact ⟨_, _, _, rfl⟩
  · exact ⟨_, _, _, rfl⟩

theorem SameButQueue.kept {pe pe' : Pe} (h : SameButQueue pe pe') :
    pe'.cfg = pe.cfg ∧ pe'.mem = pe.mem ∧ pe'.cacheReqs = pe.cacheReqs := by
  obtain ⟨_, _, _, rfl⟩ := h
  exact ⟨rfl, rfl, rfl⟩

/-- Without virtual memory a translation is the identity (44_translation_unit.md R354). -/
theorem translate_physical {pe : Pe} (hvm : pe.cfg.vmEnabled = false) (owner : Owner) (va : Word) (n : Nat)
    (flags : Access) : translate owner va n flags pe = .ok pe [{ pa := va, len := n }] := by
  simp [translate, hvm]

/-! ### Step A of a chunk (R284, R285) -/

/-- The translation that step A of a chunk asks for: to write the destination, or to read the chunk's bytes or a message's
payload. -/
def chunkTranslation (x : Xfer) (pe : Pe) : Translation :=
  if x.type = .localWrite then
    translate .cmd (x.localAddr + x.done) (chunkLen pe.cfg x) { r := false, w := true, x := false } pe
  else if x.kind = .mem then
    translate .cmd (x.localAddr + x.done) (chunkLen pe.cfg x) { r := true, w := false, x := false } pe
  else translate .cmd x.localAddr (x.size.toNat - 24) { r := true, w := false, x := false } pe

/-- Step A of a chunk whose ranges are known. -/
def issueChunk (me : PeId) (x : Xfer) : List PhysRange → Pe → Effect :=
  match x.type with
  | .localRead => issueLocalRead me x
  | .localWrite => issueLocalWrite me x

theorem chunkStepA_eq (me : PeId) (x : Xfer) (pe : Pe) :
    chunkStepA me x pe = afterTranslation (chunkTranslation x pe) (issueChunk me x) := by
  unfold chunkStepA chunkTranslation issueChunk
  cases x.type with
  | localWrite => simp
  | localRead => cases hkind : x.kind <;> simp [localPart, hkind, headerSize]

/-- The Transfer Unit of the PE `pe` at place `p` is next, for step A of a chunk of the transfer `x`. -/
structure ChunkNext (s : State) (p : Nat) (pe : Pe) (x : Xfer) : Prop where
  next : nextAt s (.transfer p) p pe
  phase : pe.phase = .xfer
  xfer : pe.xfer = some x
  state : x.chunkState = .translate

/-- The step does what the chunk's translation makes of it. -/
theorem ChunkNext.step_eq {s : State} {p : Nat} {pe : Pe} {x : Xfer} (h : ChunkNext s p pe x) :
    step s =
      .next ((afterTranslation (chunkTranslation x pe) (issueChunk (peId p) x)).elim (takeEvent s)
        (commit (takeEvent s) p)) := by
  have henabled : transferStep (peId p) pe = chunkStepA (peId p) x pe := by
    simp [transferStep, h.phase, h.xfer, h.state]
  rw [step_transfer h.next, henabled, chunkStepA_eq]

theorem ChunkNext.step_localRead {s : State} {p : Nat} {pe pe' : Pe} {x : Xfer} {ranges : List PhysRange}
    (h : ChunkNext s p pe x) (hty : x.type = .localRead) (hok : chunkTranslation x pe = .ok pe' ranges) :
    step s = .next (commit (takeEvent s) p (issueLocalRead (peId p) x ranges pe')) := by
  rw [h.step_eq, hok, issueChunk, hty]
  rfl

theorem ChunkNext.step_localWrite {s : State} {p : Nat} {pe pe' : Pe} {x : Xfer} {ranges : List PhysRange}
    (h : ChunkNext s p pe x) (hty : x.type = .localWrite) (hok : chunkTranslation x pe = .ok pe' ranges) :
    step s = .next (commit (takeEvent s) p (issueLocalWrite (peId p) x ranges pe')) := by
  rw [h.step_eq, hok, issueChunk, hty]
  rfl

theorem chunkTranslation_ok_same {x : Xfer} {pe pe' : Pe} {ranges : List PhysRange}
    (h : chunkTranslation x pe = .ok pe' ranges) : SameButQueue pe pe' := by
  unfold chunkTranslation at h
  split at h
  · exact translate_ok_same h
  · split at h <;> exact translate_ok_same h

theorem issueLocalRead_outside {ranges : List PhysRange} {pe : Pe} (me : PeId) (x : Xfer)
    (h : ∃ r ∈ ranges, r.len ≠ 0 ∧ pe.cfg.memSize < r.pa.toNat + r.len) :
    issueLocalRead me x ranges pe = { pe := endXfer errMemOutOfBounds pe } := by
  rw [issueLocalRead, readRanges_outside h]

theorem issueLocalRead_inside {ranges : List PhysRange} {pe : Pe} (me : PeId) (x : Xfer)
    (h : ∀ r ∈ ranges, r.len = 0 ∨ r.pa.toNat + r.len ≤ pe.cfg.memSize) :
    issueLocalRead me x ranges pe =
      { pe := { pe with xfer := some { x with chunkState := .issued } }
        requests := [chunkPacket me x ((rangeAddrs ranges).map (readByte pe.mem))] } := by
  rw [issueLocalRead, readRanges_inside h]

theorem issueLocalWrite_outside {ranges : List PhysRange} {pe : Pe} (me : PeId) (x : Xfer)
    (h : ∃ r ∈ ranges, pe.cfg.memSize < r.pa.toNat + r.len) :
    issueLocalWrite me x ranges pe = { pe := endXfer errMemOutOfBounds pe } :=
  if_pos (by simpa using h)

theorem issueLocalWrite_inside {ranges : List PhysRange} {pe : Pe} (me : PeId) (x : Xfer)
    (h : ∀ r ∈ ranges, r.pa.toNat + r.len ≤ pe.cfg.memSize) :
    issueLocalWrite me x ranges pe =
      { pe := { pe with xfer := some { x with chunkState := .issued, pas := ranges } }
        requests :=
          [pktRead me x.remotePe (x.remoteAddr + x.done) (chunkLen pe.cfg x) (x.chunkIndex.setWidth 62)] } :=
  if_neg (by simpa using h)

theorem chunkPacket_memory {x : Xfer} (h : x.kind = .mem) (me : PeId) (data : List Byte) :
    chunkPacket me x data = pktWrite me x.remotePe (x.remoteAddr + x.done) data (x.chunkIndex.setWidth 62) := by
  simp [chunkPacket, h, chunkOp]

theorem chunkPacket_message {x : Xfer} {hdr : MessageHeader} (h : x.kind = .msg) (hhdr : x.header = some hdr) (me : PeId)
    (data : List Byte) :
    chunkPacket me x data = pktMsg me x.remotePe x.remoteEp hdr data (x.chunkIndex.setWidth 62) := by
  simp [chunkPacket, h, hhdr, chunkOp]

/-! ### The translate step of the cache path (43_memory_unit.md R330) -/

theorem cacheTranslateStep_untranslated {pe : Pe} {id : OpId} {c : CacheEntry} (me : PeId)
    (hc : pe.cacheReqs.lookup id = some c) (hpa : c.pa = none) :
    cacheTranslateStep me id pe =
      afterCacheTranslation me id c (translate (.cache id) c.va c.size.toNat (cacheAccess c.kind) pe) := by
  simp [cacheTranslateStep, cacheEntry, hc, hpa]

/-- Each entry replaced by one that depends on its id and itself alone. -/
theorem lookup_map_entry (g : OpId → CacheEntry → CacheEntry) (reqs : List (OpId × CacheEntry)) (d : OpId) :
    (reqs.map fun c => (c.1, g c.1 c.2)).lookup d = (reqs.lookup d).map (g d) := by
  induction reqs with
  | nil => rfl
  | cons c cs ih =>
    rw [List.map_cons, List.lookup_cons, List.lookup_cons, ih]
    cases hd : d == c.1 with
    | true => rw [eq_of_beq hd]; rfl
    | false => rfl

/-- The outstanding requests after the physical address of one of them was stored. -/
theorem lookup_setCachePa (id : OpId) (pa : Word) (pe : Pe) (d : OpId) :
    (setCachePa id pa pe).cacheReqs.lookup d =
      (pe.cacheReqs.lookup d).map fun c => if d = id then { c with pa := some pa } else c := by
  have hmap : (setCachePa id pa pe).cacheReqs =
      pe.cacheReqs.map fun c => (c.1, if c.1 = id then { c.2 with pa := some pa } else c.2) := by
    rw [setCachePa_cacheReqs]
    refine List.map_congr_left fun c _ => ?_
    split <;> rfl
  rw [hmap]
  exact lookup_map_entry (fun i c => if i = id then { c with pa := some pa } else c) _ d

/-! ### Step B of a chunk (R284, R285, R289) -/

theorem takeDelivered_transfer {bytes : List Byte} (h : tagUnit (responseTag bytes) = 0#2) (me : PeId) (pe : Pe) :
    takeDelivered me bytes pe = { pe := chunkResponse bytes pe } := by
  simp only [takeDelivered, h]

theorem takeDelivered_cache {bytes : List Byte} (h : tagUnit (responseTag bytes) = 1#2) (me : PeId) (pe : Pe) :
    takeDelivered me bytes pe = cacheResponse me bytes pe := by
  simp only [takeDelivered, h]

theorem takeDelivered_reserved {bytes : List Byte} (h : tagUnit (responseTag bytes) = 2#2 ∨ tagUnit (responseTag bytes) = 3#2)
    (me : PeId) (pe : Pe) : takeDelivered me bytes pe = { pe := pe } := by
  rcases h with h | h <;> (rw [takeDelivered, h]; rfl)

theorem chunkResponse_current {pe : Pe} {x : Xfer} {bytes : List Byte} (hphase : pe.phase = .xfer) (hx : pe.xfer = some x)
    (hstate : x.chunkState = .issued) (htag : tagOp (responseTag bytes) = chunkOp x) :
    chunkResponse bytes pe = takeResponse x bytes pe := by
  simp [chunkResponse, hphase, hx, hstate, htag]

/-- A response that is not the current chunk's (R289). -/
theorem chunkResponse_foreign {pe : Pe} {bytes : List Byte}
    (h : ∀ x, pe.xfer = some x → x.chunkState = .translate ∨ tagOp (responseTag bytes) ≠ chunkOp x) :
    chunkResponse bytes pe = pe := by
  rcases chunkResponse_cases bytes pe with hsame | ⟨x, _, hx, hstate, htag, _⟩
  · exact hsame
  · rcases h x hx with hnot | hnot
    · cases hstate.symm.trans hnot
    · exact absurd htag hnot

theorem cacheResponse_foreign {pe : Pe} {bytes : List Byte} (h : ∀ c ∈ pe.cacheReqs, c.1 ≠ tagOp (responseTag bytes))
    (me : PeId) : cacheResponse me bytes pe = { pe := pe } := by
  have hnone : pe.cacheReqs.lookup (tagOp (responseTag bytes)) = none :=
    List.lookup_eq_none_iff.2 fun c hc => by simpa using (h c hc).symm
  simp [cacheResponse, cacheEntry, hnone]

theorem takeResponse_error {bytes : List Byte} (h : responseStatus bytes ≠ 0#8) (x : Xfer) (pe : Pe) :
    takeResponse x bytes pe = endXfer (responseStatus bytes) pe :=
  if_pos h

/-- The memory after a chunk's successful response: of a READ chunk, with the data over its ranges. -/
def responseMemory (x : Xfer) (bytes : List Byte) (m : Memory) : Memory :=
  match x.type with
  | .localRead => m
  | .localWrite => writeAddrs m (rangeAddrs x.pas) (responseData bytes)

theorem takeResponse_success {x : Xfer} {bytes : List Byte} {pe : Pe} (h : responseStatus bytes = 0#8)
    (hin : x.type = .localWrite → ∀ r ∈ x.pas, r.pa.toNat + r.len ≤ pe.cfg.memSize) :
    takeResponse x bytes pe = advanceChunk x { pe with mem := responseMemory x bytes pe.mem } := by
  rw [takeResponse, if_neg (not_not.2 h : ¬ responseStatus bytes ≠ errNone), responseMemory]
  cases hty : x.type with
  | localRead => rfl
  | localWrite => simp only [writeRanges_inside (hin hty)]

end Sys2Proof.Machine
end

section
/-! PROOFS. The statements about the Transfer Unit (42_transfer_unit.md). -/

namespace Sys2Proof.Machine

/-- Settles O17: of the three checks none fails. -/
theorem readAndWriteStart : Obligations.ReadAndWriteStart := by
  intro s pe ep e hp he hmem hin starts
  have started : ∀ (i : Instr) (type : XferType) (permitted : Endpoint → Bool), permitted e = true →
      exec i s = .next (commit s s.active { pe := memoryExecute type permitted ep pe }) → starts i type := by
    intro i type permitted hperm hexec
    rw [memoryExecute_memory _ _ he hmem, if_neg (by simp [hperm]), if_neg (Nat.not_lt.2 hin), memoryXfer_eq _ he] at hexec
    refine ⟨fun hsome => ?_, fun hnone => ?_⟩
    · rw [hexec, if_neg hsome]
      rfl
    · rw [hexec, if_pos hnone]
      rfl
  exact ⟨fun hperm => started _ _ _ hperm (exec_read ep hp), fun hperm => started _ _ _ hperm (exec_write ep hp)⟩

/-- Settles O18: the first check that fails ends the command. -/
theorem readAndWriteChecks : Obligations.ReadAndWriteChecks := by
  intro s pe ep hp checks
  have checked : ∀ (i : Instr) (bit : Nat) (type : XferType) (permitted : Endpoint → Bool),
      (∀ e, permitted e = e.cfg0.getLsbD bit) →
      exec i s = .next (commit s s.active { pe := memoryExecute type permitted ep pe }) → checks i bit := by
    intro i bit type permitted hbit hexec
    refine ⟨fun hnot => ?_, fun e he hmem => ⟨fun hperm => ?_, fun hperm hout => ?_⟩⟩
    · rw [hexec, memoryExecute_not_memory _ _ hnot]
      rfl
    · rw [hexec, memoryExecute_memory _ _ he hmem, if_pos ((hbit e).trans hperm)]
      rfl
    · rw [hexec, memoryExecute_memory _ _ he hmem, if_neg (by simp [hbit, hperm]), if_pos hout]
      rfl
  exact ⟨checked _ _ _ _ (fun _ => rfl) (exec_read ep hp), checked _ _ _ _ (fun _ => rfl) (exec_write ep hp)⟩

/-- Settles O31: without virtual memory the chunk is one range. -/
theorem localReadChunkIsSent : Obligations.LocalReadChunkIsSent := by
  intro s p pe x la n packet hnext hphase hx hstate htype hvm hchunk
  obtain ⟨pa, rfl, hone, hpacket⟩ : ∃ pa : Word, la = pa.toNat ∧ chunkTranslation x pe = .ok pe [{ pa := pa, len := n }] ∧
      ∀ data, chunkPacket (peId p) x data = packet data := by
    rcases hchunk with ⟨hkind, rfl, rfl, rfl⟩ | ⟨hkind, rfl, rfl, hdr, hhdr, rfl⟩
    · exact ⟨_, rfl, by simp [chunkTranslation, htype, hkind, translate_physical hvm], chunkPacket_memory hkind _⟩
    · exact ⟨_, rfl, by simp [chunkTranslation, htype, hkind, translate_physical hvm], chunkPacket_message hkind hhdr _⟩
  rw [ChunkNext.step_localRead ⟨hnext, hphase, hx, hstate⟩ htype hone]
  refine ⟨fun hin => ?_, fun hne hout => ?_⟩
  · rw [issueLocalRead_inside _ _ (List.forall_mem_singleton.2 hin), hpacket, ← readBytes_eq_one_range]
  · rw [issueLocalRead_outside _ _ ⟨_, List.mem_singleton_self _, hne, hout⟩]
    rfl

/-- Settles O32: without virtual memory the destination is one range. -/
theorem localWriteChunkIsRequested : Obligations.LocalWriteChunkIsRequested := by
  rintro s p pe x _ _ hnext hphase hx hstate htype hvm rfl rfl
  have hone : chunkTranslation x pe = .ok pe [{ pa := x.localAddr + x.done, len := chunkLen pe.cfg x }] := by
    simp [chunkTranslation, htype, translate_physical hvm]
  rw [ChunkNext.step_localWrite ⟨hnext, hphase, hx, hstate⟩ htype hone]
  refine ⟨fun hin => ?_, fun hout => ?_⟩
  · rw [issueLocalWrite_inside _ _ (List.forall_mem_singleton.2 hin)]
  · rw [issueLocalWrite_outside _ _ ⟨_, List.mem_singleton_self _, hout⟩]
    rfl

/-- Settles O33: the data are written one byte after the other to the addresses of the ranges. -/
theorem chunkResponseIsTaken : Obligations.ChunkResponseIsTaken := by
  rintro s k r p pe x _ _ hat hunit hphase hx hstate htag rfl rfl
  rw [step_deliverResponse hat, takeDelivered_transfer hunit, chunkResponse_current hphase hx hstate htag]
  refine ⟨fun herr => by rw [takeResponse_error herr]; rfl, fun hok hwrite => ?_⟩
  have hin : x.type = .localWrite → ∀ piece ∈ x.pas, piece.pa.toNat + piece.len ≤ pe.cfg.memSize := by
    intro hty
    rcases hwrite with hread | ⟨_, _, hin⟩
    · cases hread.symm.trans hty
    · exact hin
  refine ⟨responseMemory x r.bytes pe.mem, fun hty => by rw [responseMemory, hty], fun hty a => ?_, ?_⟩
  · rcases hwrite with hread | ⟨_, hwf, _⟩
    · cases hread.symm.trans hty
    · rw [responseMemory, hty]
      exact readByte_writeAddrs hwf _ _ a
  · rw [takeResponse_success hok hin, advanceChunk]
    rfl

/-- Settles O34: the unit that the tag names takes the response and finds that it waits for none such. -/
theorem foreignResponsesAreDiscarded : Obligations.ForeignResponsesAreDiscarded := by
  intro s k r p pe hat hforeign
  have hsame : takeDelivered (peId p) r.bytes pe = { pe := pe } := by
    rcases hforeign with ⟨hunit, hxfer⟩ | ⟨hunit, hcache⟩ | hunit
    · rw [takeDelivered_transfer hunit, chunkResponse_foreign]
      intro x hx
      rcases hxfer with hnone | ⟨y, hy, hnot⟩
      · cases hnone.symm.trans hx
      · cases hy.symm.trans hx
        exact hnot
    · rw [takeDelivered_cache hunit, cacheResponse_foreign hcache]
    · exact takeDelivered_reserved hunit _ _
  rw [step_deliverResponse hat, hsame]
  obtain ⟨⟨_, hp⟩, _⟩ := hat
  rw [commit_self (by rwa [withoutResponse_pes])]

/-- Settles O35: all chunks but a last shorter one have the limit's length, and the transfer's offset is below its size. -/
theorem chunkLengthsSumToTheSize : Obligations.ChunkLengthsSumToTheSize := by
  refine ⟨fun S C hC hS => ⟨?_, chunkLengths_sum hC S, chunkLengths_bounds hC S, chunkLengths_getLast? hC hS⟩,
    fun pe x hok hx => ?_⟩
  · rw [chunkLengths, List.length_map, List.length_range, chunkCount]
  · obtain ⟨hC, _, hxfer⟩ := hok
    obtain ⟨hdone, hless, _⟩ := hxfer x hx
    exact chunkLengths_getElem? hC (hdone ▸ hless)

/-- Settles O38: a case for each outcome of the translation, which leaves local memory, the outstanding requests and the
parameters. -/
theorem translationOutcomesAreReported : Obligations.TranslationOutcomesAreReported := by
  refine fun s p pe => ⟨?_, ?_⟩
  · intro x t hnext hphase hx hstate ht fails
    have hchunk : ChunkNext s p pe x := ⟨hnext, hphase, hx, hstate⟩
    obtain rfl : t = chunkTranslation x pe := ht
    refine ⟨?_, fun pe' hfault => ?_, fun pe' hmiss => ?_, fun hwait => ?_⟩
    · intro pe' ranges data hok hdata
      obtain ⟨hcfg, hmem, _⟩ := (chunkTranslation_ok_same hok).kept
      rw [← hmem] at hdata
      rw [← hcfg]
      refine ⟨fun hty => ⟨fun hout => ?_, fun hin => ?_⟩, fun hty => ⟨fun hout => ?_, fun hin => ?_⟩⟩
      · exact (hchunk.step_localRead hty hok).trans (by rw [issueLocalRead_outside _ _ hout]; rfl)
      · have hsent := hchunk.step_localRead hty hok
        rw [issueLocalRead_inside _ _ hin, ← hdata] at hsent
        refine ⟨fun hkind => ?_, fun hdr hkind hhdr => ?_⟩
        · rw [chunkPacket_memory hkind] at hsent
          exact hsent
        · rw [chunkPacket_message hkind hhdr] at hsent
          exact hsent
      · exact (hchunk.step_localWrite hty hok).trans (by rw [issueLocalWrite_outside _ _ hout]; rfl)
      · exact (hchunk.step_localWrite hty hok).trans (by rw [issueLocalWrite_inside _ _ hin])
    · exact hchunk.step_eq.trans (by rw [hfault]; rfl)
    · exact hchunk.step_eq.trans (by rw [hmiss]; rfl)
    · exact hchunk.step_eq.trans (by rw [hwait]; rfl)
  · intro id c t hnext hc hpa ht
    obtain rfl : t = translate (.cache id) c.va c.size.toNat (cacheAccess c.kind) pe := ht
    have hstep := step_cacheTranslate hnext
    rw [cacheTranslateStep_untranslated _ hc hpa] at hstep
    refine ⟨fun pe' range hok => ?_, fun pe' hfault => ?_, fun pe' hmiss => ?_, fun hwait => ?_⟩
    · obtain ⟨hcfg, _, hreqs⟩ := (translate_ok_same hok).kept
      rw [← hcfg]
      refine ⟨(setCachePa id range.pa pe').cacheReqs, hstep.trans (by rw [hok]; rfl), ?_, fun d hd => ?_⟩
      · rw [lookup_setCachePa, hreqs, hc, Option.map_some, if_pos rfl]
      · simp only [lookup_setCachePa, hreqs, if_neg hd, Option.map_id']
    · exact hstep.trans (by rw [hfault]; rfl)
    · exact hstep.trans (by rw [hmiss]; rfl)
    · exact hstep.trans (by rw [hwait]; rfl)

end Sys2Proof.Machine
end

section
/-! SUPPORT. The Memory Unit (43_memory_unit.md R322 to R340), an equation for each case: which effect a packet has on its
destination, what every such effect leaves and answers, and the acceptance and the response of a cache request. -/

namespace Sys2Proof.Machine

/-! ### Which effect a packet has (R322 to R328, R338, R339) -/

/-- What serving a packet makes of its destination; of a command, which is no packet, nothing. -/
def packetEffect : Instr → Pe → Effect
  | .message h payload => receiveMessage h payload
  | .readReq h => serveRead h
  | .writeReq h payload => serveWrite h payload
  | .cacheMemReq h payload => serveCache h payload
  | .cacheMemReqFunc h payload => serveCache h payload
  | .reservedPkt5 h _ => serveReserved h
  | .reservedPkt6 h _ => serveReserved h
  | .reservedPkt7 h _ => serveReserved h
  | _ => fun pe => { pe := pe }

theorem exec_eq_serveAt {i : Instr} {h : PacketHead} (hi : instrHead i = some h) (s : State) :
    exec i s = serveAt s h fun _ pe => packetEffect i pe := by
  cases i with
  | message | readReq | writeReq | cacheMemReq | cacheMemReqFunc | reservedPkt5 | reservedPkt6 | reservedPkt7 =>
    cases hi
    rfl
  | _ => cases hi

theorem exec_packet_at {s : State} {pe : Pe} {i : Instr} {h : PacketHead} (hi : instrHead i = some h)
    (hp : s.pes[h.dstPe.toNat]? = some pe) : exec i s = .next (commit s h.dstPe.toNat (packetEffect i pe)) :=
  (exec_eq_serveAt hi s).trans (serveAt_some _ hp)

theorem exec_packet_nowhere {s : State} {i : Instr} {h : PacketHead} (hi : instrHead i = some h)
    (hp : s.pes[h.dstPe.toNat]? = none) :
    exec i s = .next { s with responses := s.responses ++ [responseTo h errNocError []] } := by
  rw [exec_eq_serveAt hi, serveAt, hp]

/-- The packets are the instructions of the NoC format (30_encoding.md R130). -/
theorem isSome_instrHead (i : Instr) : (instrHead i).isSome = (i.format == .noc) := by
  cases i <;> rfl

/-! ### Reads and writes of physical memory (R322 to R327) -/

theorem serveCache_read {h : PacketHead} (hw : h.write = false) (payload : List Byte) (pe : Pe) :
    serveCache h payload pe = serveRead h pe :=
  if_neg (by simp [hw])

theorem serveCache_write {h : PacketHead} (hw : h.write = true) (payload : List Byte) (pe : Pe) :
    serveCache h payload pe = serveWrite h payload pe :=
  if_pos hw

theorem serveRead_allowed {h : PacketHead} {pe : Pe}
    (hin : h.size.toNat = 0 ∨ h.addr.toNat + h.size.toNat ≤ pe.cfg.memSize) :
    serveRead h pe =
      { pe := pe, responses := [responseTo h errNone (readBytes pe.mem h.addr.toNat h.size.toNat)] } := by
  rw [serveRead, memRead_eq_some.2 ⟨hin, rfl⟩]

theorem serveRead_outside {h : PacketHead} {pe : Pe} (hne : h.size.toNat ≠ 0)
    (hout : pe.cfg.memSize < h.addr.toNat + h.size.toNat) :
    serveRead h pe = { pe := pe, responses := [responseTo h errMemOutOfBounds []] } := by
  rw [serveRead, memRead_eq_none.2 ⟨hne, hout⟩]

theorem serveWrite_allowed {h : PacketHead} {payload : List Byte} {pe : Pe}
    (hin : payload.length = 0 ∨ h.addr.toNat + payload.length ≤ pe.cfg.memSize) :
    serveWrite h payload pe =
      { pe := { pe with mem := writeBytes pe.mem h.addr.toNat payload }, responses := [responseTo h errNone []] } := by
  rw [serveWrite, memWrite_eq_some.2 ⟨hin, rfl⟩]

theorem serveWrite_outside {h : PacketHead} {payload : List Byte} {pe : Pe} (hne : payload.length ≠ 0)
    (hout : pe.cfg.memSize < h.addr.toNat + payload.length) :
    serveWrite h payload pe = { pe := pe, responses := [responseTo h errMemOutOfBounds []] } := by
  rw [serveWrite, memWrite_eq_none.2 ⟨hne, hout⟩]

/-! ### What serving leaves, and its one answer (R339, R340) -/

/-- `pe'` is `pe` but for what serving a packet can change: local memory, the endpoints, and of STATUS not BUSY. -/
def ServedFrom (pe pe' : Pe) : Prop :=
  ∃ mem eps status, pe' = { pe with mem := mem, eps := eps, status := status } ∧ statusBusy status = statusBusy pe.status

theorem ServedFrom.refl (pe : Pe) : ServedFrom pe pe := ⟨_, _, _, rfl, rfl⟩

theorem ServedFrom.trans {pe pe' pe'' : Pe} (h : ServedFrom pe pe') (h' : ServedFrom pe' pe'') : ServedFrom pe pe'' := by
  obtain ⟨_, _, _, rfl, hbusy⟩ := h
  obtain ⟨_, _, _, rfl, hbusy'⟩ := h'
  exact ⟨_, _, _, rfl, hbusy'.trans hbusy⟩

theorem ServedFrom.recvError (code : ErrorCode) (ep : EpId) (pe : Pe) : ServedFrom pe (recvError code ep pe) :=
  ⟨_, _, _, rfl, statusBusy_recordRecvErr ..⟩

theorem ServedFrom.grantCredit (c : EpId) (pe : Pe) : ServedFrom pe (grantCredit c pe) := by
  rcases grantCredit_cases c pe with ⟨_, _, h⟩ | h <;> rw [h]
  · exact ⟨_, _, _, rfl, rfl⟩
  · exact .recvError ..

/-- What every served packet makes of its destination `pe`: the Command Engine and the Transfer Unit are left, nothing is
requested, and one answer is sent, with a status that is not the transport's own. -/
structure Answered (h : PacketHead) (pe : Pe) (e : Effect) : Prop where
  served : ServedFrom pe e.pe
  requests : e.requests = []
  response : ∃ status data, status ≠ errNocError ∧ e.responses = [responseTo h status data]

theorem Answered.rejectMessage {code : ErrorCode} (hcode : code ≠ errNocError) (h : PacketHead) (pe : Pe) :
    Answered h pe (rejectMessage h code pe) :=
  ⟨.recvError .., rfl, _, _, hcode, rfl⟩

theorem Answered.receiveMessage (h : PacketHead) (payload : List Byte) (pe : Pe) :
    Answered h pe (receiveMessage h payload pe) := by
  rcases receiveMessage_cases h payload pe with hr | ⟨g, hg, hr⟩ <;> rw [hr]
  · exact .rejectMessage (by decide) h pe
  · have hgrant : ServedFrom pe g := by
      rcases hg with rfl | rfl
      · exact .refl _
      · exact .grantCredit ..
    rcases acceptMessage_cases h payload g with ⟨code, hcode, ha⟩ | ⟨_, _, _, _, ha⟩ <;> rw [ha]
    · exact ⟨hgrant.trans (.recvError ..), rfl, _, _, hcode, rfl⟩
    · exact ⟨hgrant.trans ⟨_, _, _, rfl, rfl⟩, rfl, _, _, by decide, rfl⟩

theorem Answered.serveRead (h : PacketHead) (pe : Pe) : Answered h pe (serveRead h pe) := by
  unfold Machine.serveRead
  split
  · exact ⟨.refl _, rfl, _, _, by decide, rfl⟩
  · exact ⟨.refl _, rfl, _, _, by decide, rfl⟩

theorem Answered.serveWrite (h : PacketHead) (payload : List Byte) (pe : Pe) : Answered h pe (serveWrite h payload pe) := by
  rcases serveWrite_cases h payload pe with hw | ⟨_, _, hw⟩ <;> rw [hw]
  · exact ⟨.refl _, rfl, _, _, by decide, rfl⟩
  · exact ⟨⟨_, _, _, rfl, rfl⟩, rfl, _, _, by decide, rfl⟩

theorem Answered.serveCache (h : PacketHead) (payload : List Byte) (pe : Pe) : Answered h pe (serveCache h payload pe) := by
  cases hw : h.write with
  | true => exact serveCache_write hw payload pe ▸ .serveWrite h payload pe
  | false => exact serveCache_read hw payload pe ▸ .serveRead h pe

theorem Answered.serveReserved (h : PacketHead) (pe : Pe) : Answered h pe (serveReserved h pe) :=
  ⟨.refl _, rfl, _, _, by decide, rfl⟩

theorem Answered.packetEffect {i : Instr} {h : PacketHead} (hi : instrHead i = some h) (pe : Pe) :
    Answered h pe (packetEffect i pe) := by
  cases i with
  | message _ payload => cases hi; exact .receiveMessage h payload pe
  | readReq => cases hi; exact .serveRead h pe
  | writeReq _ payload => cases hi; exact .serveWrite h payload pe
  | cacheMemReq _ payload | cacheMemReqFunc _ payload => cases hi; exact .serveCache h payload pe
  | reservedPkt5 | reservedPkt6 | reservedPkt7 => cases hi; exact .serveReserved h pe
  | _ => cases hi

/-- Serving a packet changes no PE but its destination, and that one only as `ServedFrom` allows (R340). -/
theorem exec_packet_servedFrom {s t : State} {i : Instr} (hnoc : i.format = .noc) (ht : exec i s = .next t) {p : Nat} {pe : Pe}
    (hp : s.pes[p]? = some pe) : ∃ pe', t.pes[p]? = some pe' ∧ ServedFrom pe pe' := by
  obtain ⟨h, hi⟩ : ∃ h, instrHead i = some h := Option.isSome_iff_exists.1 (by rw [isSome_instrHead, hnoc]; rfl)
  rw [exec_eq_serveAt hi] at ht
  rcases serveAt_next ht with ⟨dst, hdst, rfl⟩ | ⟨_, rfl⟩
  · by_cases hpd : h.dstPe.toNat = p
    · subst p
      cases hdst.symm.trans hp
      exact ⟨_, pes_set_get hp _, (Answered.packetEffect hi pe).served⟩
    · exact ⟨pe, (List.getElem?_set_ne hpd).trans hp, .refl _⟩
  · exact ⟨pe, hp, .refl _⟩

/-! ### The cache path (R330, R332) -/

theorem cacheAcceptable_iff {id : OpId} {req : CacheRequest} {pe : Pe} :
    cacheAcceptable id req pe = true ↔
      (∀ d ∈ pe.cacheReqs, d.1 ≠ id) ∧ 1 ≤ req.size.toNat ∧ req.size.toNat ≤ pe.cfg.maxNocPacketSize ∧
        (pe.cfg.vmEnabled = true → req.va.toNat % pe.cfg.pageSize + req.size.toNat ≤ pe.cfg.pageSize) ∧
        req.data.length = (if req.kind = .write then req.size.toNat else 0) := by
  have hfresh : (cacheEntry pe id).isNone = true ↔ ∀ d ∈ pe.cacheReqs, d.1 ≠ id := by
    simp only [cacheEntry, Option.isNone_iff_eq_none, List.lookup_eq_none_iff, bne_iff_ne, ne_comm]
  simp only [cacheAcceptable, Bool.and_eq_true, Bool.or_eq_true, Bool.not_eq_true', decide_eq_true_eq, hfresh, and_assoc]
  cases pe.cfg.vmEnabled <;> simp

theorem step_cacheRequest_accepted {s : State} {p : Nat} {pe : Pe} {id : OpId} {req : CacheRequest}
    (h : nextAt s (.cacheRequest p id req) p pe) (hok : cacheAcceptable id req pe = true) :
    step s =
      .next (commit (takeEvent s) p
        { pe :=
            { pe with
              cacheReqs := pe.cacheReqs ++
                [(id, { kind := req.kind, va := req.va, pa := none, size := req.size, data := req.data,
                        functional := req.functional })] } }) := by
  obtain ⟨hnext, hp⟩ := h
  rw [step, hnext, runEvent, stepCacheRequest, takeEvent_pes, hp]
  simp only [acceptCacheRequest, if_pos hok]

theorem cacheResponse_outstanding {pe : Pe} {bytes : List Byte} {d : CacheEntry}
    (h : (tagOp (responseTag bytes), d) ∈ pe.cacheReqs) (me : PeId) :
    cacheResponse me bytes pe =
      { pe := removeCacheReq (tagOp (responseTag bytes)) pe
        outputs := [.cacheAnswer me (tagOp (responseTag bytes)) (responseStatus bytes) (responseData bytes)] } := by
  cases hc : cacheEntry pe (tagOp (responseTag bytes)) with
  | some c => simp only [cacheResponse, hc]
  | none => simpa using List.lookup_eq_none_iff.1 hc _ h

end Sys2Proof.Machine
end

section
/-! PROOFS. The statements about the Memory Unit (43_memory_unit.md). -/

namespace Sys2Proof.Machine

/-- Settles O26: each of the three packets has the one effect of a read. -/
theorem readsAreServed : Obligations.ReadsAreServed := by
  intro s pe h payload i hp hi
  have hexec : exec i s = .next (commit s h.dstPe.toNat (serveRead h pe)) := by
    rcases hi with rfl | ⟨hw, hcache⟩
    · exact exec_packet_at rfl hp
    · rw [← serveCache_read hw payload]
      rcases hcache with rfl | rfl <;> exact exec_packet_at rfl hp
  rw [hexec]
  refine ⟨fun hin => ?_, fun hne hout => by rw [serveRead_outside hne hout]; rfl⟩
  exact ⟨readBytes pe.mem h.addr.toNat h.size.toNat, readBytes_length .., fun k hk => readBytes_getD _ _ _ k hk,
    by rw [serveRead_allowed hin]; rfl⟩

/-- Settles O27: each of the three packets has the one effect of a write. -/
theorem writesAreServed : Obligations.WritesAreServed := by
  intro s pe h payload i hp hwf hlen hi
  have hexec : exec i s = .next (commit s h.dstPe.toNat (serveWrite h payload pe)) := by
    rcases hi with rfl | ⟨hw, hcache⟩
    · exact exec_packet_at rfl hp
    · rw [← serveCache_write hw payload]
      rcases hcache with rfl | rfl <;> exact exec_packet_at rfl hp
  rw [hexec, ← hlen]
  refine ⟨fun hin => ?_, fun hne hout => by rw [serveWrite_outside hne hout]; rfl⟩
  exact ⟨writeBytes pe.mem h.addr.toNat payload, by rw [serveWrite_allowed hin]; rfl, readByte_writeBytes _ _ _ hwf⟩

/-- Settles O28: the three reserved types have one effect. -/
theorem reservedPacketsAreMalformed : Obligations.ReservedPacketsAreMalformed := by
  intro s pe h body i hp hi
  simp only [List.mem_cons, List.not_mem_nil, or_false] at hi
  rcases hi with rfl | rfl | rfl <;> exact exec_packet_at rfl hp

/-- Settles O29: the transport answers where there is no destination, and every effect of a packet carries one answer. -/
theorem everyPacketIsAnsweredOnce : Obligations.EveryPacketIsAnsweredOnce := by
  intro s h payload i hmem
  have hi : instrHead i = some h := by
    simp only [List.mem_cons, List.not_mem_nil, or_false] at hmem
    rcases hmem with rfl | rfl | rfl | rfl | rfl | rfl | rfl | rfl <;> rfl
  refine ⟨fun hnone => exec_packet_nowhere hi (List.getElem?_eq_none hnone), fun hdst => ?_⟩
  obtain ⟨_, hrequests, status, data, hstatus, hresponses⟩ := Answered.packetEffect hi s.pes[h.dstPe.toNat]
  refine ⟨_, _, status, data, exec_packet_at hi (List.getElem?_eq_getElem hdst), rfl, ?_, ?_, hstatus⟩
  · rw [commit_requests, hrequests, List.append_nil]
  · rw [commit_responses, hresponses, responseTo]

/-- Settles O30: only memory, endpoints and the receive error of STATUS change. -/
theorem servingLeavesTheCommandEngine : Obligations.ServingLeavesTheCommandEngine := by
  intro s t i hnoc ht p pe hp
  obtain ⟨pe', hp', _, _, _, rfl, hbusy⟩ := exec_packet_servedFrom hnoc ht hp
  exact ⟨_, hp', rfl, rfl, rfl, rfl, rfl, rfl, rfl, rfl, rfl, rfl, rfl, rfl, hbusy⟩

/-- Settles O36: without virtual memory the translation is the identity, and a response is the cache's by its tag. -/
theorem cachePath : Obligations.CachePath := by
  rintro s p pe id req c rfl
  refine ⟨fun hnext hfresh hpos hmax hpage hdata => ?_, fun hnext hc hvm => ?_, fun k r hat htag ⟨d, hd⟩ => ?_⟩
  · exact step_cacheRequest_accepted hnext (cacheAcceptable_iff.2 ⟨hfresh, hpos, hmax, hpage, hdata⟩)
  · refine ⟨(setCachePa id req.va pe).cacheReqs, ?_, ?_, fun d hd => ?_⟩
    · rw [step_cacheTranslate hnext, cacheTranslateStep_untranslated _ hc rfl, translate_physical hvm]
      rfl
    · rw [lookup_setCachePa, hc, Option.map_some, if_pos rfl]
    · simp only [lookup_setCachePa, if_neg hd, Option.map_id']
  · have hop : tagOp (responseTag r.bytes) = id := by rw [htag, tagOp_tagWord]
    rw [step_deliverResponse hat, takeDelivered_cache (by rw [htag, tagUnit_tagWord]),
      cacheResponse_outstanding (hop.symm ▸ hd), hop]
    rfl

end Sys2Proof.Machine
end

section
/-! SUPPORT. The TLB and the walk queue (44_translation_unit.md R351, R356 to R359): what a map reads after one of its keys was
left out and a key added, the fill of the TLB as such a change, and the walker's answer, an equation for each of its cases. -/

namespace Sys2Proof.Machine

/-! ### A map without one key -/

/-- The list of a map without the entry of one key. -/
def withoutKey (k : Nat) (m : List (Nat × PageEntry)) : List (Nat × PageEntry) := m.filter fun x => x.1 != k

theorem withoutKey_cons_same (k : Nat) (e : PageEntry) (m : List (Nat × PageEntry)) :
    withoutKey k ((k, e) :: m) = withoutKey k m := by simp [withoutKey]

theorem withoutKey_cons_other {k : Nat} {x : Nat × PageEntry} (h : x.1 ≠ k) (m : List (Nat × PageEntry)) :
    withoutKey k (x :: m) = x :: withoutKey k m := by simp [withoutKey, h]

theorem lookup_withoutKey (k u : Nat) (m : List (Nat × PageEntry)) :
    (withoutKey k m).lookup u = if u = k then none else m.lookup u := by
  induction m with
  | nil => simp [withoutKey]
  | cons x m ih =>
    obtain ⟨a, e⟩ := x
    by_cases ha : a = k
    · subst ha
      rw [withoutKey_cons_same, ih]
      split
      · rfl
      · rename_i hu
        rw [List.lookup_cons, beq_false_of_ne hu]
    · rw [withoutKey_cons_other ha, List.lookup_cons, List.lookup_cons, ih]
      split
      · rename_i hu
        rw [if_neg (beq_iff_eq.1 hu ▸ ha)]
      · rfl

theorem withoutKey_of_lookup_none {k : Nat} {m : List (Nat × PageEntry)} (h : m.lookup k = none) : withoutKey k m = m :=
  List.filter_eq_self.2 fun x hx => bne_iff_ne.2 (bne_iff_ne.1 (List.lookup_eq_none_iff.1 h x hx)).symm

theorem withoutKey_length_lt {k : Nat} {m : List (Nat × PageEntry)} (h : (m.lookup k).isSome = true) :
    (withoutKey k m).length < m.length := by
  obtain ⟨x, hx, hk⟩ := List.lookup_isSome_iff.1 h
  exact List.length_filter_lt_length_iff_exists.2 ⟨x, hx, by simpa using (beq_iff_eq.1 hk).symm⟩

/-- Where no key stands twice, the entry at a place is all that its key has. -/
theorem eraseIdx_eq_withoutKey {m : List (Nat × PageEntry)} (hm : (m.map Prod.fst).Nodup) {i : Nat} (hi : i < m.length) :
    m.eraseIdx i = withoutKey m[i].1 m := by
  induction m generalizing i with
  | nil => simp at hi
  | cons x m ih =>
    obtain ⟨hx, hm⟩ := List.nodup_cons.1 hm
    cases i with
    | zero =>
      refine (List.filter_eq_self.2 fun y hy => ?_).symm.trans (withoutKey_cons_same x.1 x.2 m).symm
      simpa using fun h : y.1 = x.1 => hx (h ▸ List.mem_map_of_mem hy)
    | succ i =>
      have hi : i < m.length := by simpa using hi
      have hne : x.1 ≠ m[i].1 := fun h => hx (h ▸ List.mem_map_of_mem (List.getElem_mem hi))
      rw [List.eraseIdx_cons_succ, ih hm hi, List.getElem_cons_succ, withoutKey_cons_other hne]

/-- A key added where it was not. -/
theorem nodup_keys_concat {m : List (Nat × PageEntry)} {k : Nat} (hm : (m.map Prod.fst).Nodup) (hk : m.lookup k = none)
    (e : PageEntry) : ((m ++ [(k, e)]).map Prod.fst).Nodup := by
  rw [List.map_append, List.map_singleton, ← List.concat_eq_append, List.nodup_concat]
  refine ⟨fun hmem => ?_, hm⟩
  obtain ⟨x, hx, rfl⟩ := List.mem_map.1 hmem
  simpa using List.lookup_eq_none_iff.1 hk x hx

/-! ### The fill of the TLB (R351) -/

theorem fillTlb_no_entries {pe : Pe} (h : pe.cfg.tlbEntries = 0) (me : PeId) (v : Nat) (e : PageEntry) :
    fillTlb me v e pe = pe := if_pos h

/-- The key that the fill of the TLB with an entry for page `v` leaves out: `v` itself, where the TLB holds it or has room, or
else, where it is full, some key that it holds. -/
structure FillDrops (pe : Pe) (v k : Nat) : Prop where
  makesRoom : (pe.tlb.lookup k).isSome = true ∨ pe.tlb.length < pe.cfg.tlbEntries
  self_or_full : k = v ∨ (pe.tlb.lookup v = none ∧ pe.cfg.tlbEntries ≤ pe.tlb.length)

/-- The fill of a TLB that has entries and is a map: one key is left out, and the page is added. -/
theorem fillTlb_eq (me : PeId) (v : Nat) (e : PageEntry) {pe : Pe} (hpos : 0 < pe.cfg.tlbEntries)
    (hmap : (pe.tlb.map Prod.fst).Nodup) :
    ∃ k draws, FillDrops pe v k ∧
      fillTlb me v e pe = { pe with tlb := withoutKey k pe.tlb ++ [(v, e)], draws := draws } := by
  rcases fillTlb_cases me v e pe with ⟨hzero, _⟩ | ⟨_, ⟨hheld, h⟩ | ⟨hnone, hroom, h⟩ | ⟨hnone, hfull, draw, h⟩⟩
  · omega
  · exact ⟨v, pe.draws, ⟨.inl hheld, .inl rfl⟩, h⟩
  · exact ⟨v, pe.draws, ⟨.inr hroom, .inl rfl⟩, by rw [withoutKey_of_lookup_none hnone, h]⟩
  · have hi : draw % pe.tlb.length < pe.tlb.length := Nat.mod_lt _ (by omega)
    refine ⟨pe.tlb[draw % pe.tlb.length].1, pe.draws + 1, ⟨.inl ?_, .inr ⟨hnone, hfull⟩⟩, ?_⟩
    · exact List.lookup_isSome_iff.2 ⟨_, List.getElem_mem hi, by simp⟩
    · rw [h, evictDrawn, eraseIdx_eq_withoutKey hmap hi]

namespace FillDrops

variable {pe : Pe} {v k : Nat}

theorem lookup_eq_none (h : FillDrops pe v k) : (withoutKey k pe.tlb).lookup v = none := by
  rw [lookup_withoutKey]
  rcases h.self_or_full with rfl | ⟨hnone, _⟩
  · exact if_pos rfl
  · simp [hnone]

theorem lookup_filled (h : FillDrops pe v k) (e : PageEntry) :
    (withoutKey k pe.tlb ++ [(v, e)]).lookup v = some e := by
  rw [List.lookup_append, h.lookup_eq_none]
  simp

/-- Every other page is as before, but the one left out. -/
theorem lookup_other {u : Nat} (hu : u ≠ v) (e : PageEntry) :
    (withoutKey k pe.tlb ++ [(v, e)]).lookup u = if u = k then none else pe.tlb.lookup u := by
  have hnone : [(v, e)].lookup u = none := by rw [List.lookup_cons, beq_false_of_ne hu, List.lookup_nil]
  rw [List.lookup_append, hnone, Option.or_none, lookup_withoutKey]

/-- A TLB that holds the page or has room loses no other one. -/
theorem eq_of_room (h : FillDrops pe v k)
    (hroom : (pe.tlb.lookup v).isSome = true ∨ pe.tlb.length < pe.cfg.tlbEntries) : k = v := by
  refine h.self_or_full.resolve_right fun ⟨hnone, hfull⟩ => ?_
  rcases hroom with hheld | hroom
  · simp [hnone] at hheld
  · omega

theorem lookup_none_or_same {u : Nat} (hu : u ≠ v) (e : PageEntry) :
    (withoutKey k pe.tlb ++ [(v, e)]).lookup u = none ∨
      (withoutKey k pe.tlb ++ [(v, e)]).lookup u = pe.tlb.lookup u := by
  rw [lookup_other hu]
  split
  · exact .inl rfl
  · exact .inr rfl

theorem lookup_same_of_room (h : FillDrops pe v k)
    (hroom : (pe.tlb.lookup v).isSome = true ∨ pe.tlb.length < pe.cfg.tlbEntries) {u : Nat} (hu : u ≠ v) (e : PageEntry) :
    (withoutKey k pe.tlb ++ [(v, e)]).lookup u = pe.tlb.lookup u := by
  rw [lookup_other hu, h.eq_of_room hroom, if_neg hu]

/-- The only other page that can be lost is the key left out. -/
theorem eq_of_lost {u : Nat} (hu : u ≠ v) (hheld : (pe.tlb.lookup u).isSome = true) {e : PageEntry}
    (hlost : (withoutKey k pe.tlb ++ [(v, e)]).lookup u = none) : u = k := by
  by_contra hne
  rw [lookup_other hu, if_neg hne] at hlost
  simp [hlost] at hheld

theorem length_le (h : FillDrops pe v k) (hle : pe.tlb.length ≤ pe.cfg.tlbEntries) (e : PageEntry) :
    (withoutKey k pe.tlb ++ [(v, e)]).length ≤ pe.cfg.tlbEntries := by
  rw [List.length_append, List.length_singleton]
  rcases h.makesRoom with hheld | hroom
  · have := withoutKey_length_lt hheld
    omega
  · have : (withoutKey k pe.tlb).length ≤ pe.tlb.length := List.length_filter_le _ _
    omega

theorem nodup_keys (h : FillDrops pe v k) (hmap : (pe.tlb.map Prod.fst).Nodup) (e : PageEntry) :
    ((withoutKey k pe.tlb ++ [(v, e)]).map Prod.fst).Nodup :=
  nodup_keys_concat (hmap.sublist (List.filter_sublist.map _)) h.lookup_eq_none e

end FillDrops

/-! ### The walker's answer (R352, R358, R359) -/

theorem takeAnswer_fault (me : PeId) (q : WalkRequest) (f : WalkFault) (pe : Pe) :
    takeAnswer me q (.fault f) pe = addResult q.owner (q.va.toNat / pe.cfg.pageSize) .faulted (removeWalk q.id pe) := rfl

theorem takeAnswer_forbidden {q : WalkRequest} {e : PageEntry} (h : permits e q.flags = false) (me : PeId) (pe : Pe) :
    takeAnswer me q (.ok e) pe = addResult q.owner (q.va.toNat / pe.cfg.pageSize) .faulted (removeWalk q.id pe) := by
  simp [takeAnswer, h]

theorem takeAnswer_permitted {q : WalkRequest} {e : PageEntry} (h : permits e q.flags = true) (me : PeId) (pe : Pe) :
    takeAnswer me q (.ok e) pe =
      addResult q.owner (q.va.toNat / pe.cfg.pageSize) (.ok e)
        (fillTlb me (q.va.toNat / pe.cfg.pageSize) e (removeWalk q.id pe)) := by
  simp [takeAnswer, h]

/-- Where ids are distinct, the walk of an id is the one that waits with it. -/
theorem walkAnswered_waiting {pe : Pe} {q : WalkRequest} (hids : (pe.tq.map WalkRequest.id).Nodup) (hq : q ∈ pe.tq)
    (me : PeId) (answer : WalkAnswer) : walkAnswered me q.id answer pe = some (takeAnswer me q answer pe) := by
  have hfind : pe.tq.find? (fun w => w.id == q.id) = some q := by
    cases hf : pe.tq.find? (fun w => w.id == q.id) with
    | none => simpa using List.find?_eq_none.1 hf q hq
    | some w =>
      have hid : w.id = q.id := by simpa using List.find?_some hf
      rw [List.inj_on_of_nodup_map hids (List.mem_of_find?_eq_some hf) hq hid]
  rw [walkAnswered, hfind, Option.map_some]

theorem step_walkAnswer {s : State} {p id : Nat} {pe pe' : Pe} {answer : WalkAnswer}
    (h : nextAt s (.walkAnswer p id answer) p pe) (ha : walkAnswered (peId p) id answer pe = some pe') :
    step s = .next (commit (takeEvent s) p { pe := pe' }) := by
  obtain ⟨hnext, hp⟩ := h
  rw [step, hnext, runEvent, stepPe_some (e := { pe := pe' }) (by rwa [takeEvent_pes]) (by rw [walkAnswerEffect, ha]; rfl)]

end Sys2Proof.Machine
end

section
/-! SUPPORT. What a step of a PE can do to its Translation Unit and to its context-switch session (44_translation_unit.md R351 to
R359, 45_ctxswitch.md R384 to R398), said once: a translation, the walker's answer, or a step of the context-switch engine; each
of these keeps the invariants of both. -/

namespace Sys2Proof.Machine

/-! ### The Translation Unit's part of a PE -/

/-- The Translation Unit's own state (R350), with the parameters. -/
structure TranslationView where
  cfg : PeConfig
  tlb : List (Nat × PageEntry)
  tq : List WalkRequest
  res : List WalkResult
  walkIds : Nat

def translationView (pe : Pe) : TranslationView where
  cfg := pe.cfg
  tlb := pe.tlb
  tq := pe.tq
  res := pe.res
  walkIds := pe.walkIds

/-- The invariant reads of a PE only this part. -/
theorem translationOk.of_view {pe pe' : Pe} (h : translationOk pe) (hview : translationView pe' = translationView pe) :
    translationOk pe' := by
  obtain ⟨cfg, tlb, tq, res, walkIds⟩ := TranslationView.mk.inj hview
  unfold translationOk
  rw [cfg, tlb, tq, res, walkIds]
  exact h

/-- A PE with the Translation Unit and the session of another. -/
def UnitsKept (pe pe' : Pe) : Prop := translationView pe' = translationView pe ∧ pe'.session = pe.session

theorem UnitsKept.refl (pe : Pe) : UnitsKept pe pe := ⟨rfl, rfl⟩

/-! ### What a step does to it -/

/-- What a translation leaves of a PE (R354): the owner's outcomes are consumed, or with virtual memory one walk is enqueued
where the queue has room. -/
inductive Translated (pe : Pe) : Pe → Prop where
  | kept : Translated pe pe
  | consumed (owner : Owner) : Translated pe (clearResults owner pe)
  | enqueued (owner : Owner) (v : Nat) (flags : Access) (hvm : pe.cfg.vmEnabled = true)
    (hroom : pe.tq.length < pe.cfg.transQueueDepth) : Translated pe (enqueueWalk owner v flags pe)

/-- The PE after a translation. -/
def Translation.after (pe : Pe) : Translation → Pe
  | .ok pe' _ => pe'
  | .fault pe' => pe'
  | .miss pe' => pe'
  | .wait => pe

theorem translated_translate (owner : Owner) (va : Word) (n : Nat) (flags : Access) (pe : Pe) :
    Translated pe ((translate owner va n flags pe).after pe) := by
  rcases translate_cases owner va n flags pe with ⟨_, h, _⟩ | ⟨_, h, _⟩ | ⟨h, _⟩ | ⟨v, h, hroom, hvm⟩ | ⟨h, _⟩ <;> rw [h]
  · exact .kept
  · exact .consumed owner
  · exact .consumed owner
  · exact .enqueued owner v flags hvm hroom
  · exact .kept

theorem translated_chunkTranslation (x : Xfer) (pe : Pe) : Translated pe ((chunkTranslation x pe).after pe) := by
  unfold chunkTranslation
  split
  · exact translated_translate ..
  · split <;> exact translated_translate ..

/-- What one step of a PE can do to its Translation Unit and its session. -/
inductive UnitsStepped (me : PeId) (pe : Pe) : Pe → Prop where
  | translation (pe' pe'' : Pe) (ht : Translated pe pe') (hkept : UnitsKept pe' pe'') : UnitsStepped me pe pe''
  | walkAnswer (id : Nat) (answer : WalkAnswer) (pe' : Pe) (h : walkAnswered me id answer pe = some pe') :
    UnitsStepped me pe pe'
  | ctxSwitch (e : Effect) (h : ctxSwitchStep me pe = some e) : UnitsStepped me pe e.pe

theorem UnitsStepped.of_kept {me : PeId} {pe pe' : Pe} (h : UnitsKept pe pe') : UnitsStepped me pe pe' :=
  .translation pe pe' .kept h

theorem issueChunk_unitsKept (me : PeId) (x : Xfer) (ranges : List PhysRange) (pe : Pe) :
    UnitsKept pe (issueChunk me x ranges pe).pe := by
  unfold issueChunk
  cases x.type with
  | localRead =>
    change UnitsKept pe (issueLocalRead me x ranges pe).pe
    rcases issueLocalRead_cases me x ranges pe with h | ⟨_, _, h⟩ <;> rw [h] <;> exact ⟨rfl, rfl⟩
  | localWrite =>
    change UnitsKept pe (issueLocalWrite me x ranges pe).pe
    rcases issueLocalWrite_cases me x ranges pe with h | ⟨_, h⟩ <;> rw [h] <;> exact ⟨rfl, rfl⟩

/-- Step A of a chunk changes the Translation Unit by its translation alone (42_transfer_unit.md R284, R285). -/
theorem transferStep_unitsStepped {me : PeId} {pe : Pe} {e : Effect} (h : transferStep me pe = some e) :
    UnitsStepped me pe e.pe := by
  obtain ⟨x, _, _, _, h⟩ := transferStep_enabled h
  rw [chunkStepA_eq] at h
  have ht := translated_chunkTranslation x pe
  cases heq : chunkTranslation x pe <;> rw [heq] at h ht <;> cases h
  · exact .translation _ _ ht (issueChunk_unitsKept ..)
  · exact .translation _ _ ht ⟨rfl, rfl⟩
  · exact .translation _ _ ht (.refl _)

/-- So does the translate step of the cache path (43_memory_unit.md R330). -/
theorem cacheTranslateStep_unitsStepped {me : PeId} {id : OpId} {pe : Pe} {e : Effect}
    (h : cacheTranslateStep me id pe = some e) : UnitsStepped me pe e.pe := by
  obtain ⟨c, _, hc, hpa, _⟩ := cacheTranslateStep_cases h
  rw [cacheTranslateStep_untranslated me hc hpa] at h
  have ht := translated_translate (.cache id) c.va c.size.toNat (cacheAccess c.kind) pe
  cases heq : translate (.cache id) c.va c.size.toNat (cacheAccess c.kind) pe <;> rw [heq] at h ht <;> cases h
  · exact .translation _ _ ht ⟨rfl, rfl⟩
  · exact .translation _ _ ht ⟨rfl, rfl⟩
  · exact .translation _ _ ht (.refl _)

theorem regWrite_unitsKept (i : Nat) (v : Word) (priv : Bool) (pe : Pe) : UnitsKept pe (regWrite i v priv pe) := by
  obtain ⟨_, _, _, _, _, _, _, _, _, _, _, _, h, _⟩ := regWrite_frame i v priv pe
  rw [h]
  exact ⟨rfl, rfl⟩

theorem receiveMessage_unitsKept (hd : PacketHead) (payload : List Byte) (pe : Pe) :
    UnitsKept pe (receiveMessage hd payload pe).pe := by
  rcases receiveMessage_cases hd payload pe with hr | ⟨g, hg, hr⟩ <;> rw [hr]
  · exact ⟨rfl, rfl⟩
  · have hkept : UnitsKept pe g := by
      rcases hg with rfl | rfl
      · exact .refl _
      · obtain ⟨_, _, hc⟩ := grantCredit_frame (decHdr payload).replyEpId pe
        rw [hc]
        exact ⟨rfl, rfl⟩
    rcases acceptMessage_cases hd payload g with ⟨_, _, ha⟩ | ⟨_, _, _, _, ha⟩ <;> rw [ha] <;> exact hkept

theorem chunkResponse_unitsKept (bytes : List Byte) (pe : Pe) : UnitsKept pe (chunkResponse bytes pe) := by
  rcases chunkResponse_cases bytes pe with hc | ⟨x, _, _, _, _, ⟨_, hc⟩ | ⟨m, hc, _⟩⟩ <;> rw [hc]
  · exact .refl _
  · exact ⟨rfl, rfl⟩
  · simp only [advanceChunk]
    split <;> exact ⟨rfl, rfl⟩

/-- Every step of a PE does one of these: the steps of the other units, the register writes and the environment leave both. -/
theorem PeStep.unitsStepped {ev : Event} {me : PeId} {pe : Pe} {e : Effect} (h : PeStep ev me pe e) :
    UnitsStepped me pe e.pe := by
  cases h with
  | transfer _ ht => exact transferStep_unitsStepped ht
  | cacheTranslate _ _ ht => exact cacheTranslateStep_unitsStepped ht
  | walkAnswer id answer _ ha => exact .walkAnswer id answer _ ha
  | ctxSwitch _ _ _ hc => exact .ctxSwitch _ hc
  | same _ hpe => exact .of_kept (hpe ▸ .refl pe)
  | write => exact .of_kept (regWrite_unitsKept ..)
  | receive => exact .of_kept (receiveMessage_unitsKept ..)
  | chunkResponse => exact .of_kept (chunkResponse_unitsKept ..)
  | wakeupCore | reserved7 | finish | coreWaiting | accelStateSize => exact .of_kept ⟨rfl, rfl⟩
  | send _ _ ep =>
    rcases sendExecute_cases ep me pe with ⟨_, hx⟩ | ⟨_, _, _, hx⟩ <;> rw [hx] <;> exact .of_kept ⟨rfl, rfl⟩
  | reply ep =>
    rcases replyExecute_cases ep me pe with ⟨_, hx⟩ | ⟨_, _, _, _, _, _, hx⟩ <;> rw [hx] <;> exact .of_kept ⟨rfl, rfl⟩
  | memory ty pm ep =>
    rcases memoryExecute_cases ty pm ep pe with ⟨_, hx⟩ | ⟨_, _, _, hx | ⟨_, hx⟩⟩ <;> rw [hx] <;>
      exact .of_kept ⟨rfl, rfl⟩
  | incReadPtr ep =>
    rcases incReadPtrExecute_cases ep pe with ⟨_, hx⟩ | ⟨_, _, hx⟩ <;> rw [hx] <;> exact .of_kept ⟨rfl, rfl⟩
  | serveWrite hd payload =>
    rcases serveWrite_cases hd payload pe with hx | ⟨_, _, hx⟩ <;> rw [hx] <;> exact .of_kept ⟨rfl, rfl⟩
  | cacheResponse bytes =>
    obtain ⟨_, hx⟩ := cacheResponse_frame me bytes pe
    rw [hx]
    exact .of_kept ⟨rfl, rfl⟩
  | store _ _ _ hw =>
    obtain ⟨_, rfl⟩ := memWrite_eq_some.1 hw
    exact .of_kept ⟨rfl, rfl⟩
  | accelContext _ _ _ ha =>
    obtain ⟨_, _, _, rfl⟩ := accelContextEffect_eq_some ha
    exact .of_kept ⟨rfl, rfl⟩
  | cacheRequest _ _ _ ha =>
    obtain ⟨_, rfl⟩ := acceptCacheRequest_frame ha
    exact .of_kept ⟨rfl, rfl⟩

/-! ### The invariant of the Translation Unit (R351, R356, R357) -/

/-- A translation keeps it: a walk enqueued has the fresh id, and there is room for it. -/
theorem translationOk.translated {pe pe' : Pe} (h : translationOk pe) (ht : Translated pe pe') : translationOk pe' := by
  obtain ⟨htlb, htq, hkeys, hids, hused, hphysical⟩ := h
  cases ht with
  | kept => exact ⟨htlb, htq, hkeys, hids, hused, hphysical⟩
  | consumed owner =>
    refine ⟨htlb, htq, hkeys, hids, hused, fun hvm => ?_⟩
    obtain ⟨hnoTlb, hnoTq, hnoRes⟩ := hphysical hvm
    exact ⟨hnoTlb, hnoTq, by simp [hnoRes]⟩
  | enqueued owner v flags hvm hroom =>
    refine ⟨htlb, by simpa using hroom, hkeys, ?_, ?_, by simp [hvm]⟩
    · rw [enqueueWalk_tq, List.map_append, List.map_singleton, ← List.concat_eq_append, List.nodup_concat]
      refine ⟨fun hmem => ?_, hids⟩
      obtain ⟨q, hq, hid⟩ := List.mem_map.1 hmem
      exact absurd hid (hused q hq).ne
    · intro q hq
      rw [enqueueWalk_walkIds]
      rcases List.mem_append.1 hq with hq | hq
      · have := hused q hq
        omega
      · rw [List.mem_singleton.1 hq]
        exact Nat.lt_succ_self _

theorem translationOk.removeWalk {pe : Pe} (h : translationOk pe) (id : Nat) : translationOk (removeWalk id pe) := by
  obtain ⟨htlb, htq, hkeys, hids, hused, hphysical⟩ := h
  refine ⟨htlb, (List.length_filter_le _ _).trans htq, hkeys, hids.sublist (List.filter_sublist.map _),
    fun q hq => hused q (List.mem_of_mem_filter hq), fun hvm => ?_⟩
  obtain ⟨hnoTlb, hnoTq, hnoRes⟩ := hphysical hvm
  exact ⟨hnoTlb, by simp [hnoTq], hnoRes⟩

theorem translationOk.addResult {pe : Pe} (h : translationOk pe) (hvm : pe.cfg.vmEnabled = true) (owner : Owner) (v : Nat)
    (outcome : WalkOutcome) : translationOk (addResult owner v outcome pe) := by
  obtain ⟨htlb, htq, hkeys, hids, hused, _⟩ := h
  exact ⟨htlb, htq, hkeys, hids, hused, by simp [hvm]⟩

@[simp] theorem fillTlb_cfg (me : PeId) (v : Nat) (e : PageEntry) (pe : Pe) : (fillTlb me v e pe).cfg = pe.cfg := by
  rcases fillTlb_cases me v e pe with ⟨_, h⟩ | ⟨_, ⟨_, h⟩ | ⟨_, _, h⟩ | ⟨_, _, _, h⟩⟩ <;> rw [h]

/-- The fill keeps the TLB a map within its bound (R351). -/
theorem translationOk.fillTlb {pe : Pe} (h : translationOk pe) (hvm : pe.cfg.vmEnabled = true) (me : PeId) (v : Nat)
    (e : PageEntry) : translationOk (fillTlb me v e pe) := by
  rcases Nat.eq_zero_or_pos pe.cfg.tlbEntries with hzero | hpos
  · rwa [fillTlb_no_entries hzero]
  · obtain ⟨htlb, htq, hkeys, hids, hused, _⟩ := h
    obtain ⟨k, draws, hdrops, heq⟩ := fillTlb_eq me v e hpos hkeys
    rw [heq]
    exact ⟨hdrops.length_le htlb e, htq, hdrops.nodup_keys hkeys e, hids, hused, by simp [hvm]⟩

/-- The walker's answer keeps it: without virtual memory no walk waits that it could answer. -/
theorem translationOk.walkAnswered {me : PeId} {id : Nat} {answer : WalkAnswer} {pe pe' : Pe} (h : translationOk pe)
    (ha : walkAnswered me id answer pe = some pe') : translationOk pe' := by
  simp only [Machine.walkAnswered, Option.map_eq_some_iff] at ha
  obtain ⟨q, hq, rfl⟩ := ha
  have hvm : pe.cfg.vmEnabled = true := by
    cases hvm : pe.cfg.vmEnabled with
    | true => rfl
    | false =>
      obtain ⟨_, _, _, _, _, hphysical⟩ := h
      rw [(hphysical hvm).2.1] at hq
      cases hq
  obtain ⟨v, outcome, _, ht | ⟨e, _, _, _, ht⟩⟩ := takeAnswer_cases me q answer pe <;> rw [ht]
  · exact (h.removeWalk q.id).addResult hvm ..
  · exact ((h.removeWalk q.id).fillTlb hvm me v e).addResult (by simpa using hvm) ..

/-- The context-switch engine leaves the Translation Unit. -/
theorem ctxSwitchStep_translationView {me : PeId} {pe : Pe} {e : Effect} (h : ctxSwitchStep me pe = some e) :
    translationView e.pe = translationView pe := by
  obtain ⟨c, c', _, _, _, _, hpe⟩ := ctxSwitchStep_cases h
  rcases hpe with hpe | ⟨_, _, _, _, hpe⟩ | ⟨_, _, hpe⟩ | ⟨op, off, n, hpe⟩ <;> rw [hpe]
  · rfl
  · rfl
  · rfl
  · exact (regWrite_unitsKept ..).1.trans <| (regWrite_unitsKept ..).1.trans <|
      (regWrite_unitsKept ..).1.trans (regWrite_unitsKept ..).1

theorem translationOk.unitsStepped {me : PeId} {pe pe' : Pe} (h : translationOk pe) (hs : UnitsStepped me pe pe') :
    translationOk pe' := by
  cases hs with
  | translation _ _ ht hkept => exact (h.translated ht).of_view hkept.1
  | walkAnswer _ _ _ ha => exact h.walkAnswered ha
  | ctxSwitch _ hc => exact h.of_view (ctxSwitchStep_translationView hc)

/-! ### The invariants of the context-switch session (45_ctxswitch.md R398) -/

/-- Where `byteOffset` runs over the context, or over the context and the extra state: at a multiple of what one step moves, or
at the end. -/
def OffsetOk (chunk total off : Nat) : Prop := off ≤ total ∧ (off % chunk = 0 ∨ off = total)

theorem OffsetOk.zero (chunk total : Nat) : OffsetOk chunk total 0 := ⟨Nat.zero_le _, .inl (Nat.zero_mod _)⟩

/-- The offset after one more step, of `chunk` bytes or of what is left. -/
theorem OffsetOk.advance {chunk total off : Nat} (h : OffsetOk chunk total off) :
    OffsetOk chunk total (off + min chunk (total - off)) := by
  obtain ⟨hle, hmult | hend⟩ := h
  · refine ⟨by omega, ?_⟩
    rcases Nat.le_total chunk (total - off) with hfull | hlast
    · rw [Nat.min_eq_left hfull, Nat.add_mod_right]
      exact .inl hmult
    · exact .inr (by omega)
  · exact ⟨by omega, .inr (by omega)⟩

/-- What the invariant asks of a session. -/
def Session.Ok (cfg : PeConfig) (c : Session) : Prop :=
  c.contextSize = cfg.ctxSize ∧
  (c.state.isLocal = true →
    c.byteOffset.toNat ≤ c.contextSize.toNat ∧
    (c.byteOffset.toNat % cfg.chunkSize = 0 ∨ c.byteOffset = c.contextSize)) ∧
  (c.state.isRemote = true →
    c.byteOffset.toNat ≤ sessionTotal c ∧
    (sessionTotal c < 2 ^ 64 →
      c.byteOffset.toNat % cfg.maxDataSize = 0 ∨ c.byteOffset.toNat = sessionTotal c)) ∧
  (c.state = .wait → c.ctxSwPending = true)

theorem sessionOk_iff (pe : Pe) : sessionOk pe ↔ ∀ c, pe.session = some c → c.Ok pe.cfg := Iff.rfl
/-- In a state in which the invariant says nothing of `byteOffset`. -/
theorem Session.Ok.outside {cfg : PeConfig} {c : Session} (hsize : c.contextSize = cfg.ctxSize)
    (hlocal : c.state.isLocal = false) (hremote : c.state.isRemote = false)
    (hwait : c.state = .wait → c.ctxSwPending = true) : c.Ok cfg :=
  ⟨hsize, by simp [hlocal], by simp [hremote], hwait⟩

/-- In any state but WAIT, with `byteOffset` at 0. -/
theorem Session.Ok.restart {cfg : PeConfig} {c : Session} (hsize : c.contextSize = cfg.ctxSize) (hoff : c.byteOffset = 0)
    (hwait : c.state ≠ .wait) : c.Ok cfg := by
  refine ⟨hsize, fun _ => ?_, fun _ => ?_, fun h => absurd h hwait⟩ <;> simp [hoff]

/-- In no state does `byteOffset` run over both. -/
theorem CtxState.not_isRemote_of_isLocal (st : CtxState) : st.isLocal = true → ¬ st.isRemote = true := by
  cases st <;> decide

theorem Session.Ok.of_local {cfg : PeConfig} {c : Session} (hsize : c.contextSize = cfg.ctxSize)
    (hlocal : c.state.isLocal = true) (hoff : OffsetOk cfg.chunkSize c.contextSize.toNat c.byteOffset.toNat) : c.Ok cfg := by
  obtain ⟨hle, hmult⟩ := hoff
  refine ⟨hsize, fun _ => ⟨hle, hmult.imp_right BitVec.eq_of_toNat_eq⟩, fun hremote => ?_, fun hwait => ?_⟩
  · exact absurd hremote (c.state.not_isRemote_of_isLocal hlocal)
  · rw [hwait] at hlocal
    cases hlocal

theorem Session.Ok.of_remote {cfg : PeConfig} {c : Session} (hsize : c.contextSize = cfg.ctxSize)
    (hremote : c.state.isRemote = true) (hle : c.byteOffset.toNat ≤ sessionTotal c)
    (hoff : sessionTotal c < 2 ^ 64 → OffsetOk cfg.maxDataSize (sessionTotal c) c.byteOffset.toNat) : c.Ok cfg := by
  refine ⟨hsize, fun hlocal => ?_, fun _ => ⟨hle, fun hlt => (hoff hlt).2⟩, fun hwait => ?_⟩
  · exact absurd hremote (c.state.not_isRemote_of_isLocal hlocal)
  · rw [hwait] at hremote
    cases hremote

/-- One chunk of the context (R388, R395): the next offset of the same state, or the state after the context. -/
theorem Session.Ok.afterLocalChunk {cfg : PeConfig} {c : Session} (h : c.Ok cfg) (hlocal : c.state.isLocal = true)
    {after : CtxState} {restart : Bool}
    (hend : ∀ off : Word, ({ c with byteOffset := if restart then 0 else off, state := after } : Session).Ok cfg) :
    (afterLocalChunk c (localChunk cfg c) after restart).Ok cfg := by
  simp only [Machine.afterLocalChunk]
  split
  · exact hend _
  · obtain ⟨hsize, hoff, _, _⟩ := h
    obtain ⟨hle, hmult⟩ := hoff hlocal
    have hnext := OffsetOk.advance ⟨hle, hmult.imp_right (congrArg BitVec.toNat)⟩
    have hlt := c.contextSize.isLt
    refine Session.Ok.of_local hsize hlocal ?_
    have htoNat : (c.byteOffset + BitVec.ofNat 64 (localChunk cfg c)).toNat = c.byteOffset.toNat + localChunk cfg c := by
      rw [BitVec.toNat_add, BitVec.toNat_ofNat, Nat.add_mod_mod]
      exact Nat.mod_eq_of_lt (hnext.1.trans_lt hlt)
    exact htoNat ▸ hnext

/-- Another state in which `byteOffset` runs over the same bytes. -/
theorem Session.Ok.withState {cfg : PeConfig} {c : Session} (h : c.Ok cfg) (hremote : c.state.isRemote = true)
    {st : CtxState} (hst : st.isRemote = true) : ({ c with state := st } : Session).Ok cfg := by
  obtain ⟨hsize, _, hoff, _⟩ := h
  obtain ⟨hle, hmult⟩ := hoff hremote
  exact Session.Ok.of_remote hsize hst hle fun hlt => ⟨hle, hmult hlt⟩

/-- After a command of the save or of the restore (R390, R394). -/
theorem Session.Ok.afterCommand {cfg : PeConfig} {c : Session} (h : c.Ok cfg) (hremote : c.state.isRemote = true)
    {st : CtxState} (hst : st.isRemote = true) :
    ({ c with byteOffset := BitVec.ofNat 64 (offsetAfterCommand cfg c), state := st } : Session).Ok cfg := by
  obtain ⟨hsize, _, hoff, _⟩ := h
  obtain ⟨hle, hmult⟩ := hoff hremote
  have htotal : offsetAfterCommand cfg c ≤ sessionTotal c := by
    unfold offsetAfterCommand remoteChunk
    omega
  refine Session.Ok.of_remote hsize hst ((BitVec.toNat_ofNat .. ▸ Nat.mod_le _ _).trans htotal) fun hlt => ?_
  have htoNat : (BitVec.ofNat 64 (offsetAfterCommand cfg c)).toNat = offsetAfterCommand cfg c := by
    rw [BitVec.toNat_ofNat]
    exact Nat.mod_eq_of_lt (htotal.trans_lt hlt)
  change OffsetOk _ (sessionTotal c) (BitVec.ofNat 64 (offsetAfterCommand cfg c)).toNat
  rw [htoNat]
  exact OffsetOk.advance ⟨hle, hmult hlt⟩

theorem Session.Ok.afterSaveCommand {cfg : PeConfig} {c : Session} (h : c.Ok cfg) (hremote : c.state.isRemote = true) :
    (afterSaveCommand cfg c).Ok cfg := by
  unfold Machine.afterSaveCommand
  split
  · exact h.afterCommand hremote rfl
  · exact .outside h.1 rfl rfl nofun

theorem Session.Ok.afterRestoreCommand {cfg : PeConfig} {c : Session} (h : c.Ok cfg) (hremote : c.state.isRemote = true) :
    (afterRestoreCommand cfg c).Ok cfg := by
  unfold Machine.afterRestoreCommand
  split
  · exact h.afterCommand hremote rfl
  · exact .restart h.1 rfl nofun

/-- FLAGS goes to WAIT only while a switch is pending (R386). -/
theorem ctxFlags_ok {cfg : PeConfig} {c : Session} (h : c.Ok cfg) (me : PeId) (pe : Pe) :
    ∃ c', (ctxFlags me c pe).pe.session = some c' ∧ c'.Ok cfg := by
  unfold ctxFlags
  split
  · exact ⟨_, rfl, .restart h.1 rfl nofun⟩
  split
  · exact ⟨_, rfl, .outside h.1 rfl rfl nofun⟩
  split
  · exact ⟨_, rfl, .outside h.1 rfl rfl nofun⟩
  split
  · rename_i hpending
    exact ⟨_, rfl, .outside h.1 rfl rfl fun _ => hpending⟩
  · exact ⟨_, rfl, .outside h.1 rfl rfl nofun⟩

/-- The session after a step of the engine meets the invariant, state by state. -/
theorem sessionStep_ok {me : PeId} {c : Session} {pe : Pe} {e : Effect} (h : c.Ok pe.cfg)
    (hs : sessionStep me c pe = some e) : ∃ c', e.pe.session = some c' ∧ c'.Ok pe.cfg := by
  have hsize : c.contextSize = pe.cfg.ctxSize := h.1
  cases hst : c.state <;> simp only [sessionStep, hst] at hs
  case check =>
    simp only [ctxCheck, Option.map_eq_some_iff] at hs
    obtain ⟨_, _, rfl⟩ := hs
    exact ⟨_, rfl, .outside hsize rfl rfl nofun⟩
  case flags =>
    cases hs
    exact ctxFlags_ok h me pe
  case save =>
    cases hs
    exact ⟨_, rfl, .restart hsize rfl nofun⟩
  case saveWrite =>
    unfold ctxSaveWrite at hs
    split at hs
    · cases hs
      exact ⟨_, rfl, .restart hsize rfl nofun⟩
    · simp only [Option.map_eq_some_iff] at hs
      obtain ⟨_, _, rfl⟩ := hs
      exact ⟨_, rfl, h.afterLocalChunk (by rw [hst]; rfl) fun _ => .restart hsize rfl nofun⟩
  case saveSend =>
    unfold ctxSaveSend at hs
    split at hs
    · cases hs
      exact ⟨_, rfl, .outside hsize rfl rfl nofun⟩
    split at hs <;> cases hs
    exact ⟨_, rfl, h.withState (by rw [hst]; rfl) rfl⟩
  case saveWait =>
    unfold ctxSaveWait at hs
    split at hs
    · cases hs
    split at hs <;> cases hs
    · exact ⟨_, rfl, .outside hsize rfl rfl nofun⟩
    · exact ⟨_, rfl, h.afterSaveCommand (by rw [hst]; rfl)⟩
  case saveDone =>
    simp only [ctxSaveDone, Option.map_eq_some_iff] at hs
    obtain ⟨_, _, rfl⟩ := hs
    exact ⟨_, rfl, .outside hsize rfl rfl fun _ => rfl⟩
  case wait =>
    cases hs
    exact ⟨_, rfl, .outside hsize rfl rfl nofun⟩
  case restore =>
    unfold ctxRestore at hs
    split at hs
    · cases hs
      exact ⟨_, rfl, .restart hsize rfl nofun⟩
    split at hs <;> cases hs
    exact ⟨_, rfl, h.withState (by rw [hst]; rfl) rfl⟩
  case restoreWait =>
    unfold ctxRestoreWait at hs
    split at hs
    · cases hs
    split at hs <;> cases hs
    · exact ⟨_, rfl, .restart hsize rfl nofun⟩
    · exact ⟨_, rfl, h.afterRestoreCommand (by rw [hst]; rfl)⟩
  case restoreRead =>
    unfold ctxRestoreRead at hs
    split at hs
    · cases hs
      exact ⟨_, rfl, .outside hsize rfl rfl nofun⟩
    · simp only [Option.map_eq_some_iff] at hs
      obtain ⟨_, _, rfl⟩ := hs
      exact ⟨_, rfl, h.afterLocalChunk (by rw [hst]; rfl) fun _ => .outside hsize rfl rfl nofun⟩
  case restoreDone =>
    simp only [ctxRestoreDone, Option.map_eq_some_iff] at hs
    obtain ⟨_, _, rfl⟩ := hs
    exact ⟨_, rfl, .outside hsize rfl rfl nofun⟩

/-- The invariant reads of a PE only its session and its parameters. -/
theorem sessionOk.of_eq {pe pe' : Pe} (h : sessionOk pe) (hsession : pe'.session = pe.session) (hcfg : pe'.cfg = pe.cfg) :
    sessionOk pe' := by
  rw [sessionOk_iff, hsession, hcfg]
  exact h

theorem sessionOk.ctxSwitchStep {me : PeId} {pe : Pe} {e : Effect} (h : sessionOk pe)
    (hs : ctxSwitchStep me pe = some e) : sessionOk e.pe := by
  have hcfg : e.pe.cfg = pe.cfg := congrArg TranslationView.cfg (ctxSwitchStep_translationView hs)
  obtain ⟨c, _, hc, hstep, _⟩ := ctxSwitchStep_cases hs
  obtain ⟨c', hc', hok⟩ := sessionStep_ok (h c hc) hstep
  rw [sessionOk_iff, hc', hcfg]
  rintro _ ⟨rfl⟩
  exact hok

/-- Only the engine's own step changes the session (R384). -/
theorem sessionOk.unitsStepped {me : PeId} {pe pe' : Pe} (h : sessionOk pe) (hs : UnitsStepped me pe pe') :
    sessionOk pe' := by
  cases hs with
  | translation _ _ ht hkept =>
    obtain ⟨hview, hsession⟩ := hkept
    refine sessionOk.of_eq ?_ hsession (congrArg TranslationView.cfg hview)
    cases ht <;> exact h
  | walkAnswer _ _ _ ha =>
    obtain ⟨_, _, _, _, rfl⟩ := walkAnswered_frame ha
    exact h
  | ctxSwitch _ hc => exact h.ctxSwitchStep hc

end Sys2Proof.Machine
end

section
/-! SUPPORT. A translation page by page (44_translation_unit.md R354, R356, R357, R361): what the loop does at the first page
that is not ready, which page each byte of an access is in, and where the bytes of its ranges stand. -/

namespace Sys2Proof.Machine

/-! ### The first page that is not ready (R354, R356, R357) -/

/-- The translation at hand of a page: the owner's own outcome, or else the TLB's entry. -/
abbrev pageEntry (pe : Pe) (owner : Owner) (v : Nat) : Option PageEntry := (resOk pe owner v).or (pe.tlb.lookup v)

/-- A fault waits for the owner, or the translation at hand forbids the access. -/
def PageFaults (pe : Pe) (owner : Owner) (flags : Access) (v : Nat) : Prop :=
  resFaulted pe owner v = true ∨ ∃ e, pageEntry pe owner v = some e ∧ permits e flags = false

theorem translatePages_faults {owner : Owner} {flags : Access} {pe : Pe} {p : PagePiece}
    (h : PageFaults pe owner flags p.vpn) (ps : List PagePiece) (acc : List PhysRange) :
    translatePages owner flags pe (p :: ps) acc = .fault (clearResults owner pe) := by
  rw [translatePages]
  split
  · rfl
  · rename_i hno
    obtain ⟨e, he, hforbid⟩ := h.resolve_left hno
    simp [tlbLookup, he, hforbid]

theorem translatePages_misses {owner : Owner} {pe : Pe} {p : PagePiece} (hno : resFaulted pe owner p.vpn = false)
    (hnone : pageEntry pe owner p.vpn = none) (flags : Access) (ps : List PagePiece) (acc : List PhysRange) :
    translatePages owner flags pe (p :: ps) acc =
      if walkPending pe owner p.vpn = true ∨ pe.cfg.transQueueDepth ≤ pe.tq.length then .wait
      else .miss (enqueueWalk owner p.vpn flags pe) := by
  rw [translatePages]
  simp only [tlbLookup, hno, hnone, Bool.false_eq_true, if_false, ge_iff_le]
  by_cases hpending : walkPending pe owner p.vpn = true <;> simp [hpending]

theorem translatePages_hit {owner : Owner} {pe : Pe} {p : PagePiece} {e : PageEntry}
    (hno : resFaulted pe owner p.vpn = false) (he : pageEntry pe owner p.vpn = some e) {flags : Access}
    (hpermit : permits e flags = true) (ps : List PagePiece) (acc : List PhysRange) :
    translatePages owner flags pe (p :: ps) acc =
      translatePages owner flags pe ps (acc ++ [pieceRange pe.cfg.pageSize e p]) := by
  rw [translatePages]
  simp [tlbLookup, hno, he, hpermit]

/-! ### The pages of an access -/

theorem translate_pages {pe : Pe} (hvm : pe.cfg.vmEnabled = true) {n : Nat} (hn : n ≠ 0) (owner : Owner) (va : Word)
    (flags : Access) :
    translate owner va n flags pe = translatePages owner flags pe (pagePieces pe.cfg.pageSize va n) [] := by
  simp [translate, hvm, hn]

theorem translate_empty {pe : Pe} (hvm : pe.cfg.vmEnabled = true) (owner : Owner) (va : Word) (flags : Access) :
    translate owner va 0 flags pe = .ok pe [] := by
  simp [translate, hvm]

/-- An access in one page is one piece. -/
theorem pagePieces_one_page {pageSize n : Nat} {va : Word} (hn : n ≠ 0) (hpage : va.toNat % pageSize + n ≤ pageSize)
    (hspace : va.toNat + n ≤ 2 ^ 64) :
    pagePieces pageSize va n = [{ vpn := va.toNat / pageSize, offset := va.toNat % pageSize, len := n }] := by
  have hlen : min n (min (pageSize - va.toNat % pageSize) (2 ^ 64 - va.toNat)) = n := by omega
  rw [pagePieces, pagePiecesFuel, if_neg hn]
  simp only [hlen, Nat.sub_self]
  rw [pagePiecesFuel, if_pos rfl]

theorem translate_one_page {pe : Pe} (hvm : pe.cfg.vmEnabled = true) {n : Nat} {va : Word} (hn : n ≠ 0)
    (hpage : va.toNat % pe.cfg.pageSize + n ≤ pe.cfg.pageSize) (hspace : va.toNat + n ≤ 2 ^ 64) (owner : Owner)
    (flags : Access) :
    translate owner va n flags pe =
      translatePages owner flags pe
        [{ vpn := va.toNat / pe.cfg.pageSize, offset := va.toNat % pe.cfg.pageSize, len := n }] [] := by
  rw [translate_pages hvm hn, pagePieces_one_page hn hpage hspace]

/-- The page of byte `k` of an access. -/
abbrev bytePage (pageSize : Nat) (va : Word) (k : Nat) : Nat := (va.toNat + k) % 2 ^ 64 / pageSize

theorem pieceBytes_append (ps qs : List PagePiece) : pieceBytes (ps ++ qs) = pieceBytes ps ++ pieceBytes qs :=
  List.flatMap_append

theorem pieceBytes_length (ps : List PagePiece) : (pieceBytes ps).length = (ps.map PagePiece.len).sum := by
  simp [pieceBytes, List.length_flatMap]

theorem pieceBytes_pagePieces_getElem? {pageSize : Nat} (hsize : ∃ j, pageSize = 2 ^ j) (va : Word) {n k : Nat} (hk : k < n) :
    (pieceBytes (pagePieces pageSize va n))[k]? =
      some (bytePage pageSize va k, (va.toNat + k) % 2 ^ 64 % pageSize) := by
  rw [pieceBytes_pagePieces pageSize hsize, accessBytes, List.getElem?_map, List.getElem?_range hk]
  rfl

/-- The first pieces of an access are in the pages of its first bytes. -/
theorem vpn_eq_bytePage {pageSize : Nat} (hsize : ∃ j, pageSize = 2 ^ j) {va : Word} {n : Nat} {before after : List PagePiece}
    (h : pagePieces pageSize va n = before ++ after) {q : PagePiece} (hq : q ∈ before) :
    ∃ k < (pieceBytes before).length, k < n ∧ q.vpn = bytePage pageSize va k := by
  have hpos : ∀ p ∈ before, 0 < p.len := fun p hp =>
    pagePiecesFuel_pos pageSize (by obtain ⟨j, rfl⟩ := hsize; exact Nat.two_pow_pos j) _ _ _ va.isLt p
      (h ▸ List.mem_append_left after hp : p ∈ pagePieces pageSize va n)
  obtain ⟨k, o, hk⟩ := byte_of_piece before hpos q hq
  have hlt := (List.getElem?_eq_some_iff.1 hk).1
  have hall : (accessBytes pageSize va.toNat n)[k]? = some (q.vpn, o) := by
    rw [← pieceBytes_pagePieces pageSize hsize, h, pieceBytes_append, List.getElem?_append_left hlt, hk]
  simp only [accessBytes, List.getElem?_map, Option.map_eq_some_iff, Prod.mk.injEq] at hall
  obtain ⟨a, ha, hvpn, _⟩ := hall
  obtain ⟨hkn, rfl⟩ := List.getElem?_eq_some_iff.1 ha
  rw [List.length_range] at hkn
  exact ⟨k, hlt, hkn, by rw [← hvpn, List.getElem_range]⟩

/-- Where the pages of the bytes before byte `k` are ready, the page of byte `k` is the next that is looked at. -/
theorem translate_reaches {pe : Pe} (hvm : pe.cfg.vmEnabled = true) (hsize : ∃ j, pe.cfg.pageSize = 2 ^ j) {owner : Owner}
    {va : Word} {n : Nat} {flags : Access} {k : Nat} (hk : k < n)
    (hready : ∀ j < k, PageReady pe owner flags (bytePage pe.cfg.pageSize va j)) :
    ∃ p ps acc, p.vpn = bytePage pe.cfg.pageSize va k ∧
      translate owner va n flags pe = translatePages owner flags pe (p :: ps) acc := by
  obtain ⟨before, p, after, hpieces, hlen, hvpn⟩ :=
    piece_of_byte _ _ _ _ (pieceBytes_pagePieces_getElem? hsize va hk)
  obtain ⟨acc, hloop, _⟩ := translatePages_ready pe owner flags before (p :: after) [] fun q hq => by
    obtain ⟨j, hj, _, hq⟩ := vpn_eq_bytePage hsize hpieces hq
    exact hq ▸ hready j (hj.trans_le hlen)
  exact ⟨p, after, _, hvpn, by rw [translate_pages hvm (by omega), hpieces, hloop]⟩

/-! ### Where the bytes stand (R354, R361) -/

/-- A piece lies in one page, and does not pass the end of the address space. -/
def PagePiece.Fits (pageSize : Nat) (p : PagePiece) : Prop := p.offset + p.len ≤ pageSize ∧ p.offset + p.len ≤ 2 ^ 64

theorem pagePiecesFuel_fits {pageSize : Nat} (hsize : 0 < pageSize) (fuel : Nat) {va : Nat} (hva : va < 2 ^ 64) (n : Nat) :
    ∀ p ∈ pagePiecesFuel pageSize fuel va n, p.Fits pageSize := by
  induction fuel generalizing va n with
  | zero => simp [pagePiecesFuel]
  | succ fuel ih =>
    rw [pagePiecesFuel]
    split
    · simp
    · refine List.forall_mem_cons.2 ⟨?_, ih (Nat.mod_lt _ (by omega)) _⟩
      have hin := Nat.mod_lt va hsize
      have hle := Nat.mod_le va pageSize
      constructor <;> simp only [] <;> omega

/-- The bytes of a page at page number `a` stand one after the other, addresses modulo 2^64. -/
theorem pageAddr_mod (a j : Nat) :
    ∃ base, ∀ o, o < 2 ^ j → o < 2 ^ 64 → (a * 2 ^ j + o) % 2 ^ 64 = base + o := by
  rcases Nat.le_total j 64 with hj | hj
  · refine ⟨2 ^ j * (a % 2 ^ (64 - j)), fun o ho _ => ?_⟩
    have hsplit : (2 : Nat) ^ 64 = 2 ^ j * 2 ^ (64 - j) := by rw [← Nat.pow_add, Nat.add_sub_cancel' hj]
    rw [hsplit, Nat.mod_mul, Nat.mul_add_mod_of_lt ho, Nat.mul_comm a, Nat.mul_add_div (Nat.two_pow_pos j),
      Nat.div_eq_of_lt ho, Nat.add_zero, Nat.add_comm]
  · refine ⟨0, fun o _ ho => ?_⟩
    obtain ⟨c, hc⟩ := Nat.pow_dvd_pow 2 hj
    rw [hc, Nat.mul_comm a, Nat.mul_assoc, Nat.mul_add_mod, Nat.zero_add, Nat.mod_eq_of_lt ho]

/-- Each byte of a piece's range stands at its page's physical page and its offset. -/
theorem pieceRange_byte {pageSize : Nat} (hsize : ∃ j, pageSize = 2 ^ j) (e : PageEntry) {p : PagePiece}
    (hfits : p.Fits pageSize) {i : Nat} (hi : i < p.len) :
    (pieceRange pageSize e p).pa.toNat + i = (e.ppn.toNat * pageSize + (p.offset + i)) % 2 ^ 64 := by
  obtain ⟨j, rfl⟩ := hsize
  obtain ⟨hpage, hspace⟩ := hfits
  obtain ⟨base, hbase⟩ := pageAddr_mod e.ppn.toNat j
  rw [pieceRange, BitVec.toNat_ofNat, hbase _ (by omega) (by omega), hbase _ (by omega) (by omega), Nat.add_assoc]

/-- The ranges of some pieces, one for each, under the entries of their pages. -/
def RangesOf (pe : Pe) (owner : Owner) (ps : List PagePiece) (rs : List PhysRange) : Prop :=
  List.Forall₂ (fun p r => ∃ e, pageEntry pe owner p.vpn = some e ∧ r = pieceRange pe.cfg.pageSize e p) ps rs

theorem RangesOf.lens {pe : Pe} {owner : Owner} {ps : List PagePiece} {rs : List PhysRange} (h : RangesOf pe owner ps rs) :
    rs.map PhysRange.len = ps.map PagePiece.len := by
  induction h with
  | nil => rfl
  | cons hpr _ ih =>
    obtain ⟨_, _, rfl⟩ := hpr
    rw [List.map_cons, List.map_cons, ih, pieceRange]

theorem RangesOf.byte {pe : Pe} {owner : Owner} {ps : List PagePiece} {rs : List PhysRange} (h : RangesOf pe owner ps rs)
    (hsize : ∃ j, pe.cfg.pageSize = 2 ^ j) (hfits : ∀ p ∈ ps, p.Fits pe.cfg.pageSize) {k v o : Nat}
    (hk : (pieceBytes ps)[k]? = some (v, o)) {e : PageEntry} (he : pageEntry pe owner v = some e) :
    (rangeAddrs rs)[k]? = some ((e.ppn.toNat * pe.cfg.pageSize + o) % 2 ^ 64) := by
  induction h generalizing k with
  | nil => cases hk
  | @cons p r ps rs hpr _ ih =>
    obtain ⟨e', he', rfl⟩ := hpr
    obtain ⟨hp, hps⟩ := List.forall_mem_cons.1 hfits
    rw [pieceBytes_cons] at hk
    rw [rangeAddrs_cons]
    rcases Nat.lt_or_ge k p.len with hlt | hge
    · rw [List.getElem?_append_left (by simpa using hlt), List.getElem?_map, List.getElem?_range hlt] at hk
      obtain ⟨rfl, rfl⟩ := Prod.mk.inj (Option.some.inj hk)
      cases he'.symm.trans he
      have hlen : k < (pieceRange pe.cfg.pageSize e p).len := hlt
      rw [List.getElem?_append_left (by simpa using hlen), List.getElem?_range' hlen, Nat.one_mul,
        pieceRange_byte hsize e hp hlt]
    · rw [List.getElem?_append_right (by simpa using hge)] at hk
      rw [List.getElem?_append_right (by simpa [pieceRange] using hge)]
      simp only [List.length_map, List.length_range, List.length_range'] at hk ⊢
      exact ih hps hk

/-- Where every page is ready, the translation succeeds with one range for each piece. -/
theorem translate_ready {pe : Pe} (hvm : pe.cfg.vmEnabled = true) (hsize : ∃ j, pe.cfg.pageSize = 2 ^ j) {owner : Owner}
    {va : Word} {n : Nat} {flags : Access} (hn : n ≠ 0)
    (hready : ∀ k < n, PageReady pe owner flags (bytePage pe.cfg.pageSize va k)) :
    ∃ rs, translate owner va n flags pe = .ok (clearResults owner pe) rs ∧
      RangesOf pe owner (pagePieces pe.cfg.pageSize va n) rs := by
  obtain ⟨rs, hloop, hrs⟩ := translatePages_ready pe owner flags (pagePieces pe.cfg.pageSize va n) [] [] fun q hq => by
    obtain ⟨k, _, hk, hq⟩ := vpn_eq_bytePage hsize (List.append_nil _).symm hq
    exact hq ▸ hready k hk
  rw [List.append_nil, List.nil_append, translatePages] at hloop
  exact ⟨rs, (translate_pages hvm hn ..).trans hloop, hrs⟩

end Sys2Proof.Machine
end

section
/-! PROOFS. The statements about the Translation Unit (44_translation_unit.md). -/

namespace Sys2Proof.Machine

/-- Settles O50: a step of a PE does to these two units a translation, the walker's answer or a step of the context-switch
engine, each of which keeps both invariants, and local memory is no part of either. -/
theorem translationAndSessionInvariantsAreKept : Obligations.TranslationAndSessionInvariantsAreKept := by
  intro s t h
  exact ⟨fun hs => everyPe_step (fun _ _ _ _ hok hstep => translationOk.unitsStepped hok hstep.unitsStepped)
      (fun _ _ hok _ => hok) hs h,
    fun hs => everyPe_step (fun _ _ _ _ hok hstep => sessionOk.unitsStepped hok hstep.unitsStepped)
      (fun _ _ hok _ => hok) hs h⟩

/-- Settles O37: the access is one piece, and the loop of the translation looks at its page alone. -/
theorem translateInOnePage : Obligations.TranslateInOnePage := by
  rintro pe owner va n flags _ hvm hn rfl - hpage hspace cleared
  rw [translate_one_page hvm (Nat.pos_iff_ne_zero.1 hn) hpage hspace]
  refine ⟨fun hfault => translatePages_faults (.inl hfault) _ _, fun hno => ⟨fun e he => ?_, fun hnone => ?_⟩⟩
  · cases hpermit : permits e flags with
    | true => exact translatePages_hit hno he hpermit _ _
    | false => exact translatePages_faults (.inr ⟨e, he, hpermit⟩) _ _
  · exact translatePages_misses hno hnone flags _ _

/-- Settles O39: the pieces of the access cover its bytes in order, each ready piece has a range of its length, and the loop
ends at the first piece that is not ready, which is that of the first byte whose page is not. -/
theorem rangesCoverTheAccess : Obligations.RangesCoverTheAccess := by
  refine fun pe owner va n flags => ⟨fun hvm => translate_physical hvm owner va n flags, fun hvm hlog => ?_⟩
  have hsize : ∃ j, pe.cfg.pageSize = 2 ^ j := ⟨_, hlog⟩
  refine ⟨fun hready => ?_, fun k hk hready => ?_⟩
  · rcases Nat.eq_zero_or_pos n with rfl | hn
    · exact ⟨[], translate_empty hvm owner va flags, rfl, nofun⟩
    · obtain ⟨rs, htranslate, hrs⟩ := translate_ready hvm hsize hn.ne' hready
      refine ⟨rs, by rw [htranslate, if_neg hn.ne']; rfl, ?_, fun k hk e he => ?_⟩
      · rw [hrs.lens, ← pieceBytes_length, pieceBytes_pagePieces _ hsize]
        simp
      · have hpos : 0 < pe.cfg.pageSize := hlog ▸ Nat.two_pow_pos _
        exact hrs.byte hsize (pagePiecesFuel_fits hpos _ va.isLt n) (pieceBytes_pagePieces_getElem? hsize va hk) he
  · obtain ⟨p, ps, acc, hvpn, hloop⟩ := translate_reaches hvm hsize hk hready
    rw [hloop]
    refine ⟨fun hfaults => translatePages_faults (hvpn ▸ hfaults) ps acc, fun hno hnone => ?_⟩
    rw [translatePages_misses (hvpn ▸ hno) (hvpn ▸ hnone), hvpn]
    rfl

/-- Settles O40: the walk of the id is the owner's, as ids are distinct; and the fill leaves out one page at most. -/
theorem walkAnswerResumesOrFaults : Obligations.WalkAnswerResumesOrFaults := by
  rintro s p pe _ q answer _ hnext ⟨_, _, hmap, hids, _, _⟩ hq rfl rfl after
  have hstep := step_walkAnswer hnext (walkAnswered_waiting hids hq (peId p) answer)
  refine ⟨?_, ?_, ?_⟩
  · rintro f rfl
    exact hstep
  · rintro e rfl hforbid
    rw [takeAnswer_forbidden hforbid] at hstep
    exact hstep
  · rintro e rfl hpermit
    rw [takeAnswer_permitted hpermit] at hstep
    rcases Nat.eq_zero_or_pos pe.cfg.tlbEntries with hzero | hpos
    · rw [fillTlb_no_entries (by exact hzero)] at hstep
      exact ⟨pe.tlb, pe.draws, hstep, fun _ => rfl, fun hpos => absurd hzero hpos.ne'⟩
    · obtain ⟨k, draws, ⟨hroom, hself⟩, hfill⟩ := fillTlb_eq (pe := removeWalk q.id pe) (peId p) _ e hpos hmap
      have hdrops : FillDrops pe (q.va.toNat / pe.cfg.pageSize) k := ⟨hroom, hself⟩
      rw [hfill] at hstep
      refine ⟨_, draws, hstep, fun hzero => absurd hzero hpos.ne', fun _ => ⟨hdrops.lookup_filled e, fun u hu => ?_,
        fun hroom u hu => ?_, fun u w hu hw hheld hheld' hlost hlost' => ?_⟩⟩
      · exact FillDrops.lookup_none_or_same hu e
      · exact hdrops.lookup_same_of_room hroom hu e
      · exact (FillDrops.eq_of_lost hu hheld hlost).trans (FillDrops.eq_of_lost hw hheld' hlost').symm

end Sys2Proof.Machine
end

section
/-! SUPPORT. Who may change the accelerator's context (45_ctxswitch.md R384): what each step of a PE leaves of the session and of
the context buffer, and what the accelerator's stores are while it may run and while it is frozen. -/

namespace Sys2Proof.Machine

/-! ### When the accelerator may run -/

theorem accelMayRun_iff (c : Session) :
    accelMayRun c = true ↔ (c.state = .check ∨ c.state = .flags) ∧ c.ctxSwPending = false := by
  simp [accelMayRun]

/-- The accelerator is frozen outside CHECK and FLAGS, and while a switch is pending. -/
theorem accelMayRun_eq_false_iff (c : Session) :
    accelMayRun c = false ↔ (c.state ≠ .check ∧ c.state ≠ .flags) ∨ c.ctxSwPending = true := by
  rw [← Bool.not_eq_true, accelMayRun_iff, not_and_or, not_or, Bool.not_eq_false]

/-! ### The stores of the accelerator -/

theorem accelContextEffect_frozen {pe : Pe} {c : Session} (hc : pe.session = some c) (hfrozen : accelMayRun c = false)
    (off : Nat) (bytes : List Byte) : accelContextEffect off bytes pe = none := by
  simp [accelContextEffect, hc, hfrozen]

theorem accelContextEffect_inside {pe : Pe} {c : Session} {off : Nat} {bytes : List Byte} (hc : pe.session = some c)
    (hrun : accelMayRun c = true) (hin : off + bytes.length ≤ c.contextSize.toNat) :
    accelContextEffect off bytes pe = some { pe := { pe with ctx := writeBytes pe.ctx off bytes } } := by
  simp [accelContextEffect, hc, hrun, hin]

theorem accelContextEffect_outside {pe : Pe} {c : Session} {off : Nat} {bytes : List Byte} (hc : pe.session = some c)
    (hout : c.contextSize.toNat < off + bytes.length) : accelContextEffect off bytes pe = none := by
  simp [accelContextEffect, hc, Nat.not_le.2 hout]

theorem accelExtraEffect_frozen {pe : Pe} {c : Session} (hc : pe.session = some c) (hfrozen : accelMayRun c = false)
    (off : Nat) (bytes : List Byte) : accelExtraEffect off bytes pe = none := by
  simp [accelExtraEffect, hc, hfrozen]

/-- A store into the extra state is a store into local memory, from `BUFFER_ADDR + CTX_SIZE` on (R381). -/
theorem accelExtraEffect_inside {pe : Pe} {c : Session} {off : Nat} {bytes : List Byte} (hc : pe.session = some c)
    (hrun : accelMayRun c = true) (hin : off + bytes.length ≤ pe.accelStateSize.toNat) :
    accelExtraEffect off bytes pe = coreStoreEffect (accelExtraAddr pe c off) bytes pe := by
  simp [accelExtraEffect, coreStoreEffect, hc, hrun, hin]

theorem accelExtraEffect_outside {pe : Pe} {c : Session} {off : Nat} {bytes : List Byte} (hc : pe.session = some c)
    (hout : pe.accelStateSize.toNat < off + bytes.length) : accelExtraEffect off bytes pe = none := by
  simp [accelExtraEffect, hc, Nat.not_le.2 hout]

theorem mayOverlap_accelExtra_frozen {pe : Pe} {c : Session} (hc : pe.session = some c) (hfrozen : accelMayRun c = false)
    (off : Nat) (bytes : List Byte) : mayOverlap pe (.accelExtra off bytes) = false := by
  simp [mayOverlap, hc, hfrozen]

/-! ### What a step of a PE leaves of the context -/

/-- The session of a PE is kept, and its context buffer while the accelerator is frozen. -/
def ContextKept (pe pe' : Pe) : Prop :=
  pe'.session = pe.session ∧ ∀ c, pe.session = some c → accelMayRun c = false → pe'.ctx = pe.ctx

theorem ContextKept.of_eq {pe pe' : Pe} (hsession : pe'.session = pe.session) (hctx : pe'.ctx = pe.ctx) :
    ContextKept pe pe' := ⟨hsession, fun _ _ _ => hctx⟩

theorem ContextKept.refl (pe : Pe) : ContextKept pe pe := .of_eq rfl rfl

theorem receiveMessage_ctx (hd : PacketHead) (payload : List Byte) (pe : Pe) :
    (receiveMessage hd payload pe).pe.ctx = pe.ctx := by
  rcases receiveMessage_cases hd payload pe with hr | ⟨g, hg, hr⟩ <;> rw [hr]
  · rfl
  · have hgrant : g.ctx = pe.ctx := by
      rcases hg with rfl | rfl
      · rfl
      · obtain ⟨_, _, hc⟩ := grantCredit_frame (decHdr payload).replyEpId pe
        rw [hc]
    rcases acceptMessage_cases hd payload g with ⟨_, _, ha⟩ | ⟨_, _, _, _, ha⟩ <;> rw [ha] <;> exact hgrant

theorem chunkResponse_ctx (bytes : List Byte) (pe : Pe) : (chunkResponse bytes pe).ctx = pe.ctx := by
  rcases chunkResponse_cases bytes pe with hc | ⟨x, _, _, _, _, ⟨_, hc⟩ | ⟨m, hc, _⟩⟩ <;> rw [hc]
  · rfl
  · simp only [advanceChunk]
    split <;> rfl

/-- Only the context-switch engine's step changes the session, and beside it only the accelerator's own store, while it may
run, the context buffer. -/
theorem PeStep.contextKept {ev : Event} {me : PeId} {pe : Pe} {e : Effect} (h : PeStep ev me pe e)
    (hev : ∀ q, ev ≠ .ctxSwitch q) : ContextKept pe e.pe := by
  cases h with
  | ctxSwitch q hq => exact absurd hq (hev q)
  | accelContext off bytes _ ha =>
    obtain ⟨_, _, _, rfl⟩ := accelContextEffect_eq_some ha
    refine ⟨rfl, fun c hc hfrozen => ?_⟩
    rw [accelContextEffect_frozen hc hfrozen] at ha
    cases ha
  | same _ hpe => exact hpe ▸ .refl pe
  | write => exact .of_eq (regWrite_session ..) (regWrite_ctx ..)
  | receive _ _ hd payload => exact .of_eq (receiveMessage_unitsKept hd payload pe).2 (receiveMessage_ctx hd payload pe)
  | chunkResponse bytes => exact .of_eq (chunkResponse_unitsKept bytes pe).2 (chunkResponse_ctx bytes pe)
  | wakeupCore | reserved7 | finish | coreWaiting | accelStateSize => exact .of_eq rfl rfl
  | send _ _ ep =>
    rcases sendExecute_cases ep me pe with ⟨_, hx⟩ | ⟨_, _, _, hx⟩ <;> rw [hx] <;> exact .of_eq rfl rfl
  | reply ep =>
    rcases replyExecute_cases ep me pe with ⟨_, hx⟩ | ⟨_, _, _, _, _, _, hx⟩ <;> rw [hx] <;> exact .of_eq rfl rfl
  | memory ty pm ep =>
    rcases memoryExecute_cases ty pm ep pe with ⟨_, hx⟩ | ⟨_, _, _, hx | ⟨_, hx⟩⟩ <;> rw [hx] <;> exact .of_eq rfl rfl
  | incReadPtr ep =>
    rcases incReadPtrExecute_cases ep pe with ⟨_, hx⟩ | ⟨_, _, hx⟩ <;> rw [hx] <;> exact .of_eq rfl rfl
  | transfer _ ht =>
    obtain ⟨_, _, _, _, ht⟩ := transferStep_enabled ht
    obtain ⟨_, ⟨_, _, _, rfl⟩, rfl | ⟨_, rfl⟩ | ⟨_, _, _, rfl⟩ | ⟨_, _, _, rfl⟩⟩ := chunkStepA_cases ht <;>
      exact .of_eq rfl rfl
  | serveWrite hd payload =>
    rcases serveWrite_cases hd payload pe with hx | ⟨_, _, hx⟩ <;> rw [hx] <;> exact .of_eq rfl rfl
  | cacheResponse bytes =>
    obtain ⟨_, hx⟩ := cacheResponse_frame me bytes pe
    rw [hx]
    exact .of_eq rfl rfl
  | store _ _ _ hw =>
    obtain ⟨_, rfl⟩ := memWrite_eq_some.1 hw
    exact .of_eq rfl rfl
  | cacheRequest _ _ _ ha =>
    obtain ⟨_, rfl⟩ := acceptCacheRequest_frame ha
    exact .of_eq rfl rfl
  | cacheTranslate _ _ ht =>
    obtain ⟨_, _, _, _, ⟨_, _, _, rfl⟩, rfl | rfl | ⟨_, rfl⟩⟩ := cacheTranslateStep_cases ht <;> exact .of_eq rfl rfl
  | walkAnswer _ _ _ ha =>
    obtain ⟨_, _, _, _, rfl⟩ := walkAnswered_frame ha
    exact .of_eq rfl rfl

/-! ### What a step of the system leaves of the context -/

/-- An agent's step leaves a PE as it was, or its event concerns the PE and it does to it a step of a PE. -/
theorem Ran.pe_same_or_concerned {ev : Event} {s t : State} (h : Ran ev s t) {p : Nat} {pe : Pe} (hp : s.pes[p]? = some pe) :
    t.pes[p]? = some pe ∨ ∃ e, concerns s ev p ∧ PeStep ev (peId p) pe e ∧ t.pes[p]? = some e.pe := by
  rcases h with ⟨hpes, _⟩ | ⟨q, pe', e, hconcerns, hq, hstep, hpes, _⟩
  · exact .inl (hpes ▸ hp)
  · by_cases hqp : q = p
    · subst q
      rw [hp] at hq
      cases hq
      exact .inr ⟨e, hconcerns, hstep, hpes ▸ pes_set_get hp _⟩
    · exact .inl (by rw [hpes, List.getElem?_set_ne hqp, hp])

/-- The step of another PE's engine does not concern the PE. -/
theorem Ran.contextKept {ev : Event} {s t : State} (h : Ran ev s t) {p : Nat} {pe : Pe} (hp : s.pes[p]? = some pe)
    (hev : stepsCtxSwitch p ev = false) : ∃ pe', t.pes[p]? = some pe' ∧ ContextKept pe pe' := by
  rcases h.pe_same_or_concerned hp with ht | ⟨e, hconcerns, hstep, ht⟩
  · exact ⟨pe, ht, .refl pe⟩
  · refine ⟨e.pe, ht, hstep.contextKept ?_⟩
    rintro q rfl
    have hq : q = p := by simpa [concerns, eventPe, deliveredTo] using hconcerns
    simp [stepsCtxSwitch, hq] at hev

theorem stepsCtxSwitch_racerEvent (p q : Nat) (r : Racer) (order : List (Nat × Nat)) (s : State) :
    stepsCtxSwitch p (racerEvent s q r) = stepsCtxSwitch p (.race q r order) := by
  cases r <;> simp [racerEvent, stepsCtxSwitch]

/-- Every step of the system in which the engine of a PE takes none keeps the context of that PE: the parts and the steps of
accesses that overlap others replace beside this only bytes of local memory. -/
theorem step_contextKept {s t : State} (h : step s = .next t) {p : Nat} {pe pe' : Pe} (hp : s.pes[p]? = some pe)
    (hp' : t.pes[p]? = some pe') (hev : stepsCtxSwitch p (nextEvent s) = false) : ContextKept pe pe' := by
  have htaken : (takeEvent s).pes[p]? = some pe := by rwa [takeEvent_pes]
  rcases step_cases h with hran | ⟨q, r, bytes, _, rfl⟩ | ⟨q, r, order, cells, kept, u, hrace, _, _, _, _, hran, rfl⟩
  · obtain ⟨pe1, h1, hkept⟩ := hran.contextKept hp hev
    rw [h1] at hp'
    cases hp'
    exact hkept
  · obtain ⟨m, hm⟩ := withBytes_pe htaken q (partCells s.accesses q r bytes (takeEvent s))
    rw [hm] at hp'
    cases hp'
    exact .refl pe
  · obtain ⟨m, hm⟩ := withBytes_pe htaken q cells
    rw [hrace, ← stepsCtxSwitch_racerEvent p q r order (withBytes (takeEvent s) q cells)] at hev
    obtain ⟨pe1, h1, hkept⟩ := hran.contextKept hm hev
    obtain ⟨m', hm'⟩ := withBytes_pe h1 q (cellsAt (memoryAt s q) kept)
    rw [hm'] at hp'
    cases hp'
    exact hkept

/-! ### The accelerator frozen -/

/-- The step of an access that may not be in progress and is not enabled changes nothing, whatever its agent has stored. -/
theorem stepRace_passed {s : State} {p : Nat} {pe : Pe} {r : Racer} (hp : s.pes[p]? = some pe) (hwf : Memory.wf pe.mem)
    (hmay : mayOverlap pe r = false) (hrun : runRacer p r s = .next s) (order : List (Nat × Nat)) (l : List OpenAccess) :
    stepRace p r order l s = .next s := by
  have hcells : raceCells l p r order s = [] := by
    unfold raceCells
    split
    · rw [raceOrder_of_not_overlap hp hmay]
      rfl
    · rfl
  unfold stepRace
  split
  · rw [hcells, withBytes_nil, hrun, memoryAt_some hp]
    refine congrArg Host.Outcome.next ?_
    rw [withBytes_withMemAt hp, putBytes_cellsAt _ _ hwf, withMemAt_self hp]
  · rfl

end Sys2Proof.Machine
end

section
/-! SUPPORT. The steps of the context-switch engine (45_ctxswitch.md R385 to R397), an equation for each case of each state: the
session and the PE after the step, or that there is none; before them the bytes that these steps copy and the flag word that they
write, and what the stores of the core, the scheduler and the accelerator make of the system. -/

namespace Sys2Proof.Machine

/-! ### Bytes copied from one memory to another -/

theorem readBytes_add (m : Memory) (a n k : Nat) : readBytes m a (n + k) = readBytes m a n ++ readBytes m (a + n) k := by
  simp only [readBytes_eq_map, ← List.map_append, ← List.range'_append_1]

theorem writeBytes_append (m : Memory) (a : Nat) (bs bs' : List Byte) :
    writeBytes m a (bs ++ bs') = writeBytes (writeBytes m a bs) (a + bs.length) bs' := by
  induction bs generalizing m a with
  | nil => rfl
  | cons b bs ih =>
    rw [List.cons_append, writeBytes, ih, writeBytes, List.length_cons, Nat.add_right_comm, Nat.add_assoc a]

/-- The memory `dst` with the `n` bytes from `a` on copied from those of `src` from `b` on. -/
def copyBytes (dst : Memory) (a : Nat) (src : Memory) (b n : Nat) : Memory := writeBytes dst a (readBytes src b n)

/-- The bytes that follow are copied next. -/
theorem copyBytes_add (dst : Memory) (a : Nat) (src : Memory) (b n k : Nat) :
    copyBytes (copyBytes dst a src b n) (a + n) src (b + n) k = copyBytes dst a src b (n + k) := by
  simp only [copyBytes, readBytes_add, writeBytes_append, readBytes_length]

theorem readByte_copyBytes {dst : Memory} (hwf : Memory.wf dst) (a : Nat) (src : Memory) (b n x : Nat) :
    readByte (copyBytes dst a src b n) x = if a ≤ x ∧ x < a + n then readByte src (b + (x - a)) else readByte dst x := by
  rw [copyBytes, readByte_writeBytes _ _ _ hwf, readBytes_length]
  split
  · rw [readBytes_getD _ _ _ _ (by omega)]
  · rfl

/-! ### The bytes of a word -/

theorem toLE_getD {n i : Nat} (h : i < n) (v : Nat) : (toLE n v).getD i 0#8 = BitVec.ofNat 8 (v / 256 ^ i) := by
  induction n generalizing i v with
  | zero => omega
  | succ n ih =>
    cases i with
    | zero => simp [toLE]
    | succ i => rw [toLE, List.getD_cons_succ, ih (by omega), Nat.div_div_eq_div_mul, Nat.pow_succ']

/-- Byte `i` of a word is its bits `8*i` to `8*i + 7`. -/
theorem wordBytes_getD {i : Nat} (h : i < 8) (w : Word) : (wordBytes w).getD i 0#8 = w.extractLsb' (8 * i) 8 := by
  rw [wordBytes, toLE_getD h]
  apply BitVec.eq_of_toNat_eq
  rw [BitVec.extractLsb'_toNat, BitVec.toNat_ofNat, Nat.shiftRight_eq_div_pow, Nat.pow_mul]

theorem readByte_withFlagWord {pe : Pe} (hwf : Memory.wf pe.mem) (v : Word) (x : Nat) :
    readByte (withFlagWord pe v) x =
      if pe.cfg.rctmuxFlags.toNat ≤ x ∧ x < pe.cfg.rctmuxFlags.toNat + 8 then
        v.extractLsb' (8 * (x - pe.cfg.rctmuxFlags.toNat)) 8
      else readByte pe.mem x := by
  rw [withFlagWord, readByte_writeBytes _ _ _ hwf, wordBytes_length]
  split
  · exact wordBytes_getD (by omega) v
  · rfl

/-! ### Steps of the system -/

/-- An event that is a step of one PE: its effect is committed, or it is passed over. -/
theorem step_onePe {s : State} {e : Event} {p : Nat} {pe : Pe} {f : PeId → Pe → Option Effect} (h : nextAt s e p pe)
    (hrun : runEvent e s.accesses (takeEvent s) = .next (stepPe (takeEvent s) p f)) :
    step s = .next ((f (peId p) pe).elim (takeEvent s) (commit (takeEvent s) p)) := by
  obtain ⟨hnext, hp⟩ := h
  rw [step, hnext, hrun, stepPe_elim f (by rwa [takeEvent_pes])]

theorem step_ctxSwitch {s : State} {p : Nat} {pe : Pe} {c : Session} (h : nextAt s (.ctxSwitch p) p pe)
    (hc : pe.session = some c) :
    step s = .next ((sessionStep (peId p) c pe).elim (takeEvent s) (commit (takeEvent s) p)) := by
  rw [step_onePe h rfl]
  simp only [ctxSwitchStep, hc]

theorem step_ctxSwitch_enabled {s : State} {p : Nat} {pe : Pe} {c : Session} {e : Effect}
    (h : nextAt s (.ctxSwitch p) p pe) (hc : pe.session = some c) (he : sessionStep (peId p) c pe = some e) :
    step s = .next (commit (takeEvent s) p e) := by
  rw [step_ctxSwitch h hc, he]
  rfl

/-- A step of the engine that is not enabled is passed over. -/
theorem step_ctxSwitch_stuck {s : State} {p : Nat} {pe : Pe} {c : Session} (h : nextAt s (.ctxSwitch p) p pe)
    (hc : pe.session = some c) (he : sessionStep (peId p) c pe = none) : step s = .next (takeEvent s) := by
  rw [step_ctxSwitch h hc, he]
  rfl

theorem step_coreStore {s : State} {p : Nat} {pe : Pe} {addr : Word} {bytes : List Byte}
    (h : nextAt s (.coreStore p addr bytes) p pe) :
    step s = .next ((coreStoreEffect addr bytes pe).elim (takeEvent s) (commit (takeEvent s) p)) :=
  step_onePe h rfl

/-- The scheduler's write is a store of a word at the flag word (R383). -/
theorem step_schedulerStore {s : State} {p : Nat} {pe : Pe} {v : Word} (h : nextAt s (.schedulerWrite p v) p pe) :
    step s =
      .next ((coreStoreEffect pe.cfg.rctmuxFlags (wordBytes v) pe).elim (takeEvent s) (commit (takeEvent s) p)) :=
  step_onePe h rfl

theorem step_accelContext {s : State} {p : Nat} {pe : Pe} {off : Nat} {bytes : List Byte}
    (h : nextAt s (.accelContext p off bytes) p pe) :
    step s = .next ((accelContextEffect off bytes pe).elim (takeEvent s) (commit (takeEvent s) p)) :=
  step_onePe h rfl

theorem step_accelExtra {s : State} {p : Nat} {pe : Pe} {off : Nat} {bytes : List Byte}
    (h : nextAt s (.accelExtra p off bytes) p pe) :
    step s = .next ((accelExtraEffect off bytes pe).elim (takeEvent s) (commit (takeEvent s) p)) :=
  step_onePe h rfl

theorem coreStoreEffect_outside {addr : Word} {bytes : List Byte} {pe : Pe} (hne : bytes ≠ [])
    (hout : pe.cfg.memSize < addr.toNat + bytes.length) : coreStoreEffect addr bytes pe = none := by
  rw [coreStoreEffect, memWrite_eq_none.2 ⟨mt List.length_eq_zero_iff.1 hne, hout⟩]
  rfl

/-! ### CHECK, FLAGS, SAVE and WAIT (R385, R386, R387, R392) -/

section
variable {me : PeId} {c : Session} {pe : Pe}

theorem sessionStep_check_inside (hst : c.state = .check) (hin : pe.cfg.rctmuxFlags.toNat + 8 ≤ pe.cfg.memSize) :
    sessionStep me c pe = some { pe := setSession { c with flags := flagWord pe pe.mem, state := .flags } pe } := by
  simp only [sessionStep, hst, ctxCheck, memRead_eq_some.2 ⟨.inr hin, rfl⟩, Option.map_some, flagWord]

theorem sessionStep_check_outside (hst : c.state = .check) (hout : pe.cfg.memSize < pe.cfg.rctmuxFlags.toNat + 8) :
    sessionStep me c pe = none := by
  simp only [sessionStep, hst, ctxCheck, memRead_eq_none.2 ⟨Nat.succ_ne_zero 7, hout⟩, Option.map_none]

/-- RESTORE, STORE and WAITING are bits 0, 1 and 2 of the flag word (R382). -/
theorem ctxFlags_eq (me : PeId) (c : Session) (pe : Pe) :
    ctxFlags me c pe =
      if c.flags.getLsbD 0 = true then
        { pe := setSession { c with stateSize := pe.accelStateSize, byteOffset := 0, state := .restore } pe }
      else if c.flags.getLsbD 1 = true then { pe := setSession { c with state := .save } pe }
      else if c.flags.getLsbD 2 = true then { pe := setSession { c with state := .restoreDone } pe }
      else if c.ctxSwPending = true then { pe := setSession { c with state := .wait } pe }
      else { pe := setSession { c with state := .check } pe, outputs := [.notYet me] } := rfl

theorem sessionStep_flags (hst : c.state = .flags) : sessionStep me c pe = some (ctxFlags me c pe) := by
  simp only [sessionStep, hst]

theorem sessionStep_save (hst : c.state = .save) :
    sessionStep me c pe =
      some { pe := setSession { c with stateSize := pe.accelStateSize, byteOffset := 0, state := .saveWrite } pe } := by
  simp only [sessionStep, hst, ctxSave]

theorem sessionStep_wait (hst : c.state = .wait) :
    sessionStep me c pe = some { pe := setSession { c with state := .check } pe } := by
  simp only [sessionStep, hst, ctxWait]

/-! ### SAVE_SEND and RESTORE (R389, R393, R397) -/

/-- Four register writes of a client while no command runs: the three arguments, then the word that starts the command. -/
theorem issueCommand_idle {op : BitVec 3} (hidle : pe.cmdInProgress = false) (hop : op ≠ 0#3) (off : Word) (n : Nat) :
    issueCommand op off n pe =
      commandStarted op pe.cfg.contextEp
        { pe with cmdDataAddr := pe.cfg.bufferAddr + off, cmdDataSize := BitVec.ofNat 64 n, cmdOffset := off } := by
  have haddr (v : Word) : regWrite 2 v false pe = { pe with cmdDataAddr := v } := writeArgument_idle hidle _
  have hsize (q : Pe) (hq : q.cmdInProgress = false) (v : Word) : regWrite 3 v false q = { q with cmdDataSize := v } :=
    writeArgument_idle hq _
  have hoff (q : Pe) (hq : q.cmdInProgress = false) (v : Word) : regWrite 4 v false q = { q with cmdOffset := v } :=
    writeArgument_idle hq _
  rw [issueCommand, haddr, hsize, hoff, regWrite_commandWord _ hop] <;> exact hidle

/-- A command started by the write of its word, field by field (40_command_engine.md R202). -/
theorem commandStarted_eq (op : BitVec 3) (ep : EpId) (pe : Pe) :
    commandStarted op ep pe =
      { pe with
        command := op.setWidth 64 ||| ep.setWidth 64 <<< 3
        cur :=
          { opcode := op, epId := ep, dataAddr := pe.cmdDataAddr, dataSize := pe.cmdDataSize, offset := pe.cmdOffset
            replyEp := pe.cmdReplyEp.setWidth 8, replyLabel := pe.cmdReplyLabel }
        result := 0#8
        cmdInProgress := true
        status := putBit pe.status 0 true
        phase := .execPending } := by
  rw [commandStarted, startCommand, latchCommand_commandWord, commandWord_errNone]
  rfl

theorem sessionStep_saveSend_through (hst : c.state = .saveSend) (hthrough : sessionTotal c ≤ c.byteOffset.toNat) :
    sessionStep me c pe = some { pe := setSession { c with state := .saveDone } pe } := by
  simp only [sessionStep, hst, ctxSaveSend, ge_iff_le, if_pos hthrough]

theorem sessionStep_saveSend_busy (hst : c.state = .saveSend) (hleft : c.byteOffset.toNat < sessionTotal c)
    (hbusy : statusBusy pe.status = true) : sessionStep me c pe = none := by
  simp only [sessionStep, hst, ctxSaveSend, ge_iff_le, if_neg (Nat.not_le.2 hleft), if_pos hbusy]

theorem sessionStep_saveSend_issues (hst : c.state = .saveSend) (hleft : c.byteOffset.toNat < sessionTotal c)
    (hbusy : statusBusy pe.status = false) :
    sessionStep me c pe =
      some { pe := setSession { c with state := .saveWait } (issueCommand 4#3 c.byteOffset (remoteChunk pe.cfg c) pe) } := by
  simp only [sessionStep, hst, ctxSaveSend, ge_iff_le, if_neg (Nat.not_le.2 hleft), hbusy, Bool.false_eq_true, if_false]

theorem sessionStep_restore_through (hst : c.state = .restore) (hthrough : sessionTotal c ≤ c.byteOffset.toNat) :
    sessionStep me c pe = some { pe := setSession { c with byteOffset := 0, state := .restoreRead } pe } := by
  simp only [sessionStep, hst, ctxRestore, ge_iff_le, if_pos hthrough]

theorem sessionStep_restore_busy (hst : c.state = .restore) (hleft : c.byteOffset.toNat < sessionTotal c)
    (hbusy : statusBusy pe.status = true) : sessionStep me c pe = none := by
  simp only [sessionStep, hst, ctxRestore, ge_iff_le, if_neg (Nat.not_le.2 hleft), if_pos hbusy]

theorem sessionStep_restore_issues (hst : c.state = .restore) (hleft : c.byteOffset.toNat < sessionTotal c)
    (hbusy : statusBusy pe.status = false) :
    sessionStep me c pe =
      some
        { pe := setSession { c with state := .restoreWait } (issueCommand 3#3 c.byteOffset (remoteChunk pe.cfg c) pe) } := by
  simp only [sessionStep, hst, ctxRestore, ge_iff_le, if_neg (Nat.not_le.2 hleft), hbusy, Bool.false_eq_true, if_false]

/-! ### SAVE_WAIT and RESTORE_WAIT (R390, R394) -/

theorem sessionStep_awaiting (hst : c.state = .saveWait ∨ c.state = .restoreWait) (hrunning : opcodeOf pe.command ≠ 0#3) :
    sessionStep me c pe = none := by
  rcases hst with hst | hst
  · simp only [sessionStep, hst, ctxSaveWait, if_pos hrunning]
  · simp only [sessionStep, hst, ctxRestoreWait, if_pos hrunning]

theorem sessionStep_saveWait_error (hst : c.state = .saveWait) (hended : opcodeOf pe.command = 0#3)
    (herror : commandError pe.command ≠ errNone) :
    sessionStep me c pe = some { pe := setSession { c with state := .saveDone } pe } := by
  simp only [sessionStep, hst, ctxSaveWait, if_neg (not_not.2 hended), if_pos herror]

theorem sessionStep_saveWait_success (hst : c.state = .saveWait) (hended : opcodeOf pe.command = 0#3)
    (hsuccess : commandError pe.command = errNone) :
    sessionStep me c pe = some { pe := setSession (afterSaveCommand pe.cfg c) pe } := by
  simp only [sessionStep, hst, ctxSaveWait, if_neg (not_not.2 hended), if_neg (not_not.2 hsuccess)]

theorem sessionStep_restoreWait_error (hst : c.state = .restoreWait) (hended : opcodeOf pe.command = 0#3)
    (herror : commandError pe.command ≠ errNone) :
    sessionStep me c pe = some { pe := setSession { c with byteOffset := 0, state := .restoreRead } pe } := by
  simp only [sessionStep, hst, ctxRestoreWait, if_neg (not_not.2 hended), if_pos herror]

theorem sessionStep_restoreWait_success (hst : c.state = .restoreWait) (hended : opcodeOf pe.command = 0#3)
    (hsuccess : commandError pe.command = errNone) :
    sessionStep me c pe = some { pe := setSession (afterRestoreCommand pe.cfg c) pe } := by
  simp only [sessionStep, hst, ctxRestoreWait, if_neg (not_not.2 hended), if_neg (not_not.2 hsuccess)]

theorem afterSaveCommand_more {cfg : PeConfig} (h : offsetAfterCommand cfg c < sessionTotal c) :
    afterSaveCommand cfg c = { c with byteOffset := BitVec.ofNat 64 (offsetAfterCommand cfg c), state := .saveSend } := by
  rw [afterSaveCommand, if_pos h]

theorem afterSaveCommand_last {cfg : PeConfig} (h : sessionTotal c ≤ offsetAfterCommand cfg c) :
    afterSaveCommand cfg c = { c with byteOffset := BitVec.ofNat 64 (offsetAfterCommand cfg c), state := .saveDone } := by
  rw [afterSaveCommand, if_neg (Nat.not_lt.2 h)]

theorem afterRestoreCommand_more {cfg : PeConfig} (h : offsetAfterCommand cfg c < sessionTotal c) :
    afterRestoreCommand cfg c =
      { c with byteOffset := BitVec.ofNat 64 (offsetAfterCommand cfg c), state := .restore } :=
  if_pos h

theorem afterRestoreCommand_last {cfg : PeConfig} (h : sessionTotal c ≤ offsetAfterCommand cfg c) :
    afterRestoreCommand cfg c = { c with byteOffset := 0, state := .restoreRead } :=
  if_neg (Nat.not_lt.2 h)

/-! ### SAVE_DONE and RESTORE_DONE (R391, R396) -/

/-- DONE_FLAGS is written as the flag word, where that lies in local memory. -/
theorem writeDoneFlags_inside (hin : pe.cfg.rctmuxFlags.toNat + 8 ≤ pe.cfg.memSize) :
    writeDoneFlags pe = some { pe with mem := withFlagWord pe pe.cfg.doneFlags } :=
  memWrite_eq_some.2 ⟨.inr (by rwa [wordBytes_length]), rfl⟩

theorem writeDoneFlags_outside (hout : pe.cfg.memSize < pe.cfg.rctmuxFlags.toNat + 8) : writeDoneFlags pe = none :=
  memWrite_eq_none.2 (by rw [wordBytes_length]; exact ⟨Nat.succ_ne_zero 7, hout⟩)

theorem sessionStep_done_outside (hst : c.state = .saveDone ∨ c.state = .restoreDone)
    (hout : pe.cfg.memSize < pe.cfg.rctmuxFlags.toNat + 8) : sessionStep me c pe = none := by
  rcases hst with hst | hst
  · simp only [sessionStep, hst, ctxSaveDone, writeDoneFlags_outside hout, Option.map_none]
  · simp only [sessionStep, hst, ctxRestoreDone, writeDoneFlags_outside hout, Option.map_none]

theorem sessionStep_saveDone_inside (hst : c.state = .saveDone)
    (hin : pe.cfg.rctmuxFlags.toNat + 8 ≤ pe.cfg.memSize) :
    sessionStep me c pe =
      some
        { pe := setSession { c with ctxSwPending := true, state := .wait }
            { pe with mem := withFlagWord pe pe.cfg.doneFlags } } := by
  simp only [sessionStep, hst, ctxSaveDone, writeDoneFlags_inside hin, Option.map_some]

theorem sessionStep_restoreDone_inside (hst : c.state = .restoreDone)
    (hin : pe.cfg.rctmuxFlags.toNat + 8 ≤ pe.cfg.memSize) :
    sessionStep me c pe =
      some
        { pe := setSession { c with ctxSwPending := false, state := .check }
            { pe with mem := withFlagWord pe pe.cfg.doneFlags }
          outputs := [.switched me] } := by
  simp only [sessionStep, hst, ctxRestoreDone, writeDoneFlags_inside hin, Option.map_some]

/-! ### SAVE_WRITE and RESTORE_READ (R388, R395) -/

/-- The offset after a chunk does not wrap, so the context is through just where the sum says so. -/
theorem afterLocalChunk_eq {cfg : PeConfig} (hleft : c.byteOffset.toNat < c.contextSize.toNat) (after : CtxState)
    (restart : Bool) :
    afterLocalChunk c (localChunk cfg c) after restart =
      if c.byteOffset.toNat + localChunk cfg c = c.contextSize.toNat then
        { c with byteOffset := if restart then 0 else c.contextSize, state := after }
      else { c with byteOffset := BitVec.ofNat 64 (c.byteOffset.toNat + localChunk cfg c) } := by
  have hle : c.byteOffset.toNat + localChunk cfg c ≤ c.contextSize.toNat := by
    rw [localChunk]
    omega
  have hsum : c.byteOffset + BitVec.ofNat 64 (localChunk cfg c) =
      BitVec.ofNat 64 (c.byteOffset.toNat + localChunk cfg c) := by
    rw [BitVec.ofNat_add, BitVec.ofNat_toNat, BitVec.setWidth_eq]
  have hiff : BitVec.ofNat 64 (c.byteOffset.toNat + localChunk cfg c) = c.contextSize ↔
      c.byteOffset.toNat + localChunk cfg c = c.contextSize.toNat := by
    rw [← BitVec.toNat_inj, BitVec.toNat_ofNat, Nat.mod_eq_of_lt (hle.trans_lt c.contextSize.isLt)]
  simp only [afterLocalChunk, hsum, hiff]
  split
  · rename_i hend
    rw [hiff.2 hend]
  · rfl

theorem sessionStep_saveWrite (hst : c.state = .saveWrite) : sessionStep me c pe = ctxSaveWrite c pe := by
  simp only [sessionStep, hst]

theorem sessionStep_restoreRead (hst : c.state = .restoreRead) : sessionStep me c pe = ctxRestoreRead c pe := by
  simp only [sessionStep, hst]

theorem sessionStep_saveWrite_through (hst : c.state = .saveWrite) (hthrough : c.contextSize.toNat ≤ c.byteOffset.toNat) :
    sessionStep me c pe = some { pe := setSession { c with byteOffset := 0, state := .saveSend } pe } := by
  rw [sessionStep_saveWrite hst, ctxSaveWrite, if_pos hthrough]

theorem sessionStep_restoreRead_through (hst : c.state = .restoreRead)
    (hthrough : c.contextSize.toNat ≤ c.byteOffset.toNat) :
    sessionStep me c pe = some { pe := setSession { c with state := .restoreDone } pe } := by
  rw [sessionStep_restoreRead hst, ctxRestoreRead, if_pos hthrough]

section
variable {off n a : Nat}

/-- A chunk of `n` bytes of the context, from `off` on, is copied into the buffer. -/
theorem sessionStep_saveWrite_inside (hst : c.state = .saveWrite) (hoff : off = c.byteOffset.toNat)
    (hleft : off < c.contextSize.toNat) (hn : n = min pe.cfg.chunkSize (c.contextSize.toNat - off))
    (ha : a = (pe.cfg.bufferAddr + c.byteOffset).toNat) (hin : a + n ≤ pe.cfg.memSize) :
    sessionStep me c pe =
      some
        { pe :=
          setSession
            (if off + n = c.contextSize.toNat then { c with byteOffset := 0, state := .saveSend }
            else { c with byteOffset := BitVec.ofNat 64 (off + n) })
            { pe with mem := copyBytes pe.mem a pe.ctx off n } } := by
  obtain rfl : n = localChunk pe.cfg c := by rw [hn, hoff, localChunk]
  subst hoff ha
  rw [sessionStep_saveWrite hst, ctxSaveWrite, if_neg (Nat.not_le.2 hleft),
    memWrite_eq_some.2 ⟨.inr (by rwa [readBytes_length]), rfl⟩, Option.map_some, afterLocalChunk_eq hleft]
  rfl

/-- A chunk of `n` bytes of the buffer is copied into the context, from `off` on. -/
theorem sessionStep_restoreRead_inside (hst : c.state = .restoreRead) (hoff : off = c.byteOffset.toNat)
    (hleft : off < c.contextSize.toNat) (hn : n = min pe.cfg.chunkSize (c.contextSize.toNat - off))
    (ha : a = (pe.cfg.bufferAddr + c.byteOffset).toNat) (hin : a + n ≤ pe.cfg.memSize) :
    sessionStep me c pe =
      some
        { pe :=
          setSession
            (if off + n = c.contextSize.toNat then { c with byteOffset := c.contextSize, state := .restoreDone }
            else { c with byteOffset := BitVec.ofNat 64 (off + n) })
            { pe with ctx := copyBytes pe.ctx off pe.mem a n } } := by
  obtain rfl : n = localChunk pe.cfg c := by rw [hn, hoff, localChunk]
  subst hoff ha
  rw [sessionStep_restoreRead hst, ctxRestoreRead, if_neg (Nat.not_le.2 hleft), memRead_eq_some.2 ⟨.inr hin, rfl⟩,
    Option.map_some, afterLocalChunk_eq hleft]
  rfl

end

/-- A chunk of the buffer that does not lie in local memory leaves both states stuck (D59). -/
theorem sessionStep_local_outside (hst : c.state = .saveWrite ∨ c.state = .restoreRead)
    (hleft : c.byteOffset.toNat < c.contextSize.toNat) (hchunk : 1 ≤ pe.cfg.chunkSize)
    (hout : pe.cfg.memSize < (pe.cfg.bufferAddr + c.byteOffset).toNat + localChunk pe.cfg c) :
    sessionStep me c pe = none := by
  have hne : localChunk pe.cfg c ≠ 0 := by
    rw [localChunk]
    omega
  rcases hst with hst | hst
  · rw [sessionStep_saveWrite hst, ctxSaveWrite, if_neg (Nat.not_le.2 hleft),
      memWrite_eq_none.2 (by rw [readBytes_length]; exact ⟨hne, hout⟩), Option.map_none]
  · rw [sessionStep_restoreRead hst, ctxRestoreRead, if_neg (Nat.not_le.2 hleft), memRead_eq_none.2 ⟨hne, hout⟩,
      Option.map_none]

end

end Sys2Proof.Machine
end

section
/-! SUPPORT. The context copied chunk by chunk (45_ctxswitch.md R388, R395, R398, R399): bytes copied piece by piece, how many
chunks there are, and the PE after each chunk of SAVE_WRITE and of RESTORE_READ, run alone. -/

namespace Sys2Proof.Machine

/-! ### The number of chunks -/

theorem chunkCount_zero {C : Nat} (hC : 1 ≤ C) : chunkCount 0 C = 0 := Nat.div_eq_of_lt (by omega)

/-- One chunk, and those of the rest. -/
theorem chunkCount_eq_succ {C S : Nat} (hC : 1 ≤ C) (hS : 0 < S) : chunkCount S C = chunkCount (S - C) C + 1 := by
  have hfirst : chunkCount S C = (S - 1) / C + 1 := by
    rw [chunkCount, show S + C - 1 = S - 1 + C by omega, Nat.add_div_right _ hC]
  rw [hfirst]
  rcases Nat.le_total C S with hfull | hlast
  · rw [chunkCount, Nat.sub_add_cancel hfull]
  · rw [Nat.sub_eq_zero_of_le hlast, chunkCount_zero hC, Nat.div_eq_of_lt (by omega)]

/-! ### A run of the engine -/

theorem ctxRun_succ {me : PeId} {pe : Pe} {e : Effect} (h : ctxSwitchStep me pe = some e) (k : Nat) :
    ctxRun me (k + 1) pe = ctxRun me k e.pe := by
  rw [ctxRun, h]

section
variable {me : PeId} {size chunk : Nat} {P : Nat → Pe} {done : Pe}

/-- Where each step of the engine moves one chunk on, the last to `done`, a run of one step for each chunk comes there. -/
theorem ctxRun_chunks (hchunk : 1 ≤ chunk)
    (hstep : ∀ off < size,
      ctxSwitchStep me (P off) =
        some { pe := if off + min chunk (size - off) = size then done else P (off + min chunk (size - off)) })
    {off : Nat} (hoff : off < size) : ctxRun me (chunkCount (size - off) chunk) (P off) = done := by
  induction hleft : size - off using Nat.strong_induction_on generalizing off with
  | _ left ih =>
    subst hleft
    rw [chunkCount_eq_succ hchunk (by omega), ctxRun_succ (hstep off hoff)]
    rcases Nat.lt_or_ge chunk (size - off) with hmore | hlast
    · have hnext : off + min chunk (size - off) < size := by omega
      rw [if_neg hnext.ne, show size - off - chunk = size - (off + min chunk (size - off)) by omega]
      exact ih _ (by omega) hnext rfl
    · rw [if_pos (by omega), Nat.sub_eq_zero_of_le hlast, chunkCount_zero hchunk]
      rfl

/-- A copy of no bytes takes one step too (R398). -/
theorem ctxRun_copy (hchunk : 1 ≤ chunk)
    (hstep : ∀ off < size,
      ctxSwitchStep me (P off) =
        some { pe := if off + min chunk (size - off) = size then done else P (off + min chunk (size - off)) })
    (hempty : size = 0 → ctxSwitchStep me (P 0) = some { pe := done }) :
    ctxRun me (max 1 (chunkCount size chunk)) (P 0) = done := by
  rcases Nat.eq_zero_or_pos size with hzero | hpos
  · rw [hzero, chunkCount_zero hchunk]
    exact ctxRun_succ (hempty hzero) 0
  · have hcount := chunkCount_eq_succ hchunk hpos
    rw [max_eq_right (by omega)]
    exact ctxRun_chunks hchunk hstep hpos

end

/-! ### SAVE_WRITE and RESTORE_READ run alone -/

section
variable (pe : Pe) (c : Session) (off : Nat)

/-- The PE when SAVE_WRITE has copied the first `off` bytes of the context. -/
def savedPe : Pe :=
  { pe with
    mem := copyBytes pe.mem pe.cfg.bufferAddr.toNat pe.ctx 0 off
    session := some { c with byteOffset := BitVec.ofNat 64 off } }

/-- The PE when RESTORE_READ has copied the first `off` bytes of the buffer. -/
def restoredPe : Pe :=
  { pe with
    ctx := copyBytes pe.ctx 0 pe.mem pe.cfg.bufferAddr.toNat off
    session := some { c with byteOffset := BitVec.ofNat 64 off } }

end

section
variable {pe : Pe} {c : Session}

theorem savedPe_zero (hc : pe.session = some c) (hoff : c.byteOffset = 0#64) : savedPe pe c 0 = pe := by
  have hsame : ({ c with byteOffset := BitVec.ofNat 64 0 } : Session) = c := by rw [← hoff]
  rw [savedPe, hsame, ← hc]
  rfl

theorem restoredPe_zero (hc : pe.session = some c) (hoff : c.byteOffset = 0#64) : restoredPe pe c 0 = pe := by
  have hsame : ({ c with byteOffset := BitVec.ofNat 64 0 } : Session) = c := by rw [← hoff]
  rw [restoredPe, hsame, ← hc]
  rfl

theorem readByte_savedPe (hwf : Memory.wf pe.mem) (c : Session) (off x : Nat) :
    readByte (savedPe pe c off).mem x =
      if pe.cfg.bufferAddr.toNat ≤ x ∧ x < pe.cfg.bufferAddr.toNat + off then
        readByte pe.ctx (x - pe.cfg.bufferAddr.toNat)
      else readByte pe.mem x :=
  (readByte_copyBytes hwf _ _ _ _ x).trans (by rw [Nat.zero_add])

theorem readByte_restoredPe (hwf : Memory.wf pe.ctx) (c : Session) (off x : Nat) :
    readByte (restoredPe pe c off).ctx x =
      if x < off then readByte pe.mem (pe.cfg.bufferAddr.toNat + x) else readByte pe.ctx x :=
  (readByte_copyBytes hwf _ _ _ _ x).trans (by simp)

/-- An address of the buffer that lies in the address space does not wrap. -/
theorem bufferAddr_toNat {addr : Word} {off : Nat} (h : addr.toNat + off < 2 ^ 64) :
    (addr + BitVec.ofNat 64 off).toNat = addr.toNat + off := by
  rw [BitVec.toNat_add, BitVec.toNat_ofNat, Nat.add_mod_mod, Nat.mod_eq_of_lt h]

theorem offset_toNat {off : Nat} (h : off < c.contextSize.toNat) : (BitVec.ofNat 64 off).toNat = off := by
  rw [BitVec.toNat_ofNat, Nat.mod_eq_of_lt (h.trans c.contextSize.isLt)]

/-- The next bytes of the context are copied after those before them. -/
theorem savedPe_add (pe : Pe) (c d : Session) (off n : Nat) :
    setSession d
        { savedPe pe c off with
          mem := copyBytes (savedPe pe c off).mem (pe.cfg.bufferAddr.toNat + off) pe.ctx off n } =
      setSession d (savedPe pe c (off + n)) := by
  have hcopy := copyBytes_add pe.mem pe.cfg.bufferAddr.toNat pe.ctx 0 off n
  rw [Nat.zero_add] at hcopy
  simp only [savedPe, setSession, hcopy]

theorem restoredPe_add (pe : Pe) (c d : Session) (off n : Nat) :
    setSession d
        { restoredPe pe c off with
          ctx := copyBytes (restoredPe pe c off).ctx off pe.mem (pe.cfg.bufferAddr.toNat + off) n } =
      setSession d (restoredPe pe c (off + n)) := by
  have hcopy := copyBytes_add pe.ctx 0 pe.mem pe.cfg.bufferAddr.toNat off n
  rw [Nat.zero_add] at hcopy
  simp only [restoredPe, setSession, hcopy]

section
variable (hmem : pe.cfg.bufferAddr.toNat + c.contextSize.toNat ≤ pe.cfg.memSize)
  (hspace : pe.cfg.bufferAddr.toNat + c.contextSize.toNat ≤ 2 ^ 64)
include hmem hspace

/-- One chunk of SAVE_WRITE. -/
theorem ctxSwitchStep_savedPe (hst : c.state = .saveWrite) (me : PeId) {off n : Nat} (hoff : off < c.contextSize.toNat)
    (hn : n = min pe.cfg.chunkSize (c.contextSize.toNat - off)) :
    ctxSwitchStep me (savedPe pe c off) =
      some
        { pe :=
          if off + n = c.contextSize.toNat then
            setSession { c with byteOffset := 0, state := .saveSend } (savedPe pe c c.contextSize.toNat)
          else savedPe pe c (off + n) } := by
  have haddr := bufferAddr_toNat (addr := pe.cfg.bufferAddr) (off := off) (by omega)
  have hin : pe.cfg.bufferAddr.toNat + off + n ≤ pe.cfg.memSize := by omega
  refine (sessionStep_saveWrite_inside (me := me) (c := { c with byteOffset := BitVec.ofNat 64 off })
    (pe := savedPe pe c off) hst (offset_toNat hoff).symm hoff hn haddr.symm hin).trans ?_
  refine (congrArg (fun q => some ({ pe := q } : Effect)) (savedPe_add pe c _ off n)).trans ?_
  by_cases hend : off + n = c.contextSize.toNat
  · rw [if_pos hend, if_pos hend, hend]
  · rw [if_neg hend, if_neg hend]
    rfl

/-- One chunk of RESTORE_READ. -/
theorem ctxSwitchStep_restoredPe (hst : c.state = .restoreRead) (me : PeId) {off n : Nat} (hoff : off < c.contextSize.toNat)
    (hn : n = min pe.cfg.chunkSize (c.contextSize.toNat - off)) :
    ctxSwitchStep me (restoredPe pe c off) =
      some
        { pe :=
          if off + n = c.contextSize.toNat then
            setSession { c with byteOffset := c.contextSize, state := .restoreDone } (restoredPe pe c c.contextSize.toNat)
          else restoredPe pe c (off + n) } := by
  have haddr := bufferAddr_toNat (addr := pe.cfg.bufferAddr) (off := off) (by omega)
  have hin : pe.cfg.bufferAddr.toNat + off + n ≤ pe.cfg.memSize := by omega
  refine (sessionStep_restoreRead_inside (me := me) (c := { c with byteOffset := BitVec.ofNat 64 off })
    (pe := restoredPe pe c off) hst (offset_toNat hoff).symm hoff hn haddr.symm hin).trans ?_
  refine (congrArg (fun q => some ({ pe := q } : Effect)) (restoredPe_add pe c _ off n)).trans ?_
  by_cases hend : off + n = c.contextSize.toNat
  · rw [if_pos hend, if_pos hend, hend]
  · rw [if_neg hend, if_neg hend]
    rfl

/-- Run alone, SAVE_WRITE copies the whole context into the buffer. -/
theorem ctxRun_saveWrite (hc : pe.session = some c) (hoff : c.byteOffset = 0#64) (hst : c.state = .saveWrite)
    (hchunk : 1 ≤ pe.cfg.chunkSize) (me : PeId) :
    ctxRun me (max 1 (chunkCount c.contextSize.toNat pe.cfg.chunkSize)) pe =
      setSession { c with byteOffset := 0, state := .saveSend } (savedPe pe c c.contextSize.toNat) := by
  have hrun := ctxRun_copy (P := savedPe pe c) hchunk
    (fun _ hleft => ctxSwitchStep_savedPe hmem hspace hst me hleft rfl) fun hzero => by
      rw [hzero]
      exact sessionStep_saveWrite_through hst (hzero.trans_le (Nat.zero_le _))
  rwa [savedPe_zero hc hoff] at hrun

/-- Run alone, RESTORE_READ copies the whole buffer into the context. -/
theorem ctxRun_restoreRead (hc : pe.session = some c) (hoff : c.byteOffset = 0#64) (hst : c.state = .restoreRead)
    (hchunk : 1 ≤ pe.cfg.chunkSize) (me : PeId) :
    ctxRun me (max 1 (chunkCount c.contextSize.toNat pe.cfg.chunkSize)) pe =
      setSession { c with byteOffset := c.contextSize, state := .restoreDone } (restoredPe pe c c.contextSize.toNat) := by
  have hrun := ctxRun_copy (P := restoredPe pe c) hchunk
    (fun _ hleft => ctxSwitchStep_restoredPe hmem hspace hst me hleft rfl) fun hzero => by
      have hempty : c.contextSize = BitVec.ofNat 64 0 := BitVec.eq_of_toNat_eq hzero
      have hsame := congrArg (fun w => ({ c with byteOffset := w, state := .restoreDone } : Session)) hempty
      rw [hzero, hsame]
      exact sessionStep_restoreRead_through hst (hzero.trans_le (Nat.zero_le _))
  rwa [restoredPe_zero hc hoff] at hrun

end

end

end Sys2Proof.Machine
end

section
/-! PROOFS. The statements about the context-switch engine and the stores of the environment (45_ctxswitch.md). -/

namespace Sys2Proof.Machine

/-- Settles O54: the engine's own step is the only one that changes a session, and the accelerator's store the only other one
that changes a context; while it is frozen that store is no step, has no parts, and as an access that overlaps others finds and
stores nothing. -/
theorem contextIsFrozenDuringASwitch : Obligations.ContextIsFrozenDuringASwitch := by
  intro s t h p pe pe' c hp hp' hc frozen
  refine ⟨fun hev => ?_, fun hfrozen hwf off bytes hstore => ?_⟩
  · obtain ⟨hsession, hctx⟩ := step_contextKept h hp hp' hev
    exact ⟨hsession.trans hc, fun hfrozen => hctx c hc ((accelMayRun_eq_false_iff c).2 hfrozen)⟩
  · have hstop : accelMayRun c = false := (accelMayRun_eq_false_iff c).2 hfrozen
    have hmay := mayOverlap_accelExtra_frozen hc hstop off bytes
    have htaken : (takeEvent s).pes[p]? = some pe := by rwa [takeEvent_pes]
    have hextra : stepPe (takeEvent s) p (fun _ pe => accelExtraEffect off bytes pe) = takeEvent s := by
      rw [stepPe_elim _ htaken, accelExtraEffect_frozen hc hstop]
      rfl
    suffices hstep : step s = .next (takeEvent s) from Host.Outcome.next.inj (h.symm.trans hstep)
    rcases hstore with hev | hev | ⟨order, hev⟩ | ⟨addrs, hev⟩
    · rw [step, hev, runEvent, stepPe_elim _ htaken, accelContextEffect_frozen hc hstop]
      rfl
    · rw [step, hev, runEvent, hextra]
    · rw [step, hev]
      exact stepRace_passed htaken hwf hmay (congrArg Host.Outcome.next hextra) order s.accesses
    · exact (step_part_passed hp rfl hev hmay).1

/-- Settles O41: each of these states has one outcome, but for CHECK where the flag word lies outside local memory. -/
theorem contextSwitchPolls : Obligations.ContextSwitchPolls := by
  intro s p pe c h hc goes
  refine ⟨fun hst hin => ?_, fun hst hout => ?_, fun hst => ?_, fun hst => ?_, fun hst => ?_⟩
  · exact step_ctxSwitch_enabled h hc (sessionStep_check_inside hst hin)
  · exact step_ctxSwitch_stuck h hc (sessionStep_check_outside hst hout)
  · have hstep := step_ctxSwitch_enabled h hc (sessionStep_flags hst)
    rw [ctxFlags_eq] at hstep
    split_ifs with hrestore hstore hwaiting hpending
    · rwa [if_pos hrestore] at hstep
    · rwa [if_neg hrestore, if_pos hstore] at hstep
    · rwa [if_neg hrestore, if_neg hstore, if_pos hwaiting] at hstep
    · rwa [if_neg hrestore, if_neg hstore, if_neg hwaiting, if_pos hpending] at hstep
    · rwa [if_neg hrestore, if_neg hstore, if_neg hwaiting, if_neg hpending] at hstep
  · exact step_ctxSwitch_enabled h hc (sessionStep_save hst)
  · exact step_ctxSwitch_enabled h hc (sessionStep_wait hst)

/-- Settles O42: BUSY is 0 just while no command runs, so the four register writes are taken and the last starts the
command. -/
theorem contextSwitchIssuesCommands : Obligations.ContextSwitchIssuesCommands := by
  rintro s p pe c total n h hc ⟨_, hbusy, _, _, _⟩ rfl rfl issues goes
  have started (op : BitVec 3) (hop : op ≠ 0#3) (next : CtxState) (hidle : pe.status.getLsbD 0 = false)
      (hstep : sessionStep (peId p) c pe = some
        { pe := setSession { c with state := next } (issueCommand op c.byteOffset (remoteChunk pe.cfg c) pe) }) :
      issues op next := by
    have heq := step_ctxSwitch_enabled h hc hstep
    rwa [issueCommand_idle (hbusy.symm.trans hidle) hop, commandStarted_eq] at heq
  refine ⟨fun hst => ⟨fun hthrough => ?_, fun hleft hrunning => ?_, fun hleft hidle => ?_⟩,
    fun hst => ⟨fun hthrough => ?_, fun hleft hrunning => ?_, fun hleft hidle => ?_⟩⟩
  · exact step_ctxSwitch_enabled h hc (sessionStep_saveSend_through hst hthrough)
  · exact step_ctxSwitch_stuck h hc (sessionStep_saveSend_busy hst hleft hrunning)
  · exact started 4#3 (by decide) .saveWait hidle (sessionStep_saveSend_issues hst hleft hidle)
  · exact step_ctxSwitch_enabled h hc (sessionStep_restore_through hst hthrough)
  · exact step_ctxSwitch_stuck h hc (sessionStep_restore_busy hst hleft hrunning)
  · exact started 3#3 (by decide) .restoreWait hidle (sessionStep_restore_issues hst hleft hidle)

/-- Settles O43: the command has ended where the opcode is IDLE, and ERROR says how. -/
theorem contextSwitchAwaitsItsCommand : Obligations.ContextSwitchAwaitsItsCommand := by
  rintro s p pe c total off h hc rfl rfl goes
  refine ⟨fun hst hrunning => step_ctxSwitch_stuck h hc (sessionStep_awaiting hst hrunning),
    fun hst hended => ⟨fun herror => ?_, fun hsuccess hmore => ?_, fun hsuccess hlast => ?_⟩,
    fun hst hended => ⟨fun herror => ?_, fun hsuccess hmore => ?_, fun hsuccess hlast => ?_⟩⟩
  · exact step_ctxSwitch_enabled h hc (sessionStep_saveWait_error hst hended herror)
  · have hstep := step_ctxSwitch_enabled h hc (sessionStep_saveWait_success hst hended hsuccess)
    rwa [afterSaveCommand_more hmore] at hstep
  · have hstep := step_ctxSwitch_enabled h hc (sessionStep_saveWait_success hst hended hsuccess)
    rwa [afterSaveCommand_last hlast] at hstep
  · exact step_ctxSwitch_enabled h hc (sessionStep_restoreWait_error hst hended herror)
  · have hstep := step_ctxSwitch_enabled h hc (sessionStep_restoreWait_success hst hended hsuccess)
    rwa [afterRestoreCommand_more hmore] at hstep
  · have hstep := step_ctxSwitch_enabled h hc (sessionStep_restoreWait_success hst hended hsuccess)
    rwa [afterRestoreCommand_last hlast] at hstep

/-- Settles O44: the eight bytes of the flag word are those of DONE_FLAGS, least significant first. -/
theorem contextSwitchSignalsDone : Obligations.ContextSwitchSignalsDone := by
  rintro s p pe c a h hc hwf rfl hst
  refine ⟨fun hout => step_ctxSwitch_stuck h hc (sessionStep_done_outside hst hout), fun hin => ?_⟩
  refine ⟨withFlagWord pe pe.cfg.doneFlags, readByte_withFlagWord hwf _, ?_⟩
  rcases hst with hst | hst
  · rw [if_pos hst]
    exact step_ctxSwitch_enabled h hc (sessionStep_saveDone_inside hst hin)
  · rw [if_neg (by simp [hst])]
    exact step_ctxSwitch_enabled h hc (sessionStep_restoreDone_inside hst hin)

/-- Settles O45: the engine's run alone copies one chunk a step, each behind the one before it, until the context is through;
one step of the system copies one chunk. -/
theorem contextIsCopiedOutAndBack : Obligations.ContextIsCopiedOutAndBack := by
  refine ⟨?_, ?_, ?_⟩
  · rintro me pe c size buf steps hc hoff rfl rfl hmem hspace hchunk rfl hwf hwfc
    exact ⟨fun hst => ⟨_, ctxRun_saveWrite hmem hspace hc hoff hst hchunk me, readByte_savedPe hwf c _⟩,
      fun hst => ⟨_, ctxRun_restoreRead hmem hspace hc hoff hst hchunk me, readByte_restoredPe hwfc c _⟩⟩
  · rintro s p pe c off n a h hc rfl rfl rfl hwf hwfc goes
    refine ⟨fun hst => ⟨fun hthrough => ?_, fun hleft hin => ?_⟩, fun hst => ⟨fun hthrough => ?_, fun hleft hin => ?_⟩⟩
    · exact step_ctxSwitch_enabled h hc (sessionStep_saveWrite_through hst hthrough)
    · exact ⟨_, readByte_copyBytes hwf _ _ _ _,
        step_ctxSwitch_enabled h hc (sessionStep_saveWrite_inside hst rfl hleft rfl rfl hin)⟩
    · exact step_ctxSwitch_enabled h hc (sessionStep_restoreRead_through hst hthrough)
    · exact ⟨_, readByte_copyBytes hwfc _ _ _ _,
        step_ctxSwitch_enabled h hc (sessionStep_restoreRead_inside hst rfl hleft rfl rfl hin)⟩
  · intro s p pe c h hc hst hleft hchunk hout
    exact step_ctxSwitch_stuck h hc (sessionStep_local_outside hst hleft hchunk hout)

/-- Settles O55: the scheduler's write is a store at the flag word, and the accelerator's into its extra state one from
`BUFFER_ADDR + CTX_SIZE` on. -/
theorem storesOfTheEnvironmentTakeEffect : Obligations.StoresOfTheEnvironmentTakeEffect := by
  intro s p pe bytes hwf hwfc written goes
  have stores {addr : Word} {bs : List Byte}
      (hstep : step s = .next ((coreStoreEffect addr bs pe).elim (takeEvent s) (commit (takeEvent s) p)))
      (hin : addr.toNat + bs.length ≤ pe.cfg.memSize) :
      ∃ m, written pe.mem m addr.toNat bs ∧ goes { pe with mem := m } := by
    rw [coreStoreEffect_inside hin] at hstep
    exact ⟨_, readByte_writeBytes bs pe.mem addr.toNat hwf, hstep⟩
  have passes {addr : Word} {bs : List Byte}
      (hstep : step s = .next ((coreStoreEffect addr bs pe).elim (takeEvent s) (commit (takeEvent s) p)))
      (hne : bs ≠ []) (hout : pe.cfg.memSize < addr.toNat + bs.length) : step s = .next (takeEvent s) := by
    rwa [coreStoreEffect_outside hne hout] at hstep
  refine ⟨fun addr h => ⟨stores (step_coreStore h), passes (step_coreStore h)⟩, fun v h => ?_,
    fun c off hc hstate hpending => ?_⟩
  · exact ⟨stores (step_schedulerStore h), passes (step_schedulerStore h) (List.cons_ne_nil _ _)⟩
  · have hrun : accelMayRun c = true := (accelMayRun_iff c).2 ⟨hstate, hpending⟩
    refine ⟨fun h => ?_, fun h a ha => ?_⟩
    · have hstep := step_accelContext h
      refine ⟨fun hin => ?_, fun hout => ?_⟩
      · rw [accelContextEffect_inside hc hrun hin] at hstep
        exact ⟨_, readByte_writeBytes bytes pe.ctx off hwfc, hstep⟩
      · rwa [accelContextEffect_outside hc hout] at hstep
    · subst ha
      have hstep := step_accelExtra h
      refine ⟨fun hin hmem => ?_, fun hout => ?_⟩
      · rw [accelExtraEffect_inside hc hrun hin] at hstep
        exact stores hstep hmem
      · rcases Nat.lt_or_ge pe.accelStateSize.toNat (off + bytes.length) with hover | hin
        · rwa [accelExtraEffect_outside hc hover] at hstep
        · obtain ⟨hne, hmem⟩ := hout.resolve_left (Nat.not_lt.2 hin)
          rw [accelExtraEffect_inside hc hrun hin] at hstep
          exact passes hstep hne hmem

end Sys2Proof.Machine
end

section
/-! SUPPORT. That a step is one agent's (60_exceptions.md R507, R510, R511, R525): where an event concerns a PE, what a step of a
PE emits, what a step of the system emits, and that the receive error record of STATUS and the result of a command never change
in one step. -/

namespace Sys2Proof.Machine

/-! ### The PEs that an event concerns (R525) -/

/-- Which PEs an event concerns is a matter of what is in flight. -/
theorem concerns_congr {s s' : State} (hreq : s'.requests = s.requests) (hresp : s'.responses = s.responses) (ev : Event)
    (p : Nat) : concerns s' ev p ↔ concerns s ev p := by
  cases ev <;> simp only [concerns, deliveredTo, hreq, hresp]

theorem concerns_takeEvent (s : State) (ev : Event) (p : Nat) : concerns (takeEvent s) ev p ↔ concerns s ev p :=
  concerns_congr (takeEvent_requests s) (takeEvent_responses s) ev p

/-- The step of an access, on a memory with bytes replaced, concerns the PE of the access alone. -/
theorem eq_of_concerns_racerEvent {s : State} {p q : Nat} {r : Racer} {cells : List Host.Cell}
    (h : (racerAgent s p r).isSome = true)
    (hc : concerns (withBytes s p cells) (racerEvent (withBytes s p cells) p r) q) : q = p :=
  racer_concerns (by rwa [racerAgent_withBytes]) hc

/-- An agent's step leaves every PE that its event does not concern. -/
theorem Ran.pes_unconcerned {ev : Event} {s t : State} (h : Ran ev s t) {p : Nat} (hp : ¬ concerns s ev p) :
    t.pes[p]? = s.pes[p]? := by
  rcases h with ⟨hpes, _⟩ | ⟨q, _, _, hq, _, _, hpes, _⟩ <;> rw [hpes]
  have hne : q ≠ p := fun heq => hp (heq ▸ hq)
  exact List.getElem?_set_ne hne

/-- Every step leaves every PE that its event does not concern. -/
theorem step_pes_unconcerned {s t : State} (h : step s = .next t) {p : Nat} (hp : ¬ concerns s (nextEvent s) p) :
    t.pes[p]? = s.pes[p]? := by
  rcases step_cases h with hran | ⟨q, _, _, hev, rfl⟩ | ⟨q, _, _, _, _, u, hev, _, _, hagent, _, hran, rfl⟩
  · exact hran.pes_unconcerned hp
  · have hne : q ≠ p := fun heq => hp (.inl (by rw [hev, eventPe, heq]))
    rw [withBytes_other _ hne, takeEvent_pes]
  · have hne : q ≠ p := fun heq => hp (.inl (by rw [hev, eventPe, heq]))
    have hu := hran.pes_unconcerned fun hc => hne (eq_of_concerns_racerEvent hagent hc).symm
    rw [withBytes_other _ hne, hu, withBytes_other _ hne, takeEvent_pes]

/-! ### What a step of a PE emits (R510, R511) -/

/-- At most one pulse, report or answer, and of the PE `me`. -/
def AtMostOneOf (me : PeId) (outputs : List Output) : Prop :=
  outputs.length ≤ 1 ∧ ∀ o ∈ outputs, outputPe o = me

theorem AtMostOneOf.nil (me : PeId) : AtMostOneOf me [] := ⟨Nat.zero_le 1, nofun⟩

theorem AtMostOneOf.single {me : PeId} {o : Output} (h : outputPe o = me) : AtMostOneOf me [o] :=
  ⟨Nat.le_refl 1, List.forall_mem_singleton.2 h⟩

/-- A pulse that is emitted under a condition. -/
theorem AtMostOneOf.wakeup_if (b : Bool) (me : PeId) : AtMostOneOf me (if b then [.wakeup me] else []) := by
  cases b with
  | false => exact .nil me
  | true => exact .single rfl

theorem finishCommand_emits (me : PeId) (pe : Pe) : AtMostOneOf me (finishCommand me pe).outputs :=
  .wakeup_if (wakesOnFinish pe) me

theorem transferStep_emits {me : PeId} {pe : Pe} {e : Effect} (h : transferStep me pe = some e) :
    AtMostOneOf me e.outputs := by
  obtain ⟨_, _, _, _, h⟩ := transferStep_enabled h
  obtain ⟨_, _, rfl | ⟨_, rfl⟩ | ⟨_, _, _, rfl⟩ | ⟨_, _, _, rfl⟩⟩ := chunkStepA_cases h <;> exact .nil me

theorem cacheTranslateStep_emits {me : PeId} {id : OpId} {pe : Pe} {e : Effect} (h : cacheTranslateStep me id pe = some e) :
    AtMostOneOf me e.outputs := by
  obtain ⟨_, _, _, _, _, rfl | rfl | ⟨_, rfl⟩⟩ := cacheTranslateStep_cases h
  · exact .nil me
  · exact .single rfl
  · exact .nil me

/-- The engine reports NOT_YET from FLAGS. -/
theorem ctxFlags_emits (me : PeId) (c : Session) (pe : Pe) : AtMostOneOf me (ctxFlags me c pe).outputs := by
  rw [ctxFlags_eq]
  split_ifs
  · exact .nil me
  · exact .nil me
  · exact .nil me
  · exact .nil me
  · exact .single rfl

/-- The engine reports SWITCHED from RESTORE_DONE. -/
theorem ctxRestoreDone_emits {me : PeId} {c : Session} {pe : Pe} {e : Effect} (h : ctxRestoreDone me c pe = some e) :
    AtMostOneOf me e.outputs := by
  obtain ⟨_, _, rfl⟩ := Option.map_eq_some_iff.1 h
  exact .single rfl

/-- The engine reports only from FLAGS and from RESTORE_DONE (45_ctxswitch.md R386, R396). -/
theorem sessionStep_quiet {me : PeId} {c : Session} {pe : Pe} {e : Effect} (h : sessionStep me c pe = some e)
    (hflags : c.state ≠ .flags) (hdone : c.state ≠ .restoreDone) : e.outputs = [] := by
  unfold sessionStep at h
  cases hst : c.state with simp only [hst] at h
  | flags => exact absurd hst hflags
  | restoreDone => exact absurd hst hdone
  | check | saveDone =>
    obtain ⟨_, _, rfl⟩ := Option.map_eq_some_iff.1 h
    rfl
  | save | wait =>
    cases h
    rfl
  | saveWrite | restoreRead =>
    simp only [ctxSaveWrite, ctxRestoreRead] at h
    split at h
    · cases h
      rfl
    · obtain ⟨_, _, rfl⟩ := Option.map_eq_some_iff.1 h
      rfl
  | saveSend | restore | saveWait | restoreWait =>
    simp only [ctxSaveSend, ctxRestore, ctxSaveWait, ctxRestoreWait] at h
    split_ifs at h <;> cases h <;> rfl

theorem ctxSwitchStep_emits {me : PeId} {pe : Pe} {e : Effect} (h : ctxSwitchStep me pe = some e) :
    AtMostOneOf me e.outputs := by
  obtain ⟨c, _, _, h, _⟩ := ctxSwitchStep_cases h
  by_cases hflags : c.state = .flags
  · rw [sessionStep_flags hflags, Option.some.injEq] at h
    exact h ▸ ctxFlags_emits me c pe
  · by_cases hdone : c.state = .restoreDone
    · simp only [sessionStep, hdone] at h
      exact ctxRestoreDone_emits h
    · exact sessionStep_quiet h hflags hdone ▸ .nil me

theorem receiveMessage_emits (h : PacketHead) (payload : List Byte) (pe : Pe) :
    AtMostOneOf h.dstPe (receiveMessage h payload pe).outputs := by
  rcases receiveMessage_cases h payload pe with hr | ⟨granted, _, hr⟩ <;> rw [hr]
  · exact .nil _
  · rcases acceptMessage_cases h payload granted with ⟨_, _, ha⟩ | ⟨_, _, _, _, ha⟩ <;> rw [ha]
    · exact .nil _
    · exact .wakeup_if ..

theorem serveRead_outputs (h : PacketHead) (pe : Pe) : (serveRead h pe).outputs = [] := by
  unfold serveRead
  split <;> rfl

theorem serveWrite_outputs (h : PacketHead) (payload : List Byte) (pe : Pe) : (serveWrite h payload pe).outputs = [] := by
  rcases serveWrite_cases h payload pe with hw | ⟨_, _, hw⟩ <;> rw [hw]

theorem serveCache_outputs (h : PacketHead) (payload : List Byte) (pe : Pe) : (serveCache h payload pe).outputs = [] := by
  cases hw : h.write with
  | true => rw [serveCache_write hw, serveWrite_outputs]
  | false => rw [serveCache_read hw, serveRead_outputs]

/-- Of the packets only a MESSAGE wakes the core of its destination. -/
theorem packetEffect_emits {i : Instr} {h : PacketHead} (hi : instrHead i = some h) (pe : Pe) :
    AtMostOneOf h.dstPe (packetEffect i pe).outputs := by
  cases i with
  | message _ payload => cases hi; exact receiveMessage_emits h payload pe
  | readReq => cases hi; exact serveRead_outputs h pe ▸ .nil _
  | writeReq _ payload => cases hi; exact serveWrite_outputs h payload pe ▸ .nil _
  | cacheMemReq _ payload | cacheMemReqFunc _ payload => cases hi; exact serveCache_outputs h payload pe ▸ .nil _
  | reservedPkt5 | reservedPkt6 | reservedPkt7 => cases hi; exact .nil _
  | _ => cases hi

theorem cacheResponse_emits (me : PeId) (bytes : List Byte) (pe : Pe) : AtMostOneOf me (cacheResponse me bytes pe).outputs := by
  unfold cacheResponse
  simp only []
  split
  · exact .single rfl
  · exact .nil me

theorem takeDelivered_emits (me : PeId) (bytes : List Byte) (pe : Pe) : AtMostOneOf me (takeDelivered me bytes pe).outputs := by
  unfold takeDelivered
  split
  · exact .nil me
  · exact cacheResponse_emits me bytes pe
  · exact .nil me

/-! ### What a step of the system emits -/

/-- From `s` to `t` at most one pulse, report or answer is emitted, of a PE that the event concerns. -/
def Emitted (ev : Event) (s t : State) : Prop :=
  ∃ outputs, t.outputs = s.outputs ++ outputs ∧ outputs.length ≤ 1 ∧
    ∀ o ∈ outputs, ∃ p, concerns s ev p ∧ outputPe o = peId p

theorem Emitted.none {ev : Event} {s t : State} (h : t.outputs = s.outputs) : Emitted ev s t :=
  ⟨[], by rw [h, List.append_nil], Nat.zero_le 1, nofun⟩

/-- The step of a PE that the event concerns, taken from a state `s0` in which nothing more is emitted than in `s`. -/
theorem Emitted.commit {ev : Event} {s s0 : State} {p : Nat} {e : Effect} (h0 : s0.outputs = s.outputs)
    (hp : concerns s ev p) (he : AtMostOneOf (peId p) e.outputs) : Emitted ev s (commit s0 p e) := by
  obtain ⟨hone, hof⟩ := he
  exact ⟨e.outputs, by rw [commit_outputs, h0], hone, fun o ho => ⟨p, hp, hof o ho⟩⟩

/-- A step of a PE that may be not enabled. -/
theorem Emitted.stepPe {ev : Event} {s s0 : State} {p : Nat} {f : PeId → Pe → Option Effect} (h0 : s0.outputs = s.outputs)
    (hp : concerns s ev p) (hf : ∀ pe e, f (peId p) pe = some e → AtMostOneOf (peId p) e.outputs) :
    Emitted ev s (stepPe s0 p f) := by
  rcases stepPe_cases s0 p f with h | ⟨pe, e, _, he, h⟩ <;> rw [h]
  · exact .none h0
  · exact .commit h0 hp (hf pe e he)

/-- A command instruction is its execute step on the active PE. -/
theorem exec_command_onActive (op : BitVec 3) (ep : EpId) (s : State) : ∃ f, exec (commandOf op ep) s = onActive s f := by
  unfold commandOf
  split
  · exact ⟨fun _ pe => writeCommand (commandWord 0#3 ep errNone) pe, rfl⟩
  · exact ⟨sendExecute ep, rfl⟩
  · exact ⟨replyExecute ep, rfl⟩
  · exact ⟨fun _ pe => memoryExecute .localWrite epPermR ep pe, rfl⟩
  · exact ⟨fun _ pe => memoryExecute .localRead epPermW ep pe, rfl⟩
  · exact ⟨fun _ pe => incReadPtrExecute ep pe, rfl⟩
  · exact ⟨fun _ pe => completeCommand pe, rfl⟩
  · exact ⟨fun _ pe => failCommand errUnknownCmd pe, rfl⟩

/-- The execute step of a command emits nothing (40_command_engine.md R208). -/
theorem exec_command_outputs {w : Word} {s t : State} (h : exec (decodeCommand w) s = .next t) : t.outputs = s.outputs := by
  obtain ⟨f, hf⟩ := exec_command_onActive (opcodeOf w) (epIdOf w) s
  rw [decodeCommand, hf] at h
  obtain ⟨_, _, rfl⟩ := onActive_next h
  rw [commit_outputs, List.append_nil]

theorem stepEngine_emitted {p : Nat} {s t : State} (h : stepEngine s p = .next t) : Emitted (.engine p) s t := by
  unfold stepEngine at h
  split at h
  · cases h; exact .none rfl
  · rename_i pe _
    split at h
    · exact .none (exec_command_outputs (s := { s with active := p }) h)
    · cases h; exact .commit rfl (.inl rfl) (finishCommand_emits _ pe)
    · cases h; exact .none rfl
    · cases h; exact .none rfl

theorem stepDeliverRequest_emitted {k : Nat} {s t : State} (h : stepDeliverRequest s k = .next t) :
    Emitted (.deliverRequest k) s t := by
  unfold stepDeliverRequest at h
  split at h
  · cases h; exact .none rfl
  · rename_i bytes hbytes
    split at h
    · rename_i i hdecode
      have hi := decodePacket_head hdecode
      rw [exec_eq_serveAt hi] at h
      rcases serveAt_next h with ⟨pe, _, rfl⟩ | ⟨_, rfl⟩
      · refine .commit rfl (.inr ?_) (by rw [peId_toNat]; exact packetEffect_emits hi pe)
        rw [deliveredTo, hbytes, Option.map_some]
      · exact .none rfl
    · cases h

theorem stepDeliverResponse_emitted {k : Nat} {s t : State} (h : stepDeliverResponse s k = .next t) :
    Emitted (.deliverResponse k) s t := by
  unfold stepDeliverResponse at h
  split at h
  · cases h; exact .none rfl
  · rename_i r hr
    split at h
    · cases h
    · cases h
      refine .stepPe rfl (.inr ?_) fun pe e he => ?_
      · rw [deliveredTo, hr, Option.map_some]
      · cases he
        exact takeDelivered_emits _ r.bytes pe

theorem stepClientWrite_emitted {p : Nat} {addr : Word} {width : Nat} {v : Word} {priv : Bool} {s t : State}
    (h : stepClientWrite s p addr width v priv = .next t) : Emitted (.clientWrite p addr width v priv) s t := by
  unfold stepClientWrite at h
  split at h
  · cases h; exact .none rfl
  · split at h
    · split at h
      · exact .none (exec_command_outputs (s := { s with active := p }) h)
      · cases h; exact .commit rfl (.inl rfl) (.nil _)
    · cases h
    · cases h

theorem stepClientRead_emitted {p : Nat} {addr : Word} {width : Nat} {s t : State}
    (h : stepClientRead s p addr width = .next t) : Emitted (.clientRead p addr width) s t := by
  unfold stepClientRead at h
  split at h
  · cases h; exact .none rfl
  · split at h
    · cases h; exact .commit rfl (.inl rfl) (.single rfl)
    · cases h
    · cases h

theorem stepCacheRequest_emitted {p : Nat} {id : OpId} {req : CacheRequest} {s t : State}
    (h : stepCacheRequest s p id req = .next t) : Emitted (.cacheRequest p id req) s t := by
  unfold stepCacheRequest at h
  split at h
  · cases h; exact .none rfl
  · split at h
    · cases h; exact .commit rfl (.inl rfl) (.nil _)
    · cases h

theorem accelExtraEffect_outputs {off : Nat} {bytes : List Byte} {pe : Pe} {e : Effect}
    (h : accelExtraEffect off bytes pe = some e) : e.outputs = [] := by
  unfold accelExtraEffect at h
  split at h
  · split at h
    · obtain ⟨_, _, rfl⟩ := Option.map_eq_some_iff.1 h
      rfl
    · cases h
  · cases h

/-- The step of an event that is no race. -/
theorem runEvent_emitted {ev : Event} {l : List OpenAccess} {s t : State} (hev : isRace ev = false)
    (h : runEvent ev l s = .next t) : Emitted ev s t := by
  have atPe {p : Nat} {f : PeId → Pe → Option Effect} (hp : eventPe ev = some p)
      (hf : ∀ pe e, f (peId p) pe = some e → AtMostOneOf (peId p) e.outputs)
      (ht : .next (stepPe s p f) = (Host.Outcome.next t : Host.Outcome State Fault Refusal)) : Emitted ev s t := by
    cases ht
    exact .stepPe rfl (.inl hp) hf
  cases ev with
  | race | accessPart => cases hev
  | engine p => exact stepEngine_emitted h
  | deliverRequest k => exact stepDeliverRequest_emitted h
  | deliverResponse k => exact stepDeliverResponse_emitted h
  | clientWrite => exact stepClientWrite_emitted h
  | clientRead => exact stepClientRead_emitted h
  | cacheRequest => exact stepCacheRequest_emitted h
  | transfer p => exact atPe rfl (fun _ _ he => transferStep_emits he) h
  | ctxSwitch p => exact atPe rfl (fun _ _ he => ctxSwitchStep_emits he) h
  | cacheTranslate p id => exact atPe rfl (fun _ _ he => cacheTranslateStep_emits he) h
  | accelExtra p off bytes =>
    refine atPe rfl (fun _ _ he => ?_) h
    exact accelExtraEffect_outputs he ▸ .nil _
  | coreStore | schedulerWrite | walkAnswer =>
    refine atPe rfl (fun _ _ he => ?_) h
    obtain ⟨_, _, rfl⟩ := Option.map_eq_some_iff.1 he
    exact .nil _
  | accelContext p off bytes =>
    refine atPe rfl (fun _ _ he => ?_) h
    obtain ⟨_, _, _, rfl⟩ := accelContextEffect_eq_some he
    exact .nil _
  | setCoreWaiting | accelStateSize =>
    refine atPe rfl (fun _ _ he => ?_) h
    cases he
    exact .nil _

/-- The step of an access that overlaps others emits what its own step does. -/
theorem stepRace_emitted {p : Nat} {r : Racer} {order : List (Nat × Nat)} {l : List OpenAccess} {s t : State}
    (h : stepRace p r order l s = .next t) : Emitted (.race p r order) s t := by
  rcases stepRace_cases h with rfl | ⟨u, hagent, hrun, rfl⟩
  · exact .none rfl
  · obtain ⟨outputs, hout, hone, hof⟩ := runEvent_emitted (racerEvent_not_race _ p r) (runRacer_eq p r [] _ ▸ hrun)
    refine ⟨outputs, by rw [withBytes_outputs, hout, withBytes_outputs], hone, fun o ho => ?_⟩
    obtain ⟨q, hq, hpe⟩ := hof o ho
    exact ⟨p, .inl rfl, eq_of_concerns_racerEvent hagent hq ▸ hpe⟩

/-- Every step of the system emits at most one pulse, report or answer, of a PE that its event concerns. -/
theorem step_emitted {s t : State} (h : step s = .next t) : Emitted (nextEvent s) (takeEvent s) t := by
  unfold step at h
  cases hev : nextEvent s with rw [hev] at h
  | race p r order => exact stepRace_emitted h
  | accessPart p r bytes =>
    cases h
    exact .none (withBytes_outputs ..)
  | _ => exact runEvent_emitted rfl h

/-! ### The receive error record and the result of a command (R507) -/

/-- The receive error record of STATUS is as before: RECV_ERR_VALID, RECV_ERR and RECV_ERR_EP (10_state.md R33). -/
def ReceiveErrorKept (pe pe' : Pe) : Prop :=
  ∀ k, k = 2 ∨ (8 ≤ k ∧ k < 24) → pe'.status.getLsbD k = pe.status.getLsbD k

/-- COMMAND and the result of the command are as before. -/
def ResultKept (pe pe' : Pe) : Prop := pe'.command = pe.command ∧ pe'.result = pe.result

theorem ReceiveErrorKept.of_status {pe pe' : Pe} (h : pe'.status = pe.status) : ReceiveErrorKept pe pe' :=
  fun k _ => by rw [h]

theorem ReceiveErrorKept.trans {pe pe' pe'' : Pe} (h : ReceiveErrorKept pe pe') (h' : ReceiveErrorKept pe' pe'') :
    ReceiveErrorKept pe pe'' :=
  fun k hk => (h' k hk).trans (h k hk)

/-- BUSY and REJECTED are no part of the receive error record. -/
theorem ReceiveErrorKept.of_putBit {pe pe' : Pe} {i : Nat} {b : Bool} (hi : i < 2) (h : pe'.status = putBit pe.status i b) :
    ReceiveErrorKept pe pe' := by
  intro k hk
  rw [h, getLsbD_putBit _ _ _ _ (by omega), if_neg (by omega)]

theorem ReceiveErrorKept.writeCommand (v : Word) (pe : Pe) : ReceiveErrorKept pe (writeCommand v pe) := by
  unfold Machine.writeCommand
  split
  · exact .of_putBit (by omega) (setRejected_status pe)
  · simp only []
    split
    · exact .of_status rfl
    · exact .of_putBit (by omega) (startCommand_status _)

theorem ReceiveErrorKept.writeArgument {pe stored : Pe} (h : stored.status = pe.status) :
    ReceiveErrorKept pe (writeArgument pe stored) := by
  unfold Machine.writeArgument
  split
  · exact .of_putBit (by omega) (setRejected_status pe)
  · exact .of_status h

/-- A client clears the record only by a write of STATUS (10_state.md R34). -/
theorem ReceiveErrorKept.regWrite {i : Nat} (hi : i ≠ 0) (v : Word) (priv : Bool) (pe : Pe) :
    ReceiveErrorKept pe (regWrite i v priv pe) := by
  match i with
  | 0 => exact absurd rfl hi
  | 1 => exact .writeCommand v pe
  | 2 | 3 | 4 | 5 | 6 => exact .writeArgument rfl
  | 7 => exact .of_status rfl
  | k + 8 =>
    cases priv with
    | false => exact .of_status rfl
    | true =>
      rw [regWrite_endpoint_privileged]
      exact .of_status rfl

theorem ReceiveErrorKept.issueCommand (op : BitVec 3) (off : Word) (n : Nat) (pe : Pe) :
    ReceiveErrorKept pe (issueCommand op off n pe) :=
  (ReceiveErrorKept.regWrite (by decide : 2 ≠ 0) _ false pe).trans <|
    (ReceiveErrorKept.regWrite (by decide : 3 ≠ 0) _ false _).trans <|
      (ReceiveErrorKept.regWrite (by decide : 4 ≠ 0) _ false _).trans <|
        ReceiveErrorKept.regWrite (by decide : 1 ≠ 0) _ false _

theorem ReceiveErrorKept.ctxSwitchStep {me : PeId} {pe : Pe} {e : Effect} (h : ctxSwitchStep me pe = some e) :
    ReceiveErrorKept pe e.pe := by
  obtain ⟨_, _, _, _, _, _, hpe⟩ := ctxSwitchStep_cases h
  rcases hpe with hpe | ⟨_, _, _, _, hpe⟩ | ⟨_, _, hpe⟩ | ⟨op, off, n, hpe⟩ <;> rw [hpe]
  · exact .of_status rfl
  · exact .of_status rfl
  · exact .of_status rfl
  · exact .issueCommand op off n pe

theorem ReceiveErrorKept.chunkResponse (bytes : List Byte) (pe : Pe) : ReceiveErrorKept pe (chunkResponse bytes pe) := by
  rcases chunkResponse_cases bytes pe with hc | ⟨x, _, _, _, _, ⟨_, hc⟩ | ⟨_, hc, _⟩⟩ <;> rw [hc]
  · exact .of_status rfl
  · exact .of_status rfl
  · unfold advanceChunk
    simp only []
    split <;> exact .of_status rfl

/-- What serving a packet can change does not hold the command's result. -/
theorem ServedFrom.resultKept {pe pe' : Pe} (h : ServedFrom pe pe') : ResultKept pe pe' := by
  obtain ⟨_, _, _, rfl, _⟩ := h
  exact ⟨rfl, rfl⟩

/-- No step of a PE changes both: the record changes by the receipt of a MESSAGE, which leaves the Command Engine, and by a
client's write of STATUS. -/
theorem PeStep.not_both_errors {ev : Event} {me : PeId} {pe : Pe} {e : Effect} (h : PeStep ev me pe e) :
    ReceiveErrorKept pe e.pe ∨ ResultKept pe e.pe := by
  cases h with
  | receive _ _ hd payload => exact .inr (Answered.receiveMessage hd payload pe).served.resultKept
  | write i v =>
    by_cases hi : i = 0
    · subst hi
      exact .inr ⟨rfl, rfl⟩
    · exact .inl (.regWrite hi v _ pe)
  | finish => exact .inl (.of_putBit (by omega) rfl)
  | ctxSwitch _ _ _ hc => exact .inl (.ctxSwitchStep hc)
  | chunkResponse bytes => exact .inl (.chunkResponse bytes pe)
  | same _ hpe => exact .inl (.of_status (by rw [hpe]))
  | send _ _ ep =>
    rcases sendExecute_cases ep me pe with ⟨_, hx⟩ | ⟨_, _, _, hx⟩ <;> rw [hx] <;> exact .inl (.of_status rfl)
  | reply ep =>
    rcases replyExecute_cases ep me pe with ⟨_, hx⟩ | ⟨_, _, _, _, _, _, hx⟩ <;> rw [hx] <;> exact .inl (.of_status rfl)
  | memory ty pm ep =>
    rcases memoryExecute_cases ty pm ep pe with ⟨_, hx⟩ | ⟨_, _, _, hx | ⟨_, hx⟩⟩ <;> rw [hx] <;>
      exact .inl (.of_status rfl)
  | incReadPtr ep =>
    rcases incReadPtrExecute_cases ep pe with ⟨_, hx⟩ | ⟨_, _, hx⟩ <;> rw [hx] <;> exact .inl (.of_status rfl)
  | wakeupCore | reserved7 | coreWaiting | accelStateSize => exact .inl (.of_status rfl)
  | transfer _ ht =>
    obtain ⟨_, _, _, _, ht⟩ := transferStep_enabled ht
    obtain ⟨_, ⟨_, _, _, rfl⟩, rfl | ⟨_, rfl⟩ | ⟨_, _, _, rfl⟩ | ⟨_, _, _, rfl⟩⟩ := chunkStepA_cases ht <;>
      exact .inl (.of_status rfl)
  | serveWrite hd payload =>
    rcases serveWrite_cases hd payload pe with hx | ⟨_, _, hx⟩ <;> rw [hx] <;> exact .inl (.of_status rfl)
  | cacheResponse bytes =>
    obtain ⟨_, hx⟩ := cacheResponse_frame me bytes pe
    rw [hx]
    exact .inl (.of_status rfl)
  | store _ _ _ hw =>
    obtain ⟨_, rfl⟩ := memWrite_eq_some.1 hw
    exact .inl (.of_status rfl)
  | accelContext _ _ _ ha =>
    obtain ⟨_, _, _, rfl⟩ := accelContextEffect_eq_some ha
    exact .inl (.of_status rfl)
  | cacheRequest _ _ _ ha =>
    obtain ⟨_, rfl⟩ := acceptCacheRequest_frame ha
    exact .inl (.of_status rfl)
  | cacheTranslate _ _ ht =>
    obtain ⟨_, _, _, _, ⟨_, _, _, rfl⟩, rfl | rfl | ⟨_, rfl⟩⟩ := cacheTranslateStep_cases ht <;>
      exact .inl (.of_status rfl)
  | walkAnswer _ _ _ ha =>
    obtain ⟨_, _, _, _, rfl⟩ := walkAnswered_frame ha
    exact .inl (.of_status rfl)

/-- No step of the system changes both, of one PE: the accesses that overlap others replace beside their own steps only bytes
of local memory. -/
theorem step_not_both_errors {s t : State} (h : step s = .next t) {p : Nat} {pe pe' : Pe} (hp : s.pes[p]? = some pe)
    (hp' : t.pes[p]? = some pe') : ReceiveErrorKept pe pe' ∨ ResultKept pe pe' := by
  obtain ⟨_, _, _, _, _, hstep, ht⟩ := step_pe h hp
  rw [ht] at hp'
  cases hp'
  exact hstep.not_both_errors

end Sys2Proof.Machine
end

section
/-! PROOFS. The statement about exceptions and wakeups (60_exceptions.md): a step is one agent's. -/

namespace Sys2Proof.Machine

/-- Settles O56: a step is passed over or is one step of one PE, beside which an overlapping access replaces only bytes of the
memory of that PE. -/
theorem stepsAreLocal : Obligations.StepsAreLocal := by
  intro s t h
  obtain ⟨outputs, hout, hone, hof⟩ := step_emitted h
  rw [takeEvent_outputs, List.nil_append] at hout
  subst hout
  refine ⟨fun p hp => step_pes_unconcerned h hp, hone, fun o ho => ?_, fun p pe pe' k hp hp' hk hchanged => ?_⟩
  · obtain ⟨p, hp, hpe⟩ := hof o ho
    exact ⟨p, (concerns_takeEvent ..).1 hp, hpe⟩
  · exact (step_not_both_errors h hp hp').resolve_left fun hkept => hchanged (hkept k hk)

end Sys2Proof.Machine
end

section
/-! SUPPORT. The system right after reset (70_reset_and_hazards.md R600, 10_state.md R76): one lemma for each invariant of a
PE, which says what of the launch it needs, and the ids of the PEs (00_scope.md R7). -/

namespace Sys2Proof.Machine

/-! ### Every PE -/

theorem everyPe_launch {P : Pe → Prop} {ls : List Launch} {active : Nat} :
    everyPe P (State.launch ls active) ↔ ∀ l ∈ ls, P (Pe.reset l) := List.forall_mem_map

/-- A PE has a session, in its reset state, only where it has a context-switch engine (60_exceptions.md R526). -/
theorem Pe.reset_session_eq_some {l : Launch} {c : Session} (h : (Pe.reset l).session = some c) :
    c = Session.reset l.cfg.ctxSize := by
  simp only [Pe.reset] at h
  split at h
  · exact (Option.some.inj h).symm
  · cases h

/-- The Command Engine rests: not BUSY, IDLE in COMMAND, no transfer. -/
theorem engineOk_reset (l : Launch) : engineOk (Pe.reset l) := by
  have hbusy : statusBusy 0 = false := by decide
  have hopcode : opcodeOf 0#64 = 0#3 := by decide
  rw [engineOk_iff]
  refine ⟨?_, hbusy, ?_, ?_, nofun⟩ <;> simp [engineView, Pe.reset, hopcode]

theorem reservedBitsOk_reset (l : Launch) : reservedBitsOk (Pe.reset l) :=
  ⟨fun _ _ => BitVec.getLsbD_zero, fun _ _ => BitVec.getLsbD_zero⟩

/-- Memory and the context buffer hold what the launch gives them (70_reset_and_hazards.md R601). -/
theorem memoryOk_reset {l : Launch} (h : l.ok) : memoryOk (Pe.reset l) := by
  obtain ⟨_, _, hmem, hmemSize, hctx, hctxSize⟩ := h
  refine ⟨hmem, hmemSize, hctx, fun c hc => ?_⟩
  rw [Pe.reset_session_eq_some hc]
  exact hctxSize

/-- `BUF_CHUNK_SIZE` and `MAX_NOC_PACKET_SIZE` are both at least 1 (00_scope.md R7). -/
theorem chunkLimit_pos_of_wellFormed {c : PeConfig} {numEp : Nat} (h : c.wellFormed numEp = true) :
    1 ≤ c.chunkLimit := by
  simp only [PeConfig.wellFormed, Bool.and_eq_true, decide_eq_true_eq] at h
  simp only [PeConfig.chunkLimit]
  omega

theorem transferOk_reset {l : Launch} (h : l.ok) : transferOk (Pe.reset l) := by
  obtain ⟨hwf, hlimit, _⟩ := h
  exact ⟨chunkLimit_pos_of_wellFormed hwf, hlimit, nofun⟩

theorem translationOk_reset (l : Launch) : translationOk (Pe.reset l) :=
  ⟨Nat.zero_le _, Nat.zero_le _, List.nodup_nil, List.nodup_nil, nofun, fun _ => ⟨rfl, rfl, rfl⟩⟩

/-- The session stands in CHECK with `byteOffset` at 0 (45_ctxswitch.md R380). -/
theorem sessionOk_reset (l : Launch) : sessionOk (Pe.reset l) := by
  rw [sessionOk_iff]
  intro c hc
  rw [Pe.reset_session_eq_some hc]
  exact .restart rfl rfl nofun

/-! ### The transport and the ids of the PEs -/

theorem cacheDataOk_reset (l : Launch) : cacheDataOk (Pe.reset l) := nofun

/-- Nothing is in flight, and no cache request is outstanding. -/
theorem transportOk_launch (ls : List Launch) (active : Nat) : transportOk (State.launch ls active) :=
  (transportOk_iff _).2 ⟨⟨nofun, nofun⟩, everyPe_launch.2 fun l _ => cacheDataOk_reset l⟩

theorem peIdsOk_launch {ls : List Launch} (h : numPeWellFormed ls.length = true) (active : Nat) :
    peIdsOk (State.launch ls active) := by
  simpa [peIdsOk, State.launch] using h

theorem peId_injective_of_lt {p q : Nat} (hp : p < 65536) (hq : q < 65536) (h : peId p = peId q) : p = q := by
  have hmod : p % 65536 = q % 65536 := by simpa [peId] using congrArg BitVec.toNat h
  rwa [Nat.mod_eq_of_lt hp, Nat.mod_eq_of_lt hq] at hmod

/-- 16 bits tell apart as many PEs as R7 allows (10_state.md R78). -/
theorem peIdsOk.peId_injective {s : State} (h : peIdsOk s) {p q : Nat} (hp : p < s.pes.length) (hq : q < s.pes.length)
    (hpq : peId p = peId q) : p = q := by
  simp only [peIdsOk, numPeWellFormed, decide_eq_true_eq] at h
  exact peId_injective_of_lt (by omega) (by omega) hpq

/-! ### The system REF (92_eei_decisions.md D53) -/

theorem Launch.ref_ok : Launch.ref.ok := by
  unfold Launch.ok
  decide

/-- What R7 constrains does not tell REF's accelerator PE from its other PEs. -/
theorem Launch.refAccelerator_ok : Launch.refAccelerator.ok := Launch.ref_ok

theorem Launch.ref_systemOk : Launch.systemOk [Launch.ref, Launch.ref, Launch.refAccelerator] := by
  refine ⟨by decide, ?_⟩
  simp [Launch.ref_ok, Launch.refAccelerator_ok]

end Sys2Proof.Machine
end

section
/-! PROOFS. The statement about reset (70_reset_and_hazards.md). -/

namespace Sys2Proof.Machine

/-- Settles O47: each invariant of a PE holds of the reset PE of every launch, and REF's launches are within the constraints. -/
theorem resetMeetsTheInvariants : Obligations.ResetMeetsTheInvariants := by
  refine ⟨fun ls active ⟨hnum, hok⟩ => ?_, _, _, Launch.ref_systemOk, rfl⟩
  have hids : peIdsOk (State.launch ls active) := peIdsOk_launch hnum active
  exact ⟨everyPe_launch.2 fun l _ => engineOk_reset l, everyPe_launch.2 fun l _ => reservedBitsOk_reset l,
    everyPe_launch.2 fun l hl => memoryOk_reset (hok l hl), everyPe_launch.2 fun l hl => transferOk_reset (hok l hl),
    everyPe_launch.2 fun l _ => translationOk_reset l, everyPe_launch.2 fun l _ => sessionOk_reset l,
    transportOk_launch ls active, hids, fun _ _ => hids.peId_injective, rfl, rfl⟩

end Sys2Proof.Machine
end
